-- ==== Sys2Proof/Word.lean ====
section
/-! DEFINITION. The units of the lines: bytes, and the sets of members that the pages and tables code as bits
(spec/11_lines_frames_and_management_access.md, R187: "A set is sent as bits, bit 0 first member"). -/

namespace Sys2Proof

/-- One byte of a frame or page. -/
abbrev Byte := BitVec 8

/-- A set of bands: bit 0 B1 to bit 3 B4. -/
abbrev BandMask := BitVec 4

/-- A set of polarizations: bit 0 H, bit 1 V. -/
abbrev PolMask := BitVec 2

/-- A set of report periods: bit 0 100 ms, bit 1 200 ms, bit 2 500 ms. -/
abbrev PeriodMask := BitVec 3

/-- The keep-on mask: bits 0 to 4 for LIFT, LOCK, PAN, TILT, POL (R182). -/
abbrev ChannelMask := BitVec 5

end Sys2Proof
end

