-- ==== Sys2Proof/Config.lean ====
section
/-! DEFINITION. What is fixed for the part: the capacities and times the rules give, and the free values, which the
spec leaves open. A free value has no body: nothing can be proved about it but what its type says. -/

namespace Sys2Proof

/-! ## Capacities and times the rules give -/

/-- R179: the upstream send queue holds up to 64 frames. -/
abbrev Config.queuePlaces : Nat := 64
/-- R179: a NOTICE is placed only while the queue holds fewer than 63. -/
abbrev Config.noticePlaces : Nat := 63
/-- R179: a forwarded frame is placed only while the queue holds fewer than 24. -/
abbrev Config.forwardPlaces : Nat := 24
/-- R162: the Resume Stack holds at most 3 contexts. -/
abbrev Config.stackPlaces : Nat := 3
/-- R132: the Report Window holds at most 8 records. -/
abbrev Config.windowPlaces : Nat := 8
/-- R19: the silence watch of an axis, ms. -/
abbrev Config.silenceMs : Nat := 1000
/-- R91: the silence watch of nodes 5 and 6, ms. -/
abbrev Config.sensorSilenceMs : Nat := 2000
/-- R119: the offer timer, ms. -/
abbrev Config.offerMs : Nat := 500
/-- R123: the echo timer, ms. -/
abbrev Config.echoMs : Nat := 2000
/-- R131: the quiet time, ms. -/
abbrev Config.quietMs : Nat := 2000
/-- R142: the link wait timer, ms. -/
abbrev Config.linkWaitMs : Nat := 10000
/-- Table 11-3: the part code of table 0. -/
abbrev Config.partCode : Nat := 4600
/-- Table 11-3: the revision of table 0. -/
abbrev Config.revision : Nat := 1

/-! ## Free values -/

/-- FREE VALUE (log 9, safe): the number a READ of the agreed choice returns while one is present. R182 codes
enumerations and sets; it does not say how band, pol and period make one number. -/
opaque Config.agreedChoiceRead : (band pol period : Nat) → BitVec 32

/-- FREE VALUE (log 9, safe): the number a READ of the sent choice returns while one is present. -/
opaque Config.sentChoiceRead : (band pol period toggle : Nat) → BitVec 32

/-- FREE VALUE (log 9, safe): the number a READ of the last site ability returns while one is present. -/
opaque Config.siteAbilityRead : (bands pols periods ack : Nat) → BitVec 32

/-- FREE VALUE (log 10, safe): the report count after one more report at 255. Table 8-2 gives the range 0 to 255 and
R155 adds 1 for each report; with a re-trim interval of 0 the count goes on, and the spec does not say to what. The argument
is how many such values have been drawn before. -/
opaque Config.reportCountPast255 : (drawn : Nat) → BitVec 8

end Sys2Proof
end

