-- ==== Sys2Proof/Syntax.lean ====
section
/-! DEFINITION. The commands the part takes: one constructor of `Instr` for each row of spec/opcode_table.json.
A frame's command carries the frame's named fields (Table 11-8). Where a frame's payload does not carry the fields of
its kind, the fields are absent (`none`): R41 says what then happens. -/

namespace Sys2Proof

/-- Table 1-1: the four axes, nodes 1 to 4. -/
inductive Axis | mast | pan | tilt | pol
deriving DecidableEq, Repr

/-- Table 0-1: the three serial ports. -/
inductive Port | upstream | drive | site
deriving DecidableEq, Repr

/-- Directions of a jog and of an extent query: UP toward larger values (R33, Table 3-1). -/
inductive Dir | up | down
deriving DecidableEq, Repr

/-- The two targets of an axis record (R7). -/
inductive Sel | work | alt
deriving DecidableEq, Repr

/-- Priority field of console frames (Table 3-1). -/
inductive Priority | normal | override
deriving DecidableEq, Repr

/-- Fields of a console MOVE (Table 11-8). -/
structure MoveFields where
  target   : Int
  priority : Priority
  rate     : Option Nat
deriving DecidableEq, Repr

/-- Fields of a console JOG (Table 11-8). -/
structure JogFields where
  dir      : Dir
  priority : Priority
  rate     : Nat
deriving DecidableEq, Repr

/-- Fields of a console SELECT (Table 11-8). -/
structure SelectFields where
  sel      : Sel
  priority : Priority
deriving DecidableEq, Repr

/-- Bands of a choice (Table 11-8: 1 to 4). -/
inductive Band | b1 | b2 | b3 | b4
deriving DecidableEq, Repr

/-- Polarizations of a choice (Table 11-8: 0 H, 1 V). -/
inductive Pol | h | v
deriving DecidableEq, Repr

/-- Report periods of a choice (Table 11-8: 0 to 2). -/
inductive Period | p100 | p200 | p500
deriving DecidableEq, Repr

/-- Band, pol and period of a CHOICE page and of its echo (Table 7-1). -/
structure Choice where
  band   : Band
  pol    : Pol
  period : Period
deriving DecidableEq, Repr

/-- Pages the site does not send (R116). -/
inductive NoEffectPage | choice | leave
deriving DecidableEq, Repr

/-- R186: what makes a power-on reset. -/
inductive ResetCause
  /-- Power has come up, RST not asserted. -/
  | powerUp
  /-- The RST input is asserted; the part stays in reset until RST_RELEASE. -/
  | rstAsserted
deriving DecidableEq, Repr

/-- The three wind settings (Table 5-4). -/
inductive WindSetting | warnThreshold | holdThreshold | stowWind
deriving DecidableEq, Repr

/-- The commands, in the order of spec/opcode_table.json. -/
inductive Instr
  | powerOnReset (cause : ResetCause)
  | parkInRelease
  | parkInAssert
  | stowInAssert
  | stowInRelease
  | frameDiscarded (port : Port)
  | consoleMove (axis : Axis) (fields : Option MoveFields)
  | consoleJog (axis : Axis) (fields : Option JogFields)
  | consoleStop (axis : Axis) (priority : Option Priority)
  | consoleSelect (axis : Axis) (fields : Option SelectFields)
  | consoleChannel (axis : Axis)
  | consoleOtherKind (axis : Axis) (kind : Nat)
  | accessoryFrame (node kind : Nat) (payload : List Byte)
  | position (axis : Axis) (pos : Int) (moving fault : Bool) (code : Nat)
  | wind (speed : Int)
  | slope (roll pitch : Int)
  | driveFrameForward (node kind : Nat) (payload : List Byte)
  | ability (bands : BandMask) (pols : PolMask) (periods : PeriodMask) (ack : Bool)
  | choiceEcho (choice : Choice) (toggle : Bool)
  | ident (code : Nat)
  | report (seq : Nat) (level : Int) (valid : Bool)
  | inboundNoEffectPage (page : NoEffectPage)
  | malformedPage
  | read (table row field : Nat)
  | readSiteUp
  | readNotice (cls : Nat)
  | write (table row field : Nat) (value : Int)
  | writeZone (row field : Nat) (value : Int)
  | writeDerateRow (row field : Nat) (value : Int)
  | writeVanAbilityWord (value : Int)
  | writeEntrySetting (row field : Nat) (value : Int)
  | writeEntryState (row : Nat) (value : Int)
  | writeWindSetting (which : WindSetting) (value : Int)
  | unknownRequest (kind : Nat)
  | deploy (height : Option Int)
  | stow
  | park
  | wake
  | clearHold
  | acquire (row : Nat)
  | release
  | resume
  | dropResume
  | renegotiate
  | txOn
  | txOff
  | lineRestart
  | reset
  | rateChange
  | upstreamFrameSent
  | arrivalTimeout (axis : Axis)
  | silenceWatchExpiry (axis : Axis)
  | deadmanExpiry (axis : Axis)
  | slotTimerExpiry
  | windSilenceExpiry
  | slopeSilenceExpiry
  | offerTimerExpiry
  | echoTimerExpiry
  | reportSilenceExpiry
  | quietTimeExpiry
  | settleTimerExpiry
  | linkWaitExpiry
  | gapTimerExpiry
  | rstRelease
deriving DecidableEq, Repr

end Sys2Proof
end

