-- ==== Sys2Proof/Decode.lean ====
section
/-! DEFINITION. The command a word of spec/opcode_table.json spells. The table gives no row any bits: its rows are frames,
pages, line changes and events, whose layouts are in Sys2Proof/Machine/Frames.lean. -/

namespace Sys2Proof

/-- No row of the table gives bits, so no word spells a command. -/
def decodeTableWord (_nbits _w : Nat) : Option Instr := none

end Sys2Proof
end

