-- ==== Sys2Proof/Machine/State.lean ====
section
/-! DEFINITION. The state of the part: one structure for each block of Table 0-3 (spec/00_scope.md), plain data.
Positions, rates, levels and times are whole numbers in the units of Table 0-4; sets are bits. A timer is absent when it
is stopped and holds the time it was started with when it runs (log 2). -/

namespace Sys2Proof.Machine

/-! ## Axis Supervisor (spec/01) -/

/-- Table 1-4. -/
inductive Motion | off | idle | moving | jogging | halted
deriving DecidableEq, Repr

/-- Table 1-2, R4. -/
inductive Owner | none | console | search | sequence | wind
deriving DecidableEq, Repr

/-- Table 1-2, R17. -/
inductive FaultCause | none | drive | silence | arrival | badReport
deriving DecidableEq, Repr

/-- The five supply channels, in the order of R12. -/
inductive Channel | lift | lock | pan | tilt | pol
deriving DecidableEq, Repr

/-- Section 1.4. -/
inductive ChanState | off | full | low
deriving DecidableEq, Repr

/-- The record of one axis (Table 1-2), with its arrival timer (R18) and its silence watch (R19). -/
structure AxisRec where
  motion        : Motion
  owner         : Owner
  position      : Option Int
  working       : Option Int
  alternate     : Option Int
  sel           : Sel
  jogTarget     : Option Int
  stopping      : Bool
  /-- The STOP that `stopping` stands for found the axis MOVING (R11; log 11). -/
  stopMoved     : Bool
  rateLimit     : Nat
  tolerance     : Nat
  arrivalLimit  : Nat
  softMin       : Int
  softMax       : Int
  faultCause    : FaultCause
  driveCode     : Option Nat
  releaseReady  : Bool
  /-- Seconds the running arrival timer was started with. -/
  arrivalTimer  : Option Nat
  /-- Milliseconds the running silence watch was started with. -/
  silenceWatch  : Option Nat
deriving DecidableEq, Repr

/-- State last sent for each channel (Table 1-2). -/
structure Channels where
  lift : ChanState
  lock : ChanState
  pan  : ChanState
  tilt : ChanState
  pol  : ChanState
deriving DecidableEq, Repr

/-- AXS: four axis records and five channel states. -/
structure Axs where
  mast     : AxisRec
  pan      : AxisRec
  tilt     : AxisRec
  pol      : AxisRec
  channels : Channels
deriving DecidableEq, Repr

/-! ## Motion Gate (spec/03) -/

/-- An open jog run: its direction and its running deadman timer, ms (R57). -/
structure JogRun where
  dir     : Dir
  deadman : Nat
deriving DecidableEq, Repr

/-- MGT: one jog run record for each axis, and the deadman time (R57). -/
structure Mgt where
  mast        : Option JogRun
  pan         : Option JogRun
  tilt        : Option JogRun
  pol         : Option JogRun
  deadmanTime : Nat
deriving DecidableEq, Repr

/-! ## Keep-Out Unit (spec/02) -/

/-- A zone (Table 2-1). -/
structure Zone where
  valid      : Bool
  arcFrom    : Int
  arcTo      : Int
  tiltLow    : Int
  tiltHigh   : Int
  heightLow  : Int
  heightHigh : Int
  hits       : Nat
deriving DecidableEq, Repr

/-! ## Deploy Sequencer (spec/04) -/

/-- Table 4-1. -/
inductive Deploy | unknown | stowed | raising | deployed | parked | lowering | held
deriving DecidableEq, Repr

/-- Table 4-2. -/
inductive HoldCause | none | unsure | zone | axis | slope | stopped | action | wind
deriving DecidableEq, Repr

/-- Table 4-2. -/
inductive WalkCause | none | request | button | interlock | wind
deriving DecidableEq, Repr

/-- Table 4-4. -/
inductive ActionKind | none | channel | mastUp | mastDown | tiltOut | tiltIn | panHome
deriving DecidableEq, Repr

/-- R69: the channels an action may name; DISH names PAN, TILT and POL together. -/
inductive ActionChannel | lift | lock | pan | tilt | pol | dish
deriving DecidableEq, Repr

/-- An action of a slot (R69). Channel and state are held for every kind and count for kind CHANNEL (log 19). -/
structure Action where
  kind    : ActionKind
  channel : ActionChannel
  state   : ChanState
deriving DecidableEq, Repr

/-- A slot of the Sequence Table (R69). -/
structure Slot where
  deploy : Action
  stow   : Action
deriving DecidableEq, Repr

/-- Table 4-3. -/
inductive WakePose | return | preset
deriving DecidableEq, Repr

/-- DSQ: status (Table 4-2), settings (Table 4-3), Sequence Table, slot timer and the record of first reports (R68). -/
structure Dsq where
  deploy        : Deploy
  slot          : Option Nat
  holdCause     : HoldCause
  walkCause     : WalkCause
  deployHeight  : Option Int
  parkIn        : Bool
  stowIn        : Bool
  stowHeight    : Int
  stowPan       : Int
  stowTilt      : Int
  unstowTilt    : Int
  minHeight     : Int
  maxHeight     : Int
  defaultHeight : Int
  slotTime      : Nat
  keepOn        : ChannelMask
  wakePose      : WakePose
  slots         : List Slot
  slotTimer     : Option Nat
  mastReported  : Bool
  panReported   : Bool
  tiltReported  : Bool
deriving DecidableEq, Repr

/-! ## Wind and Slope Monitor (spec/05) -/

/-- Table 5-3. -/
inductive Gust | calm | warn | hold
deriving DecidableEq, Repr

/-- Table 5-9. -/
inductive SlopeState | none | level | over | fault
deriving DecidableEq, Repr

/-- A row of the derate table (Table 5-2). -/
structure DerateRow where
  valid     : Bool
  floor     : Nat
  heightCap : Int
  panCap    : Nat
  tiltCap   : Nat
deriving DecidableEq, Repr

/-- WSM. The gust value and the row in force are formed from `memory` and `derate` (R90, R93). -/
structure Wsm where
  gust          : Gust
  /-- Speeds of the last three WIND reports taken, newest first (R90, Table 11-4). -/
  memory        : List Nat
  warnRun       : Nat
  holdRun       : Nat
  calmRun       : Nat
  derate        : List DerateRow
  warnThreshold : Nat
  holdThreshold : Nat
  stowWind      : Nat
  slopeLimit    : Nat
  slopeMargin   : Nat
  /-- Roll and pitch of the last SLOPE report taken (R101). -/
  lastSlope     : Option (Int × Int)
  slopeState    : SlopeState
  windWatch     : Option Nat
  slopeWatch    : Option Nat
deriving DecidableEq, Repr

/-! ## Site Table (spec/06) -/

/-- Table 6-4. -/
inductive EntryState | empty | loaded | acquiring | tracked | suspended | lost
deriving DecidableEq, Repr

/-- Table 6-3. -/
inductive LastCause | none | noSignal | zone | gaps | link | lostLevel | wind | stowed | aborted
deriving DecidableEq, Repr

/-- The edges of one axis as one centring wrote them (R108): absent together before the first. -/
structure Edges where
  beginEdge : Int
  endEdge   : Int
  midpoint  : Int
  isOpen    : Bool
deriving DecidableEq, Repr

/-- The learned fields of an entry (Table 6-3). -/
structure Learned where
  az    : Option Edges
  el    : Option Edges
  pan   : Option Int
  tilt  : Option Int
  cause : LastCause
deriving DecidableEq, Repr

/-- Entry settings (Table 6-1). -/
structure EntrySettings where
  siteCode      : Nat
  presetPan     : Int
  presetTilt    : Int
  presetPol     : Int
  bandMask      : BandMask
  polMask       : PolMask
  edgeLevel     : Int
  lostLevel     : Int
  lostCount     : Nat
  avgLength     : Nat
  searchAz      : Nat
  searchEl      : Nat
  trimAz        : Nat
  trimEl        : Nat
  searchRate    : Nat
  autoReacquire : Bool
deriving DecidableEq, Repr

/-- Running adjustments (Table 6-2). -/
structure Adjust where
  offsetAz : Int
  offsetEl : Int
  retrim   : Nat
deriving DecidableEq, Repr

/-- An entry of the Site Table (R104). -/
structure Entry where
  state   : EntryState
  set     : EntrySettings
  adjust  : Adjust
  learned : Learned
deriving DecidableEq, Repr

/-! ## Site Handshake Agent (spec/07) -/

/-- Table 7-3. -/
inductive Handshake | silent | offering | chosen | up | noCommon
deriving DecidableEq, Repr

/-- Masks and ack flag of a site ABILITY (Table 7-1). -/
structure Ability where
  bands   : BandMask
  pols    : PolMask
  periods : PeriodMask
  ack     : Bool
deriving DecidableEq, Repr

/-- A record of the Report Window (R132). -/
structure WinRec where
  seq   : Nat
  level : Int
  pan   : Option Int
  tilt  : Option Int
deriving DecidableEq, Repr

/-- SHA (Table 7-2), its timers, the Report Window and the van ability word. -/
structure Sha where
  state       : Handshake
  agreed      : Option Choice
  /-- Band, pol, period and toggle of the last CHOICE sent. -/
  sent        : Option (Choice × Bool)
  toggle      : Bool
  resends     : Nat
  heard       : Bool
  siteAbility : Option Ability
  identity    : Option Nat
  linkReady   : Bool
  downSeen    : Bool
  offerTimer  : Option Nat
  echoTimer   : Option Nat
  reportWatch : Option Nat
  quietTimer  : Option Nat
  /-- The Report Window, newest record first. -/
  window      : List WinRec
  vanBands    : BandMask
  vanPols     : PolMask
deriving DecidableEq, Repr

/-! ## Acquisition Engine (spec/08, spec/09) -/

/-- Table 8-1. -/
inductive Phase | slew | settle | azSweep | elSweep | track | retrimAz | retrimEl
deriving DecidableEq, Repr

/-- Table 8-2. -/
inductive SweepStep | toStart | sweeping | centring
deriving DecidableEq, Repr

/-- What bounded an end of the sweep interval (R145). -/
inductive Clip | none | soft | zone
deriving DecidableEq, Repr

/-- What the context does when the rest it awaits is told: the interval is formed afresh (R146, R151), the centring move is
made (R148), the end edge is taken there (Table 8-6, begin edge present), or the sweep is judged ended without a begin edge
(Table 8-6, no begin edge). -/
inductive RestThen | reform | centre | edgeHere | noEdge
deriving DecidableEq, Repr

/-- The running context (Table 8-2), with what its steps need: the slew pose and order (R140, R167), the axis whose move has
been issued and not yet seen end (R153), the OPEN mark of the partial end edge (R149) and its timers. -/
structure Ctx where
  row           : Nat
  phase         : Phase
  step          : Option SweepStep
  /-- Rest awaited, with what follows at the rest; absent is "no". -/
  rest          : Option RestThen
  centre        : Option Int
  extent        : Option Nat
  sweepStart    : Option Int
  sweepEnd      : Option Int
  clipLow       : Clip
  clipHigh      : Clip
  widened       : Bool
  gapRestarts   : Nat
  partialBegin  : Option Int
  partialEnd    : Option Int
  reportCount   : Nat
  retrimInUse   : Nat
  /-- The re-trim interval that the last centring read, for the next entry to TRACK (R107, R114). -/
  retrimRead    : Nat
  lostRun       : Nat
  reacquire     : Bool
  linkIsReady   : Bool
  linkUsed      : Bool
  afterSettle   : Phase
  partialOpen   : Bool
  slewPan       : Int
  slewTilt      : Int
  slewPol       : Int
  /-- TILT moves before PAN (R140). -/
  tiltFirst     : Bool
  stepAxis      : Option Axis
  settleTimer   : Option Nat
  linkWait      : Option Nat
  gapTimer      : Option Nat
deriving DecidableEq, Repr

/-- Table 9-1. -/
inductive SuspendCause | override | gust | switch | park
deriving DecidableEq, Repr

/-- Table 9-2: where a resumed context takes up. -/
inductive ResumePhase | slew | azSweep | elSweep | track
deriving DecidableEq, Repr

/-- An entry of the Resume Stack (Table 9-2). -/
structure StackEntry where
  row         : Nat
  cause       : SuspendCause
  phase       : ResumePhase
  midpointAz  : Option Int
  resumePan   : Option Int
  resumeTilt  : Option Int
  reacquire   : Bool
deriving DecidableEq, Repr

/-- ACQ: the running context, the Resume Stack (top first) and the acquisition settings (Table 8-3). -/
structure Acq where
  ctx        : Option Ctx
  stack      : List StackEntry
  settleTime : Nat
  maxExtent  : Nat
  /-- How many free values have been drawn: the model's own (log 10). -/
  drawn      : Nat
deriving DecidableEq, Repr

/-! ## Transmitter Enable Control (spec/10, Table 10-1) -/

structure Txc where
  txen       : Bool
  latch      : Bool
  mute       : Bool
  tracked    : Bool
  deploy     : Deploy
  gust       : Gust
  axisHalted : Bool
  pending    : Bool
  panSeen    : Bool
  tiltSeen   : Bool
deriving DecidableEq, Repr

/-! ## Notice Unit and Line Unit (spec/11) -/

/-- The notices of the eight classes with the values they carry (Tables 2-7, 4-10, 5-10, 5-11, 7-5, 9-5, 11-5). -/
inductive Notice
  | axis (a : Axis) (cause : FaultCause)
  | zoneStopped (a : Axis) (row : Nat)
  | zonePose (row : Nat)
  | deployUp
  | deployDown
  | deployHeight (height : Int)
  | deployLowering (cause : WalkCause)
  | deployHeld (cause : HoldCause)
  | deployAwake
  | windState (g : Gust) (gustValue : Int)
  | windStow (gustValue : Int)
  | windLowering (target : Int)
  | windBlocked
  | windLowered (height : Int)
  | windStopped
  | windHalted (cause : FaultCause)
  | windSilent
  | slopeFault (roll pitch : Int)
  | slopeSilent
  | linkUp (c : Choice)
  | linkChanged (band : Band) (pol : Pol)
  | linkNoCommon
  | linkRetry
  | linkMismatch (code : Nat)
  | linkDown
  | searchTracked (row : Nat)
  | searchReacquire (row : Nat)
  | searchEnded (cause : LastCause) (row : Nat) (phase : Phase)
  | searchStowed (row : Nat)
  | resumeSuspended (row : Nat) (cause : SuspendCause)
  | resumeDropped (row : Nat)
  | resumeResumed (row : Nat) (cause : SuspendCause)
  | resumeKept (row : Nat)
deriving DecidableEq, Repr

/-- The eight notice classes (Table 11-5). -/
inductive NoticeClass | axis | zone | deploy | wind | slope | link | search | resume
deriving DecidableEq, Repr

/-- A row of table 9 (R183); `latest` absent is NONE. -/
structure ClassRow where
  latest  : Option Notice
  pending : Bool
  newer   : Bool
deriving DecidableEq, Repr

/-- NTU: the eight class rows and the NOTICE frames held for a free place, oldest first (R179, R183). -/
structure Ntu where
  axis   : ClassRow
  zone   : ClassRow
  deploy : ClassRow
  wind   : ClassRow
  slope  : ClassRow
  link   : ClassRow
  search : ClassRow
  resume : ClassRow
  held   : List Notice
deriving DecidableEq, Repr

/-- Reasons of a refusal, in the order of Table 11-8, note 1. -/
inductive Reason
  | busy | state | zone | wind | slope | owner | range | empty | noSequence | interlock | ignored | noTarget
deriving DecidableEq, Repr

/-- Data of a REPLY (Table 11-8, note 2). -/
inductive ReplyData
  | none
  | field (present : Bool) (value : Int)
  | notice (n : Option Notice)
deriving DecidableEq, Repr

/-- Frames the part sends on the upstream line. A REPLY with no refusal is DONE. -/
inductive UpFrame
  | reply (kind node : Nat) (refusal : Option Reason) (data : ReplyData)
  | notice (n : Notice)
  | forwarded (node kind : Nat) (payload : List Byte)
deriving DecidableEq, Repr

/-- Frames the part sends on the drive line. -/
inductive DriveFrame
  | move (a : Axis) (target : Int) (rate : Nat)
  | stop (a : Axis)
  | channel (c : Channel) (st : ChanState)
  | forwarded (node kind : Nat) (payload : List Byte)
deriving DecidableEq, Repr

/-- Pages the part sends on the site line (Table 7-1). -/
inductive SitePage
  | ability (bands : BandMask) (pols : PolMask) (periods : PeriodMask) (ack : Bool)
  | choice (c : Choice) (toggle : Bool)
  | leave
deriving DecidableEq, Repr

/-- What a port does between frames: it hunts for a start mark (R178), or it is held in reset (R186; log 6). -/
inductive PortState | hunting | inReset
deriving DecidableEq, Repr

/-- R65. -/
inductive WindowMode | pass | closed
deriving DecidableEq, Repr

/-- LNU: port states, RST input, send queue (oldest first), rates and window mode. -/
structure Lnu where
  upstreamPort : PortState
  drivePort    : PortState
  sitePort     : PortState
  rst          : Bool
  queue        : List UpFrame
  rateSet      : Nat
  rateInForce  : Nat
  /-- Rates set when the LINE_RESTARTs were taken whose REPLY has not yet left, oldest first (R180; log 26). -/
  restarts     : List Nat
  window       : WindowMode
deriving DecidableEq, Repr

/-- What has left each port, oldest first: the model's own record of the outputs (log 3). -/
structure Out where
  drive    : List DriveFrame
  site     : List SitePage
  upstream : List UpFrame
deriving DecidableEq, Repr

/-- The whole part, and the queue of commands that wait. -/
structure State where
  axs     : Axs
  mgt     : Mgt
  zones   : List Zone
  dsq     : Dsq
  wsm     : Wsm
  sites   : List Entry
  sha     : Sha
  acq     : Acq
  txc     : Txc
  ntu     : Ntu
  lnu     : Lnu
  out     : Out
  pending : List Instr
deriving DecidableEq, Repr

/-- The spec names no behaviour that stops the part: no command ends in a fault. -/
inductive Fault
deriving DecidableEq, Repr

/-- Why a step can be refused by the model. -/
inductive Refusal
  /-- Raised by `exec` for a command that has no meaning in the model yet. Safe: the step stops. No arm raises it. -/
  | notModelled (mnemonic : String)
deriving DecidableEq, Repr

/-! ## Updates: one for each block -/

def State.withAxs (s : State) (v : Axs) : State := { s with axs := v }
def State.withMgt (s : State) (v : Mgt) : State := { s with mgt := v }
def State.withZones (s : State) (v : List Zone) : State := { s with zones := v }
def State.withDsq (s : State) (v : Dsq) : State := { s with dsq := v }
def State.withWsm (s : State) (v : Wsm) : State := { s with wsm := v }
def State.withSites (s : State) (v : List Entry) : State := { s with sites := v }
def State.withSha (s : State) (v : Sha) : State := { s with sha := v }
def State.withAcq (s : State) (v : Acq) : State := { s with acq := v }
def State.withTxc (s : State) (v : Txc) : State := { s with txc := v }
def State.withNtu (s : State) (v : Ntu) : State := { s with ntu := v }
def State.withLnu (s : State) (v : Lnu) : State := { s with lnu := v }
def State.withOut (s : State) (v : Out) : State := { s with out := v }
def State.withPending (s : State) (v : List Instr) : State := { s with pending := v }

/-! ## Power-on values -/

/-- An axis record with its reset values, the settings given (R3, Table 1-3). -/
def AxisRec.powerOn (rate tol arrival : Nat) (lo hi : Int) : AxisRec where
  motion := .off
  owner := .none
  position := none
  working := none
  alternate := none
  sel := .work
  jogTarget := none
  stopping := false
  stopMoved := false
  rateLimit := rate
  tolerance := tol
  arrivalLimit := arrival
  softMin := lo
  softMax := hi
  faultCause := .none
  driveCode := none
  releaseReady := false
  arrivalTimer := none
  silenceWatch := none

/-- R3: every channel OFF. -/
def Channels.allOff : Channels := ⟨.off, .off, .off, .off, .off⟩

/-- R2, R3 (Table 1-3). -/
def Axs.powerOn : Axs where
  mast := .powerOn 10 2 90 0 1500
  pan  := .powerOn 100 1 60 0 3599
  tilt := .powerOn 50 1 30 (-100) 900
  pol  := .powerOn 150 5 20 (-900) 900
  channels := .allOff

/-- R57: every run closed, deadman time 150. -/
def Mgt.powerOn : Mgt := ⟨none, none, none, none, 150⟩

/-- Table 2-1. -/
def Zone.powerOn : Zone := ⟨false, 0, 3599, -100, 900, 0, 1500, 0⟩

/-- R69: the action of a slot after power-on. -/
def Action.powerOn : Action := ⟨.none, .lift, .off⟩

/-- Tables 4-2 and 4-3. The levels of the two inputs are the model's choice (log 5). -/
def Dsq.powerOn : Dsq where
  deploy := .unknown
  slot := none
  holdCause := .none
  walkCause := .none
  deployHeight := none
  parkIn := false
  stowIn := false
  stowHeight := 20
  stowPan := 0
  stowTilt := -100
  unstowTilt := 0
  minHeight := 300
  maxHeight := 1500
  defaultHeight := 800
  slotTime := 1000
  keepOn := 0
  wakePose := .return
  slots := List.replicate 8 ⟨.powerOn, .powerOn⟩
  slotTimer := none
  mastReported := false
  panReported := false
  tiltReported := false

/-- Table 5-2. -/
def DerateRow.powerOn : DerateRow := ⟨false, 0, 1500, 300, 300⟩

/-- Tables 5-2, 5-4, 5-8; R90, R94, R101. -/
def Wsm.powerOn : Wsm where
  gust := .calm
  memory := []
  warnRun := 0
  holdRun := 0
  calmRun := 0
  derate := List.replicate 8 .powerOn
  warnThreshold := 110
  holdThreshold := 200
  stowWind := 250
  slopeLimit := 50
  slopeMargin := 20
  lastSlope := none
  slopeState := .none
  windWatch := none
  slopeWatch := none

/-- Table 6-3 after clearing (R109). -/
def Learned.clear : Learned := ⟨none, none, none, none, .none⟩

/-- Table 6-1. -/
def EntrySettings.powerOn : EntrySettings where
  siteCode := 0
  presetPan := 0
  presetTilt := 0
  presetPol := 0
  bandMask := 15
  polMask := 3
  edgeLevel := -700
  lostLevel := -900
  lostCount := 5
  avgLength := 4
  searchAz := 60
  searchEl := 60
  trimAz := 10
  trimEl := 10
  searchRate := 10
  autoReacquire := false

/-- An EMPTY entry (R112, R115). -/
def Entry.powerOn : Entry := ⟨.empty, .powerOn, ⟨0, 0, 0⟩, .clear⟩

/-- R117, R118. -/
def Sha.powerOn : Sha where
  state := .silent
  agreed := none
  sent := none
  toggle := false
  resends := 0
  heard := false
  siteAbility := none
  identity := none
  linkReady := false
  downSeen := false
  offerTimer := none
  echoTimer := none
  reportWatch := none
  quietTimer := none
  window := []
  vanBands := 15
  vanPols := 3

/-- R136, R137, R162. -/
def Acq.powerOn : Acq := ⟨none, [], 2000, 200, 0⟩

/-- Table 10-1. -/
def Txc.powerOn : Txc := ⟨false, false, false, false, .unknown, .calm, false, false, false, false⟩

/-- R183. -/
def ClassRow.clear : ClassRow := ⟨none, false, false⟩

/-- R183. -/
def Ntu.powerOn : Ntu := ⟨.clear, .clear, .clear, .clear, .clear, .clear, .clear, .clear, []⟩

/-- R65, R179, R180. Port states and the RST input: log 4, log 6. -/
def Lnu.powerOn : Lnu := ⟨.hunting, .hunting, .hunting, false, [], 38400, 38400, [], .pass⟩

/-- R3, R186: STOP to nodes 1, 2, 3 and 4, then CHANNEL OFF for LIFT, LOCK, PAN, TILT and POL. -/
def resetFrames : List DriveFrame :=
  [.stop .mast, .stop .pan, .stop .tilt, .stop .pol, .channel .lift .off, .channel .lock .off,
   .channel .pan .off, .channel .tilt .off, .channel .pol .off]

/-- The part right after power-on: every table, setting and state at its power-on value, the frames of R3 sent, nothing
waiting. -/
def State.reset : State where
  axs := .powerOn
  mgt := .powerOn
  zones := List.replicate 24 .powerOn
  dsq := .powerOn
  wsm := .powerOn
  sites := List.replicate 8 .powerOn
  sha := .powerOn
  acq := .powerOn
  txc := .powerOn
  ntu := .powerOn
  lnu := .powerOn
  out := ⟨resetFrames, [], []⟩
  pending := []

end Sys2Proof.Machine
end

