-- ==== Sys2Proof/Machine/Operands.lean ====
section
/-! DEFINITION. Access to the records of one axis or one class, the full ranges of Table 1-1, and the numbers by which
tables, frames and pages code values (R182, R187). -/

namespace Sys2Proof.Machine

/-! ## Records by axis -/

/-- The record of an axis. -/
def Axs.get (x : Axs) : Axis → AxisRec
  | .mast => x.mast
  | .pan => x.pan
  | .tilt => x.tilt
  | .pol => x.pol

/-- Replace the record of an axis. -/
def Axs.set (x : Axs) (a : Axis) (r : AxisRec) : Axs :=
  match a with
  | .mast => { x with mast := r }
  | .pan => { x with pan := r }
  | .tilt => { x with tilt := r }
  | .pol => { x with pol := r }

/-- State last sent for a channel. -/
def Channels.get (x : Channels) : Channel → ChanState
  | .lift => x.lift
  | .lock => x.lock
  | .pan => x.pan
  | .tilt => x.tilt
  | .pol => x.pol

/-- Record a channel state as sent. -/
def Channels.set (x : Channels) (c : Channel) (v : ChanState) : Channels :=
  match c with
  | .lift => { x with lift := v }
  | .lock => { x with lock := v }
  | .pan => { x with pan := v }
  | .tilt => { x with tilt := v }
  | .pol => { x with pol := v }

/-- The jog run record of an axis. -/
def Mgt.get (x : Mgt) : Axis → Option JogRun
  | .mast => x.mast
  | .pan => x.pan
  | .tilt => x.tilt
  | .pol => x.pol

/-- Replace the jog run record of an axis. -/
def Mgt.set (x : Mgt) (a : Axis) (v : Option JogRun) : Mgt :=
  match a with
  | .mast => { x with mast := v }
  | .pan => { x with pan := v }
  | .tilt => { x with tilt := v }
  | .pol => { x with pol := v }

/-- The axis record in the state. -/
def State.axis (s : State) (a : Axis) : AxisRec := s.axs.get a

/-- Replace an axis record in the state. -/
def State.setAxis (s : State) (a : Axis) (r : AxisRec) : State := s.withAxs (s.axs.set a r)

/-- The channel state in the state. -/
def State.chan (s : State) (c : Channel) : ChanState := s.axs.channels.get c

/-- The jog run of an axis in the state. -/
def State.jog (s : State) (a : Axis) : Option JogRun := s.mgt.get a

/-- R61, R63: mark the jog run of the axis closed, which stops its deadman timer. -/
def closeRun (s : State) (a : Axis) : State := s.withMgt (s.mgt.set a none)

/-- The target that select names (Table 1-2). -/
def AxisRec.selected (r : AxisRec) : Option Int :=
  match r.sel with
  | .work => r.working
  | .alt => r.alternate

/-- The named target (R7). -/
def AxisRec.target (r : AxisRec) : Sel → Option Int
  | .work => r.working
  | .alt => r.alternate

/-- Write the named target (R7). -/
def AxisRec.setTarget (r : AxisRec) (which : Sel) (v : Option Int) : AxisRec :=
  match which with
  | .work => { r with working := v }
  | .alt => { r with alternate := v }

/-- Full range of an axis, low end (Table 1-1). -/
def fullLow : Axis → Int
  | .mast => 0
  | .pan => 0
  | .tilt => -100
  | .pol => -900

/-- Full range of an axis, high end (Table 1-1). -/
def fullHigh : Axis → Int
  | .mast => 1500
  | .pan => 3599
  | .tilt => 900
  | .pol => 900

/-- Within the full range of the axis, both ends included. -/
def inFull (a : Axis) (v : Int) : Bool := fullLow a ≤ v && v ≤ fullHigh a

/-- Channel that moves the axis (Table 1-1). -/
def moveChannel : Axis → Channel
  | .mast => .lift
  | .pan => .pan
  | .tilt => .tilt
  | .pol => .pol

/-- The axis on which a channel bears (R13). -/
def Channel.axis : Channel → Axis
  | .lift => .mast
  | .lock => .mast
  | .pan => .pan
  | .tilt => .tilt
  | .pol => .pol

/-- The order in which several channels are set (R12). -/
def allChannels : List Channel := [.lift, .lock, .pan, .tilt, .pol]

/-- The axes in the order of their nodes. -/
def allAxes : List Axis := [.mast, .pan, .tilt, .pol]

/-- The axes of the running context (R138). -/
def searchAxes : List Axis := [.pan, .tilt, .pol]

/-- R7, R48: the channel of the axis is FULL, and for MAST also LOCK. -/
def channelsFull (s : State) (a : Axis) : Bool :=
  s.chan (moveChannel a) = .full && (a ≠ .mast || s.chan .lock = .full)

/-- Within tolerance (Table 0-5). -/
def withinTol (a b : Int) (tol : Nat) : Bool := (a - b).natAbs ≤ tol

/-! ## Notice classes -/

/-- The class row of a class. -/
def Ntu.get (n : Ntu) : NoticeClass → ClassRow
  | .axis => n.axis
  | .zone => n.zone
  | .deploy => n.deploy
  | .wind => n.wind
  | .slope => n.slope
  | .link => n.link
  | .search => n.search
  | .resume => n.resume

/-- Replace the class row of a class. -/
def Ntu.set (n : Ntu) (c : NoticeClass) (r : ClassRow) : Ntu :=
  match c with
  | .axis => { n with axis := r }
  | .zone => { n with zone := r }
  | .deploy => { n with deploy := r }
  | .wind => { n with wind := r }
  | .slope => { n with slope := r }
  | .link => { n with link := r }
  | .search => { n with search := r }
  | .resume => { n with resume := r }

/-- The class whose row has this number (Table 11-5). -/
def NoticeClass.ofRow : Nat → Option NoticeClass
  | 0 => some .axis
  | 1 => some .zone
  | 2 => some .deploy
  | 3 => some .wind
  | 4 => some .slope
  | 5 => some .link
  | 6 => some .search
  | 7 => some .resume
  | _ => none

/-- Row of a class (Table 11-5). -/
def NoticeClass.row : NoticeClass → Nat
  | .axis => 0
  | .zone => 1
  | .deploy => 2
  | .wind => 3
  | .slope => 4
  | .link => 5
  | .search => 6
  | .resume => 7

/-! ## Numbers of enumerations (R182) -/

def boolCode (b : Bool) : Nat := if b then 1 else 0

/-- R187: an axis takes 0 MAST to 3 POL. -/
def axisCode : Axis → Nat
  | .mast => 0 | .pan => 1 | .tilt => 2 | .pol => 3

/-- Node of an axis (Table 1-1). -/
def axisNode (a : Axis) : Nat := axisCode a + 1

def Motion.code : Motion → Nat
  | .off => 0 | .idle => 1 | .moving => 2 | .jogging => 3 | .halted => 4

def Owner.code : Owner → Nat
  | .none => 0 | .console => 1 | .search => 2 | .sequence => 3 | .wind => 4

def FaultCause.code : FaultCause → Nat
  | .none => 0 | .drive => 1 | .silence => 2 | .arrival => 3 | .badReport => 4

def selCode : Sel → Nat
  | .work => 0 | .alt => 1

def ChanState.code : ChanState → Nat
  | .off => 0 | .full => 1 | .low => 2

def Channel.code : Channel → Nat
  | .lift => 0 | .lock => 1 | .pan => 2 | .tilt => 3 | .pol => 4

def Deploy.code : Deploy → Nat
  | .unknown => 0 | .stowed => 1 | .raising => 2 | .deployed => 3 | .parked => 4 | .lowering => 5 | .held => 6

def HoldCause.code : HoldCause → Nat
  | .none => 0 | .unsure => 1 | .zone => 2 | .axis => 3 | .slope => 4 | .stopped => 5 | .action => 6 | .wind => 7

def WalkCause.code : WalkCause → Nat
  | .none => 0 | .request => 1 | .button => 2 | .interlock => 3 | .wind => 4

def ActionKind.code : ActionKind → Nat
  | .none => 0 | .channel => 1 | .mastUp => 2 | .mastDown => 3 | .tiltOut => 4 | .tiltIn => 5 | .panHome => 6

def ActionChannel.code : ActionChannel → Nat
  | .lift => 0 | .lock => 1 | .pan => 2 | .tilt => 3 | .pol => 4 | .dish => 5

def WakePose.code : WakePose → Nat
  | .return => 0 | .preset => 1

def Gust.code : Gust → Nat
  | .calm => 0 | .warn => 1 | .hold => 2

def SlopeState.code : SlopeState → Nat
  | .none => 0 | .level => 1 | .over => 2 | .fault => 3

def EntryState.code : EntryState → Nat
  | .empty => 0 | .loaded => 1 | .acquiring => 2 | .tracked => 3 | .suspended => 4 | .lost => 5

def LastCause.code : LastCause → Nat
  | .none => 0 | .noSignal => 1 | .zone => 2 | .gaps => 3 | .link => 4 | .lostLevel => 5 | .wind => 6 | .stowed => 7
  | .aborted => 8

def Handshake.code : Handshake → Nat
  | .silent => 0 | .offering => 1 | .chosen => 2 | .up => 3 | .noCommon => 4

def Phase.code : Phase → Nat
  | .slew => 0 | .settle => 1 | .azSweep => 2 | .elSweep => 3 | .track => 4 | .retrimAz => 5 | .retrimEl => 6

def SweepStep.code : SweepStep → Nat
  | .toStart => 0 | .sweeping => 1 | .centring => 2

def Clip.code : Clip → Nat
  | .none => 0 | .soft => 1 | .zone => 2

def SuspendCause.code : SuspendCause → Nat
  | .override => 0 | .gust => 1 | .switch => 2 | .park => 3

def ResumePhase.code : ResumePhase → Nat
  | .slew => 0 | .azSweep => 1 | .elSweep => 2 | .track => 3

/-- Log 21: PASS 0, CLOSED 1. -/
def WindowMode.code : WindowMode → Nat
  | .pass => 0 | .closed => 1

/-- Table 11-8: a band takes 1 to 4. -/
def bandCode : Band → Nat
  | .b1 => 1 | .b2 => 2 | .b3 => 3 | .b4 => 4

/-- Table 11-8: 0 H, 1 V. -/
def polCode : Pol → Nat
  | .h => 0 | .v => 1

/-- Table 11-8: 0 to 2. -/
def periodCode : Period → Nat
  | .p100 => 0 | .p200 => 1 | .p500 => 2

/-- Report period, ms (Table 0-6). -/
def periodMs : Period → Nat
  | .p100 => 100 | .p200 => 200 | .p500 => 500

/-- Reasons (Table 11-8, note 1). -/
def Reason.code : Reason → Nat
  | .busy => 1 | .state => 2 | .zone => 3 | .wind => 4 | .slope => 5 | .owner => 6 | .range => 7 | .empty => 8
  | .noSequence => 9 | .interlock => 10 | .ignored => 11 | .noTarget => 12

/-! ## Written values -/

/-- A field whose values are yes and no (R182). -/
def boolOf : Int → Option Bool
  | 0 => some false
  | 1 => some true
  | _ => none

def ActionKind.ofCode : Int → Option ActionKind
  | 0 => some .none | 1 => some .channel | 2 => some .mastUp | 3 => some .mastDown | 4 => some .tiltOut
  | 5 => some .tiltIn | 6 => some .panHome | _ => .none

def ActionChannel.ofCode : Int → Option ActionChannel
  | 0 => some .lift | 1 => some .lock | 2 => some .pan | 3 => some .tilt | 4 => some .pol | 5 => some .dish | _ => none

def ChanState.ofCode : Int → Option ChanState
  | 0 => some .off | 1 => some .full | 2 => some .low | _ => none

def WakePose.ofCode : Int → Option WakePose
  | 0 => some .return | 1 => some .preset | _ => none

def WindowMode.ofCode : Int → Option WindowMode
  | 0 => some .pass | 1 => some .closed | _ => none

/-- A value of a closed range (Table 0-5). -/
def inRange (lo hi v : Int) : Option Int := if lo ≤ v ∧ v ≤ hi then some v else none

/-- A value of a closed range of counts. -/
def natInRange (lo hi : Nat) (v : Int) : Option Nat := if (lo : Int) ≤ v ∧ v ≤ (hi : Int) then some v.toNat else none

/-! ## Request and frame kinds (Table 11-8) -/

def kindMove : Nat := 0x01
def kindJog : Nat := 0x02
def kindStop : Nat := 0x03
def kindSelect : Nat := 0x04
def kindChannel : Nat := 0x05
def kindPosition : Nat := 0x10
def kindWind : Nat := 0x11
def kindSlope : Nat := 0x12
def kindReply : Nat := 0x20
def kindNotice : Nat := 0x21
def kindRead : Nat := 0x30
def kindWrite : Nat := 0x31
def kindDeploy : Nat := 0x32
def kindStow : Nat := 0x33
def kindPark : Nat := 0x34
def kindWake : Nat := 0x35
def kindAcquire : Nat := 0x36
def kindRelease : Nat := 0x37
def kindResume : Nat := 0x38
def kindDropResume : Nat := 0x39
def kindRenegotiate : Nat := 0x3A
def kindTxOn : Nat := 0x3B
def kindTxOff : Nat := 0x3C
def kindClearHold : Nat := 0x3D
def kindLineRestart : Nat := 0x3E
def kindReset : Nat := 0x3F

/-- The kinds of Table 11-2. -/
def isKnownRequest (kind : Nat) : Bool := kindRead ≤ kind && kind ≤ kindReset

/-- Two bytes, high byte first, two's complement (R187). -/
def be16 (v : Int) : List Byte :=
  let w := (BitVec.ofInt 16 v)
  [w.extractLsb' 8 8, w.extractLsb' 0 8]

/-- Four bytes, high byte first, two's complement (R187). -/
def be32 (v : Int) : List Byte :=
  let w := (BitVec.ofInt 32 v)
  [w.extractLsb' 24 8, w.extractLsb' 16 8, w.extractLsb' 8 8, w.extractLsb' 0 8]

/-- One byte. -/
def byteOf (n : Nat) : Byte := BitVec.ofNat 8 n

/-- Payload of a POSITION report (Table 11-8). -/
def positionPayload (pos : Int) (moving fault : Bool) (code : Nat) : List Byte :=
  be16 pos ++ [byteOf (boolCode moving), byteOf (boolCode fault), byteOf code]

/-! ## Notices: class, cause number and carried values (Table 11-5, R187) -/

/-- Class of a notice. -/
def Notice.cls : Notice → NoticeClass
  | .axis _ _ => .axis
  | .zoneStopped _ _ | .zonePose _ => .zone
  | .deployUp | .deployDown | .deployHeight _ | .deployLowering _ | .deployHeld _ | .deployAwake => .deploy
  | .windState _ _ | .windStow _ | .windLowering _ | .windBlocked | .windLowered _ | .windStopped | .windHalted _
  | .windSilent => .wind
  | .slopeFault _ _ | .slopeSilent => .slope
  | .linkUp _ | .linkChanged _ _ | .linkNoCommon | .linkRetry | .linkMismatch _ | .linkDown => .link
  | .searchTracked _ | .searchReacquire _ | .searchEnded _ _ _ | .searchStowed _ => .search
  | .resumeSuspended _ _ | .resumeDropped _ | .resumeResumed _ _ | .resumeKept _ => .resume

/-- Number of the cause of a SEARCH notice that names the end of a context (Table 11-5). -/
def searchCauseNo : LastCause → Nat
  | .noSignal => 3 | .zone => 4 | .gaps => 5 | .link => 6 | .aborted => 7 | .lostLevel => 8 | .stowed => 9
  | .none => 0 | .wind => 0

/-- Number of the cause, from 1 in the order the class lists its causes (Table 11-5). Table 5-10 lists "WARN, HOLD, CALM"
in that order. -/
def Notice.causeNo : Notice → Nat
  | .axis _ c => c.code
  | .zoneStopped _ _ => 1
  | .zonePose _ => 2
  | .deployUp => 1
  | .deployDown => 2
  | .deployHeight _ => 3
  | .deployLowering _ => 4
  | .deployHeld _ => 5
  | .deployAwake => 6
  | .windState .warn _ => 1
  | .windState .hold _ => 2
  | .windState .calm _ => 3
  | .windStow _ => 4
  | .windLowering _ => 5
  | .windBlocked => 6
  | .windLowered _ => 7
  | .windStopped => 8
  | .windHalted _ => 9
  | .windSilent => 10
  | .slopeFault _ _ => 1
  | .slopeSilent => 2
  | .linkUp _ => 1
  | .linkChanged _ _ => 2
  | .linkNoCommon => 3
  | .linkRetry => 4
  | .linkMismatch _ => 5
  | .linkDown => 6
  | .searchTracked _ => 1
  | .searchReacquire _ => 2
  | .searchEnded c _ _ => searchCauseNo c
  | .searchStowed _ => 9
  | .resumeSuspended _ _ => 1
  | .resumeDropped _ => 2
  | .resumeResumed _ _ => 3
  | .resumeKept _ => 4

/-- The values a notice carries, in order (R187). -/
def Notice.values : Notice → List Int
  | .axis a _ => [axisCode a]
  | .zoneStopped a row => [axisCode a, row]
  | .zonePose row => [row]
  | .deployHeight h => [h]
  | .deployLowering c => [c.code]
  | .deployHeld c => [c.code]
  | .windState _ g => [g]
  | .windStow g => [g]
  | .windLowering t => [t]
  | .windLowered h => [h]
  | .windHalted c => [c.code]
  | .slopeFault r p => [r, p]
  | .linkUp c => [bandCode c.band, polCode c.pol, periodCode c.period]
  | .linkChanged b p => [bandCode b, polCode p]
  | .linkMismatch code => [code]
  | .searchTracked row => [row]
  | .searchReacquire row => [row]
  | .searchEnded _ row phase => [row, phase.code]
  | .searchStowed row => [row]
  | .resumeSuspended row c => [row, c.code]
  | .resumeDropped row => [row]
  | .resumeResumed row c => [row, c.code]
  | .resumeKept row => [row]
  | .deployUp | .deployDown | .deployAwake | .windBlocked | .windStopped | .windSilent | .slopeSilent
  | .linkNoCommon | .linkRetry | .linkDown => []

end Sys2Proof.Machine
end

