-- ==== Sys2Proof/Machine/Flags.lean ====
section
/-! DEFINITION. Conditions formed afresh from the state each time they are read: nothing here is stored
(R26, R36, R53, R68, R69, R90, R93, R127, R130, R173). -/

namespace Sys2Proof.Machine

/-! ## Axes -/

/-- R26: the selected target while MOVING, the jog target while JOGGING, the position in OFF, IDLE and HALTED. -/
def AxisRec.presentTarget (r : AxisRec) : Option Int :=
  match r.motion with
  | .moving => r.selected
  | .jogging => r.jogTarget
  | .off | .idle | .halted => r.position

/-- MOVING or JOGGING. -/
def AxisRec.travelling (r : AxisRec) : Bool := r.motion = .moving || r.motion = .jogging

/-- R17, R21: some axis is HALTED. -/
def anyHalted (s : State) : Bool := allAxes.any fun a => (s.axis a).motion = .halted

/-! ## Wind and slope -/

/-- R90: the highest speed in the report memory; absent while the memory is empty. -/
def Wsm.gustValue (w : Wsm) : Option Nat :=
  match w.memory with
  | [] => none
  | v :: vs => some (vs.foldl max v)

/-- R93: the highest-numbered valid row whose wind floor is at most the gust value. -/
def rowIn (g : Nat) (rows : List DerateRow) : Option (Nat × DerateRow) :=
  (rows.zipIdx.reverse.find? fun ri => ri.1.valid && ri.1.floor ≤ g).map fun ri => (ri.2, ri.1)

/-- R93: the derate row in force, with its number. -/
def Wsm.inForce (w : Wsm) : Option (Nat × DerateRow) :=
  match w.gustValue with
  | none => none
  | some g => rowIn g w.derate

/-- R93: the caps of the row in force. -/
def Wsm.caps (w : Wsm) : Option DerateRow := w.inForce.map (·.2)

/-- R50, R76, R97: the height exceeds the height cap of the row in force. -/
def aboveCap (w : Wsm) (height : Int) : Bool := w.caps.any fun row => row.heightCap < height

/-- R50, R70: the rate cap that the row in force puts on an axis; MAST and POL have none. -/
def rateCap (w : Wsm) : Axis → Option Nat
  | .pan => w.caps.map (·.panCap)
  | .tilt => w.caps.map (·.tiltCap)
  | .mast | .pol => none

/-- A rate lowered to a cap when there is one. -/
def capped (rate : Nat) : Option Nat → Nat
  | none => rate
  | some cap => min rate cap

/-- Table 5-9. -/
def slopeOf (limit margin : Nat) (roll pitch : Int) : SlopeState :=
  let worst := max roll.natAbs pitch.natAbs
  if limit + margin < worst then .fault else if limit < worst then .over else .level

/-! ## Deploy -/

/-- R68: the stow test. It fails when one of the three positions is absent. -/
def stowTest (s : State) : Bool :=
  match (s.axis .mast).position, (s.axis .pan).position, (s.axis .tilt).position with
  | some h, some p, some t =>
      h ≤ s.dsq.stowHeight && withinTol p s.dsq.stowPan (s.axis .pan).tolerance
        && withinTol t s.dsq.stowTilt (s.axis .tilt).tolerance
  | _, _, _ => false

/-- R69: the number of the highest slot whose deploy action is not NONE, plus one. -/
def tableLength : List Slot → Nat
  | [] => 0
  | sl :: rest =>
    match tableLength rest with
    | 0 => if sl.deploy.kind = .none then 0 else 1
    | n + 1 => n + 2

/-- R72, R76: a re-height is under way: DEPLOYED with MAST owned by SEQUENCE. -/
def reheighting (s : State) : Bool := s.dsq.deploy = .deployed && (s.axis .mast).owner = .sequence

/-! ## Transmitter enable -/

/-- R173: the enable condition, from the fields of TXC alone. -/
def Txc.condition (t : Txc) : Bool :=
  t.deploy = .deployed && t.gust ≠ .hold && !t.axisHalted && ((t.tracked && !t.mute) || t.latch)

/-! ## Link -/

/-- Table 7-2: the newest sequence, that of the newest record. -/
def Sha.newest (h : Sha) : Option Nat := h.window.head?.map (·.seq)

/-- The agreed period, ms (Table 0-6). -/
def Sha.agreedPeriod (h : Sha) : Option Nat := h.agreed.map fun c => periodMs c.period

end Sys2Proof.Machine
end

