-- ==== Sys2Proof/Machine/Ops.lean ====
section
/-! DEFINITION. The named operations every block uses: the frames a port sends, the upstream send queue (R179), the notice
classes (R183, R184), the replies (R42, R181), the conditions under which a frame or an event is taken at all (R179, R186),
and the values of a power-on reset (R186). -/

namespace Sys2Proof.Machine

/-! ## Frames sent on the drive line and pages sent on the site line (R179, R186) -/

/-- A frame leaves on the drive line. -/
def sendDrive (s : State) (f : DriveFrame) : State := s.withOut { s.out with drive := s.out.drive ++ [f] }

/-- Frames leave on the drive line in order. -/
def sendDriveAll (s : State) (fs : List DriveFrame) : State := s.withOut { s.out with drive := s.out.drive ++ fs }

/-- A page leaves on the site line. -/
def sendSite (s : State) (p : SitePage) : State := s.withOut { s.out with site := s.out.site ++ [p] }

/-! ## The upstream send queue (R179) -/

/-- Place a frame behind the frames that wait. -/
def placeUp (s : State) (f : UpFrame) : State := s.withLnu { s.lnu with queue := s.lnu.queue ++ [f] }

/-- A REPLY is placed while the queue holds fewer than 64 frames. -/
def placeReply (s : State) (f : UpFrame) : State :=
  if s.lnu.queue.length < Config.queuePlaces then placeUp s f else s

/-- A drive-line frame is placed only while the queue holds fewer than 24 frames; otherwise it is discarded. -/
def forwardUp (s : State) (node kind : Nat) (payload : List Byte) : State :=
  if s.lnu.queue.length < Config.forwardPlaces then placeUp s (.forwarded node kind payload) else s

/-- Held NOTICE frames that find a place, oldest first, while the queue holds fewer than 63 frames: the queue after, and
the frames still held. -/
def fillNotices : List UpFrame → List Notice → List UpFrame × List Notice
  | q, [] => (q, [])
  | q, n :: ns => if q.length < Config.noticePlaces then fillNotices (q ++ [.notice n]) ns else (q, n :: ns)

/-- R179: place the held NOTICE frames that find a place. -/
def placeHeld (s : State) : State :=
  let r := fillNotices s.lnu.queue s.ntu.held
  (s.withLnu { s.lnu with queue := r.1 }).withNtu { s.ntu with held := r.2 }

/-- R179: a NOTICE falls due: it is placed, or held behind those held before it. -/
def noticeDue (s : State) (n : Notice) : State := placeHeld (s.withNtu { s.ntu with held := s.ntu.held ++ [n] })

/-! ## Notice classes (R183, R184) -/

/-- R183: an event is handed to the Notice Unit. -/
def raise (s : State) (n : Notice) : State :=
  let row := s.ntu.get n.cls
  if row.pending then s.withNtu (s.ntu.set n.cls { row with latest := some n, newer := true })
  else noticeDue (s.withNtu (s.ntu.set n.cls { row with latest := some n, pending := true })) n

/-- R184: what a READ of the latest notice of a class does to the class. DESIGN CHOICE (log 45): R184 settles a NOTICE frame
of the class already in the send queue, not one that the NTU still holds (R179). The held frame stays held and is sent when a
place frees; with newer-cause set a second frame of the class is held behind it. -/
def readNotice (s : State) (c : NoticeClass) : State :=
  let row := s.ntu.get c
  if !row.pending then s
  else if row.newer then
    match row.latest with
    | some n => noticeDue (s.withNtu (s.ntu.set c { row with newer := false })) n
    | none => s.withNtu (s.ntu.set c { row with newer := false })
  else s.withNtu (s.ntu.set c { row with pending := false })

/-! ## Replies (R42, R181) -/

/-- REPLY DONE to a node-0 request. -/
def done (s : State) (kind : Nat) : State := placeReply s (.reply kind 0 none .none)

/-- REPLY DONE with data. -/
def doneWith (s : State) (kind : Nat) (data : ReplyData) : State := placeReply s (.reply kind 0 none data)

/-- REPLY REFUSED to a node-0 request. -/
def refuse (s : State) (kind : Nat) (why : Reason) : State := placeReply s (.reply kind 0 (some why) .none)

/-- R42: REPLY REFUSED to a console frame for a node of the drive line. -/
def refuseFrame (s : State) (kind node : Nat) (why : Reason) : State := placeReply s (.reply kind node (some why) .none)

/-- The reply a request ends with. -/
def answer (s : State) (kind : Nat) : Option Reason → State
  | none => done s kind
  | some why => refuse s kind why

/-! ## What is taken at all -/

/-- R186: while RST is asserted every frame received is discarded and no timer runs. -/
def onPart (f : State → State) (s : State) : State := if s.lnu.rst then s else f s

/-- R179: a console frame received while the queue holds 64 frames is discarded as if it had failed its check. -/
def onConsole (f : State → State) (s : State) : State :=
  onPart (fun s => if s.lnu.queue.length < Config.queuePlaces then f s else s) s

/-! ## Power-on values (R186) -/

/-- R186: every table, setting and state at its power-on value. The levels of the two input pins are what is outside the
part, and the record of outputs, the waiting commands and the count of free values drawn are the model's (log 1, log 3,
log 4, log 10). -/
def powerOnValues (s : State) : State :=
  ((((State.reset).withOut s.out).withPending s.pending).withAcq { Acq.powerOn with drawn := s.acq.drawn }).withDsq
    { Dsq.powerOn with parkIn := s.dsq.parkIn, stowIn := s.dsq.stowIn }

/-- R3, R186: the power-on values, then the STOP and CHANNEL OFF frames of AXS. -/
def powerUp (s : State) : State := sendDriveAll (powerOnValues s) resetFrames

/-- R186: RST is asserted. Every state is at its power-on value, no frame is sent, and the ports take nothing. -/
def holdInReset (s : State) : State :=
  (powerOnValues s).withLnu
    { Lnu.powerOn with rst := true, upstreamPort := .inReset, drivePort := .inReset, sitePort := .inReset }

end Sys2Proof.Machine
end

