-- ==== Sys2Proof/Machine/Kou.lean ====
section
/-! DEFINITION. The Keep-Out Unit (spec/02): poses, swept boxes and the five questions it answers, with the counting of
hits. -/

namespace Sys2Proof.Machine

/-- R26: a pose, the positions of PAN, TILT and MAST. -/
structure Pose where
  pan    : Int
  tilt   : Int
  height : Int
deriving DecidableEq, Repr

/-- R27: a box of three closed intervals, each a low and a high end. -/
structure Box where
  pan    : Int × Int
  tilt   : Int × Int
  height : Int × Int
deriving DecidableEq, Repr

/-- The closed interval between two positions. -/
def span (a b : Int) : Int × Int := (min a b, max a b)

/-! ## Containment and meeting (R25, R28) -/

/-- Table 2-2: pan on the arc. -/
def onArc (z : Zone) (pan : Int) : Bool :=
  if z.arcFrom ≤ z.arcTo then z.arcFrom ≤ pan && pan ≤ z.arcTo else z.arcFrom ≤ pan || pan ≤ z.arcTo

/-- R25: the pose lies inside the zone. An invalid zone takes part in no test. -/
def zoneHolds (z : Zone) (p : Pose) : Bool :=
  z.valid && onArc z p.pan && (z.tiltLow ≤ p.tilt && p.tilt ≤ z.tiltHigh)
    && (z.heightLow ≤ p.height && p.height ≤ z.heightHigh)

/-- Table 2-3: a pan interval against the arc. -/
def overlapsArc (z : Zone) (i : Int × Int) : Bool :=
  if z.arcFrom ≤ z.arcTo then i.1 ≤ z.arcTo && z.arcFrom ≤ i.2 else z.arcFrom ≤ i.2 || i.1 ≤ z.arcTo

/-- R28: an interval against a range low to high; ends count. -/
def overlaps (low high : Int) (i : Int × Int) : Bool := i.1 ≤ high && low ≤ i.2

/-- R28: the box meets the zone. -/
def zoneMeets (z : Zone) (b : Box) : Bool :=
  z.valid && overlapsArc z b.pan && overlaps z.tiltLow z.tiltHigh b.tilt && overlaps z.heightLow z.heightHigh b.height

/-! ## Poses and boxes of the axis records (R26, R27) -/

/-- R26: the present pose; absent is "no pose". -/
def presentPose (s : State) : Option Pose :=
  match (s.axis .pan).position, (s.axis .tilt).position, (s.axis .mast).position with
  | some p, some t, some h => some ⟨p, t, h⟩
  | _, _, _ => none

/-- R27: the interval of an axis at rest or under a move of its own; its whole full range when it has no position. A
travelling axis always has a present target; where a state that no run reaches has none, the interval is the position
(log 25). -/
def axisSpan (s : State) (a : Axis) : Int × Int :=
  match (s.axis a).position with
  | none => (fullLow a, fullHigh a)
  | some p => span p ((s.axis a).presentTarget.getD p)

/-- R27: the interval of the moving axis, from its position to the target. -/
def moveSpan (s : State) (a : Axis) (target : Int) : Int × Int :=
  match (s.axis a).position with
  | none => (fullLow a, fullHigh a)
  | some p => span p target

/-- The box of the three geometric axes as they stand and travel, with one interval given. -/
def boxWith (s : State) (a : Axis) (i : Int × Int) : Box where
  pan := if a = .pan then i else axisSpan s .pan
  tilt := if a = .tilt then i else axisSpan s .tilt
  height := if a = .mast then i else axisSpan s .mast

/-- R27: the swept box of a move of one geometric axis from its position to a target. -/
def sweptBox (s : State) (a : Axis) (target : Int) : Box := boxWith s a (moveSpan s a target)

/-- R26: the coordinate of the end pose on one axis: the target on the axis moved, the present target on the others. -/
def endCoord (s : State) (moved : Axis) (target : Int) (a : Axis) (here : Int) : Int :=
  if a = moved then target else (s.axis a).presentTarget.getD here

/-- R26: the end pose of a move, from a start pose. -/
def endPose (s : State) (a : Axis) (target : Int) (start : Pose) : Pose where
  pan := endCoord s a target .pan start.pan
  tilt := endCoord s a target .tilt start.tilt
  height := endCoord s a target .mast start.height

/-! ## Counting (R24) -/

/-- R24: one more hit; 255 stays. -/
def Zone.hit (z : Zone) : Zone := { z with hits := if z.hits < 255 then z.hits + 1 else z.hits }

/-- R24: a counted check. The answer is "blocked" when some zone blocks, and then every blocking zone gains 1. -/
def countedCheck (s : State) (blocks : Zone → Bool) : Bool × State :=
  (s.zones.any blocks, s.withZones (s.zones.map fun z => if blocks z then z.hit else z))

/-! ## The questions -/

/-- R29: the zones that block a move of an axis to a target. -/
def moveBlocker (s : State) (a : Axis) (target : Int) : Zone → Bool :=
  let box := sweptBox s a target
  match presentPose s with
  | none => fun z => zoneMeets z box
  | some start =>
    if s.zones.any fun z => zoneHolds z start then
      fun z => zoneHolds z (endPose s a target start) || (zoneMeets z box && !zoneHolds z start)
    else fun z => zoneMeets z box

/-- R29: the move check, counted: whether the move is BLOCKED, and the table after. POL is ALLOWED. -/
def moveCheck (s : State) (a : Axis) (target : Int) : Bool × State :=
  if a = .pol then (false, s) else countedCheck s (moveBlocker s a target)

/-- R31: the box check, counted. -/
def boxCheck (s : State) (b : Box) : Bool × State := countedCheck s fun z => zoneMeets z b

/-- R32: the pose check of a pose given whole, counted. -/
def poseCheck (s : State) (p : Pose) : Bool × State := countedCheck s fun z => zoneHolds z p

/-- R32: the pose watch of the present pose, not counted: true for CLEAR, false for FORBIDDEN and NO_POSE. -/
def poseClear (s : State) : Bool :=
  match presentPose s with
  | none => false
  | some p => !s.zones.any fun z => zoneHolds z p

/-- Table 2-5: the candidate position of one zone, its other ranges already met. -/
def zoneEdge (z : Zone) (a : Axis) (start : Int) (dir : Dir) : Option Int :=
  match a, dir with
  | .tilt, .up => if start < z.tiltLow then some z.tiltLow else none
  | .tilt, .down => if z.tiltHigh < start then some z.tiltHigh else none
  | .mast, .up => if start < z.heightLow then some z.heightLow else none
  | .mast, .down => if z.heightHigh < start then some z.heightHigh else none
  | .pan, .up =>
    if z.arcFrom ≤ z.arcTo then (if start < z.arcFrom then some z.arcFrom else none)
    else (if z.arcTo < start ∧ start < z.arcFrom then some z.arcFrom else none)
  | .pan, .down =>
    if z.arcFrom ≤ z.arcTo then (if z.arcTo < start then some z.arcTo else none)
    else (if z.arcTo < start ∧ start < z.arcFrom then some z.arcTo else none)
  | .pol, _ => none

/-- R33: a zone whose ranges on the other axes do not overlap does not bound the travel. -/
def zoneBounds (s : State) (z : Zone) (a : Axis) : Bool :=
  z.valid && (a = .pan || overlapsArc z (axisSpan s .pan))
    && (a = .tilt || overlaps z.tiltLow z.tiltHigh (axisSpan s .tilt))
    && (a = .mast || overlaps z.heightLow z.heightHigh (axisSpan s .mast))

/-- The nearer of two boundaries in a direction of travel. -/
def nearer (dir : Dir) (x y : Int) : Int :=
  match dir with
  | .up => min x y
  | .down => max x y

/-- The nearer of two boundaries, either of which may be missing. -/
def nearerOpt (dir : Dir) : Option Int → Option Int → Option Int
  | some x, some y => some (nearer dir x y)
  | none, y => y
  | x, none => x

/-- R33: the extent query: the boundary, or none. The conditions of Table 2-5 leave out every zone that the box of zero
length at the start meets. -/
def extentQuery (s : State) (a : Axis) (start : Int) (dir : Dir) : Option Int :=
  s.zones.foldl (fun best z => if zoneBounds s z a then nearerOpt dir best (zoneEdge z a start dir) else best) none

/-! ## A zone as it is written (R23) -/

/-- A value refused RANGE when it is not there. -/
def orRange (v : Option α) (f : α → β) : Except Reason β :=
  match v with
  | some x => .ok (f x)
  | none => .error .range

/-- R23: the checks of a zone write; the hit count is read-only. -/
def Zone.write (z : Zone) (field : Nat) (v : Int) : Except Reason Zone :=
  match field with
  | 0 => orRange (boolOf v) fun b => { z with valid := b }
  | 1 => orRange (inRange 0 3599 v) fun x => { z with arcFrom := x }
  | 2 => orRange (inRange 0 3599 v) fun x => { z with arcTo := x }
  | 3 => orRange (inRange (-100) z.tiltHigh v) fun x => { z with tiltLow := x }
  | 4 => orRange (inRange z.tiltLow 900 v) fun x => { z with tiltHigh := x }
  | 5 => orRange (inRange 0 z.heightHigh v) fun x => { z with heightLow := x }
  | 6 => orRange (inRange z.heightLow 1500 v) fun x => { z with heightHigh := x }
  | _ => .error .ignored

/-- R35: the re-check of the remaining move of a travelling axis against the written zone alone: true when the zone stops
it. -/
def zoneStops (s : State) (z : Zone) (a : Axis) : Bool :=
  match (s.axis a).presentTarget with
  | none => false
  | some target =>
    match presentPose s with
    | none => zoneMeets z (sweptBox s a target)
    | some start =>
      if zoneHolds z start then zoneHolds z (endPose s a target start) else zoneMeets z (sweptBox s a target)

end Sys2Proof.Machine
end

