-- ==== Sys2Proof/Machine/Txc.lean ====
section
/-! DEFINITION. The Transmitter Enable Control (spec/10). Every change of its fields goes through `txcJudged`, so that TXEN
and enable pending follow the enable condition (R173). -/

namespace Sys2Proof.Machine

/-! ## On the fields alone -/

/-- Enable pending afresh: set, with nothing seen. -/
def Txc.pend (t : Txc) : Txc := { t with pending := true, panSeen := false, tiltSeen := false }

/-- Off, with enable pending and both seen fields no. -/
def Txc.drop (t : Txc) : Txc := { t with txen := false, pending := false, panSeen := false, tiltSeen := false }

/-- R173: the fields after a change from `old` to `new`: the condition that becomes true sets enable pending, the one that
becomes false drops TXEN, and a change that leaves it as it was does neither. -/
def Txc.judged (old new : Txc) : Txc :=
  match old.condition, new.condition with
  | false, true => new.pend
  | true, false => new.drop
  | _, _ => new

/-- R173: the deploy state as handed; a departure from DEPLOYED clears the latch and the mute. -/
def Txc.handDeploy (t : Txc) (d : Deploy) : Txc :=
  if t.deploy = .deployed ∧ d ≠ .deployed then { t with deploy := d, latch := false, mute := false }
  else { t with deploy := d }

/-- R173: the tell that the running row is, or is no longer, TRACKED; the end of a track ends its mute. -/
def Txc.handTracked (t : Txc) (b : Bool) : Txc :=
  if b then { t with tracked := true } else { t with tracked := false, mute := false }

/-- R174: TX_OFF. -/
def Txc.off (t : Txc) : Txc := { t.drop with latch := false, mute := t.tracked || t.mute }

/-- R177 (Table 10-2): the STOW effects. -/
def Txc.stowDrop (t : Txc) : Txc := { t.drop with latch := false, mute := false }

/-- R175: a position of the axis has been handed. -/
def Txc.seen (t : Txc) (a : Axis) : Txc :=
  if t.pending then { t with panSeen := t.panSeen || a = .pan, tiltSeen := t.tiltSeen || a = .tilt } else t

/-- R175, R176: the answer of a pose watch after a position. -/
def Txc.watched (t : Txc) (clear : Bool) : Txc :=
  if t.txen then (if clear then t else { t.pend with txen := false })
  else if t.pending && t.panSeen && t.tiltSeen && clear then { t.drop with txen := true }
  else t

/-- R176: the pose judgement of a zone write. -/
def Txc.zoneJudged (t : Txc) (clear : Bool) : Txc :=
  if t.txen && !clear then { t.pend with txen := false }
  else if t.pending then t.pend
  else t

/-! ## In the state -/

/-- R173: a change of the fields, judged. -/
def txcJudged (s : State) (new : Txc) : State := s.withTxc (s.txc.judged new)

/-- R66, R173: the Deploy Sequencer hands the deploy state. -/
def txcDeploy (s : State) (d : Deploy) : State := txcJudged s (s.txc.handDeploy d)

/-- R95: the Wind and Slope Monitor hands the gust state. -/
def txcGust (s : State) (g : Gust) : State := txcJudged s { s.txc with gust := g }

/-- R17, R21: AXS tells whether an axis is HALTED. -/
def txcHalted (s : State) (b : Bool) : State := txcJudged s { s.txc with axisHalted := b }

/-- R154, R156, R158, R159, R160, R164: the Acquisition Engine tells the start or the end of a track. -/
def txcTracked (s : State) (b : Bool) : State := txcJudged s (s.txc.handTracked b)

/-- R174: TX_ON in DEPLOYED. -/
def txcOn (s : State) : State := txcJudged s { s.txc with latch := true, mute := false }

/-- R174: TX_OFF. -/
def txcOff (s : State) : State := s.withTxc s.txc.off

/-- R78, R177: the STOW effects drop TXEN. -/
def txcStow (s : State) : State := s.withTxc s.txc.stowDrop

/-- R175, R176: a new position of MAST, PAN or TILT is handed. -/
def txcPosition (s : State) (a : Axis) : State :=
  if a = .pol then s else s.withTxc ((s.txc.seen a).watched (poseClear s))

/-- R35, R176: KOU hands the pose judgement of a zone write. -/
def txcZone (s : State) : State := s.withTxc (s.txc.zoneJudged (poseClear s))

end Sys2Proof.Machine
end

