-- ==== Sys2Proof/Machine/Axs.lean ====
section
/-! DEFINITION. The Axis Supervisor (spec/01): takes, motion requests, channels and halts. What an owner does on being told
of an event stands in Events.lean, above the blocks that own axes. -/

namespace Sys2Proof.Machine

/-! ## Owners (R4, R5) -/

/-- R5: an axis taken while JOGGING goes on as MOVING, the jog target its selected target. -/
def AxisRec.taken (r : AxisRec) (o : Owner) : AxisRec :=
  if r.motion = .jogging then { r.setTarget r.sel r.jogTarget with motion := .moving, jogTarget := none, owner := o }
  else { r with owner := o }

/-- R4, R5, R63: a take. It closes an open jog run. A take by the party that already owns the axis changes nothing
(log 28). -/
def axsTake (s : State) (o : Owner) (a : Axis) : State :=
  if (s.axis a).owner = o then s else closeRun (s.setAxis a ((s.axis a).taken o)) a

/-- Takes of several axes, in order. -/
def axsTakeAll (s : State) (o : Owner) (as : List Axis) : State := as.foldl (fun s a => axsTake s o a) s

/-- R4: a release to owner NONE. -/
def axsRelease (s : State) (a : Axis) : State := s.setAxis a { s.axis a with owner := .none }

/-- Releases of several axes, in order. -/
def axsReleaseAll (s : State) (as : List Axis) : State := as.foldl axsRelease s

/-! ## Stops (R11) -/

/-- R11: the record after a STOP of an IDLE, MOVING or JOGGING axis. -/
def AxisRec.stopped (r : AxisRec) : AxisRec :=
  { r with
    motion := .idle, jogTarget := none, stopping := true, arrivalTimer := none
    stopMoved := r.motion = .moving || (r.stopping && r.stopMoved) }

/-- R11, R63: a STOP request. OFF: nothing. HALTED: the frame only. Otherwise the frame, and the axis is IDLE and
stopping; an open jog run closes. -/
def axsStop (s : State) (a : Axis) : State :=
  match (s.axis a).motion with
  | .off => s
  | .halted => sendDrive s (.stop a)
  | .idle | .moving | .jogging => closeRun (sendDrive (s.setAxis a (s.axis a).stopped) (.stop a)) a

/-- A STOP of the axis when it is MOVING or JOGGING. -/
def axsStopTravelling (s : State) (a : Axis) : State := if (s.axis a).travelling then axsStop s a else s

/-- STOPs of the travelling axes of a list, in order. -/
def axsStopAll (s : State) (as : List Axis) : State := as.foldl axsStopTravelling s

/-! ## Moves (R7, R8, R9) -/

/-- R7: the checks of a MOVE TO, a SELECT or a JOG MOVE, in order. -/
def moveRefusal (s : State) (o : Owner) (a : Axis) (target : Option Int) (rate : Option Nat) : Option Reason :=
  let r := s.axis a
  if r.owner ≠ o then some .owner
  else if r.motion = .off ∨ r.motion = .halted then some .state
  else if !channelsFull s a then some .state
  else if r.position.isNone then some .state
  else if !target.any (inFull a) then some .range
  else if rate = some 0 then some .range
  else none

/-- R8: the rate carried, lowered to the rate limit, or the rate limit when none is carried. -/
def AxisRec.rateFor (r : AxisRec) (rate : Option Nat) : Nat := min (rate.getD r.rateLimit) r.rateLimit

/-- R8: the record after its MOVE has been sent. -/
def AxisRec.moveSent (r : AxisRec) : AxisRec :=
  { r with
    motion := .moving, jogTarget := none, stopping := false, stopMoved := false, arrivalTimer := some r.arrivalLimit }

/-- R9: the record after the MOVE of a jog has been sent. -/
def AxisRec.jogSent (r : AxisRec) (target : Int) : AxisRec :=
  { r.moveSent with motion := .jogging, jogTarget := some target }

/-- R7: a move that ends a jog closes its run. -/
def endJog (s : State) (a : Axis) : State := if (s.axis a).motion = .jogging then closeRun s a else s

/-- R8: the MOVE of a record whose target has been written is sent. -/
def sendMove (s : State) (a : Axis) (r : AxisRec) (target : Int) (rate : Option Nat) : State :=
  sendDrive ((endJog s a).setAxis a r) (.move a target (r.rateFor rate))

/-- R7, R8: MOVE TO. -/
def axsMoveTo (s : State) (o : Owner) (a : Axis) (target : Int) (rate : Option Nat) : Except Reason State :=
  match moveRefusal s o a (some target) rate with
  | some why => .error why
  | none =>
    let r := s.axis a
    .ok (sendMove s a (r.setTarget r.sel (some target)).moveSent target rate)

/-- R7: SET TARGET. -/
def axsSetTarget (s : State) (o : Owner) (a : Axis) (which : Sel) (target : Int) : Except Reason State :=
  let r := s.axis a
  if r.owner ≠ o then .error .owner
  else if r.motion = .halted then .error .state
  else if !inFull a target then .error .range
  else .ok (s.setAxis a (r.setTarget which (some target)))

/-- R7, R8: SELECT. -/
def axsSelect (s : State) (o : Owner) (a : Axis) (which : Sel) (rate : Option Nat) : Except Reason State :=
  let r := s.axis a
  match moveRefusal s o a (r.target which) rate, r.target which with
  | some why, _ => .error why
  | none, none => .error .range
  | none, some target => .ok (sendMove s a { r with sel := which }.moveSent target rate)

/-- R9: JOG MOVE. The Motion Gate opens the run after it. -/
def axsJogMove (s : State) (o : Owner) (a : Axis) (target : Int) (rate : Nat) : Except Reason State :=
  match moveRefusal s o a (some target) (some rate) with
  | some why => .error why
  | none =>
    let r := s.axis a
    .ok (sendDrive (s.setAxis a (r.jogSent target)) (.move a target (r.rateFor (some rate))))

/-! ## Channels (R12, R13) -/

/-- Table 1-6: the channel's new state ends a move of its axis. -/
def endsMove (s : State) (c : Channel) (st : ChanState) : Bool :=
  (s.axis c.axis).travelling && s.chan c ≠ st && st ≠ .full

/-- Table 1-6, at rest: OFF goes to IDLE on FULL or LOW, IDLE goes to OFF on OFF; LOCK changes neither; HALTED stays. -/
def restMotion (c : Channel) (st : ChanState) (m : Motion) : Motion :=
  match c, m, st with
  | .lock, m, _ => m
  | _, .off, .full => .idle
  | _, .off, .low => .idle
  | _, .idle, .off => .off
  | _, m, _ => m

/-- R63: a jog run closes when the channel goes to LOW or OFF. -/
def closeRunUnlessFull (s : State) (a : Axis) (st : ChanState) : State := if st = .full then s else closeRun s a

/-- R12: the frame is sent and the record takes the state. -/
def sendChannel (s : State) (c : Channel) (st : ChanState) : State :=
  sendDrive (s.withAxs { s.axs with channels := s.axs.channels.set c st }) (.channel c st)

/-- R99: a wind lowering ends with a release of MAST and a notice. -/
def endLowering (s : State) (n : Notice) : State := raise (axsRelease s .mast) n

/-- R13: a change to a state the channel does not hold. The move it ends is stopped first; where that was a wind lowering,
the lowering ends (R99). -/
def channelChange (s : State) (c : Channel) (st : ChanState) : State :=
  let a := c.axis
  let ended := endsMove s c st
  let s1 := if ended then axsStop s a else s
  let s2 := sendChannel (closeRunUnlessFull s1 a st) c st
  let s3 := s2.setAxis a { s2.axis a with motion := restMotion c st (s2.axis a).motion }
  if ended && (s3.axis a).owner = .wind then endLowering s3 .windStopped else s3

/-- R12: a CHANNEL request. A request for the state a channel already holds sends the frame again and changes nothing. -/
def axsChannel (s : State) (c : Channel) (st : ChanState) : State :=
  if s.chan c = st then sendDrive s (.channel c st) else channelChange s c st

/-- R12: several channels at once, in the order LIFT, LOCK, PAN, TILT, POL; each to the state the caller names for it, or
left alone. -/
def axsChannels (s : State) (want : State → Channel → Option ChanState) : State :=
  allChannels.foldl (fun s c => match want s c with
    | some st => axsChannel s c st
    | none => s) s

/-! ## Halts (R17) -/

/-- R17: the record on entry to HALTED. -/
def AxisRec.halt (r : AxisRec) (cause : FaultCause) : AxisRec :=
  { r with
    motion := .halted, arrivalTimer := none, stopping := false, stopMoved := false, jogTarget := none
    releaseReady := false, faultCause := cause }

/-- R17, R63: what AXS does on entry to HALTED before it tells the owner: the STOP, the record, the notice and the tell to
TXC; an open jog run closes. -/
def axsHalt (s : State) (a : Axis) (cause : FaultCause) : State :=
  txcHalted (raise (closeRun (sendDrive (s.setAxis a ((s.axis a).halt cause)) (.stop a)) a) (.axis a cause)) true

/-! ## Clearing (R21) -/

/-- R21: the record of an axis that leaves HALTED. -/
def AxisRec.cleared (r : AxisRec) (ch : ChanState) : AxisRec :=
  { r with
    motion := if ch = .off then .off else .idle
    faultCause := .none, driveCode := none, releaseReady := false, working := r.position, alternate := r.position
    sel := .work }

/-- R21: one axis. -/
def clearAxis (s : State) (a : Axis) : State :=
  let r := s.axis a
  if r.motion = .halted && r.releaseReady then s.setAxis a (r.cleared (s.chan (moveChannel a))) else s

/-- R21: the clearing of CLEAR_HOLD, and the tell to TXC when no axis remains HALTED. -/
def clearAxes (s : State) : State :=
  let s1 := allAxes.foldl clearAxis s
  if anyHalted s1 then s1 else txcHalted s1 false

/-! ## Reset (R3) -/

/-- R3: the record after a RESET request: the operational state of a reset, with the position, both targets the position,
and the settings kept. -/
def AxisRec.resetKept (r : AxisRec) : AxisRec :=
  { r with
    motion := .off, owner := .none, sel := .work, stopping := false, stopMoved := false, releaseReady := false
    faultCause := .none, driveCode := none, jogTarget := none, working := r.position, alternate := r.position
    arrivalTimer := none, silenceWatch := none }

/-- R3: what a RESET request does to AXS. -/
def axsReset (s : State) : State :=
  let x := s.axs
  sendDriveAll (s.withAxs ⟨x.mast.resetKept, x.pan.resetKept, x.tilt.resetKept, x.pol.resetKept, .allOff⟩) resetFrames

end Sys2Proof.Machine
end

