-- ==== Sys2Proof/Machine/Stb.lean ====
section
/-! DEFINITION. The Site Table (spec/06): entry writes, mask narrowing, and the changes the Acquisition Engine asks for. -/

namespace Sys2Proof.Machine

/-- An entry of the Site Table. -/
def State.entry (s : State) (row : Nat) : Option Entry := s.sites[row]?

/-- Change an entry; a row that does not exist changes nothing. -/
def modifyEntry (s : State) (row : Nat) (f : Entry → Entry) : State := s.withSites (s.sites.modify row f)

/-! ## Changes asked by the Acquisition Engine (R113) -/

/-- R113: a change from one of the named states; in another state it is not made. The last cause is written where the table
gives one. -/
def Entry.change (e : Entry) (source : List EntryState) (target : EntryState) (cause : Option LastCause) : Entry :=
  if source.contains e.state then
    { e with state := target, learned := { e.learned with cause := cause.getD e.learned.cause } }
  else e

/-- R113: a change of a row. -/
def stbChange (s : State) (row : Nat) (source : List EntryState) (target : EntryState) (cause : Option LastCause) : State :=
  modifyEntry s row fun e => e.change source target cause

/-- Table 6-5: the states of the row of the running context. -/
def runningStates : List EntryState := [.acquiring, .tracked]

/-! ## Masks (R106) -/

/-- R106: both masks ANDed with the van ability word. -/
def EntrySettings.narrow (x : EntrySettings) (bands : BandMask) (pols : PolMask) : EntrySettings :=
  { x with bandMask := x.bandMask &&& bands, polMask := x.polMask &&& pols }

/-- R106: a new van ability word narrows every entry that is not EMPTY. -/
def Entry.narrow (e : Entry) (bands : BandMask) (pols : PolMask) : Entry :=
  if e.state = .empty then e else { e with set := e.set.narrow bands pols }

/-! ## Management writes (R105, R107, R111, R112) -/

/-- R105, R106: the settings after a write of one of them (fields 1 to 16 of table 3), or the refusal. -/
def EntrySettings.write (x : EntrySettings) (bands : BandMask) (pols : PolMask) (field : Nat) (v : Int) :
    Except Reason EntrySettings :=
  match field with
  | 1 => orRange (natInRange 0 65535 v) fun n => { x with siteCode := n }
  | 2 => orRange (inRange 0 3599 v) fun p => { x with presetPan := p }
  | 3 => orRange (inRange (-100) 900 v) fun p => { x with presetTilt := p }
  | 4 => orRange (inRange (-900) 900 v) fun p => { x with presetPol := p }
  | 5 => orRange (natInRange 0 15 v) fun n => { x with bandMask := BitVec.ofNat 4 n &&& bands }
  | 6 => orRange (natInRange 0 3 v) fun n => { x with polMask := BitVec.ofNat 2 n &&& pols }
  | 7 => orRange (inRange (max x.lostLevel (-1300)) (-100) v) fun l => { x with edgeLevel := l }
  | 8 => orRange (inRange (-1300) (min x.edgeLevel (-100)) v) fun l => { x with lostLevel := l }
  | 9 => orRange (natInRange 1 20 v) fun n => { x with lostCount := n }
  | 10 => orRange (natInRange 1 8 v) fun n => { x with avgLength := n }
  | 11 => orRange (natInRange 1 200 v) fun n => { x with searchAz := n }
  | 12 => orRange (natInRange 1 200 v) fun n => { x with searchEl := n }
  | 13 => orRange (natInRange 1 50 v) fun n => { x with trimAz := n }
  | 14 => orRange (natInRange 1 50 v) fun n => { x with trimEl := n }
  | 15 => orRange (natInRange 1 50 v) fun n => { x with searchRate := n }
  | 16 => orRange (boolOf v) fun b => { x with autoReacquire := b }
  | _ => .error .ignored

/-- R111: the entry after an accepted write of a setting. In EMPTY the masks are ANDed first. -/
def Entry.writeSetting (e : Entry) (bands : BandMask) (pols : PolMask) (field : Nat) (v : Int) : Except Reason Entry :=
  let base := if e.state = .empty then e.set.narrow bands pols else e.set
  match base.write bands pols field v with
  | .error why => .error why
  | .ok set =>
    match e.state with
    | .empty | .loaded | .lost => .ok { e with state := .loaded, set := set, learned := .clear }
    | .acquiring | .tracked | .suspended => .error .busy

/-- R112: a write of the state. Only EMPTY, number 0, is a written value. -/
def Entry.writeState (e : Entry) (v : Int) : Except Reason Entry :=
  if v ≠ 0 then .error .range
  else match e.state with
    | .empty => .ok e
    | .loaded | .lost => .ok .powerOn
    | .acquiring | .tracked | .suspended => .error .busy

/-- R107: a write of a running adjustment (fields 17 to 19 of table 3). -/
def Adjust.write (x : Adjust) (field : Nat) (v : Int) : Except Reason Adjust :=
  match field with
  | 17 => orRange (inRange (-50) 50 v) fun o => { x with offsetAz := o }
  | 18 => orRange (inRange (-50) 50 v) fun o => { x with offsetEl := o }
  | 19 => orRange (natInRange 0 255 v) fun n => { x with retrim := n }
  | _ => .error .ignored

/-- R115: an entry after a RESET request. -/
def Entry.resetKept (e : Entry) : Entry := if e.state = .empty then e else { e with state := .loaded }

end Sys2Proof.Machine
end

