-- ==== Sys2Proof/Machine/Sha.lean ====
section
/-! DEFINITION. The Site Handshake Agent (spec/07). Where the agent has something to tell the Acquisition Engine, the
function answers it beside the state, and the caller delivers it once the agent's own change is made (log 13). -/

namespace Sys2Proof.Machine

/-- R127: what SHA tells the Acquisition Engine about the link. -/
inductive LinkTell | ready | link | wait
deriving DecidableEq, Repr

/-! ## Offers (R119, R120) -/

/-- R120: the entry of the running context's row, the offer row. -/
def offerRow (s : State) : Option Entry :=
  match s.acq.ctx with
  | some c => s.entry c.row
  | none => none

/-- R120: the bands of the offer. -/
def offerBands (s : State) : BandMask :=
  match offerRow s with
  | some e => e.set.bandMask
  | none => s.sha.vanBands

/-- R120: the pols of the offer. -/
def offerPols (s : State) : PolMask :=
  match offerRow s with
  | some e => e.set.polMask
  | none => s.sha.vanPols

/-- R120: one ABILITY, formed as it is sent; R119: the offer timer starts from it. -/
def sendAbility (s : State) : State :=
  sendSite (s.withSha { s.sha with offerTimer := some Config.offerMs })
    (.ability (offerBands s) (offerPols s) 7 s.sha.heard)

/-- R119: the agent's fields on entry to OFFERING. -/
def Sha.offering (h : Sha) (keepHeard : Bool) : Sha :=
  { h with
    state := .offering, echoTimer := none, reportWatch := none, quietTimer := none, identity := none, linkReady := false
    window := if h.state = .up then [] else h.window
    downSeen := h.downSeen || h.state = .up
    heard := keepHeard && h.heard }

/-- R119: entry to OFFERING. Site heard is kept only on the entry from CHOSEN by exhaustion. -/
def enterOffering (s : State) (keepHeard : Bool) : State := sendAbility (s.withSha (s.sha.offering keepHeard))

/-- R119: any page taken in SILENT while the quiet time is not running enters OFFERING. -/
def shaWake (s : State) : State :=
  if s.sha.state = .silent ∧ s.sha.quietTimer = none then enterOffering s false else s

/-! ## Resolution (R121) -/

/-- R121: the lowest-numbered band of a mask. -/
def firstBand (m : BandMask) : Option Band := [Band.b1, .b2, .b3, .b4].find? fun b => m.getLsbD (bandCode b - 1)

/-- R121: the shortest period of a mask. -/
def firstPeriod (m : PeriodMask) : Option Period := [Period.p100, .p200, .p500].find? fun p => m.getLsbD (periodCode p)

/-- R121: the preferred pol of the offer: H without an offer row, or while its preset pol is at most 450 in absolute
value. -/
def preferredPol (s : State) : Pol :=
  match offerRow s with
  | some e => if e.set.presetPol.natAbs ≤ 450 then .h else .v
  | none => .h

/-- R121: the pol of a mask, the preferred one first. -/
def choosePol (m : PolMask) : Pol → Option Pol
  | .h => [Pol.h, .v].find? fun p => m.getLsbD (polCode p)
  | .v => [Pol.v, .h].find? fun p => m.getLsbD (polCode p)

/-- R121: the choice that the offer and a site ABILITY give. DESIGN CHOICE (log 38): the masks of the offer are those that
stand at the resolution, where a write has narrowed them (R106) after the last ABILITY was sent too. -/
def resolve (s : State) (a : Ability) : Option Choice :=
  match firstBand (offerBands s &&& a.bands), choosePol (offerPols s &&& a.pols) (preferredPol s),
      firstPeriod a.periods with
  | some b, some p, some t => some ⟨b, p, t⟩
  | _, _, _ => none

/-- R121: the resolution is a change. -/
def Sha.isChange (h : Sha) (c : Choice) : Bool := h.agreed.any fun old => old.band ≠ c.band || old.pol ≠ c.pol

/-! ## Choice and echo (R122 to R125) -/

/-- R122: the fields when UP is left by a site ABILITY; in another state they stay. -/
def Sha.leaveUp (h : Sha) : Sha :=
  if h.state = .up then { h with reportWatch := none, window := [], downSeen := true, linkReady := false } else h

/-- A tell for the running context, when there is one. -/
def tellIfRunning (s : State) (t : LinkTell) : Option LinkTell := if s.acq.ctx.isSome then some t else none

/-- R123: entry to CHOSEN with a choice. -/
def enterChosen (s : State) (c : Choice) : State :=
  let t := !s.sha.toggle
  sendSite (s.withSha
    { s.sha with
      state := .chosen, offerTimer := none, toggle := t, sent := some (c, t), resends := 0
      echoTimer := some Config.echoMs }) (.choice c t)

/-- R124: entry to NO_COMMON. -/
def enterNoCommon (s : State) : State × Option LinkTell :=
  (raise (s.withSha { s.sha with state := .noCommon, offerTimer := none, echoTimer := none }) .linkNoCommon,
    tellIfRunning s .link)

/-- R121, R122: a site ABILITY is resolved, in OFFERING, CHOSEN or UP. -/
def shaResolve (s : State) (a : Ability) : State × Option LinkTell :=
  let wasUp := s.sha.state = .up
  let s1 := s.withSha s.sha.leaveUp
  match resolve s a with
  | none => enterNoCommon s1
  | some c =>
    if s.sha.isChange c then (enterChosen (raise s1 (.linkChanged c.band c.pol)) c, tellIfRunning s .link)
    else (enterChosen s1 c, if wasUp then tellIfRunning s .wait else none)

/-- R122: a site ABILITY. -/
def shaAbility (s : State) (a : Ability) : State × Option LinkTell :=
  let s1 := shaWake s
  let s2 := s1.withSha { s1.sha with siteAbility := some a, heard := true }
  match s1.sha.state with
  | .silent => (s1, none)
  | .noCommon => (s2, none)
  | .offering | .chosen | .up => shaResolve s2 a

/-- R127: the row of the running context accepts the present site identity. -/
def identityFits (s : State) : Bool := (offerRow s).any fun e => e.set.siteCode = 0 || s.sha.identity = some e.set.siteCode

/-- R127: link ready is judged in UP, and READY is told when it is yes. -/
def judgeReady (s : State) : State × Option LinkTell :=
  let r := identityFits s
  (s.withSha { s.sha with linkReady := r }, if r then some .ready else none)

/-- R125: entry to UP with a choice. -/
def enterUp (s : State) (c : Choice) : State × Option LinkTell :=
  judgeReady (raise (s.withSha
    { s.sha with
      state := .up, echoTimer := none, agreed := some c, reportWatch := some (3 * periodMs c.period) }) (.linkUp c))

/-- R124: a CHOICE echo taken in CHOSEN. -/
def shaEchoChosen (s : State) (c : Choice) (toggle : Bool) : State × Option LinkTell :=
  match s.sha.sent with
  | none => (s, none)
  | some (sentChoice, sentToggle) =>
    if toggle ≠ sentToggle then (s, none)
    else if c = sentChoice then enterUp s sentChoice
    else enterNoCommon s

/-- R124, Table 7-4: a CHOICE echo. -/
def shaEcho (s : State) (c : Choice) (toggle : Bool) : State × Option LinkTell :=
  let s1 := shaWake s
  if s1.sha.state = .chosen then shaEchoChosen s1 c toggle else (s1, none)

/-! ## Identity (R126) -/

/-- R126: an IDENT taken in UP that differs from the identity held: it is compared with the site code of the running
context's row. -/
def shaIdentUp (s : State) (code : Nat) : State × Option LinkTell :=
  let s1 := s.withSha { s.sha with identity := some code }
  match offerRow s with
  | none => (s1, none)
  | some e =>
    if e.set.siteCode = 0 then (s1, none)
    else if code = e.set.siteCode then
      (if s.sha.linkReady then (s1, none) else (s1.withSha { s1.sha with linkReady := true }, some .ready))
    else if s.sha.linkReady then
      (raise (s1.withSha { s1.sha with window := [], linkReady := false }) (.linkMismatch code), some .link)
    else (s1, none)

/-- R126: an IDENT. An IDENT repeating the identity held changes nothing. -/
def shaIdent (s : State) (code : Nat) : State × Option LinkTell :=
  let s1 := shaWake s
  match s1.sha.state with
  | .chosen => (s1.withSha { s1.sha with identity := some code }, none)
  | .up => if s1.sha.identity = some code then (s1, none) else shaIdentUp s1 code
  | .silent | .offering | .noCommon => (s1, none)

/-! ## Row naming (R128) -/

/-- R128: the link of a choice fits the row of an entry. -/
def linkFits (h : Sha) (e : Entry) (c : Choice) : Bool :=
  e.set.bandMask.getLsbD (bandCode c.band - 1) && e.set.polMask.getLsbD (polCode c.pol)
    && (e.set.siteCode = 0 || h.identity = none || h.identity = some e.set.siteCode)

/-- R128: the choice that a naming judges: the sent choice in CHOSEN, the agreed choice in UP. -/
def Sha.namedChoice (h : Sha) : Option Choice :=
  match h.state with
  | .chosen => h.sent.map (·.1)
  | .up => h.agreed
  | .silent | .offering | .noCommon => none

/-- R128: the link is kept for the running context's row. -/
def linkKept (s : State) : Bool :=
  match s.sha.namedChoice, offerRow s with
  | some c, some e => linkFits s.sha e c
  | _, _ => false

/-- R127, R128: the loss of a readiness is told as WAIT. -/
def waitIfReady (s : State) : Option LinkTell := if s.sha.linkReady then some .wait else none

/-- R128: the Acquisition Engine names the row of the context that has just started running. -/
def shaName (s : State) : State × Option LinkTell :=
  if linkKept s then
    (if s.sha.state = .up then
      (match judgeReady s with
        | (s1, some t) => (s1, some t)
        | (s1, none) => (s1, waitIfReady s))
     else (s, none))
  else (enterOffering s false, waitIfReady s)

/-- R127: the Acquisition Engine says that no context is running. -/
def shaNoContext (s : State) : State := s.withSha { s.sha with linkReady := false }

/-- R119, R127: RENEGOTIATE. -/
def shaRenegotiate (s : State) : State × Option LinkTell :=
  (enterOffering s false, if s.sha.linkReady then tellIfRunning s .wait else none)

/-! ## Link down and link end (R129, R131) -/

/-- R129: the link is down. -/
def shaDown (s : State) : State × Option LinkTell :=
  (raise (s.withSha
    { s.sha with
      state := .silent, window := [], agreed := none, identity := none, linkReady := false, downSeen := true
      reportWatch := none }) .linkDown, tellIfRunning s .link)

/-- R131: the agent's fields after it has ended the link. -/
def Sha.ended (h : Sha) : Sha :=
  { h with
    state := .silent, offerTimer := none, echoTimer := none, reportWatch := none, quietTimer := some Config.quietMs
    window := [], agreed := none, sent := none, identity := none, linkReady := false
    downSeen := h.downSeen || h.state = .up }

/-- R131: SHA ends the link. -/
def shaEnd (s : State) : State :=
  if s.sha.state = .silent then s else sendSite (s.withSha s.sha.ended) .leave

/-- R117: the reset values, the van ability word kept. Every timer of the chapter is stopped. -/
def Sha.resetKept (h : Sha) : Sha := { Sha.powerOn with vanBands := h.vanBands, vanPols := h.vanPols }

/-- R131: the quiet time starts. -/
def startQuiet (s : State) : State := s.withSha { s.sha with quietTimer := some Config.quietMs }

/-! ## Timers -/

/-- R119: the offer timer runs out. -/
def shaOfferTimer (s : State) : State := if s.sha.offerTimer.isSome then sendAbility s else s

/-- R123: the echo timer runs out. -/
def shaEchoTimer (s : State) : State :=
  match s.sha.echoTimer, s.sha.sent with
  | some _, some (c, t) =>
    if s.sha.resends < 3 then
      sendSite (s.withSha { s.sha with resends := s.sha.resends + 1, echoTimer := some Config.echoMs }) (.choice c t)
    else raise (enterOffering s true) .linkRetry
  | _, _ => s

/-! ## The Report Window (R132 to R134) -/

/-- R133: the sequence is accepted: the window is empty, or the distance from the newest is 1 to 127. -/
def Sha.accepts (h : Sha) (seq : Nat) : Bool :=
  match h.newest with
  | none => true
  | some n => let d := (seq + 256 - n) % 256; 1 ≤ d && d ≤ 127

/-- R133: the record of a report, paired with the positions AXS holds. -/
def reportRecord (s : State) (seq : Nat) (level : Int) (valid : Bool) : WinRec :=
  ⟨seq, if valid then level else -1300, (s.axis .pan).position, (s.axis .tilt).position⟩

/-- R132, R133: an accepted record enters the window, and the report silence watch restarts. R133 accepts on the distance from
the newest alone, so an accepted sequence may be that of an older record. DESIGN CHOICE (log 42): R132 lets no two records bear
one sequence, so that older record leaves, and with it those older still. -/
def acceptRecord (s : State) (r : WinRec) : State :=
  s.withSha
    { s.sha with
      window := (r :: s.sha.window.takeWhile (·.seq != r.seq)).take Config.windowPlaces
      reportWatch := some (3 * s.sha.agreedPeriod.getD 0) }

/-- R133: a REPORT. The record beside the state is the one to tell the Acquisition Engine of. -/
def shaReport (s : State) (seq : Nat) (level : Int) (valid : Bool) : State × Option WinRec :=
  let s1 := shaWake s
  if s1.sha.state = .up && s1.sha.accepts seq then
    let r := reportRecord s1 seq level valid
    (acceptRecord s1 r, if s1.sha.linkReady then some r else none)
  else (s1, none)

/-- R132: the window is emptied. -/
def emptyWindow (s : State) : State := s.withSha { s.sha with window := [] }

/-- R134: the mean level of the newest records, rounded down; none with the window empty. -/
def meanLevel (w : List WinRec) (k : Nat) : Option Int :=
  match (w.take k).map (·.level) with
  | [] => none
  | l => some (l.sum / (l.length : Int))

end Sys2Proof.Machine
end

