-- ==== Sys2Proof/Machine/Acq.lean ====
section
/-! DEFINITION. The Acquisition Engine (spec/08, spec/09): the running context, its phases, its ends, and the Resume
Stack. The definitions stand in the order in which they use one another, ends first. -/

namespace Sys2Proof.Machine

/-! ## The context in the state -/

/-- The entry of a row that a context or a stack entry names; every such row exists. -/
def entryOf (s : State) (row : Nat) : Entry := (s.entry row).getD .powerOn

/-- Replace the running context. -/
def setCtx (s : State) (c : Ctx) : State := s.withAcq { s.acq with ctx := some c }

/-- The context ends: its timers end with it (R142, R164), and the Site Handshake Agent is told (R127). -/
def endCtx (s : State) : State := shaNoContext (s.withAcq { s.acq with ctx := none })

/-- Replace the Resume Stack. -/
def setStack (s : State) (st : List StackEntry) : State := s.withAcq { s.acq with stack := st }

/-- Table 8-1: the axis worked by a phase. -/
def phaseAxis : Phase → Axis
  | .elSweep | .retrimEl => .tilt
  | .slew | .settle | .azSweep | .track | .retrimAz => .pan

/-- R141, R156: the phases of a row that is TRACKED. -/
def Phase.tracks (p : Phase) : Bool := p = .track || p = .retrimAz || p = .retrimEl

/-- R156, R158, R159, R164: a STOP request for each of PAN, TILT and POL that is MOVING, one axis left out where the rule
leaves it to another block. -/
def stopSearch (s : State) (leaveOut : Option Axis) : State :=
  searchAxes.foldl (fun s a => if (s.axis a).motion = .moving ∧ leaveOut ≠ some a then axsStop s a else s) s

/-- Release PAN, TILT and POL. -/
def releaseSearch (s : State) : State := axsReleaseAll s searchAxes

/-! ## Failure and the ends asked by other blocks (R158, R159, R160) -/

/-- R158: the row goes to LOST with the cause, TXC is told when it was TRACKED, and the notice is raised. -/
def markFailed (s : State) (c : Ctx) (cause : LastCause) : State :=
  let wasTracked := (entryOf s c.row).state = .tracked
  let s1 := stbChange s c.row runningStates .lost (some cause)
  raise (if wasTracked then txcTracked s1 false else s1) (.searchEnded cause c.row c.phase)

/-- R158: the running context fails. -/
def acqFail (s : State) (cause : LastCause) : State :=
  match s.acq.ctx with
  | none => s
  | some c => endCtx (releaseSearch (markFailed (stopSearch s none) c cause))

/-- R160, R84: at entry to HELD the context ends as a failure with cause ABORTED, with no STOP and no release. -/
def acqAbort (s : State) : State :=
  match s.acq.ctx with
  | none => s
  | some c => endCtx (txcTracked (markFailed s c .aborted) false)

/-- R160, R78: at the start of a backward walk. -/
def acqWalkAbort (s : State) : State :=
  match s.acq.ctx with
  | none => s
  | some c =>
    endCtx (txcTracked (raise (stbChange s c.row runningStates .loaded (some .stowed)) (.searchStowed c.row)) false)

/-- R159: RELEASE of a running context, up to the end of the link. -/
def acqRelease (s : State) (c : Ctx) : State :=
  shaEnd (endCtx (releaseSearch (txcTracked
    (stbChange (stopSearch s none) c.row runningStates .loaded (some .none)) false)))

/-- R170: at the start of a backward walk the stack is emptied, top first. -/
def acqEmptyStack (s : State) : State :=
  setStack (s.acq.stack.foldl (fun s e => stbChange s e.row [.suspended] .loaded (some .stowed)) s) []

/-! ## Push (R163, R164) -/

/-- Table 9-3: the entry a push forms from the context. -/
def stackEntryOf (s : State) (c : Ctx) (cause : SuspendCause) : StackEntry :=
  match c.phase with
  | .slew | .settle => ⟨c.row, cause, .slew, none, none, none, c.reacquire⟩
  | .azSweep => ⟨c.row, cause, .azSweep, none, c.centre, (s.axis .tilt).working, c.reacquire⟩
  | .elSweep =>
    ⟨c.row, cause, .elSweep, (entryOf s c.row).learned.az.map (·.midpoint), none, c.centre, c.reacquire⟩
  | .track | .retrimAz | .retrimEl => ⟨c.row, cause, .track, none, none, none, c.reacquire⟩

/-- Table 6-5: the last cause a push writes. -/
def pushCause : SuspendCause → LastCause
  | .gust => .wind
  | .override | .switch | .park => .none

/-- R164, step 4: room on the stack; the bottom entry is dropped when it holds 3. -/
def makeRoom (s : State) : State :=
  if s.acq.stack.length < Config.stackPlaces then s
  else match s.acq.stack.getLast? with
    | none => s
    | some e =>
      raise (setStack (stbChange s e.row [.suspended] .loaded none) (s.acq.stack.take (Config.stackPlaces - 1)))
        (.resumeDropped e.row)

/-- R164: a push. With cause OVERRIDE the axis of the console frame is left to the Motion Gate. With no context running it
changes nothing. -/
def acqPush (s : State) (cause : SuspendCause) (leaveOut : Option Axis) : State :=
  match s.acq.ctx with
  | none => s
  | some c =>
    let e := stackEntryOf s c cause
    let s1 := makeRoom (stopSearch s leaveOut)
    let s2 := stbChange (setStack s1 (e :: s1.acq.stack)) c.row runningStates .suspended (some (pushCause cause))
    raise (endCtx (txcTracked (releaseSearch s2) false)) (.resumeSuspended c.row cause)

/-! ## Moves of the context (R140, R145, R146, R152) -/

/-- Note 2 of Table 8-3: the rate ACQ names, lowered for PAN and TILT to the cap of the row in force. -/
def searchRateFor (s : State) (a : Axis) (rate : Nat) : Nat := capped rate (rateCap s.wsm a)

/-- The axis whose move the context has issued and not yet seen end (R153). -/
def setStepAxis (s : State) (a : Option Axis) : State :=
  match s.acq.ctx with
  | none => s
  | some c => setCtx s { c with stepAxis := a }

/-- SET TARGET and then SELECT at the rate limit of the axis; a refusal from AXS fails the acquisition with ABORTED. -/
def searchSelect (s : State) (a : Axis) (which : Sel) (target : Int) : State :=
  match axsSetTarget s .search a which target with
  | .error _ => acqFail s .aborted
  | .ok s1 =>
    match axsSelect s1 .search a which (some (searchRateFor s1 a (s1.axis a).rateLimit)) with
    | .error _ => acqFail s1 .aborted
    | .ok s2 => setStepAxis s2 (some a)

/-- A move check, then SET TARGET and SELECT; BLOCKED fails the acquisition with ZONE. -/
def searchMove (s : State) (a : Axis) (which : Sel) (target : Int) : State :=
  let r := moveCheck s a target
  if r.1 then acqFail r.2 .zone else searchSelect r.2 a which target

/-- Inside the soft range of the axis. -/
def inSoft (s : State) (a : Axis) (v : Int) : Bool := (s.axis a).softMin ≤ v && v ≤ (s.axis a).softMax

/-! ## Slew (R140) -/

/-- R140: the target of an axis in the slew pose. -/
def Ctx.slewTarget (c : Ctx) : Axis → Int
  | .pan => c.slewPan
  | .tilt => c.slewTilt
  | .pol => c.slewPol
  | .mast => 0

/-- R140: one move of the slew. -/
def slewMove (s : State) (c : Ctx) (a : Axis) : State :=
  if inSoft s a (c.slewTarget a) then searchMove s a .work (c.slewTarget a) else acqFail s .zone

/-- R140: the axis that moves first. -/
def firstSlewAxis (tiltFirst : Bool) : Axis := if tiltFirst then .tilt else .pan

/-- R140: the axis that moves after one has arrived; none after POL. -/
def nextSlewAxis (tiltFirst : Bool) : Axis → Option Axis
  | .pan => if tiltFirst then some .pol else some .tilt
  | .tilt => if tiltFirst then some .pan else some .pol
  | .pol | .mast => none

/-- R140: SLEW starts. TILT moves first when the slew tilt is greater than its position. -/
def startSlew (s : State) : State :=
  match s.acq.ctx with
  | none => s
  | some c =>
    let up := (s.axis .tilt).position.any fun p => p < c.slewTilt
    slewMove (setCtx s { c with tiltFirst := up }) { c with tiltFirst := up } (firstSlewAxis up)

/-! ## Making a context (R139, R157, R166, R167) -/

/-- Table 8-2: the values at creation, with the slew pose and the phase after settle. The link wait timer runs from creation
(R142). -/
def newCtx (row : Nat) (pan tilt pol : Int) (after : Phase) (reacquire : Bool) : Ctx where
  row := row
  phase := .slew
  step := none
  rest := none
  centre := none
  extent := none
  sweepStart := none
  sweepEnd := none
  clipLow := .none
  clipHigh := .none
  widened := false
  gapRestarts := 0
  partialBegin := none
  partialEnd := none
  reportCount := 0
  retrimInUse := 0
  retrimRead := 0
  lostRun := 0
  reacquire := reacquire
  linkIsReady := false
  linkUsed := false
  afterSettle := after
  partialOpen := false
  slewPan := pan
  slewTilt := tilt
  slewPol := pol
  tiltFirst := false
  stepAxis := none
  settleTimer := none
  linkWait := some Config.linkWaitMs
  gapTimer := none

/-- R140: the slew pan and tilt of an entry: the learned ones when both are present, the presets otherwise. -/
def slewPose (e : Entry) : Int × Int :=
  match e.learned.pan, e.learned.tilt with
  | some p, some t => (p, t)
  | _, _ => (e.set.presetPan, e.set.presetTilt)

/-- R139, R157: the context of an ACQUIRE or of an auto re-acquire. -/
def acquireCtx (s : State) (row : Nat) (reacquire : Bool) : Ctx :=
  let e := entryOf s row
  newCtx row (slewPose e).1 (slewPose e).2 e.set.presetPol .azSweep reacquire

/-- R142: the link fields on READY. -/
def Ctx.ready (c : Ctx) : Ctx := { c with linkIsReady := true, linkUsed := true, linkWait := none }

/-- R142: the link fields on WAIT. -/
def Ctx.waiting (c : Ctx) : Ctx := { c with linkIsReady := false, linkWait := some Config.linkWaitMs }

/-- R142: the link fields of a context in SLEW after a tell. -/
def Ctx.told (c : Ctx) : LinkTell → Ctx
  | .ready => c.ready
  | .wait | .link => c.waiting

/-- R139, R166: the context is created and its row named. A READY told at the naming finds the link wait timer started, and
stops it (log 14). -/
def createCtx (s : State) (c : Ctx) : State :=
  match shaName (setCtx s c) with
  | (s1, none) => s1
  | (s1, some t) => setCtx s1 (c.told t)

/-! ## Checks of an acquisition (Table 8-4, steps 7 to 9) -/

/-- Step 7 for one axis. -/
def axisReady (s : State) (a : Axis) : Bool :=
  let r := s.axis a
  r.motion ≠ .halted && r.motion ≠ .off && s.chan (moveChannel a) = .full && r.position.isSome

/-- Steps 7 to 9: the refusal, if any, and the state with the hits of a FORBIDDEN pose check. -/
def slewChecks (s : State) (row : Nat) : Option Reason × State :=
  let e := entryOf s row
  match searchAxes.all (axisReady s), (s.axis .mast).position with
  | true, some h =>
    if inSoft s .pan (slewPose e).1 && inSoft s .tilt (slewPose e).2 && inSoft s .pol e.set.presetPol then
      let r := poseCheck s ⟨e.set.presetPan, e.set.presetTilt, h⟩
      (if r.1 then some .zone else none, r.2)
    else (some .range, s)
  | _, _ => (some .state, s)

/-! ## Loss and auto re-acquire (R156, R157) -/

/-- R157: the re-acquisition is made. The notice is raised before the slew starts (log 17). -/
def reacquire (s : State) (row : Nat) : State :=
  let s1 := stbChange s row [.lost] .acquiring none
  startSlew (raise (createCtx s1 (acquireCtx s1 row true)) (.searchReacquire row))

/-- R157: the re-acquisition is judged in the same step as the loss. -/
def judgeReacquire (s : State) (row : Nat) : State :=
  if (entryOf s row).state = .lost && s.dsq.deploy = .deployed && s.wsm.gust ≠ .hold then
    match slewChecks s row with
    | (none, s1) => reacquire s1 row
    | (some _, s1) => releaseSearch s1
  else releaseSearch s

/-- R156: the track is lost. -/
def acqLose (s : State) (cause : LastCause) : State :=
  match s.acq.ctx with
  | none => s
  | some c =>
    let s1 := txcTracked (stbChange (stopSearch s none) c.row [.tracked] .lost (some cause)) false
    let s2 := endCtx (raise s1 (.searchEnded cause c.row c.phase))
    if (entryOf s2 c.row).set.autoReacquire && !c.reacquire then judgeReacquire s2 c.row else releaseSearch s2

/-- R142: the link has ended for the context: a loss in TRACK and the re-trim phases, a failure in the others. -/
def linkFailed (s : State) : State :=
  match s.acq.ctx with
  | none => s
  | some c => if c.phase.tracks then acqLose s .link else acqFail s .link

/-! ## Sweep interval and TO_START (R144, R145) -/

/-- R58, R145: the margin kept from a zone boundary. -/
def AxisRec.margin (r : AxisRec) : Int := if r.tolerance = 0 then 1 else r.tolerance

/-- R145: the lower end of the sweep interval and what gave it. -/
def sweepLow (s : State) (a : Axis) (centre : Int) (extent : Nat) : Int × Clip :=
  let r := s.axis a
  let free := max (centre - extent) r.softMin
  let open_ := if centre - extent ≤ r.softMin then Clip.soft else Clip.none
  match extentQuery s a centre .down with
  | some b => if free ≤ b + r.margin then (b + r.margin, .zone) else (free, open_)
  | none => (free, open_)

/-- R145: the upper end of the sweep interval and what gave it. -/
def sweepHigh (s : State) (a : Axis) (centre : Int) (extent : Nat) : Int × Clip :=
  let r := s.axis a
  let free := min (centre + extent) r.softMax
  let open_ := if r.softMax ≤ centre + extent then Clip.soft else Clip.none
  match extentQuery s a centre .up with
  | some b => if b - r.margin ≤ free then (b - r.margin, .zone) else (free, open_)
  | none => (free, open_)

/-- R145: the lower end is the start when it is no farther from the position than the upper. -/
def lowIsStart (position low high : Int) : Bool := (position - low).natAbs ≤ (high - position).natAbs

/-- R145: TO_START forms the interval and moves the axis to its start. -/
def toStart (s : State) : State :=
  match s.acq.ctx with
  | none => s
  | some c =>
    let a := phaseAxis c.phase
    let centre := c.centre.getD 0
    let low := sweepLow s a centre (c.extent.getD 0)
    let high := sweepHigh s a centre (c.extent.getD 0)
    if high.1 < low.1 then acqFail s .zone
    else
      let up := lowIsStart ((s.axis a).position.getD 0) low.1 high.1
      let start := if up then low.1 else high.1
      searchMove (setCtx s
        { c with
          step := some .toStart, rest := none, clipLow := low.2, clipHigh := high.2
          sweepStart := some start, sweepEnd := some (if up then high.1 else low.1) }) a .alt start

/-- R144: the extent a sweep phase takes from the row. -/
def phaseExtent (e : EntrySettings) : Phase → Nat
  | .azSweep => e.searchAz
  | .elSweep => e.searchEl
  | .retrimAz => e.trimAz
  | .retrimEl => e.trimEl
  | .slew | .settle | .track => 0

/-- R144: a sweep phase starts. -/
def startSweep (s : State) (p : Phase) : State :=
  match s.acq.ctx with
  | none => s
  | some c =>
    toStart (setCtx s
      { c with
        phase := p, step := some .toStart, rest := none, centre := (s.axis (phaseAxis p)).working, widened := false
        gapRestarts := 0, partialBegin := none, partialEnd := none, partialOpen := false
        extent := some (phaseExtent (entryOf s c.row).set p), stepAxis := none })

/-! ## Track (R154) and settle (R141, R167) -/

/-- R109, R154: learned pan and tilt from the working targets. -/
def writeLearned (s : State) (row : Nat) : State :=
  modifyEntry s row fun e =>
    { e with learned := { e.learned with pan := (s.axis .pan).working, tilt := (s.axis .tilt).working } }

/-- R154: entry to TRACK. The re-trim interval read for it becomes the one in use (R114, Table 8-2; DEDUCED, log 35). -/
def enterTrack (s : State) : State :=
  match s.acq.ctx with
  | none => s
  | some c =>
    let s1 := writeLearned (stbChange s c.row [.acquiring] .tracked none) c.row
    raise (txcTracked (setCtx s1
      { c with
        phase := .track, step := none, rest := none, stepAxis := none, retrimInUse := c.retrimRead
        reportCount := 0, lostRun := 0 }) true) (.searchTracked c.row)

/-- R107, R154: the re-trim interval of the row is read for the next entry to TRACK. -/
def Ctx.readRetrim (c : Ctx) (e : Entry) : Ctx := { c with retrimRead := e.adjust.retrim }

/-- R141, R167: the phase after settle starts. A resumed TRACK context enters TRACK and starts RETRIM_AZ at once; no centring
precedes this entry, so the re-trim interval of the row is read at the entry itself (R154, R155). -/
def afterSettle (s : State) : State :=
  match s.acq.ctx with
  | none => s
  | some c =>
    let c1 := { c with settleTimer := none }
    if c.afterSettle = .track then startSweep (enterTrack (setCtx s (c1.readRetrim (entryOf s c.row)))) .retrimAz
    else startSweep (setCtx s c1) c.afterSettle

/-- R141: SETTLE. With a settle time of 0 the timer runs out at once. -/
def enterSettle (s : State) : State :=
  match s.acq.ctx with
  | none => s
  | some c =>
    let s1 := setCtx s { c with phase := .settle, stepAxis := none, settleTimer := some s.acq.settleTime }
    if s.acq.settleTime = 0 then afterSettle s1 else s1

/-! ## Sweeping (R146 to R151) -/

/-- R30, R146: SWEEPING begins. The soft range is checked before the move check: a soft range written after the interval was
formed may leave the sweep end outside it, and the acquisition fails with ZONE (R30, Table 8-7; DEDUCED, log 44). -/
def beginSweeping (s : State) : State :=
  match s.acq.ctx with
  | none => s
  | some c =>
    let a := phaseAxis c.phase
    let target := c.sweepEnd.getD 0
    let s1 := setCtx (emptyWindow s)
      { c with step := some .sweeping, rest := none, partialBegin := none, partialEnd := none, partialOpen := false }
    let r := moveCheck s1 a target
    if !inSoft s a target then acqFail s1 .zone
    else if r.1 then acqFail r.2 .zone
    else
      match axsMoveTo r.2 .search a target (some (searchRateFor r.2 a (entryOf s c.row).set.searchRate)) with
      | .error _ => acqFail r.2 .aborted
      | .ok s2 =>
        setCtx s2
          { c with
            step := some .sweeping, rest := none, partialBegin := none, partialEnd := none, partialOpen := false
            stepAxis := some a, gapTimer := s.sha.agreedPeriod.map (2 * ·) }

/-- R146, R148, R151: a STOP request for the phase's axis; what follows waits for the rest. -/
def stopSweep (s : State) (c : Ctx) (step : SweepStep) (next : RestThen) : State :=
  setCtx (axsStop s (phaseAxis c.phase))
    { c with step := some step, rest := some next, gapTimer := none, stepAxis := none }

/-- R150: the widening retry of a search sweep that ended without a begin edge. -/
def widen (s : State) (c : Ctx) : State :=
  let extent := c.extent.getD 0
  let wide := min (2 * extent) s.acq.maxExtent
  if c.widened || wide ≤ extent || (c.clipLow ≠ .none && c.clipHigh ≠ .none) then acqFail s .noSignal
  else toStart (setCtx s { c with widened := true, extent := some wide })

/-- R149: the sweep has ended without a begin edge. -/
def noBeginEdge (s : State) (c : Ctx) : State :=
  if c.phase.tracks then acqLose s .lostLevel else widen s c

/-! ## Centring (R152) -/

/-- R152: the boresight offset of the phase's axis. -/
def phaseOffset (x : Adjust) (p : Phase) : Int := if phaseAxis p = .tilt then x.offsetEl else x.offsetAz

/-- Table 0-5: the midpoint of two positions. -/
def midpoint (b e : Int) : Int := (b + e) / 2

/-- R152: held within the soft range. -/
def holdSoft (r : AxisRec) (v : Int) : Int := max r.softMin (min r.softMax v)

/-- R152: the pose of the pose check: the centring target on the phase's axis, the present positions on the others. A
position that is absent, which no context has, counts as 0 (log 25). -/
def centringPose (s : State) (a : Axis) (target : Int) : Pose where
  pan := if a = .pan then target else (s.axis .pan).position.getD 0
  tilt := if a = .tilt then target else (s.axis .tilt).position.getD 0
  height := (s.axis .mast).position.getD 0

/-- R107, R152: the centring move. The boresight offset and the re-trim interval of the row are read when the target is
formed; a value written later waits for the next centring (R107, R114; DEDUCED of the interval, log 35). -/
def centre (s : State) : State :=
  match s.acq.ctx with
  | none => s
  | some c =>
    let a := phaseAxis c.phase
    let mid := midpoint (c.partialBegin.getD 0) (c.partialEnd.getD 0)
    let target := holdSoft (s.axis a) (mid + phaseOffset (entryOf s c.row).adjust c.phase)
    let c1 := { c with step := some .centring, rest := none, gapTimer := none }
    let r := poseCheck (setCtx s (c1.readRetrim (entryOf s c.row))) (centringPose s a target)
    if r.1 then acqFail r.2 .zone else searchMove r.2 a .work target

/-- R108: the edges a centring writes. -/
def Ctx.edges (c : Ctx) : Edges :=
  ⟨c.partialBegin.getD 0, c.partialEnd.getD 0, midpoint (c.partialBegin.getD 0) (c.partialEnd.getD 0), c.partialOpen⟩

/-- R108: the edges of the phase's axis in the row. -/
def writeEdges (s : State) (c : Ctx) : State :=
  modifyEntry s c.row fun e =>
    if phaseAxis c.phase = .tilt then { e with learned := { e.learned with el := some c.edges } }
    else { e with learned := { e.learned with az := some c.edges } }

/-- R152: the axis has arrived at the centring target: the edges are written and the next phase starts. -/
def centred (s : State) (c : Ctx) : State :=
  let s1 := writeEdges s c
  match c.phase with
  | .azSweep => startSweep s1 .elSweep
  | .retrimAz => startSweep s1 .retrimEl
  | .elSweep | .retrimEl | .slew | .settle | .track => enterTrack s1

/-! ## Events told by AXS (Table 8-6) -/

/-- R149: arrival at the sweep end. -/
def sweepEnded (s : State) (c : Ctx) : State :=
  match c.partialBegin with
  | some _ => centre (setCtx s { c with gapTimer := none, partialEnd := c.sweepEnd, partialOpen := true })
  | none => noBeginEdge (setCtx s { c with gapTimer := none, stepAxis := none }) { c with gapTimer := none, stepAxis := none }

/-- R146: arrival at the sweep start. -/
def atStart (s : State) (c : Ctx) : State :=
  if c.linkIsReady then beginSweeping s else setCtx s { c with stepAxis := none }

/-- R140: arrival of an axis of the slew. -/
def slewArrived (s : State) (c : Ctx) (a : Axis) : State :=
  match nextSlewAxis c.tiltFirst a with
  | some b => slewMove s c b
  | none => enterSettle s

/-- Arrival at the selected target of an axis owned by SEARCH. -/
def acqArrival (s : State) (a : Axis) : State :=
  match s.acq.ctx with
  | none => s
  | some c =>
    if c.stepAxis ≠ some a then s
    else match c.step with
      | some .toStart => atStart s c
      | some .sweeping => sweepEnded s c
      | some .centring => centred s c
      | none => if c.phase = .slew then slewArrived s c a else s

/-- The first report at rest after a STOP, with the position reported. -/
def acqRest (s : State) (a : Axis) (position : Int) : State :=
  match s.acq.ctx with
  | none => s
  | some c =>
    if a ≠ phaseAxis c.phase then s
    else match c.rest with
      | none => s
      | some .reform => toStart s
      | some .centre => centre s
      | some .edgeHere => centre (setCtx s { c with partialEnd := some position, partialOpen := true })
      | some .noEdge => noBeginEdge (setCtx s { c with rest := none }) { c with rest := none }

/-- A zone stop of an axis owned by SEARCH. -/
def acqZoneStop (s : State) (a : Axis) : State :=
  match s.acq.ctx with
  | none => s
  | some c =>
    if c.stepAxis = some a ∧ c.step = some .sweeping then
      (if c.partialBegin.isSome then
        setCtx s { c with step := some .centring, rest := some .edgeHere, gapTimer := none, stepAxis := none }
       else setCtx s { c with rest := some .noEdge, gapTimer := none, stepAxis := none })
    else acqFail s .zone

/-! ## Reports told by SHA (R143, R147, R155, R156) -/

/-- R147: the position of a record on the phase's axis. -/
def WinRec.on (r : WinRec) : Axis → Option Int
  | .pan => r.pan
  | .tilt => r.tilt
  | .mast | .pol => none

/-- R147: the edges are judged. -/
def judgeEdges (s : State) (c : Ctx) (mean position : Int) : State :=
  let edge := (entryOf s c.row).set.edgeLevel
  match c.partialBegin with
  | none => if edge ≤ mean then setCtx s { c with partialBegin := some position } else s
  | some _ =>
    if mean < edge then stopSweep s { c with partialEnd := some position, partialOpen := false } .centring .centre else s

/-- Table 8-2: the report count after one more; at 255 the spec gives no value, and a free one is drawn (log 10). -/
def countUp (drawn n : Nat) : Nat := if n < 255 then n + 1 else (Config.reportCountPast255 drawn).toNat

/-- A report count at 255 draws a free value (log 10). -/
def drawPast255 (s : State) (n : Nat) : State :=
  if n < 255 then s else s.withAcq { s.acq with drawn := s.acq.drawn + 1 }

/-- R155: a report that does not end the context by loss is counted, and the re-trim starts when the count reaches the
interval in use. -/
def countReport (s : State) (c : Ctx) : State :=
  let n := countUp s.acq.drawn c.reportCount
  let s1 := setCtx (drawPast255 s c.reportCount) { c with reportCount := n }
  if c.retrimInUse ≠ 0 ∧ c.retrimInUse ≤ n then startSweep s1 .retrimAz else s1

/-- R156: a report in TRACK is judged for loss before it is counted. -/
def trackReport (s : State) (c : Ctx) (mean : Int) : State :=
  let x := (entryOf s c.row).set
  let run := if mean < x.lostLevel then c.lostRun + 1 else 0
  if x.lostCount ≤ run then acqLose (setCtx s { c with lostRun := run }) .lostLevel
  else countReport s { c with lostRun := run }

/-- Table 8-5: the use of a told report. -/
def acqReport (s : State) (r : WinRec) : State :=
  match s.acq.ctx with
  | none => s
  | some c =>
    match meanLevel s.sha.window (entryOf s c.row).set.avgLength with
    | none => s
    | some mean =>
      if c.phase = .track then trackReport s c mean
      else if c.step = some .sweeping ∧ c.rest = none then
        match r.on (phaseAxis c.phase) with
        | some p => judgeEdges s c mean p
        | none => s
      else s

/-! ## Tells of the link (R142, R146) -/

/-- R142: READY. A sweep step that stands at its start begins SWEEPING. -/
def acqReady (s : State) : State :=
  match s.acq.ctx with
  | none => s
  | some c =>
    if c.linkIsReady then s
    else
      let s1 := setCtx s c.ready
      if c.step = some .toStart ∧ c.stepAxis = none ∧ c.rest = none then beginSweeping s1 else s1

/-- R142, R146: WAIT. A sweep in SWEEPING is stopped and forms its interval afresh at the rest. DESIGN CHOICE (log 36): so
does a sweep that a zone has stopped in SWEEPING without a begin edge and whose rest is still awaited: the WAIT takes the
place of the judgement that Table 8-6 makes at that rest, and a second STOP is requested. -/
def acqWait (s : State) : State :=
  match s.acq.ctx with
  | none => s
  | some c =>
    if c.step = some .sweeping then
      stopSweep s { c.waiting with partialBegin := none, partialEnd := none, partialOpen := false } .sweeping .reform
    else setCtx s c.waiting

/-- R142: LINK. While link used is no it is taken as a WAIT. -/
def acqLink (s : State) : State :=
  match s.acq.ctx with
  | none => s
  | some c => if c.linkUsed then linkFailed s else acqWait s

/-- R127: what SHA tells is delivered. -/
def deliver : State × Option LinkTell → State
  | (s, none) => s
  | (s, some .ready) => acqReady s
  | (s, some .wait) => acqWait s
  | (s, some .link) => acqLink s

/-- R143: the report SHA has accepted while the link is ready is told. -/
def deliverReport : State × Option WinRec → State
  | (s, none) => s
  | (s, some r) => acqReport s r

/-! ## Timers (R141, R142, R151) -/

/-- R141: the settle timer runs out. It runs in SETTLE alone. -/
def acqSettleTimer (s : State) : State :=
  match s.acq.ctx with
  | none => s
  | some c => if c.settleTimer.isSome && c.phase = .settle then afterSettle s else s

/-- R142: the link wait timer runs out. -/
def acqLinkWait (s : State) : State :=
  match s.acq.ctx with
  | none => s
  | some c => if c.linkWait.isSome then linkFailed s else s

/-- R151: the gap timer runs out. -/
def acqGapTimer (s : State) : State :=
  match s.acq.ctx with
  | none => s
  | some c =>
    if c.gapTimer.isNone then s
    else if 3 ≤ c.gapRestarts then acqFail s .gaps
    else
      stopSweep s
        { c with gapRestarts := c.gapRestarts + 1, partialBegin := none, partialEnd := none, partialOpen := false }
        .toStart .reform

/-! ## Bringing a context back (R166 to R169) -/

/-- R167: the phase after settle of a resumed context. -/
def ResumePhase.after : ResumePhase → Phase
  | .slew | .azSweep => .azSweep
  | .elSweep => .elSweep
  | .track => .track

/-- Table 9-4: the slew pose of a resumed context. A field that the entry lacks is taken as R140 gives. -/
def resumePose (s : State) (e : StackEntry) (p : ResumePhase) : Int × Int :=
  let x := entryOf s e.row
  let usual := slewPose x
  match p with
  | .slew | .track => usual
  | .azSweep => (e.resumePan.getD usual.1, e.resumeTilt.getD usual.2)
  | .elSweep =>
    ((e.midpointAz.map fun m => holdSoft (s.axis .pan) (m + x.adjust.offsetAz)).getD usual.1, e.resumeTilt.getD usual.2)

/-- R167: the context of a stack entry, by the phase to resume. -/
def resumedCtx (s : State) (e : StackEntry) (p : ResumePhase) : Ctx :=
  newCtx e.row (resumePose s e p).1 (resumePose s e p).2 (entryOf s e.row).set.presetPol p.after e.reacquire

/-- R168, wake pose PRESET: the full acquisition from the presets. -/
def presetCtx (s : State) (e : StackEntry) : Ctx :=
  let x := (entryOf s e.row).set
  newCtx e.row x.presetPan x.presetTilt x.presetPol .azSweep e.reacquire

/-- R166, steps 1 to 5: the top entry is removed, a running context is pushed, the axes are taken, and the context is
created. The slew follows (`startSlew`), for a RESUME after its REPLY. -/
def popTo (s : State) (e : StackEntry) (c : State → Ctx) : State :=
  let s1 := stbChange (setStack s s.acq.stack.tail) e.row [.suspended] .acquiring none
  let s2 := axsTakeAll (acqPush s1 .switch none) .search searchAxes
  raise (createCtx s2 (c s2)) (.resumeResumed e.row e.cause)

/-- R166: a pop by the saved phase. -/
def popSaved (s : State) (e : StackEntry) : State := popTo s e fun s => resumedCtx s e e.phase

/-- R168: the phase by which a PARK entry resumes with wake pose RETURN. -/
def returnPhase (s : State) (e : StackEntry) : ResumePhase :=
  let l := (entryOf s e.row).learned
  if l.pan.isSome && l.tilt.isSome then .track else e.phase

/-- R168: at a wake. -/
def acqWake (s : State) : State :=
  match s.acq.stack with
  | [] => s
  | e :: _ =>
    if e.cause ≠ .park then s
    else if s.wsm.gust = .hold then raise s (.resumeKept e.row)
    else match s.dsq.wakePose with
      | .return => startSlew (popTo s e fun t => resumedCtx t e (returnPhase t e))
      | .preset => startSlew (popTo s e fun t => presetCtx t e)

/-- R168: at the clearing of HOLD. -/
def acqHoldCleared (s : State) : State :=
  match s.acq.stack with
  | [] => s
  | e :: _ =>
    if e.cause ≠ .gust then s
    else if s.dsq.deploy = .deployed then startSlew (popSaved s e)
    else raise s (.resumeKept e.row)

/-- R169: the top entry is dropped. -/
def acqDrop (s : State) (e : StackEntry) : State :=
  stbChange (setStack s s.acq.stack.tail) e.row [.suspended] .loaded none

/-- R136, R170: what a RESET request leaves. -/
def Acq.resetKept (x : Acq) : Acq := { x with ctx := none, stack := [] }

end Sys2Proof.Machine
end

