-- ==== Sys2Proof/Machine/Dsq.lean ====
section
/-! DEFINITION. The Deploy Sequencer, lower part (spec/04): entry to HELD, the backward walk and the STOW effects. -/

namespace Sys2Proof.Machine

/-- R66: the deploy state changes and is handed to TXC at once. -/
def setDeploy (s : State) (d : Deploy) : State := txcDeploy (s.withDsq { s.dsq with deploy := d }) d

/-- The slot in progress. -/
def setSlot (s : State) (n : Option Nat) : State := s.withDsq { s.dsq with slot := n }

/-! ## Held (R84) -/

/-- R84: the context ends only when the state was DEPLOYED or PARKED. -/
def abortIfPointing (s : State) : State :=
  match s.dsq.deploy with
  | .deployed | .parked => acqAbort s
  | .unknown | .stowed | .raising | .lowering | .held => s

/-- R84: entry to HELD. An event that would enter HELD in HELD changes nothing. DESIGN CHOICE (log 39): the STOP frames of
several travelling axes leave in the order of the nodes, MAST, PAN, TILT, POL. -/
def heldEntry (s : State) (cause : HoldCause) : State :=
  if s.dsq.deploy = .held then s
  else
    let s1 := abortIfPointing (s.withDsq { s.dsq with holdCause := cause, slotTimer := none, slot := none })
    raise (setDeploy (axsStopAll (axsTakeAll s1 .sequence allAxes) allAxes) .held) (.deployHeld cause)

/-! ## Actions of a slot (R70) -/

/-- R70, Table 4-4: the axis and the target of a motion action; the target of MAST_UP is absent while there is no deploy
height in force. -/
def actionMove (d : Dsq) : ActionKind → Option (Axis × Option Int)
  | .none | .channel => none
  | .mastUp => some (.mast, d.deployHeight)
  | .mastDown => some (.mast, some 0)
  | .tiltOut => some (.tilt, some d.unstowTilt)
  | .tiltIn => some (.tilt, some d.stowTilt)
  | .panHome => some (.pan, some d.stowPan)

/-- R69: the channels an action names. -/
def ActionChannel.names : ActionChannel → Channel → Bool
  | .lift, c => c = .lift
  | .lock, c => c = .lock
  | .pan, c => c = .pan
  | .tilt, c => c = .tilt
  | .pol, c => c = .pol
  | .dish, c => c = .pan || c = .tilt || c = .pol

/-- Table 4-4: a CHANNEL action: the frames, and the slot timer. -/
def channelAction (s : State) (act : Action) : State :=
  let s1 := axsChannels s fun _ c => if act.channel.names c then some act.state else none
  s1.withDsq { s1.dsq with slotTimer := some s1.dsq.slotTime }

/-- R70: the MOVE TO of a motion action as owner SEQUENCE; a refusal ends the walk in HELD. -/
def actionMoveTo (s : State) (a : Axis) (target : Int) : State :=
  match axsMoveTo s .sequence a target (some (capped (s.axis a).rateLimit (rateCap s.wsm a))) with
  | .error _ => heldEntry s .action
  | .ok s1 => s1

/-! ## Channels of the walks (R74) -/

/-- R74: every channel that is not FULL, to FULL. -/
def channelsToFull (s : State) : State := axsChannels s fun s c => if s.chan c = .full then none else some .full

/-- R74, R86: every channel that is not OFF, to OFF. -/
def channelsToOff (s : State) : State := axsChannels s fun s c => if s.chan c = .off then none else some .off

/-- R74, R86: the channels OFF, the axes released, the state STOWED. -/
def goStowed (s : State) : State := setDeploy (axsReleaseAll (channelsToOff s) allAxes) .stowed

/-- R74: the backward walk ends with the stow test. -/
def backwardEnd (s : State) : State :=
  let s1 := setSlot s none
  if stowTest s1 then raise (goStowed s1) .deployDown else heldEntry s1 .unsure

/-- R70, Table 4-5: a motion action in LOWERING: MAST_UP is checked against the maximum height only. -/
def lowerMove (s : State) (kind : ActionKind) (a : Axis) : Option Int → State
  | none => heldEntry s .action
  | some target =>
    if kind = .mastUp ∧ s.dsq.maxHeight < target then heldEntry s .action else actionMoveTo s a target

/-- The action of a slot; a slot that does not exist does nothing. -/
def slotAction (s : State) (n : Nat) (pick : Slot → Action) : Action := (s.dsq.slots[n]?.map pick).getD .powerOn

/-- R70, R71, R74: the backward walk over the slots below a number, from the highest down. NONE slots are passed at once. -/
def lowerFrom : Nat → State → State
  | 0, s => backwardEnd s
  | n + 1, s =>
    let s1 := setSlot s (some n)
    let act := slotAction s n (·.stow)
    match act.kind, actionMove s.dsq act.kind with
    | .none, _ => lowerFrom n s1
    | _, none => channelAction s1 act
    | kind, some (a, target) => lowerMove s1 kind a target

/-! ## STOW effects (R77, R78, R79) -/

/-- R77, R79: how many slots the backward walk has to pass: from the slot in progress in RAISING, from the last slot
otherwise. -/
def slotsToLower (s : State) : Nat :=
  if s.dsq.deploy = .raising then (match s.dsq.slot with
    | some n => n + 1
    | none => 0)
  else tableLength s.dsq.slots

/-- R78: what comes before the backward walk, in order. DESIGN CHOICE (log 39): the STOP frames of several travelling axes
leave in the order of the nodes, MAST, PAN, TILT, POL. -/
def beforeWalk (s : State) : State :=
  let s1 := shaEnd (txcStow (acqEmptyStack (acqWalkAbort s)))
  let s2 := axsStopAll (axsTakeAll s1 .sequence allAxes) allAxes
  setDeploy (s2.withDsq { s2.dsq with slotTimer := none }) .lowering

/-- R77: the STOW effects and the backward walk, in RAISING, DEPLOYED, PARKED and HELD. The notice is raised before the
first slot starts (log 16). -/
def stowEffects (s : State) (cause : WalkCause) : State :=
  let n := slotsToLower s
  let s1 := beforeWalk s
  let s2 := raise (s1.withDsq { s1.dsq with walkCause := cause, holdCause := .none }) (.deployLowering cause)
  if n = 0 then backwardEnd s2 else lowerFrom n (channelsToFull s2)

/-- R77, R80, R81: the states in which the STOW effects can be raised. -/
def Deploy.stowable (d : Deploy) : Bool := d = .raising || d = .deployed || d = .parked || d = .held

/-- R77, R80, R81: the STOW effects, in the states in which they can be raised. -/
def stowIfUp (s : State) (cause : WalkCause) : State := if s.dsq.deploy.stowable then stowEffects s cause else s

/-! ## First reports (R68) -/

/-- R68: a report of MAST, PAN or TILT taken in UNKNOWN is recorded. -/
def Dsq.record (d : Dsq) : Axis → Dsq
  | .mast => { d with mastReported := true }
  | .pan => { d with panReported := true }
  | .tilt => { d with tiltReported := true }
  | .pol => d

/-- R68: all three have reported. -/
def Dsq.allReported (d : Dsq) : Bool := d.mastReported && d.panReported && d.tiltReported

/-- R68, R80, R81: the pose is judged; when the judgement gives HELD the lines may call for lowering at once. -/
def judgeFirst (s : State) : State :=
  if stowTest s && [Axis.mast, .pan, .tilt].all fun a => (s.axis a).motion ≠ .halted then setDeploy s .stowed
  else
    let s1 := heldEntry s .unsure
    if s1.dsq.stowIn then stowIfUp s1 .button
    else if !s1.dsq.parkIn then stowIfUp s1 .interlock
    else s1

/-- R68: what DSQ does with a report that AXS has taken. -/
def dsqReport (s : State) (a : Axis) : State :=
  if s.dsq.deploy = .unknown then
    let s1 := s.withDsq (s.dsq.record a)
    if s1.dsq.allReported then judgeFirst s1 else s1
  else s

/-! ## Faults told to DSQ (Table 4-6, Table 4-9) -/

/-- Table 4-9: an event on a SEQUENCE axis, in RAISING, LOWERING and a re-height. -/
def sequenceFault (s : State) (cause : HoldCause) : State :=
  match s.dsq.deploy with
  | .raising | .lowering | .deployed => heldEntry s cause
  | .unknown | .stowed | .parked | .held => s

/-- R102, Table 4-9: a slope fault. -/
def slopeFault (s : State) : State :=
  match s.dsq.deploy with
  | .unknown | .raising | .deployed | .parked | .lowering => heldEntry s .slope
  | .stowed | .held => s

/-- R66: the status fields after a RESET request; the two levels are those of the pins, and the settings are kept. -/
def Dsq.resetKept (d : Dsq) : Dsq :=
  { d with
    deploy := .unknown, slot := none, holdCause := .none, walkCause := .none, deployHeight := none, slotTimer := none
    mastReported := false, panReported := false, tiltReported := false }

end Sys2Proof.Machine
end

