-- ==== Sys2Proof/Machine/Wsm.lean ====
section
/-! DEFINITION. The Wind and Slope Monitor (spec/05): gust states, HOLD, the wind lowering, slope. -/

namespace Sys2Proof.Machine

/-! ## The wind lowering (R97, R98) -/

/-- R97: the lowering test: a row is in force and the MAST position exceeds its height cap. The height cap, when the test
passes. -/
def loweringCap (s : State) : Option Int :=
  match s.wsm.caps, (s.axis .mast).position with
  | some row, some h => if row.heightCap < h then some row.heightCap else none
  | _, _ => none

/-- R98: MAST can be moved by WSM. -/
def mastMovable (s : State) : Bool :=
  let r := s.axis .mast
  r.motion ≠ .halted && r.motion ≠ .off && channelsFull s .mast && r.position.isSome

/-- R98: the wind lowering to a height cap. -/
def startLowering (s : State) (cap : Int) : State :=
  if mastMovable s then
    match axsMoveTo (axsTake s .wind .mast) .wind .mast cap none with
    | .ok s1 => raise s1 (.windLowering cap)
    | .error _ => raise s .windBlocked
  else raise s .windBlocked

/-- R98: a lowering is under way to a target at or below a cap. -/
def loweringUnderWay (s : State) (cap : Int) : Bool :=
  let r := s.axis .mast
  r.owner = .wind && r.motion = .moving && r.selected.any (· ≤ cap)

/-! ## Hold (R96, R97, R98) -/

/-- R96: the stow condition. -/
def stowCondition (s : State) : Bool :=
  s.wsm.gustValue.any (fun g => s.wsm.stowWind ≤ g) || s.wsm.caps.any fun row => row.heightCap < s.dsq.minHeight

/-- Table 5-6: WSM asks for the stow, by the deploy state. -/
def windStows (s : State) : Bool :=
  match s.dsq.deploy with
  | .unknown | .stowed | .lowering => false
  | .raising => stowCondition s || s.dsq.deployHeight.any (aboveCap s.wsm)
  | .deployed =>
    stowCondition s || ((s.axis .mast).owner = .sequence && s.dsq.deployHeight.any (aboveCap s.wsm))
  | .parked => stowCondition s || (s.axis .mast).position.any (aboveCap s.wsm)
  | .held => stowCondition s

/-- The gust value that a notice carries: there is one whenever WSM raises such a notice. -/
def gustCarried (s : State) : Int := (s.wsm.gustValue.getD 0 : Nat)

/-- R96: the stow, and its notice. -/
def windStow (s : State) : State := raise (stowEffects s .wind) (.windStow (gustCarried s))

/-- R97: the STOP of each travelling axis owned by neither SEQUENCE nor WIND. DESIGN CHOICE: the frames leave in the order of
the nodes, MAST, PAN, TILT, POL (log 39), and a console run whose axis stands IDLE at its limit stays open under its deadman
timer, since AXS sends no STOP that would close it (R63; log 40). -/
def stopForHold (s : State) : State :=
  allAxes.foldl (fun s a =>
    if (s.axis a).owner = .sequence ∨ (s.axis a).owner = .wind then s else axsStopTravelling s a) s

/-- R97: at entry a passing test starts a lowering, and replaces the target of one that outlived an earlier HOLD
(log 27). -/
def lowerAtEntry (s : State) : State :=
  if (s.axis .mast).owner = .sequence then s
  else match loweringCap s with
    | some cap => startLowering s cap
    | none => s

/-- R98: at a re-judgement a passing test makes no request while a lowering is under way to a target at or below the
cap. -/
def lowerAgain (s : State) : State :=
  if (s.axis .mast).owner = .sequence then s
  else match loweringCap s with
    | some cap => if loweringUnderWay s cap then s else startLowering s cap
    | none => s

/-- R96, R97: entry to HOLD. -/
def holdEntry (s : State) : State :=
  if windStows s then windStow s
  else if s.dsq.deploy = .deployed then lowerAtEntry (stopForHold (acqPush s .gust none))
  else s

/-- R98: the re-judgement in HOLD. -/
def rejudge (s : State) : State :=
  if windStows s then windStow s
  else if s.dsq.deploy = .deployed then lowerAgain (acqPush s .gust none)
  else s

/-- R98: the re-judgement, made only while the gust state is HOLD. -/
def rejudgeInHold (s : State) : State := if s.wsm.gust = .hold then rejudge s else s

/-! ## Wind reports (R90, R95, R100) -/

/-- R95: one more on a run, up to its limit, or 0. -/
def runCount (qualifies : Bool) (run limit : Nat) : Nat := if qualifies then min (run + 1) limit else 0

/-- R90, R91, R95: the memory, the watch and the run counts after a report. -/
def Wsm.take (w : Wsm) (speed : Nat) : Wsm :=
  { w with
    memory := (speed :: w.memory).take 3
    warnRun := runCount (w.warnThreshold ≤ speed) w.warnRun 3
    holdRun := runCount (w.holdThreshold ≤ speed) w.holdRun 3
    calmRun := runCount (speed < w.warnThreshold) w.calmRun 60
    windWatch := some Config.sensorSilenceMs }

/-- Table 5-5: the gust state after the run counts. -/
def Wsm.nextGust (w : Wsm) : Gust :=
  match w.gust with
  | .calm => if w.holdRun = 3 then .hold else if w.warnRun = 3 then .warn else .calm
  | .warn => if w.holdRun = 3 then .hold else if w.calmRun = 60 then .calm else .warn
  | .hold => if w.calmRun = 60 then .calm else .hold

/-- R95: a change of the gust state: it is handed to TXC, and the notice is raised. -/
def setGust (s : State) (g : Gust) : State :=
  raise (txcGust (s.withWsm { s.wsm with gust := g }) g) (.windState g (gustCarried s))

/-- R90: a WIND report taken. -/
def windTaken (s : State) (speed : Nat) : State :=
  let s1 := s.withWsm (s.wsm.take speed)
  match s.wsm.gust, s1.wsm.nextGust with
  | .hold, .hold => rejudge s1
  | _, .hold => holdEntry (setGust s1 .hold)
  | .hold, .calm => acqHoldCleared (setGust s1 .calm)
  | old, new => if old = new then s1 else setGust s1 new

/-- R90: a WIND report whose speed lies outside 0 to 600 is not taken. -/
def wsmWind (s : State) (speed : Int) : State := if 0 ≤ speed ∧ speed ≤ 600 then windTaken s speed.toNat else s

/-- R91: the wind silence watch runs out. -/
def wsmWindSilent (s : State) : State :=
  if s.wsm.windWatch.isSome then raise (s.withWsm { s.wsm with windWatch := none }) .windSilent else s

/-! ## Slope (R91, R101, R102) -/

/-- R101, R102: a SLOPE report taken. A fault is handed to DSQ; the notice marks the entry to FAULT. -/
def slopeTaken (s : State) (roll pitch : Int) : State :=
  let now := slopeOf s.wsm.slopeLimit s.wsm.slopeMargin roll pitch
  let s1 := s.withWsm
    { s.wsm with lastSlope := some (roll, pitch), slopeState := now, slopeWatch := some Config.sensorSilenceMs }
  if now = .fault then
    (if s.wsm.slopeState = .fault then slopeFault s1 else raise (slopeFault s1) (.slopeFault roll pitch))
  else s1

/-- R101: a SLOPE report outside −900 to +900 is not taken. -/
def wsmSlope (s : State) (roll pitch : Int) : State :=
  if -900 ≤ roll ∧ roll ≤ 900 ∧ -900 ≤ pitch ∧ pitch ≤ 900 then slopeTaken s roll pitch else s

/-- R91: the slope silence watch runs out. -/
def wsmSlopeSilent (s : State) : State :=
  if s.wsm.slopeWatch.isSome then
    raise (s.withWsm { s.wsm with slopeWatch := none, lastSlope := none, slopeState := .none }) .slopeSilent
  else s

/-! ## Derate table and settings (R92, R94) -/

/-- R92: a field of a derate row, range checked. -/
def DerateRow.write (r : DerateRow) (field : Nat) (v : Int) : Except Reason DerateRow :=
  match field with
  | 0 => orRange (boolOf v) fun b => { r with valid := b }
  | 1 => orRange (natInRange 0 600 v) fun n => { r with floor := n }
  | 2 => orRange (inRange 0 1500 v) fun h => { r with heightCap := h }
  | 3 => orRange (natInRange 1 300 v) fun n => { r with panCap := n }
  | 4 => orRange (natInRange 1 300 v) fun n => { r with tiltCap := n }
  | _ => .error .ignored

/-- R92: the wind floors of the valid rows increase strictly with the row number. -/
def floorsRise (rows : List DerateRow) : Bool :=
  let fs := (rows.filter (·.valid)).map (·.floor)
  (fs.zip fs.tail).all fun p => p.1 < p.2

/-- R92: a write to a field of a row of the derate table. The order of the floors is checked for valid yes and for the
floor of a valid row. -/
def derateWrite (rows : List DerateRow) (row field : Nat) (v : Int) : Except Reason (List DerateRow) :=
  match rows[row]? with
  | none => .error .ignored
  | some r =>
    match r.write field v with
    | .error why => .error why
    | .ok r1 =>
      let rows1 := rows.set row r1
      if r1.valid && (field = 0 || field = 1) && !floorsRise rows1 then .error .range else .ok rows1

/-- Table 5-4: the values of the warn threshold. -/
def warnValue (v : Int) : Option Nat := if v = 80 ∨ v = 110 ∨ v = 140 ∨ v = 170 then some v.toNat else none

/-- R94: a write of a wind setting. An accepted write sets the run counts to 0. -/
def Wsm.writeSetting (w : Wsm) (which : WindSetting) (v : Int) : Except Reason Wsm :=
  let fresh := { w with warnRun := 0, holdRun := 0, calmRun := 0 }
  match which with
  | .warnThreshold =>
    match warnValue v with
    | some n => if n < w.holdThreshold then .ok { fresh with warnThreshold := n } else .error .range
    | none => .error .range
  | .holdThreshold =>
    match natInRange 50 600 v with
    | some n => if w.warnThreshold < n ∧ n ≤ w.stowWind then .ok { fresh with holdThreshold := n } else .error .range
    | none => .error .range
  | .stowWind =>
    match natInRange 50 600 v with
    | some n => if w.holdThreshold ≤ n then .ok { fresh with stowWind := n } else .error .range
    | none => .error .range

/-- R90, R91, R94, R101: the operational state after a RESET request; the table and the settings are kept. -/
def Wsm.resetKept (w : Wsm) : Wsm :=
  { w with
    gust := .calm, memory := [], warnRun := 0, holdRun := 0, calmRun := 0, lastSlope := none, slopeState := .none
    windWatch := none, slopeWatch := none }

end Sys2Proof.Machine
end

