-- ==== Sys2Proof/Machine/Walk.lean ====
section
/-! DEFINITION. The Deploy Sequencer, upper part (spec/04): entry to DEPLOYED and PARKED, the forward walk, DEPLOY and the
re-height, PARK, WAKE and CLEAR_HOLD. -/

namespace Sys2Proof.Machine

/-- R66, R98: the deploy state becomes DEPLOYED or PARKED, and WSM re-judges while it is in HOLD (log 15). -/
def enterDeploy (s : State) (d : Deploy) : State := rejudgeInHold (setDeploy s d)

/-! ## The forward walk (R70, R71, R72) -/

/-- R72: the forward walk ends. -/
def forwardEnd (s : State) : State :=
  raise (enterDeploy (axsReleaseAll (setSlot s none) allAxes) .deployed) .deployUp

/-- R70, Table 4-5: a motion action in RAISING and its checks, in order. -/
def raiseMove (s : State) (a : Axis) : Option Int → State
  | none => heldEntry s .action
  | some target =>
    if !inSoft s a target then heldEntry s .action
    else if a = .mast ∧ s.dsq.maxHeight < target then heldEntry s .action
    else if a = .mast ∧ aboveCap s.wsm target then heldEntry s .wind
    else
      let r := moveCheck s a target
      if r.1 then heldEntry r.2 .zone else actionMoveTo r.2 a target

/-- R70, R71, R72: the forward walk over the last slots of a table of the given length. NONE slots are passed at once. -/
def raiseFrom (length : Nat) : Nat → State → State
  | 0, s => forwardEnd s
  | left + 1, s =>
    let n := length - (left + 1)
    let s1 := setSlot s (some n)
    let act := slotAction s n (·.deploy)
    match act.kind, actionMove s.dsq act.kind with
    | .none, _ => raiseFrom length left s1
    | _, none => channelAction s1 act
    | _, some (a, target) => raiseMove s1 a target

/-- R71: the action of the slot in progress has completed. -/
def slotDone (s : State) : State :=
  match s.dsq.deploy, s.dsq.slot with
  | .raising, some n => raiseFrom (tableLength s.dsq.slots) (tableLength s.dsq.slots - (n + 1)) s
  | .lowering, some n => lowerFrom n s
  | _, _ => s

/-- R71: the slot timer runs out. -/
def dsqSlotTimer (s : State) : State :=
  if s.dsq.slotTimer.isSome then slotDone (s.withDsq { s.dsq with slotTimer := none }) else s

/-- R73: the action of the slot in progress, by the walk. -/
def currentAction (s : State) : Option ActionKind :=
  match s.dsq.deploy, s.dsq.slot with
  | .raising, some n => some (slotAction s n (·.deploy)).kind
  | .lowering, some n => some (slotAction s n (·.stow)).kind
  | _, _ => none

/-- R73: the axis of the motion action in progress. -/
def actionAxis (s : State) : Option Axis :=
  match currentAction s with
  | some k => (actionMove s.dsq k).map (·.1)
  | none => none

/-- R76: a re-height has arrived. -/
def reheightDone (s : State) : State := raise (axsRelease s .mast) (.deployHeight (s.dsq.deployHeight.getD 0))

/-- Table 4-6: arrival at the selected target of an axis owned by SEQUENCE. -/
def dsqArrival (s : State) (a : Axis) : State :=
  if s.dsq.deploy = .deployed then (if a = .mast then reheightDone s else s)
  else if actionAxis s = some a then slotDone s
  else s

/-! ## DEPLOY (R75, R76) -/

/-- R75: the height a DEPLOY asks. -/
def requestedHeight (s : State) (height : Option Int) : Int := height.getD s.dsq.defaultHeight

/-- Table 4-7, step 4. -/
def slopeAllows (w : Wsm) : Bool :=
  w.lastSlope.any fun rp => rp.1.natAbs ≤ w.slopeLimit && rp.2.natAbs ≤ w.slopeLimit

/-- R75, R76: from the minimum deployed height to the maximum height. -/
def heightInRange (s : State) (h : Int) : Bool := s.dsq.minHeight ≤ h && h ≤ s.dsq.maxHeight

/-- R75, R76: the wind allows a height. -/
def windAllows (s : State) (h : Int) : Bool := s.wsm.gust ≠ .hold && !aboveCap s.wsm h

/-- Table 4-7, steps 1 to 6. -/
def deployRefusal (s : State) (h : Int) : Option Reason :=
  if s.dsq.deploy ≠ .stowed ∨ anyHalted s then some .state
  else if !s.dsq.parkIn || s.dsq.stowIn then some .interlock
  else if tableLength s.dsq.slots = 0 then some .noSequence
  else if !slopeAllows s.wsm then some .slope
  else if !heightInRange s h then some .range
  else if !windAllows s h then some .wind
  else none

/-- R75: the box of the mast path. The positions are present in STOWED; one that is absent, which no run reaches there,
counts as the end the box has of its own (log 25). -/
def deployBox (s : State) (h : Int) : Box where
  height := span ((s.axis .mast).position.getD h) h
  tilt := span s.dsq.stowTilt s.dsq.unstowTilt
  pan := span ((s.axis .pan).position.getD s.dsq.stowPan) s.dsq.stowPan

/-- R75: a DEPLOY that has passed every check, up to its REPLY. -/
def deployTaken (s : State) (h : Int) : State :=
  setDeploy (axsTakeAll (s.withDsq { s.dsq with deployHeight := some h }) .sequence allAxes) .raising

/-- R75: the forward walk starts at slot 0. -/
def startForward (s : State) : State := raiseFrom (tableLength s.dsq.slots) (tableLength s.dsq.slots) s

/-- R75: DEPLOY in every state but DEPLOYED. -/
def deployFromStowed (s : State) (h : Int) : State :=
  match deployRefusal s h with
  | some why => refuse s kindDeploy why
  | none =>
    let r := boxCheck s (deployBox s h)
    if r.1 then refuse r.2 kindDeploy .zone else startForward (done (deployTaken r.2 h) kindDeploy)

/-- R76: the checks of a re-height up to the move check, in order. -/
def reheightRefusal (s : State) (h : Int) : Option Reason :=
  let r := s.axis .mast
  if !heightInRange s h then some .range
  else if !windAllows s h then some .wind
  else if r.owner ≠ .none ∧ r.owner ≠ .console then some .owner
  else if !mastMovable s then some .state
  else if r.motion ≠ .idle then some .busy
  else if !inSoft s .mast h then some .range
  else none

/-- R76: a re-height that has passed every check. -/
def reheightTaken (s : State) (h : Int) : State :=
  match axsMoveTo (axsTake s .sequence .mast) .sequence .mast h none with
  | .error why => refuse s kindDeploy why
  | .ok s1 => done (s1.withDsq { s1.dsq with deployHeight := some h }) kindDeploy

/-- R76: DEPLOY in DEPLOYED. -/
def reheight (s : State) (h : Int) : State :=
  match reheightRefusal s h with
  | some why => refuse s kindDeploy why
  | none =>
    let r := moveCheck s .mast h
    if r.1 then refuse r.2 kindDeploy .zone else reheightTaken r.2 h

/-! ## PARK and WAKE (R82, R83) -/

/-- R82: the keep-on mask holds the channel. -/
def keptOn (m : ChannelMask) : Channel → Bool
  | .lift => m.getLsbD 0
  | .lock => m.getLsbD 1
  | .pan => m.getLsbD 2
  | .tilt => m.getLsbD 3
  | .pol => m.getLsbD 4

/-- R82: the channels of a parked part. -/
def channelsToPark (s : State) : State :=
  axsChannels s fun s c => some (if keptOn s.dsq.keepOn c then .low else .off)

/-- R82: a PARK that is taken, up to its REPLY. -/
def parkTaken (s : State) : State := enterDeploy (channelsToPark (acqPush s .park none)) .parked

/-- R83: the part wakes, up to the hand over of the wake pose. -/
def wakeUp (s : State) : State := enterDeploy (axsChannels s fun _ _ => some .full) .deployed

/-- R43, R83: the wake by a console motion frame (log 18). -/
def wakeByFrame (s : State) : State := acqWake (wakeUp (raise s .deployAwake))

/-! ## CLEAR_HOLD (R21, R86) -/

/-- R86: the mast stands above the stow height and all four axes are IDLE. -/
def clearsToDeployed (s : State) : Bool :=
  (s.axis .mast).position.any (s.dsq.stowHeight < ·) && allAxes.all fun a => (s.axis a).motion = .idle

/-- R86: the hold cause becomes NONE. -/
def clearHoldCause (s : State) : State := s.withDsq { s.dsq with holdCause := .none }

/-- R86: CLEAR_HOLD in HELD, after the clearing of the axes. -/
def clearHeld (s : State) : State :=
  if anyHalted s then refuse s kindClearHold .state
  else if clearsToDeployed s then
    if !s.dsq.parkIn || s.dsq.stowIn then refuse s kindClearHold .interlock
    else
      done (raise (enterDeploy (clearHoldCause (axsReleaseAll s allAxes)) .deployed) .deployUp) kindClearHold
  else if stowTest s then done (goStowed (clearHoldCause s)) kindClearHold
  else refuse s kindClearHold .state

/-- R21, R86: CLEAR_HOLD. -/
def clearHold (s : State) : State :=
  let s1 := clearAxes s
  if s1.dsq.deploy = .held then clearHeld s1
  else if anyHalted s1 then refuse s1 kindClearHold .state
  else done s1 kindClearHold

end Sys2Proof.Machine
end

