-- ==== Sys2Proof/Machine/Events.lean ====
section
/-! DEFINITION. What AXS tells the owner of an axis (R6, Table 1-5), and the events of an axis from a POSITION report, an
arrival timeout or a silence to the end of what they cause (R10 to R20, R35, R36). -/

namespace Sys2Proof.Machine

/-! ## Tells by owner (Table 1-5) -/

/-- Arrival at the selected target. -/
def tellArrival (s : State) (a : Axis) (position : Int) : State :=
  match (s.axis a).owner with
  | .none | .console => s
  | .search => acqArrival s a
  | .sequence => dsqArrival s a
  | .wind => endLowering s (.windLowered position)

/-- The first report at rest after a STOP. -/
def tellRest (s : State) (a : Axis) (position : Int) : State :=
  match (s.axis a).owner with
  | .none | .console | .sequence | .wind => s
  | .search => acqRest s a position

/-- HALTED. -/
def tellHalted (s : State) (a : Axis) (cause : FaultCause) : State :=
  match (s.axis a).owner with
  | .none | .console => s
  | .search => acqFail s .aborted
  | .sequence => sequenceFault s .axis
  | .wind => endLowering s (.windHalted cause)

/-- Stopped by a zone (Table 2-6). -/
def tellZoneStop (s : State) (a : Axis) : State :=
  match (s.axis a).owner with
  | .none | .console | .wind => s
  | .search => acqZoneStop s a
  | .sequence => sequenceFault s .zone

/-- R56: stopped by the console while MOVING. -/
def tellConsoleStop (s : State) (a : Axis) : State :=
  match (s.axis a).owner with
  | .none | .console | .search => s
  | .sequence => sequenceFault s .stopped
  | .wind => endLowering s .windStopped

/-! ## Halts (R15 to R19) -/

/-- R17: an axis enters HALTED and its owner is told. -/
def haltAxis (s : State) (a : Axis) (cause : FaultCause) : State := tellHalted (axsHalt s a cause) a cause

/-- R20: release ready of a HALTED axis. -/
def setReleaseReady (s : State) (a : Axis) (b : Bool) : State := s.setAxis a { s.axis a with releaseReady := b }

/-- R18: the arrival timer runs out. -/
def arrivalTimeout (s : State) (a : Axis) : State :=
  if (s.axis a).arrivalTimer.isSome && (s.axis a).travelling then haltAxis s a .arrival else s

/-- R19: the silence watch runs out. -/
def silenceExpiry (s : State) (a : Axis) : State :=
  if (s.axis a).silenceWatch.isSome then
    let s1 := s.setAxis a { s.axis a with silenceWatch := none }
    if (s1.axis a).motion = .halted then setReleaseReady s1 a false else haltAxis s1 a .silence
  else s

/-- R16: a bad report. -/
def badReport (s : State) (a : Axis) : State :=
  if (s.axis a).motion = .halted then setReleaseReady s a false else haltAxis s a .badReport

/-- R15: a faulted report. -/
def faultedReport (s : State) (a : Axis) (code : Nat) : State :=
  let s1 := s.setAxis a { s.axis a with driveCode := some code }
  if (s1.axis a).motion = .halted then setReleaseReady s1 a false else haltAxis s1 a .drive

/-! ## Arrival and the end of stopping (R10, R11) -/

/-- R10: the record after an arrival. -/
def AxisRec.arrived (r : AxisRec) : AxisRec := { r with motion := .idle, arrivalTimer := none, jogTarget := none }

/-- R11: the record after the first report at rest that follows a STOP. -/
def AxisRec.rested (r : AxisRec) (position : Int) : AxisRec :=
  let r1 := if r.stopMoved then r.setTarget r.sel (some position) else r
  { r1 with stopping := false, stopMoved := false }

/-- R10: the position is within tolerance of a target that is present. -/
def AxisRec.reached (r : AxisRec) (position : Int) (target : Option Int) : Bool :=
  target.any fun t => withinTol position t r.tolerance

/-- R10, R11, R20: what a clean report does after it has updated the position: arrival, else the end of stopping; for a
HALTED axis release ready. -/
def cleanReport (s : State) (a : Axis) (position : Int) (moving : Bool) : State :=
  let r := s.axis a
  if r.motion = .halted then setReleaseReady s a true
  else if moving then s
  else if r.motion = .moving && r.reached position r.selected then
    tellArrival (s.setAxis a r.arrived) a position
  else if r.motion = .jogging && r.reached position r.jogTarget then s.setAxis a r.arrived
  else if r.stopping then tellRest (s.setAxis a (r.rested position)) a position
  else s

/-! ## POSITION reports (R14) -/

/-- R14, R19: the position is taken and the silence watch restarts. -/
def takePosition (s : State) (a : Axis) (position : Int) : State :=
  s.setAxis a { s.axis a with position := some position, silenceWatch := some Config.silenceMs }

/-- R14: a POSITION report within the full range, in the order of log 12: the fault is judged, the position is handed to
TXC, the arrival or the rest is judged and told, and DSQ records the report. -/
def positionTaken (s : State) (a : Axis) (position : Int) (moving fault : Bool) (code : Nat) : State :=
  let s1 := takePosition s a position
  let s2 := if fault then faultedReport s1 a code else s1
  let s3 := txcPosition s2 a
  dsqReport (if fault then s3 else cleanReport s3 a position moving) a

/-- R14, R16: a POSITION report. -/
def axsReport (s : State) (a : Axis) (position : Int) (moving fault : Bool) (code : Nat) : State :=
  if inFull a position then positionTaken s a position moving fault code else badReport s a

/-! ## Zone writes (R34, R35, R36) -/

/-- R36: the zone with one more hit for an axis stopped. -/
def hitZone (s : State) (row : Nat) : State := s.withZones (s.zones.modify row Zone.hit)

/-- R36: a zone stop, to the tell of the owner. -/
def zoneStop (s : State) (row : Nat) (a : Axis) : State :=
  tellZoneStop (raise (hitZone (axsStop s a) row) (.zoneStopped a row)) a

/-- R35: the axes the re-check takes: travelling, not owned by WIND, nor by SEQUENCE in LOWERING. -/
def rechecked (s : State) (a : Axis) : Bool :=
  let r := s.axis a
  r.travelling && r.owner ≠ .wind && !(r.owner = .sequence && s.dsq.deploy = .lowering)

/-- R35, R36: the re-check of one axis against the written zone. -/
def recheckAxis (row : Nat) (s : State) (a : Axis) : State :=
  match s.zones[row]? with
  | some z => if rechecked s a && zoneStops s z a then zoneStop s row a else s
  | none => s

/-- R35: MAST, PAN and TILT in that order. -/
def recheck (s : State) (row : Nat) : State := [Axis.mast, .pan, .tilt].foldl (recheckAxis row) s

/-- R35: the written zone contains the last reported pose after the write and did not before it. -/
def poseEntered (s : State) (old new : Zone) : Bool :=
  (presentPose s).any fun p => zoneHolds new p && !zoneHolds old p

/-- R34: an accepted zone write, up to its REPLY. -/
def zoneWritten (s : State) (row : Nat) (old new : Zone) : State :=
  let s1 := txcZone (s.withZones (s.zones.set row { new with hits := 0 }))
  let s2 := if poseEntered s old new then raise s1 (.zonePose row) else s1
  if new.valid then recheck s2 row else s2

end Sys2Proof.Machine
end

