-- ==== Sys2Proof/Machine/Manage.lean ====
section
/-! DEFINITION. Management table access (R181 to R184): the number each field reads, and the check and the effect of a
write to each read-write field. A field that reads none is one that is absent or does not exist: both are answered with
present flag 0 and value 0 (R1, R182). -/

namespace Sys2Proof.Machine

/-! ## Reading (R182) -/

/-- Number of a count. -/
def numOf (n : Nat) : Option Int := some (n : Int)

/-- Number of a flag: 1 for yes, set or asserted. -/
def flagOf (b : Bool) : Option Int := numOf (boolCode b)

/-- Number of an optional count. -/
def optNum (n : Option Nat) : Option Int := n.map fun k => (k : Int)

/-- Table 0. -/
def readIdentity : Nat → Option Int
  | 0 => numOf Config.partCode
  | 1 => numOf Config.revision
  | _ => none

/-- Table 1: row of an axis. -/
def axisOfRow : Nat → Option Axis
  | 0 => some .mast
  | 1 => some .pan
  | 2 => some .tilt
  | 3 => some .pol
  | _ => none

/-- Table 1-2, in order; the channel states of the node last. -/
def readAxis (s : State) (a : Axis) (field : Nat) : Option Int :=
  let r := s.axis a
  match field with
  | 0 => numOf r.motion.code
  | 1 => numOf r.owner.code
  | 2 => r.position
  | 3 => r.working
  | 4 => r.alternate
  | 5 => numOf (selCode r.sel)
  | 6 => r.jogTarget
  | 7 => flagOf r.stopping
  | 8 => numOf r.rateLimit
  | 9 => numOf r.tolerance
  | 10 => numOf r.arrivalLimit
  | 11 => some r.softMin
  | 12 => some r.softMax
  | 13 => numOf r.faultCause.code
  | 14 => optNum r.driveCode
  | 15 => flagOf r.releaseReady
  | 16 => numOf (s.chan (moveChannel a)).code
  | 17 => if a = .mast then numOf (s.chan .lock).code else none
  | _ => none

/-- Table 2-1, in order. -/
def readZone (z : Zone) : Nat → Option Int
  | 0 => flagOf z.valid
  | 1 => some z.arcFrom
  | 2 => some z.arcTo
  | 3 => some z.tiltLow
  | 4 => some z.tiltHigh
  | 5 => some z.heightLow
  | 6 => some z.heightHigh
  | 7 => numOf z.hits
  | _ => none

/-- R108: OPEN reads no while the edges are absent. -/
def openFlag (e : Option Edges) : Option Int := flagOf (e.any (·.isOpen))

/-- The entry state, then Tables 6-1, 6-2 and 6-3, in order. -/
def readEntry (e : Entry) : Nat → Option Int
  | 0 => numOf e.state.code
  | 1 => numOf e.set.siteCode
  | 2 => some e.set.presetPan
  | 3 => some e.set.presetTilt
  | 4 => some e.set.presetPol
  | 5 => numOf e.set.bandMask.toNat
  | 6 => numOf e.set.polMask.toNat
  | 7 => some e.set.edgeLevel
  | 8 => some e.set.lostLevel
  | 9 => numOf e.set.lostCount
  | 10 => numOf e.set.avgLength
  | 11 => numOf e.set.searchAz
  | 12 => numOf e.set.searchEl
  | 13 => numOf e.set.trimAz
  | 14 => numOf e.set.trimEl
  | 15 => numOf e.set.searchRate
  | 16 => flagOf e.set.autoReacquire
  | 17 => some e.adjust.offsetAz
  | 18 => some e.adjust.offsetEl
  | 19 => numOf e.adjust.retrim
  | 20 => e.learned.az.map (·.beginEdge)
  | 21 => e.learned.az.map (·.endEdge)
  | 22 => e.learned.az.map (·.midpoint)
  | 23 => openFlag e.learned.az
  | 24 => e.learned.el.map (·.beginEdge)
  | 25 => e.learned.el.map (·.endEdge)
  | 26 => e.learned.el.map (·.midpoint)
  | 27 => openFlag e.learned.el
  | 28 => e.learned.pan
  | 29 => e.learned.tilt
  | 30 => numOf e.learned.cause.code
  | _ => none

/-- R182: the channel and the state of an action read 0 for a kind other than CHANNEL. -/
def ifChannel (act : Action) (n : Nat) : Option Int := numOf (if act.kind = .channel then n else 0)

/-- Table 4: kind, channel and state of the deploy action, then of the stow action. -/
def readSlot (sl : Slot) : Nat → Option Int
  | 0 => numOf sl.deploy.kind.code
  | 1 => ifChannel sl.deploy sl.deploy.channel.code
  | 2 => ifChannel sl.deploy sl.deploy.state.code
  | 3 => numOf sl.stow.kind.code
  | 4 => ifChannel sl.stow sl.stow.channel.code
  | 5 => ifChannel sl.stow sl.stow.state.code
  | _ => none

/-- Table 5-2, in order. -/
def readDerate (r : DerateRow) : Nat → Option Int
  | 0 => flagOf r.valid
  | 1 => numOf r.floor
  | 2 => some r.heightCap
  | 3 => numOf r.panCap
  | 4 => numOf r.tiltCap
  | _ => none

/-- Table 4-2 and Table 4-3 in order (fields 2 to 18 of table 6). -/
def readDsq (d : Dsq) : Nat → Option Int
  | 2 => numOf d.deploy.code
  | 3 => optNum d.slot
  | 4 => numOf d.holdCause.code
  | 5 => numOf d.walkCause.code
  | 6 => d.deployHeight
  | 7 => flagOf d.parkIn
  | 8 => flagOf d.stowIn
  | 9 => some d.stowHeight
  | 10 => some d.stowPan
  | 11 => some d.stowTilt
  | 12 => some d.unstowTilt
  | 13 => some d.minHeight
  | 14 => some d.maxHeight
  | 15 => some d.defaultHeight
  | 16 => numOf d.slotTime
  | 17 => numOf d.keepOn.toNat
  | 18 => numOf d.wakePose.code
  | _ => none

/-- The Wind and Slope Monitor's fields of table 6 (19 to 35). -/
def readWsm (w : Wsm) : Nat → Option Int
  | 19 => optNum (w.inForce.map (·.1))
  | 20 => numOf w.gust.code
  | 21 => optNum w.gustValue
  | 22 => optNum w.memory[0]?
  | 23 => optNum w.memory[1]?
  | 24 => optNum w.memory[2]?
  | 25 => numOf w.warnRun
  | 26 => numOf w.holdRun
  | 27 => numOf w.calmRun
  | 28 => numOf w.warnThreshold
  | 29 => numOf w.holdThreshold
  | 30 => numOf w.stowWind
  | 31 => numOf w.slopeLimit
  | 32 => numOf w.slopeMargin
  | 33 => w.lastSlope.map (·.1)
  | 34 => w.lastSlope.map (·.2)
  | 35 => numOf w.slopeState.code
  | _ => none

/-- Table 8-2 in order, then the phase after settle (fields 37 to 57 of table 6). -/
def readCtx (c : Ctx) : Nat → Option Int
  | 37 => numOf c.row
  | 38 => numOf c.phase.code
  | 39 => optNum (c.step.map SweepStep.code)
  | 40 => flagOf c.rest.isSome
  | 41 => c.centre
  | 42 => optNum c.extent
  | 43 => c.sweepStart
  | 44 => c.sweepEnd
  | 45 => numOf c.clipLow.code
  | 46 => numOf c.clipHigh.code
  | 47 => flagOf c.widened
  | 48 => numOf c.gapRestarts
  | 49 => c.partialBegin
  | 50 => c.partialEnd
  | 51 => numOf c.reportCount
  | 52 => numOf c.retrimInUse
  | 53 => numOf c.lostRun
  | 54 => flagOf c.reacquire
  | 55 => flagOf c.linkIsReady
  | 56 => flagOf c.linkUsed
  | 57 => numOf c.afterSettle.code
  | _ => none

/-- R136, R167: while no context runs, the site row reads a present flag of 0 and the others their values at creation. -/
def readNoCtx (field : Nat) : Option Int := if field = 37 then none else readCtx (newCtx 0 0 0 0 .azSweep false) field

/-- Table 10-1 in order (fields 60 to 69 of table 6). -/
def readTxc (t : Txc) : Nat → Option Int
  | 60 => flagOf t.txen
  | 61 => flagOf t.latch
  | 62 => flagOf t.mute
  | 63 => flagOf t.tracked
  | 64 => numOf t.deploy.code
  | 65 => numOf t.gust.code
  | 66 => flagOf t.axisHalted
  | 67 => flagOf t.pending
  | 68 => flagOf t.panSeen
  | 69 => flagOf t.tiltSeen
  | _ => none

/-- R182: the van ability word, bits 0 to 3 for B1 to B4 and bits 4 and 5 for H and V. -/
def vanWord (h : Sha) : Nat := h.vanBands.toNat + 16 * h.vanPols.toNat

/-- Table 11-4. -/
def readSettings (s : State) (field : Nat) : Option Int :=
  if field = 0 then numOf s.mgt.deadmanTime
  else if field = 1 then numOf s.lnu.window.code
  else if field ≤ 18 then readDsq s.dsq field
  else if field ≤ 35 then readWsm s.wsm field
  else if field = 36 then numOf (vanWord s.sha)
  else if field ≤ 57 then (match s.acq.ctx with
    | some c => readCtx c field
    | none => readNoCtx field)
  else if field = 58 then numOf s.acq.settleTime
  else if field = 59 then numOf s.acq.maxExtent
  else if field ≤ 69 then readTxc s.txc field
  else if field = 70 then numOf s.lnu.rateSet
  else if field = 71 then numOf s.lnu.rateInForce
  else none

/-- Table 7: the sequence, the level, the pan position and the tilt position of a record. -/
def readRecord (r : WinRec) : Nat → Option Int
  | 0 => numOf r.seq
  | 1 => some r.level
  | 2 => r.pan
  | 3 => r.tilt
  | _ => none

/-- Table 9-2, in order. -/
def readStack (e : StackEntry) : Nat → Option Int
  | 0 => numOf e.row
  | 1 => numOf e.cause.code
  | 2 => numOf e.phase.code
  | 3 => e.midpointAz
  | 4 => e.resumePan
  | 5 => e.resumeTilt
  | 6 => flagOf e.reacquire
  | _ => none

/-- R183: the pending and the newer-cause flag; field 0, the latest notice, is no number (R184, Table 11-8, note 2). -/
def readClass (r : ClassRow) : Nat → Option Int
  | 1 => flagOf r.pending
  | 2 => flagOf r.newer
  | _ => none

/-- FREE VALUE (log 9): the number a present choice reads. -/
def choiceRead (c : Choice) : Int :=
  (Config.agreedChoiceRead (bandCode c.band) (polCode c.pol) (periodCode c.period)).toInt

/-- FREE VALUE (log 9): the number a present sent choice reads. -/
def sentRead (c : Choice) (toggle : Bool) : Int :=
  (Config.sentChoiceRead (bandCode c.band) (polCode c.pol) (periodCode c.period) (boolCode toggle)).toInt

/-- FREE VALUE (log 9): the number a present site ability reads. -/
def abilityRead (a : Ability) : Int :=
  (Config.siteAbilityRead a.bands.toNat a.pols.toNat a.periods.toNat (boolCode a.ack)).toInt

/-- R130: SITE_UP, latched low. -/
def siteUp (h : Sha) : Bool := !h.downSeen && h.state = .up

/-- Table 7-2, in order. -/
def readHandshake (h : Sha) : Nat → Option Int
  | 0 => numOf h.state.code
  | 1 => flagOf (siteUp h)
  | 2 => h.agreed.map choiceRead
  | 3 => h.sent.map fun ct => sentRead ct.1 ct.2
  | 4 => flagOf h.toggle
  | 5 => numOf h.resends
  | 6 => flagOf h.heard
  | 7 => h.siteAbility.map abilityRead
  | 8 => optNum h.identity
  | 9 => flagOf h.linkReady
  | 10 => optNum h.newest
  | _ => none

/-- A field of a row that may not exist. -/
def readRow (rows : List α) (row : Nat) (f : α → Option Int) : Option Int :=
  match rows[row]? with
  | some x => f x
  | none => none

/-- R182: the value of an address; none for a field that is absent or does not exist. -/
def readField (s : State) (table row field : Nat) : Option Int :=
  match table with
  | 0 => if row = 0 then readIdentity field else none
  | 1 => (match axisOfRow row with
    | some a => readAxis s a field
    | none => none)
  | 2 => readRow s.zones row fun z => readZone z field
  | 3 => readRow s.sites row fun e => readEntry e field
  | 4 => readRow s.dsq.slots row fun sl => readSlot sl field
  | 5 => readRow s.wsm.derate row fun r => readDerate r field
  | 6 => if row = 0 then readSettings s field else none
  | 7 => readRow s.sha.window row fun r => readRecord r field
  | 8 => readRow s.acq.stack row fun e => readStack e field
  | 9 => (match NoticeClass.ofRow row with
    | some c => readClass (s.ntu.get c) field
    | none => none)
  | 10 => if row = 0 then readHandshake s.sha field else none
  | _ => none

/-- Table 11-8, note 2: the data of a READ: the present flag, and the value or 0. -/
def fieldData (v : Option Int) : ReplyData := .field v.isSome (v.getD 0)

/-- R182: a READ of a field that a READ does not change. -/
def readPlain (s : State) (table row field : Nat) : State := doneWith s kindRead (fieldData (readField s table row field))

/-- R130: a READ of SITE_UP clears the latch. -/
def readSiteUpLatch (s : State) : State :=
  doneWith (s.withSha { s.sha with downSeen := false }) kindRead (fieldData (flagOf (siteUp s.sha)))

/-- R184: a READ of the latest notice of a class. The fresh NOTICE frame, where there is one, is placed at once. -/
def readLatest (s : State) (c : NoticeClass) : State :=
  doneWith (readNotice s c) kindRead (.notice (s.ntu.get c).latest)

/-- R182: a READ of any address. -/
def readRequest (s : State) (table row field : Nat) : State :=
  if table = 10 ∧ row = 0 ∧ field = 1 then readSiteUpLatch s
  else if table = 9 ∧ field = 0 then
    (match NoticeClass.ofRow row with
      | some c => readLatest s c
      | none => readPlain s table row field)
  else readPlain s table row field

/-! ## Writing (R182) -/

/-- Table 1-3: the highest rate limit of an axis. -/
def maxRate : Axis → Nat
  | .mast => 30
  | .pan | .tilt | .pol => 300

/-- R2: a write of a setting of an axis record. -/
def AxisRec.write (r : AxisRec) (a : Axis) (field : Nat) (v : Int) : Except Reason AxisRec :=
  match field with
  | 8 => orRange (natInRange 1 (maxRate a) v) fun n => { r with rateLimit := n }
  | 9 => orRange (natInRange 0 50 v) fun n => { r with tolerance := n }
  | 10 => orRange (natInRange 1 255 v) fun n => { r with arrivalLimit := n }
  | 11 => orRange (inRange (fullLow a) (min (fullHigh a) r.softMax) v) fun x => { r with softMin := x }
  | 12 => orRange (inRange (max (fullLow a) r.softMin) (fullHigh a) v) fun x => { r with softMax := x }
  | _ => .error .ignored

/-- R69: a write of a field of an action (0 kind, 1 channel, 2 state). -/
def Action.write (x : Action) (field : Nat) (v : Int) : Except Reason Action :=
  match field with
  | 0 => orRange (ActionKind.ofCode v) fun k => { x with kind := k }
  | 1 => orRange (ActionChannel.ofCode v) fun c => { x with channel := c }
  | 2 => orRange (ChanState.ofCode v) fun st => { x with state := st }
  | _ => .error .ignored

/-- R69: a write of a field of a slot. -/
def Slot.write (x : Slot) (field : Nat) (v : Int) : Except Reason Slot :=
  if field < 3 then (x.deploy.write field v).map fun d => { x with deploy := d }
  else (x.stow.write (field - 3) v).map fun d => { x with stow := d }

/-- R69: a write of the Sequence Table; BUSY while a walk is in progress. -/
def Dsq.writeSlot (d : Dsq) (row field : Nat) (v : Int) : Except Reason Dsq :=
  match d.slots[row]? with
  | none => .error .ignored
  | some sl =>
    if 5 < field then .error .ignored
    else if d.deploy = .raising ∨ d.deploy = .lowering then .error .busy
    else (sl.write field v).map fun x => { d with slots := d.slots.set row x }

/-- Table 4-3: the slot times. -/
def slotTimeValue (v : Int) : Option Nat := if v = 200 ∨ v = 500 ∨ v = 1000 ∨ v = 2000 then some v.toNat else none

/-- R67: a write of a deploy setting (fields 9 to 18 of table 6). -/
def Dsq.writeSetting (d : Dsq) (field : Nat) (v : Int) : Except Reason Dsq :=
  match field with
  | 9 => orRange (inRange 0 (min 100 (d.minHeight - 1)) v) fun x => { d with stowHeight := x }
  | 10 => orRange (inRange 0 3599 v) fun x => { d with stowPan := x }
  | 11 => orRange (inRange (-100) 900 v) fun x => { d with stowTilt := x }
  | 12 => orRange (inRange (-100) 900 v) fun x => { d with unstowTilt := x }
  | 13 => orRange (inRange (max 1 (d.stowHeight + 1)) (min 1500 d.maxHeight) v) fun x => { d with minHeight := x }
  | 14 => orRange (inRange (max 1 d.minHeight) 1500 v) fun x => { d with maxHeight := x }
  | 15 => orRange (inRange 0 1500 v) fun x => { d with defaultHeight := x }
  | 16 => orRange (slotTimeValue v) fun n => { d with slotTime := n }
  | 17 => orRange (natInRange 0 31 v) fun n => { d with keepOn := BitVec.ofNat 5 n }
  | 18 => orRange (WakePose.ofCode v) fun w => { d with wakePose := w }
  | _ => .error .ignored

/-- A count of a range, in steps. -/
def steppedIn (lo hi step : Nat) (v : Int) : Option Nat :=
  match natInRange lo hi v with
  | some n => if n % step = 0 then some n else none
  | none => none

/-- R180: the rates that can be set. -/
def rateValue (v : Int) : Option Nat := if v = 38400 ∨ v = 115200 ∨ v = 460800 then some v.toNat else none

/-- R106, R118: the van ability word is written, and the masks of the entries are narrowed. -/
def vanWritten (s : State) (n : Nat) : State :=
  let bands := BitVec.ofNat 4 n
  let pols := BitVec.ofNat 2 (n / 16)
  (s.withSha { s.sha with vanBands := bands, vanPols := pols }).withSites (s.sites.map fun e => e.narrow bands pols)

/-- The wind setting of a field of table 6. -/
def windSettingOf : Nat → Option WindSetting
  | 28 => some .warnThreshold
  | 29 => some .holdThreshold
  | 30 => some .stowWind
  | _ => none

/-- Field of a wind setting in table 6. -/
def windField : WindSetting → Nat
  | .warnThreshold => 28
  | .holdThreshold => 29
  | .stowWind => 30

/-- R94: a write of a wind setting. -/
def writeWind (s : State) (which : WindSetting) (v : Int) : Except Reason State :=
  (s.wsm.writeSetting which v).map s.withWsm

/-- Writes of table 6 but for the deploy settings and the wind settings. -/
def writeOther (s : State) (field : Nat) (v : Int) : Except Reason State :=
  match field with
  | 0 => orRange (steppedIn 50 500 10 v) fun n => s.withMgt { s.mgt with deadmanTime := n }
  | 1 => orRange (WindowMode.ofCode v) fun m => s.withLnu { s.lnu with window := m }
  | 31 => orRange (natInRange 1 300 v) fun n => s.withWsm { s.wsm with slopeLimit := n }
  | 32 => orRange (natInRange 0 100 v) fun n => s.withWsm { s.wsm with slopeMargin := n }
  | 36 => orRange (natInRange 0 63 v) (vanWritten s)
  | 58 => orRange (steppedIn 0 10000 100 v) fun n => s.withAcq { s.acq with settleTime := n }
  | 59 => orRange (natInRange 1 400 v) fun n => s.withAcq { s.acq with maxExtent := n }
  | 70 => orRange (rateValue v) fun n => s.withLnu { s.lnu with rateSet := n }
  | _ => .error .ignored

/-- Table 6. -/
def writeSettings (s : State) (field : Nat) (v : Int) : Except Reason State :=
  if 9 ≤ field ∧ field ≤ 18 then (s.dsq.writeSetting field v).map s.withDsq
  else match windSettingOf field with
    | some w => writeWind s w v
    | none => writeOther s field v

/-- R23, R34: a write to a zone. -/
def writeZoneField (s : State) (row field : Nat) (v : Int) : Except Reason State :=
  match s.zones[row]? with
  | some z => (z.write field v).map fun z1 => zoneWritten s row z z1
  | none => .error .ignored

/-- R105, R107, R111, R112: the entry after a write. -/
def Entry.write (e : Entry) (h : Sha) (field : Nat) (v : Int) : Except Reason Entry :=
  if field = 0 then e.writeState v
  else if field ≤ 16 then e.writeSetting h.vanBands h.vanPols field v
  else (e.adjust.write field v).map fun x => { e with adjust := x }

/-- Table 6-7: a write to an entry. -/
def writeEntryField (s : State) (row field : Nat) (v : Int) : Except Reason State :=
  match s.entry row with
  | some e => (e.write s.sha field v).map fun e1 => s.withSites (s.sites.set row e1)
  | none => .error .ignored

/-- R92: a write to a derate row; in HOLD the re-judgement follows. -/
def writeDerateField (s : State) (row field : Nat) (v : Int) : Except Reason State :=
  (derateWrite s.wsm.derate row field v).map fun rows => rejudgeInHold (s.withWsm { s.wsm with derate := rows })

/-- R2: a write to an axis record. -/
def writeAxisField (s : State) (row field : Nat) (v : Int) : Except Reason State :=
  match axisOfRow row with
  | some a => ((s.axis a).write a field v).map (s.setAxis a)
  | none => .error .ignored

/-- R182: a write of any address: the state after, or the refusal. -/
def writeField (s : State) (table row field : Nat) (v : Int) : Except Reason State :=
  match table with
  | 1 => writeAxisField s row field v
  | 2 => writeZoneField s row field v
  | 3 => writeEntryField s row field v
  | 4 => (s.dsq.writeSlot row field v).map s.withDsq
  | 5 => writeDerateField s row field v
  | 6 => if row = 0 then writeSettings s field v else .error .ignored
  | _ => .error .ignored

/-- The REPLY of a write. -/
def replyWrite (s : State) : Except Reason State → State
  | .ok s1 => done s1 kindWrite
  | .error why => refuse s kindWrite why

/-- R182: a WRITE of any address. -/
def writeRequest (s : State) (table row field : Nat) (v : Int) : State := replyWrite s (writeField s table row field v)

end Sys2Proof.Machine
end

