-- ==== Sys2Proof/Machine/Access.lean ====
section
/-! DEFINITION. The meanings of READ and WRITE (R182), one for each row of the table of commands. -/

namespace Sys2Proof.Machine

/-- READ (R182). -/
def execRead (table row field : Nat) (s : State) : Host.Outcome State Fault Refusal :=
  .next (onConsole (fun s => readRequest s table row field) s)

/-- READ_SITE_UP (R130): table 10, field 1. -/
def execReadSiteUp (s : State) : Host.Outcome State Fault Refusal := .next (onConsole (fun s => readRequest s 10 0 1) s)

/-- READ_NOTICE (R184): table 9, field 0. -/
def execReadNotice (cls : Nat) (s : State) : Host.Outcome State Fault Refusal :=
  .next (onConsole (fun s => readRequest s 9 cls 0) s)

/-- WRITE (R182). -/
def execWrite (table row field : Nat) (v : Int) (s : State) : Host.Outcome State Fault Refusal :=
  .next (onConsole (fun s => writeRequest s table row field v) s)

/-- WRITE_ZONE (R34): table 2. -/
def execWriteZone (row field : Nat) (v : Int) (s : State) : Host.Outcome State Fault Refusal :=
  .next (onConsole (fun s => writeRequest s 2 row field v) s)

/-- WRITE_DERATE_ROW (R92): table 5. -/
def execWriteDerateRow (row field : Nat) (v : Int) (s : State) : Host.Outcome State Fault Refusal :=
  .next (onConsole (fun s => writeRequest s 5 row field v) s)

/-- WRITE_VAN_ABILITY_WORD (R118): table 6, field 36. -/
def execWriteVanAbilityWord (v : Int) (s : State) : Host.Outcome State Fault Refusal :=
  .next (onConsole (fun s => writeRequest s 6 0 36 v) s)

/-- WRITE_ENTRY_SETTING (R111): table 3, fields 1 to 16. -/
def execWriteEntrySetting (row field : Nat) (v : Int) (s : State) : Host.Outcome State Fault Refusal :=
  .next (onConsole (fun s => writeRequest s 3 row field v) s)

/-- WRITE_ENTRY_STATE (R112): table 3, field 0. -/
def execWriteEntryState (row : Nat) (v : Int) (s : State) : Host.Outcome State Fault Refusal :=
  .next (onConsole (fun s => writeRequest s 3 row 0 v) s)

/-- WRITE_WIND_SETTING (R94): table 6, fields 28 to 30. -/
def execWriteWindSetting (which : WindSetting) (v : Int) (s : State) : Host.Outcome State Fault Refusal :=
  .next (onConsole (fun s => writeRequest s 6 0 (windField which) v) s)

end Sys2Proof.Machine
end

