-- ==== Sys2Proof/Machine/Console.lean ====
section
/-! DEFINITION. The Motion Gate (spec/03): the console frames for nodes 1 to 4, and the meanings of their commands. -/

namespace Sys2Proof.Machine

/-- What a motion frame comes to past step 2: a refusal with the state it leaves, or the state with the frame carried
out. -/
abbrev Attempt := Except (Reason × State) State

/-! ## Steps 3 to 6 (R48 to R51) -/

/-- R48: step 3 passes. -/
def gateReady (s : State) (a : Axis) : Bool :=
  let r := s.axis a
  r.motion ≠ .halted && r.motion ≠ .off && r.position.isSome && channelsFull s a

/-- R49: step 4 passes. -/
def gateRange (s : State) (a : Axis) (target : Int) : Bool := inSoft s a target && (a ≠ .mast || target ≤ s.dsq.maxHeight)

/-- R50: step 5 passes. -/
def gateWind (s : State) (a : Axis) (target : Int) : Bool := a ≠ .mast || !aboveCap s.wsm target

/-- R48 to R51: steps 3 to 6 for the target that the frame would give the drive. -/
def gateSteps (s : State) (a : Axis) (target : Option Int) : Except (Reason × State) (Int × State) :=
  if !gateReady s a then .error (.state, s)
  else match target with
    | none => .error (.range, s)
    | some t =>
      if !gateRange s a t then .error (.range, s)
      else if !gateWind s a t then .error (.wind, s)
      else
        let r := moveCheck s a t
        if r.1 then .error (.zone, r.2) else .ok (t, r.2)

/-- R47: the axis is taken for CONSOLE when its owner is NONE. -/
def takeIfFree (s : State) (a : Axis) : State := if (s.axis a).owner = .none then axsTake s .console a else s

/-- R50: the rate that MGT gives AXS: that of the frame or the rate limit, lowered to the rate cap. AXS lowers it to the
rate limit (R8). -/
def gateRate (s : State) (a : Axis) (rate : Option Nat) : Nat := capped (rate.getD (s.axis a).rateLimit) (rateCap s.wsm a)

/-- A refusal that AXS gives goes back as it is. -/
def orRefused (s : State) : Except Reason State → Attempt
  | .ok s1 => .ok s1
  | .error why => .error (why, s)

/-- R52: steps 3 to 6 of a MOVE, and the MOVE TO. -/
def tryMove (a : Axis) (target : Int) (rate : Option Nat) (s : State) : Attempt :=
  match gateSteps s a (some target) with
  | .error e => .error e
  | .ok (t, s1) =>
    let s2 := takeIfFree s1 a
    orRefused s2 (axsMoveTo s2 .console a t (some (gateRate s2 a rate)))

/-- R53: steps 3 to 6 of a SELECT, and the SELECT. -/
def trySelect (a : Axis) (which : Sel) (s : State) : Attempt :=
  match gateSteps s a ((s.axis a).target which) with
  | .error e => .error e
  | .ok (_, s1) =>
    let s2 := takeIfFree s1 a
    orRefused s2 (axsSelect s2 .console a which (some (gateRate s2 a none)))

/-! ## Jog limit (R58) -/

/-- In the jog direction past a position. -/
def beyond (dir : Dir) (position bound : Int) : Bool :=
  match dir with
  | .up => position < bound
  | .down => bound < position

/-- Table 3-4: the soft bound. -/
def softBound (r : AxisRec) : Dir → Int
  | .up => r.softMax - r.tolerance
  | .down => r.softMin + r.tolerance

/-- Table 3-4: the bounds of step 4: soft, and for MAST upward the maximum height. -/
def rangeBound (s : State) (a : Axis) (dir : Dir) : Int :=
  if a = .mast ∧ dir = .up then min (softBound (s.axis a) dir) s.dsq.maxHeight else softBound (s.axis a) dir

/-- Table 3-4: the height cap. -/
def windBound (s : State) (a : Axis) (dir : Dir) : Option Int :=
  if a = .mast ∧ dir = .up then s.wsm.caps.map (·.heightCap) else none

/-- R58: the boundary, and the margin short of it. -/
def shortOf (r : AxisRec) (dir : Dir) (boundary : Int) : Int :=
  match dir with
  | .up => boundary - r.margin
  | .down => boundary + r.margin

/-- R58: the bound nearest to the position, among the bounds on the side jogged toward. Table 3-4 gives no bound on the other
side; `tryJog` checks the limit against the whole soft range. -/
def jogLimit (s : State) (a : Axis) (dir : Dir) (zone : Option Int) : Int :=
  let near := fun (x : Int) (y : Option Int) => (nearerOpt dir (some x) y).getD x
  near (near (rangeBound s a dir) (windBound s a dir)) (zone.map (shortOf (s.axis a) dir))

/-- R58: the step whose bound is not beyond the position, the earliest of them; none when every bound is beyond. -/
def jogRefusal (s : State) (a : Axis) (dir : Dir) (position : Int) (zone : Option Int) : Option Reason :=
  if !beyond dir position (rangeBound s a dir) then some .range
  else if (windBound s a dir).any fun b => !beyond dir position b then some .wind
  else if zone.any fun b => !beyond dir position (shortOf (s.axis a) dir b) then some .zone
  else none

/-- R58: when the zone bound is the one refused, the boundary itself is put to a counted move check. -/
def countBoundary (s : State) (a : Axis) (why : Reason) (zone : Option Int) : State :=
  match why, zone with
  | .zone, some b => (moveCheck s a b).2
  | _, _ => s

/-- R57, R59: the run opens with the deadman time. -/
def openRun (s : State) (a : Axis) (dir : Dir) : State := s.withMgt (s.mgt.set a (some ⟨dir, s.mgt.deadmanTime⟩))

/-- R59: the JOG MOVE, and the run. -/
def jogMove (s : State) (a : Axis) (dir : Dir) (limit : Int) (rate : Nat) : Attempt :=
  match axsJogMove s .console a limit (gateRate s a (some rate)) with
  | .error why => .error (why, s)
  | .ok s1 => .ok (openRun s1 a dir)

/-- R59: a JOG with no open run, past step 2. The soft range is checked before the move check (R30): from a position beyond
the near soft end the limit may lie short of the range, and the JOG is then refused RANGE as at step 4 (DEDUCED, log 43). -/
def tryJog (a : Axis) (dir : Dir) (rate : Nat) (s : State) : Attempt :=
  match gateReady s a, (s.axis a).position with
  | true, some p =>
    let zone := extentQuery s a p dir
    match jogRefusal s a dir p zone with
    | some why => .error (why, countBoundary s a why zone)
    | none =>
      let limit := jogLimit s a dir zone
      let r := moveCheck s a limit
      if !inSoft s a limit then .error (.range, s)
      else if r.1 then .error (.zone, r.2)
      else jogMove (takeIfFree r.2 a) a dir limit rate
  | _, _ => .error (.state, s)

/-! ## Steps 1 and 2 (R43, R45, R46, R61) -/

/-- R46, R55: the running acquisition is suspended and the axis of the frame taken for CONSOLE. -/
def overrideTake (s : State) (a : Axis) : State := axsTake (acqPush s .override (some a)) .console a

/-- R46, R61: the STOP and the REPLY of a frame refused at step 3 or later. `suspended` is that the frame has suspended an
acquisition, `closed` that it has closed a jog run. -/
def refuseLate (s : State) (a : Axis) (kind : Nat) (why : Reason) (suspended closed : Bool) : State :=
  let m := (s.axis a).motion
  let s1 := if (suspended && m = .moving) || (closed && m = .jogging) then axsStop s a else s
  refuseFrame s1 kind (axisNode a) why

/-- Steps 3 to 6, and what a refusal there does. -/
def runAttempt (s : State) (a : Axis) (kind : Nat) (suspended closed : Bool) (attempt : State → Attempt) : State :=
  match attempt s with
  | .ok s1 => s1
  | .error (why, s1) => refuseLate s1 a kind why suspended closed

/-- R45, R46: step 2, after an open run of the axis has been closed (R61). -/
def stepOwner (s : State) (a : Axis) (kind : Nat) (p : Priority) (closed : Bool) (attempt : State → Attempt) : State :=
  match (s.axis a).owner, p with
  | .none, _ | .console, _ => runAttempt s a kind false closed attempt
  | .search, .override => runAttempt (overrideTake s a) a kind true closed attempt
  | .search, .normal | .sequence, _ | .wind, _ => refuseFrame s kind (axisNode a) .owner

/-- R61: past step 1 an open run of the axis is closed before the frame is handled further. -/
def pastDeploy (s : State) (a : Axis) (kind : Nat) (p : Priority) (attempt : State → Attempt) : State :=
  stepOwner (closeRun s a) a kind p (s.jog a).isSome attempt

/-- R43: step 1. In PARKED the frame wakes the part and is refused. -/
def gateDeploy (s : State) (a : Axis) (kind : Nat) (go : State → State) : State :=
  match s.dsq.deploy with
  | .deployed => go s
  | .parked => refuseFrame (wakeByFrame s) kind (axisNode a) .state
  | .unknown | .stowed | .raising | .lowering | .held => refuseFrame s kind (axisNode a) .state

/-! ## The frames -/

/-- R41, R52: a console MOVE. -/
def consoleMove (s : State) (a : Axis) : Option MoveFields → State
  | none => refuseFrame s kindMove (axisNode a) .range
  | some f =>
    if f.rate = some 0 then refuseFrame s kindMove (axisNode a) .range
    else gateDeploy s a kindMove fun s => pastDeploy s a kindMove f.priority (tryMove a f.target f.rate)

/-- R41, R53: a console SELECT. -/
def consoleSelect (s : State) (a : Axis) : Option SelectFields → State
  | none => refuseFrame s kindSelect (axisNode a) .range
  | some f => gateDeploy s a kindSelect fun s => pastDeploy s a kindSelect f.priority (trySelect a f.sel)

/-- R60: a run of the direction is open on the axis. -/
def runsIn (s : State) (a : Axis) (dir : Dir) : Bool := (s.jog a).any fun r => r.dir = dir

/-- R41, R59, R60, R61: a console JOG. A JOG of an open run's direction reloads the deadman timer. -/
def consoleJog (s : State) (a : Axis) : Option JogFields → State
  | none => refuseFrame s kindJog (axisNode a) .range
  | some f =>
    if f.rate = 0 then refuseFrame s kindJog (axisNode a) .range
    else gateDeploy s a kindJog fun s =>
      if runsIn s a f.dir then openRun s a f.dir else pastDeploy s a kindJog f.priority (tryJog a f.dir f.rate)

/-- R56: a STOP carried out for the owner, who is told when the axis was MOVING. -/
def stopForOwner (s : State) (a : Axis) : State :=
  if (s.axis a).motion = .moving then tellConsoleStop (axsStop s a) a else axsStop s a

/-- R54 to R56: a STOP by the owner of the axis. -/
def stopByOwner (s : State) (a : Axis) : State :=
  match (s.axis a).owner with
  | .none | .console => axsStop (closeRun (takeIfFree s a) a) a
  | .search => axsStop (overrideTake s a) a
  | .sequence | .wind => stopForOwner s a

/-- R41, R44: a console STOP. -/
def consoleStop (s : State) (a : Axis) : Option Priority → State
  | none => refuseFrame s kindStop (axisNode a) .range
  | some _ =>
    match s.dsq.deploy with
    | .unknown | .stowed | .parked => s
    | .deployed | .raising | .lowering | .held => stopByOwner s a

/-- R62: the deadman timer of an open run runs out. -/
def deadmanExpiry (s : State) (a : Axis) : State := if (s.jog a).isSome then axsStop (closeRun s a) a else s

/-! ## Meanings -/

/-- CONSOLE_MOVE (R52). -/
def execConsoleMove (a : Axis) (f : Option MoveFields) (s : State) : Host.Outcome State Fault Refusal :=
  .next (onConsole (fun s => consoleMove s a f) s)

/-- CONSOLE_JOG (R59). -/
def execConsoleJog (a : Axis) (f : Option JogFields) (s : State) : Host.Outcome State Fault Refusal :=
  .next (onConsole (fun s => consoleJog s a f) s)

/-- CONSOLE_STOP (R54). -/
def execConsoleStop (a : Axis) (p : Option Priority) (s : State) : Host.Outcome State Fault Refusal :=
  .next (onConsole (fun s => consoleStop s a p) s)

/-- CONSOLE_SELECT (R53). -/
def execConsoleSelect (a : Axis) (f : Option SelectFields) (s : State) : Host.Outcome State Fault Refusal :=
  .next (onConsole (fun s => consoleSelect s a f) s)

/-- CONSOLE_CHANNEL (R41): the console does not set channels. -/
def execConsoleChannel (a : Axis) (s : State) : Host.Outcome State Fault Refusal :=
  .next (onConsole (fun s => refuseFrame s kindChannel (axisNode a) .owner) s)

/-- CONSOLE_OTHER_KIND (R41). -/
def execConsoleOtherKind (a : Axis) (kind : Nat) (s : State) : Host.Outcome State Fault Refusal :=
  .next (onConsole (fun s => refuseFrame s kind (axisNode a) .ignored) s)

end Sys2Proof.Machine
end

