-- ==== Sys2Proof/Machine/Drive.lean ====
section
/-! DEFINITION. The reports of the drive line that the part takes (R14, R90, R101). Each is forwarded unchanged when the part
has acted on it (R178, R179; log 12). -/

namespace Sys2Proof.Machine

/-- R14: a POSITION report, taken by AXS and forwarded. -/
def positionReport (s : State) (a : Axis) (pos : Int) (moving fault : Bool) (code : Nat) : State :=
  forwardUp (axsReport s a pos moving fault code) (axisNode a) kindPosition (positionPayload pos moving fault code)

/-- R90: a WIND report, taken by WSM and forwarded. -/
def windReport (s : State) (speed : Int) : State := forwardUp (wsmWind s speed) 5 kindWind (be16 speed)

/-- R101: a SLOPE report, taken by WSM and forwarded. -/
def slopeReport (s : State) (roll pitch : Int) : State :=
  forwardUp (wsmSlope s roll pitch) 6 kindSlope (be16 roll ++ be16 pitch)

/-- POSITION (R14). -/
def execPosition (a : Axis) (pos : Int) (moving fault : Bool) (code : Nat) (s : State) :
    Host.Outcome State Fault Refusal :=
  .next (onPart (fun s => positionReport s a pos moving fault code) s)

/-- WIND (R90). -/
def execWind (speed : Int) (s : State) : Host.Outcome State Fault Refusal := .next (onPart (windReport · speed) s)

/-- SLOPE (R101). -/
def execSlope (roll pitch : Int) (s : State) : Host.Outcome State Fault Refusal :=
  .next (onPart (fun s => slopeReport s roll pitch) s)

end Sys2Proof.Machine
end

