-- ==== Sys2Proof/Machine/Lines.lean ====
section
/-! DEFINITION. The two input lines (R80, R81) and the Line Unit's own commands (R65, R178 to R181). -/

namespace Sys2Proof.Machine

/-- The PARK_IN level. -/
def setParkIn (s : State) (b : Bool) : State := s.withDsq { s.dsq with parkIn := b }

/-- The STOW_IN level. -/
def setStowIn (s : State) (b : Bool) : State := s.withDsq { s.dsq with stowIn := b }

/-- R80: a release of PARK_IN. Only a change of the level acts. -/
def parkInReleased (s : State) : State :=
  if s.dsq.parkIn then onPart (fun s => stowIfUp s .interlock) (setParkIn s false) else s

/-- R81: an assertion of STOW_IN. Only a change of the level acts. -/
def stowInAsserted (s : State) : State :=
  if s.dsq.stowIn then s else onPart (fun s => stowIfUp s .button) (setStowIn s true)

/-- R178: a port hunts for a start mark again. -/
def huntOn (s : State) : Port → State
  | .upstream => s.withLnu { s.lnu with upstreamPort := .hunting }
  | .drive => s.withLnu { s.lnu with drivePort := .hunting }
  | .site => s.withLnu { s.lnu with sitePort := .hunting }

/-- R65: a console frame for nodes 5 to 31. -/
def accessory (s : State) (node kind : Nat) (payload : List Byte) : State :=
  match s.lnu.window with
  | .pass => sendDrive s (.forwarded node kind payload)
  | .closed => refuseFrame s kind node .noTarget

/-- R179: the oldest frame of the queue leaves, and held NOTICE frames find the place. -/
def frameSent (s : State) : State :=
  match s.lnu.queue with
  | [] => s
  | f :: rest =>
    placeHeld ((s.withLnu { s.lnu with queue := rest }).withOut { s.out with upstream := s.out.upstream ++ [f] })

/-- R180: LINE_RESTART. With rate set equal to the rate in force the answer changes nothing; otherwise the rate set now is
the one that its REPLY brings into force (log 26). -/
def lineRestart (s : State) : State :=
  let t := done s kindLineRestart
  if s.lnu.rateSet = s.lnu.rateInForce then t
  else t.withLnu { t.lnu with restarts := s.lnu.restarts ++ [s.lnu.rateSet] }

/-- R180: the last bit of the REPLY of a LINE_RESTART has left. -/
def rateChanged (s : State) : State :=
  match s.lnu.restarts with
  | [] => s
  | r :: rest => s.withLnu { s.lnu with rateInForce := r, restarts := rest }

/-- R181: an unknown kind, or a kind of Table 11-2 with a payload that is not its own. -/
def unknownRequest (s : State) (kind : Nat) : State :=
  refuse s kind (if isKnownRequest kind then .range else .ignored)

/-! ## Meanings -/

/-- PARK_IN_RELEASE (R80). -/
def execParkInRelease (s : State) : Host.Outcome State Fault Refusal := .next (parkInReleased s)

/-- PARK_IN_ASSERT (R80): it changes no state but the level. -/
def execParkInAssert (s : State) : Host.Outcome State Fault Refusal := .next (setParkIn s true)

/-- STOW_IN_ASSERT (R81). -/
def execStowInAssert (s : State) : Host.Outcome State Fault Refusal := .next (stowInAsserted s)

/-- STOW_IN_RELEASE (R81): it changes no state but the level. -/
def execStowInRelease (s : State) : Host.Outcome State Fault Refusal := .next (setStowIn s false)

/-- FRAME_DISCARDED (R178): no state changes, and the port hunts again. -/
def execFrameDiscarded (p : Port) (s : State) : Host.Outcome State Fault Refusal := .next (onPart (huntOn · p) s)

/-- ACCESSORY_FRAME (R65). -/
def execAccessoryFrame (node kind : Nat) (payload : List Byte) (s : State) : Host.Outcome State Fault Refusal :=
  .next (onConsole (fun s => accessory s node kind payload) s)

/-- DRIVE_FRAME_FORWARD (R178). -/
def execDriveFrameForward (node kind : Nat) (payload : List Byte) (s : State) : Host.Outcome State Fault Refusal :=
  .next (onPart (fun s => forwardUp s node kind payload) s)

/-- UPSTREAM_FRAME_SENT (R179). -/
def execUpstreamFrameSent (s : State) : Host.Outcome State Fault Refusal := .next (onPart frameSent s)

/-- LINE_RESTART (R180). -/
def execLineRestart (s : State) : Host.Outcome State Fault Refusal := .next (onConsole lineRestart s)

/-- RATE_CHANGE (R180). -/
def execRateChange (s : State) : Host.Outcome State Fault Refusal := .next (onPart rateChanged s)

/-- UNKNOWN_REQUEST (R181). -/
def execUnknownRequest (kind : Nat) (s : State) : Host.Outcome State Fault Refusal :=
  .next (onConsole (fun s => unknownRequest s kind) s)

end Sys2Proof.Machine
end

