-- ==== Sys2Proof/Machine/Requests.lean ====
section
/-! DEFINITION. The node-0 requests of Table 11-2 but for READ, WRITE, LINE_RESTART and RESET. -/

namespace Sys2Proof.Machine

/-! ## Deploy Sequencer -/

/-- R75, R76: DEPLOY. -/
def deployRequest (s : State) (height : Option Int) : State :=
  if s.dsq.deploy = .deployed then reheight s (requestedHeight s height)
  else deployFromStowed s (requestedHeight s height)

/-- R77, Table 4-8: STOW. -/
def stowRequest (s : State) : State :=
  match s.dsq.deploy with
  | .unknown => refuse s kindStow .state
  | .stowed | .lowering => done s kindStow
  | .raising | .deployed | .parked | .held => done (stowEffects s .request) kindStow

/-- R82: PARK. -/
def parkRequest (s : State) : State :=
  if s.dsq.deploy ≠ .deployed then refuse s kindPark .state
  else if (s.axis .mast).owner = .sequence then refuse s kindPark .busy
  else done (parkTaken s) kindPark

/-- R83: WAKE. The REPLY is placed when the state is DEPLOYED; then the wake pose is handed on. -/
def wakeRequest (s : State) : State :=
  if s.dsq.deploy = .parked then acqWake (done (wakeUp s) kindWake) else refuse s kindWake .state

/-! ## Acquisition Engine -/

/-- Table 8-4, step 6 for one axis. -/
def axisFreeFor (s : State) (a : Axis) : Bool :=
  match (s.axis a).owner with
  | .none | .search => true
  | .console => (s.axis a).motion = .idle
  | .sequence | .wind => false

/-- The row of the running context. -/
def runningRow (s : State) : Option Nat := s.acq.ctx.map (·.row)

/-- Table 8-4, steps 1 to 6. -/
def acquireRefusal (s : State) (row : Nat) : Option Reason :=
  if 8 ≤ row then some .range
  else if s.dsq.deploy ≠ .deployed then some .state
  else if runningRow s = some row then some .busy
  else if (entryOf s row).state = .empty then some .empty
  else if s.wsm.gust = .hold then some .wind
  else if !searchAxes.all (axisFreeFor s) then some .owner
  else none

/-- R139: a context of the row on the Resume Stack is removed. -/
def removeStacked (s : State) (row : Nat) : State :=
  if s.acq.stack.any fun e => e.row = row then
    stbChange (setStack s (s.acq.stack.filter fun e => e.row ≠ row)) row [.suspended] .acquiring none
  else s

/-- R139: a taken ACQUIRE, up to its REPLY. -/
def acquireTaken (s : State) (row : Nat) : State :=
  let s1 := axsTakeAll (acqPush (removeStacked s row) .switch none) .search searchAxes
  let s2 := stbChange s1 row [.loaded, .lost] .acquiring none
  createCtx s2 (acquireCtx s2 row false)

/-- R138, R139: ACQUIRE. -/
def acquireRequest (s : State) (row : Nat) : State :=
  match acquireRefusal s row with
  | some why => refuse s kindAcquire why
  | none =>
    match slewChecks s row with
    | (some why, s1) => refuse s1 kindAcquire why
    | (none, s1) => startSlew (done (acquireTaken s1 row) kindAcquire)

/-- R159: RELEASE. -/
def releaseRequest (s : State) : State :=
  match s.acq.ctx with
  | none => refuse s kindRelease .empty
  | some c => done (acqRelease s c) kindRelease

/-- R165: RESUME. -/
def resumeRequest (s : State) : State :=
  match s.acq.stack with
  | [] => refuse s kindResume .empty
  | e :: _ =>
    if s.dsq.deploy ≠ .deployed ∨ s.wsm.gust = .hold then refuse s kindResume .state
    else startSlew (done (popSaved s e) kindResume)

/-- R169: DROP_RESUME. -/
def dropRequest (s : State) : State :=
  match s.acq.stack with
  | [] => refuse s kindDropResume .empty
  | e :: _ => done (acqDrop s e) kindDropResume

/-! ## Site Handshake Agent and Transmitter Enable Control -/

/-- R119: RENEGOTIATE. -/
def renegotiateRequest (s : State) : State := done (deliver (shaRenegotiate s)) kindRenegotiate

/-- R174: TX_ON. -/
def txOnRequest (s : State) : State :=
  if s.txc.deploy = .deployed then done (txcOn s) kindTxOn else refuse s kindTxOn .state

/-- R174: TX_OFF. -/
def txOffRequest (s : State) : State := done (txcOff s) kindTxOff

/-! ## Meanings -/

/-- DEPLOY (R75). -/
def execDeploy (height : Option Int) (s : State) : Host.Outcome State Fault Refusal :=
  .next (onConsole (fun s => deployRequest s height) s)

/-- STOW (R77). -/
def execStow (s : State) : Host.Outcome State Fault Refusal := .next (onConsole stowRequest s)

/-- PARK (R82). -/
def execPark (s : State) : Host.Outcome State Fault Refusal := .next (onConsole parkRequest s)

/-- WAKE (R83). -/
def execWake (s : State) : Host.Outcome State Fault Refusal := .next (onConsole wakeRequest s)

/-- CLEAR_HOLD (R86). -/
def execClearHold (s : State) : Host.Outcome State Fault Refusal := .next (onConsole clearHold s)

/-- ACQUIRE (R139). -/
def execAcquire (row : Nat) (s : State) : Host.Outcome State Fault Refusal :=
  .next (onConsole (acquireRequest · row) s)

/-- RELEASE (R159). -/
def execRelease (s : State) : Host.Outcome State Fault Refusal := .next (onConsole releaseRequest s)

/-- RESUME (R165). -/
def execResume (s : State) : Host.Outcome State Fault Refusal := .next (onConsole resumeRequest s)

/-- DROP_RESUME (R169). -/
def execDropResume (s : State) : Host.Outcome State Fault Refusal := .next (onConsole dropRequest s)

/-- RENEGOTIATE (R119). -/
def execRenegotiate (s : State) : Host.Outcome State Fault Refusal := .next (onConsole renegotiateRequest s)

/-- TX_ON (R174). -/
def execTxOn (s : State) : Host.Outcome State Fault Refusal := .next (onConsole txOnRequest s)

/-- TX_OFF (R174). -/
def execTxOff (s : State) : Host.Outcome State Fault Refusal := .next (onConsole txOffRequest s)

end Sys2Proof.Machine
end

