-- ==== Sys2Proof/Machine/Resets.lean ====
section
/-! DEFINITION. The resets (R3, R185, R186). -/

namespace Sys2Proof.Machine

/-- R57: every run closed, the deadman time kept. -/
def Mgt.resetKept (m : Mgt) : Mgt := ⟨none, none, none, none, m.deadmanTime⟩

/-- R185: the blocks above AXS and SHA at their reset values, tables and settings kept. -/
def resetBlocks (s : State) : State :=
  { s with
    mgt := s.mgt.resetKept, dsq := s.dsq.resetKept, wsm := s.wsm.resetKept, sites := s.sites.map Entry.resetKept
    sha := s.sha.resetKept, acq := s.acq.resetKept, txc := .powerOn, ntu := .powerOn }

/-- R185: a RESET request: the REPLY, the LEAVE, the drives stopped and the channels OFF, and every block reset. DEDUCED (log
37): where the link has been ended the quiet time of R131 runs after the resets of R117, as the third bullet of R135 has it.
DESIGN CHOICE (log 41): where a context was running with link ready yes, the link ready no of R131 is told to it as no WAIT
(R127); the context ends in the same command. -/
def resetRequest (s : State) : State :=
  let t := resetBlocks (axsReset (shaEnd (done s kindReset)))
  if s.sha.state = .silent then t else startQuiet t

/-- POWER_ON_RESET (R186): power has come up, or RST is asserted. -/
def execPowerOnReset (cause : ResetCause) (s : State) : Host.Outcome State Fault Refusal :=
  .next (match cause with
    | .powerUp => powerUp s
    | .rstAsserted => holdInReset s)

/-- RST_RELEASE (R186): RST is released. -/
def execRstRelease (s : State) : Host.Outcome State Fault Refusal := .next (powerUp s)

/-- RESET (R185). -/
def execReset (s : State) : Host.Outcome State Fault Refusal := .next (onConsole resetRequest s)

end Sys2Proof.Machine
end

