-- ==== Sys2Proof/Machine/Site.lean ====
section
/-! DEFINITION. The pages of the site line (R116, Table 7-4). What SHA tells the Acquisition Engine is delivered when SHA has
taken the page (log 13). -/

namespace Sys2Proof.Machine

/-- ABILITY (R122). -/
def execAbility (bands : BandMask) (pols : PolMask) (periods : PeriodMask) (ack : Bool) (s : State) :
    Host.Outcome State Fault Refusal :=
  .next (onPart (fun s => deliver (shaAbility s ⟨bands, pols, periods, ack⟩)) s)

/-- CHOICE_ECHO (R124). -/
def execChoiceEcho (c : Choice) (toggle : Bool) (s : State) : Host.Outcome State Fault Refusal :=
  .next (onPart (fun s => deliver (shaEcho s c toggle)) s)

/-- IDENT (R126). -/
def execIdent (code : Nat) (s : State) : Host.Outcome State Fault Refusal :=
  .next (onPart (fun s => deliver (shaIdent s code)) s)

/-- REPORT (R133). -/
def execReport (seq : Nat) (level : Int) (valid : Bool) (s : State) : Host.Outcome State Fault Refusal :=
  .next (onPart (fun s => deliverReport (shaReport s seq level valid)) s)

/-- INBOUND_NO_EFFECT_PAGE (R116): in SILENT it enters OFFERING as any page does; otherwise it is ignored. -/
def execInboundNoEffectPage (_page : NoEffectPage) (s : State) : Host.Outcome State Fault Refusal :=
  .next (onPart shaWake s)

/-- MALFORMED_PAGE (R116): it is discarded and changes no state. -/
def execMalformedPage (s : State) : Host.Outcome State Fault Refusal := .next s

end Sys2Proof.Machine
end

