-- ==== Sys2Proof/Machine/Timers.lean ====
section
/-! DEFINITION. The running out of timers. A timer that is not running does not run out: the command then changes nothing
(log 2). -/

namespace Sys2Proof.Machine

/-- ARRIVAL_TIMEOUT (R18). -/
def execArrivalTimeout (a : Axis) (s : State) : Host.Outcome State Fault Refusal :=
  .next (onPart (arrivalTimeout · a) s)

/-- SILENCE_WATCH_EXPIRY (R19). -/
def execSilenceWatchExpiry (a : Axis) (s : State) : Host.Outcome State Fault Refusal :=
  .next (onPart (silenceExpiry · a) s)

/-- DEADMAN_EXPIRY (R62). -/
def execDeadmanExpiry (a : Axis) (s : State) : Host.Outcome State Fault Refusal :=
  .next (onPart (deadmanExpiry · a) s)

/-- SLOT_TIMER_EXPIRY (R71). -/
def execSlotTimerExpiry (s : State) : Host.Outcome State Fault Refusal := .next (onPart dsqSlotTimer s)

/-- WIND_SILENCE_EXPIRY (R91). -/
def execWindSilenceExpiry (s : State) : Host.Outcome State Fault Refusal := .next (onPart wsmWindSilent s)

/-- SLOPE_SILENCE_EXPIRY (R91). -/
def execSlopeSilenceExpiry (s : State) : Host.Outcome State Fault Refusal := .next (onPart wsmSlopeSilent s)

/-- OFFER_TIMER_EXPIRY (R119). -/
def execOfferTimerExpiry (s : State) : Host.Outcome State Fault Refusal := .next (onPart shaOfferTimer s)

/-- ECHO_TIMER_EXPIRY (R123). -/
def execEchoTimerExpiry (s : State) : Host.Outcome State Fault Refusal := .next (onPart shaEchoTimer s)

/-- R129: the report silence watch runs out. -/
def reportSilence (s : State) : State := if s.sha.reportWatch.isSome then deliver (shaDown s) else s

/-- REPORT_SILENCE_EXPIRY (R129). -/
def execReportSilenceExpiry (s : State) : Host.Outcome State Fault Refusal := .next (onPart reportSilence s)

/-- R131: the quiet time runs out. -/
def quietOver (s : State) : State := s.withSha { s.sha with quietTimer := none }

/-- QUIET_TIME_EXPIRY (R131). -/
def execQuietTimeExpiry (s : State) : Host.Outcome State Fault Refusal := .next (onPart quietOver s)

/-- SETTLE_TIMER_EXPIRY (R141). -/
def execSettleTimerExpiry (s : State) : Host.Outcome State Fault Refusal := .next (onPart acqSettleTimer s)

/-- LINK_WAIT_EXPIRY (R142). -/
def execLinkWaitExpiry (s : State) : Host.Outcome State Fault Refusal := .next (onPart acqLinkWait s)

/-- GAP_TIMER_EXPIRY (R151). -/
def execGapTimerExpiry (s : State) : Host.Outcome State Fault Refusal := .next (onPart acqGapTimer s)

end Sys2Proof.Machine
end

