-- ==== Sys2Proof/Machine/Dispatch.lean ====
section
/-! DEFINITION. The meaning of each command: one arm for each row of spec/opcode_table.json, in its order. -/

namespace Sys2Proof.Machine

/-- The effect of a command on everything but the queue of waiting commands. -/
def exec (i : Instr) (s : State) : Host.Outcome State Fault Refusal :=
  match i with
  | .powerOnReset cause => Sys2Proof.Machine.execPowerOnReset cause s
  | .parkInRelease => Sys2Proof.Machine.execParkInRelease s
  | .parkInAssert => Sys2Proof.Machine.execParkInAssert s
  | .stowInAssert => Sys2Proof.Machine.execStowInAssert s
  | .stowInRelease => Sys2Proof.Machine.execStowInRelease s
  | .frameDiscarded port => Sys2Proof.Machine.execFrameDiscarded port s
  | .consoleMove axis fields => Sys2Proof.Machine.execConsoleMove axis fields s
  | .consoleJog axis fields => Sys2Proof.Machine.execConsoleJog axis fields s
  | .consoleStop axis priority => Sys2Proof.Machine.execConsoleStop axis priority s
  | .consoleSelect axis fields => Sys2Proof.Machine.execConsoleSelect axis fields s
  | .consoleChannel axis => Sys2Proof.Machine.execConsoleChannel axis s
  | .consoleOtherKind axis kind => Sys2Proof.Machine.execConsoleOtherKind axis kind s
  | .accessoryFrame node kind payload => Sys2Proof.Machine.execAccessoryFrame node kind payload s
  | .position axis pos moving fault code => Sys2Proof.Machine.execPosition axis pos moving fault code s
  | .wind speed => Sys2Proof.Machine.execWind speed s
  | .slope roll pitch => Sys2Proof.Machine.execSlope roll pitch s
  | .driveFrameForward node kind payload => Sys2Proof.Machine.execDriveFrameForward node kind payload s
  | .ability bands pols periods ack => Sys2Proof.Machine.execAbility bands pols periods ack s
  | .choiceEcho choice toggle => Sys2Proof.Machine.execChoiceEcho choice toggle s
  | .ident code => Sys2Proof.Machine.execIdent code s
  | .report seq level valid => Sys2Proof.Machine.execReport seq level valid s
  | .inboundNoEffectPage page => Sys2Proof.Machine.execInboundNoEffectPage page s
  | .malformedPage => Sys2Proof.Machine.execMalformedPage s
  | .read table row field => Sys2Proof.Machine.execRead table row field s
  | .readSiteUp => Sys2Proof.Machine.execReadSiteUp s
  | .readNotice cls => Sys2Proof.Machine.execReadNotice cls s
  | .write table row field value => Sys2Proof.Machine.execWrite table row field value s
  | .writeZone row field value => Sys2Proof.Machine.execWriteZone row field value s
  | .writeDerateRow row field value => Sys2Proof.Machine.execWriteDerateRow row field value s
  | .writeVanAbilityWord value => Sys2Proof.Machine.execWriteVanAbilityWord value s
  | .writeEntrySetting row field value => Sys2Proof.Machine.execWriteEntrySetting row field value s
  | .writeEntryState row value => Sys2Proof.Machine.execWriteEntryState row value s
  | .writeWindSetting which value => Sys2Proof.Machine.execWriteWindSetting which value s
  | .unknownRequest kind => Sys2Proof.Machine.execUnknownRequest kind s
  | .deploy height => Sys2Proof.Machine.execDeploy height s
  | .stow => Sys2Proof.Machine.execStow s
  | .park => Sys2Proof.Machine.execPark s
  | .wake => Sys2Proof.Machine.execWake s
  | .clearHold => Sys2Proof.Machine.execClearHold s
  | .acquire row => Sys2Proof.Machine.execAcquire row s
  | .release => Sys2Proof.Machine.execRelease s
  | .resume => Sys2Proof.Machine.execResume s
  | .dropResume => Sys2Proof.Machine.execDropResume s
  | .renegotiate => Sys2Proof.Machine.execRenegotiate s
  | .txOn => Sys2Proof.Machine.execTxOn s
  | .txOff => Sys2Proof.Machine.execTxOff s
  | .lineRestart => Sys2Proof.Machine.execLineRestart s
  | .reset => Sys2Proof.Machine.execReset s
  | .rateChange => Sys2Proof.Machine.execRateChange s
  | .upstreamFrameSent => Sys2Proof.Machine.execUpstreamFrameSent s
  | .arrivalTimeout axis => Sys2Proof.Machine.execArrivalTimeout axis s
  | .silenceWatchExpiry axis => Sys2Proof.Machine.execSilenceWatchExpiry axis s
  | .deadmanExpiry axis => Sys2Proof.Machine.execDeadmanExpiry axis s
  | .slotTimerExpiry => Sys2Proof.Machine.execSlotTimerExpiry s
  | .windSilenceExpiry => Sys2Proof.Machine.execWindSilenceExpiry s
  | .slopeSilenceExpiry => Sys2Proof.Machine.execSlopeSilenceExpiry s
  | .offerTimerExpiry => Sys2Proof.Machine.execOfferTimerExpiry s
  | .echoTimerExpiry => Sys2Proof.Machine.execEchoTimerExpiry s
  | .reportSilenceExpiry => Sys2Proof.Machine.execReportSilenceExpiry s
  | .quietTimeExpiry => Sys2Proof.Machine.execQuietTimeExpiry s
  | .settleTimerExpiry => Sys2Proof.Machine.execSettleTimerExpiry s
  | .linkWaitExpiry => Sys2Proof.Machine.execLinkWaitExpiry s
  | .gapTimerExpiry => Sys2Proof.Machine.execGapTimerExpiry s
  | .rstRelease => Sys2Proof.Machine.execRstRelease s

end Sys2Proof.Machine
end

