-- ==== Sys2Proof/Machine/Step.lean ====
section
/-! DEFINITION. One step of the part: the command at the front of the queue is taken, whole (log 1). -/

namespace Sys2Proof.Machine

/-- The step: the command at the front of the queue, with the queue's rest; on an empty queue the part idles. -/
def step (s : State) : Host.Outcome State Fault Refusal :=
  match s.pending with
  | [] => .next s
  | c :: rest => exec c (s.withPending rest)

/-- The command a word spells, put at the front of the queue; a word that spells none changes nothing. The table gives no
bits, so no word spells a command (log 1). -/
def State.withFetchWord (s : State) (nbits w : Nat) : State :=
  match decodeTableWord nbits w with
  | some c => s.withPending (c :: s.pending)
  | none => s

end Sys2Proof.Machine
end

