-- ==== Sys2Proof/Machine/Frames.lean ====
section
/-! DEFINITION. The lines byte by byte (R178, R187): the envelope and its check, the hunt for the start mark, the sorting of
a frame taken into the command it is, the frame that carries a command, and the bytes of what the part sends. -/

namespace Sys2Proof.Machine

/-- A frame or page without its envelope (Table 11-7). -/
structure Frame where
  address : Byte
  kind    : Byte
  payload : List Byte
deriving DecidableEq, Repr

/-! ## The check (R187) -/

/-- R187: one bit enters the code. -/
def crcBit (c : BitVec 16) (b : Bool) : BitVec 16 := if c.msb != b then (c <<< 1) ^^^ 0x1021#16 else c <<< 1

/-- R187: one byte enters the code, most significant bit first. -/
def crcByte (c : BitVec 16) (b : Byte) : BitVec 16 := [7, 6, 5, 4, 3, 2, 1, 0].foldl (fun c i => crcBit c (b.getLsbD i)) c

/-- R187: the check of bytes, started at all ones. -/
def crc16 (bytes : List Byte) : BitVec 16 := bytes.foldl crcByte 0xFFFF#16

/-- The bytes the check covers: address, kind, length and payload. -/
def Frame.body (f : Frame) : List Byte := f.address :: f.kind :: byteOf f.payload.length :: f.payload

/-- Two bytes of a check, high byte first. -/
def checkBytes (c : BitVec 16) : List Byte := [c.extractLsb' 8 8, c.extractLsb' 0 8]

/-- R187: the start mark. -/
def startMark : Byte := 0xA5#8

/-- Table 11-7: the bytes of a frame on a line. -/
def Frame.bytes (f : Frame) : List Byte := startMark :: (f.body ++ checkBytes (crc16 f.body))

/-! ## Reception (R178) -/

/-- What a port finds behind a start mark. -/
inductive Reception
  /-- The frame passes, with the bytes behind it. -/
  | took (f : Frame) (rest : List Byte)
  | discarded
  /-- More bytes are to come. -/
  | partly
deriving DecidableEq, Repr

/-- R178: the frame is taken when the check agrees and the length and the address are in range. -/
def judgeFrame (f : Frame) (check rest : List Byte) : Reception :=
  if check = checkBytes (crc16 f.body) ∧ f.payload.length ≤ 24 ∧ f.address.toNat < 32 then .took f rest else .discarded

/-- R178: the bytes behind a start mark. -/
def readFrame : List Byte → Reception
  | address :: kind :: length :: rest =>
    if length.toNat + 2 ≤ rest.length then
      judgeFrame ⟨address, kind, rest.take length.toNat⟩ ((rest.drop length.toNat).take 2) (rest.drop (length.toNat + 2))
    else .partly
  | _ => .partly

/-- R178: a port hunts through bytes: the frames it takes, and `none` for each one it discards. After a discarded frame it
hunts from the byte after its start mark. The first argument bounds the hunt; the number of bytes is enough. -/
def hunt : Nat → List Byte → List (Option Frame)
  | 0, _ => []
  | _, [] => []
  | n + 1, b :: bs =>
    if b = startMark then
      match readFrame bs with
      | .took f rest => some f :: hunt n rest
      | .discarded => none :: hunt n bs
      | .partly => []
    else hunt n bs

/-! ## Fields of payloads (R187) -/

/-- Two bytes, unsigned. -/
def u16 (h l : Byte) : Nat := h.toNat * 256 + l.toNat

/-- Two bytes, two's complement. -/
def s16 (h l : Byte) : Int := (h ++ l : BitVec 16).toInt

/-- Four bytes, two's complement. -/
def s32 (a b c d : Byte) : Int := (a ++ b ++ c ++ d : BitVec 32).toInt

/-- A byte that codes yes or no. -/
def bitByte (b : Byte) : Option Bool := boolOf b.toNat

/-- Direction of a JOG. -/
def dirOf (b : Byte) : Option Dir := (bitByte b).map fun x => if x then .down else .up

/-- Priority. -/
def priorityOf (b : Byte) : Option Priority := (bitByte b).map fun x => if x then .override else .normal

/-- Selection. -/
def selOf (b : Byte) : Option Sel := (bitByte b).map fun x => if x then .alt else .work

/-- Band. -/
def bandOf (b : Byte) : Option Band :=
  match b.toNat with
  | 1 => some .b1
  | 2 => some .b2
  | 3 => some .b3
  | 4 => some .b4
  | _ => none

/-- Pol. -/
def polOf (b : Byte) : Option Pol := (bitByte b).map fun x => if x then .v else .h

/-- Period. -/
def periodOf (b : Byte) : Option Period :=
  match b.toNat with
  | 0 => some .p100
  | 1 => some .p200
  | 2 => some .p500
  | _ => none

/-- Axis of a node of the drives. -/
def axisOfNode : Nat → Option Axis
  | 1 => some .mast
  | 2 => some .pan
  | 3 => some .tilt
  | 4 => some .pol
  | _ => none

/-! ## Sorting: the command that a frame taken is (R178, Table 11-8) -/

/-- Fields of a console MOVE. -/
def moveFields : List Byte → Option MoveFields
  | [h, l, p] => (priorityOf p).map fun q => ⟨s16 h l, q, none⟩
  | [h, l, p, rh, rl] => (priorityOf p).map fun q => ⟨s16 h l, q, some (u16 rh rl)⟩
  | _ => none

/-- Fields of a console JOG. -/
def jogFields : List Byte → Option JogFields
  | [d, p, rh, rl] =>
    match dirOf d, priorityOf p with
    | some dir, some q => some ⟨dir, q, u16 rh rl⟩
    | _, _ => none
  | _ => none

/-- Field of a console STOP. -/
def stopFields : List Byte → Option Priority
  | [p] => priorityOf p
  | _ => none

/-- Fields of a console SELECT. -/
def selectFields : List Byte → Option SelectFields
  | [x, p] =>
    match selOf x, priorityOf p with
    | some sel, some q => some ⟨sel, q⟩
    | _, _ => none
  | _ => none

/-- A console frame for a drive. -/
def sortMotion (a : Axis) (kind : Nat) (payload : List Byte) : Instr :=
  match kind with
  | 1 => .consoleMove a (moveFields payload)
  | 2 => .consoleJog a (jogFields payload)
  | 3 => .consoleStop a (stopFields payload)
  | 4 => .consoleSelect a (selectFields payload)
  | 5 => .consoleChannel a
  | k => .consoleOtherKind a k

/-- A READ, by its address. -/
def sortRead (t r f : Nat) : Instr :=
  if t = 10 ∧ r = 0 ∧ f = 1 then .readSiteUp
  else if t = 9 ∧ r < 8 ∧ f = 0 then .readNotice r
  else .read t r f

/-- A WRITE to table 6, row 0. -/
def sortSettingsWrite (f : Nat) (v : Int) : Instr :=
  match f with
  | 28 => .writeWindSetting .warnThreshold v
  | 29 => .writeWindSetting .holdThreshold v
  | 30 => .writeWindSetting .stowWind v
  | 36 => .writeVanAbilityWord v
  | n => .write 6 0 n v

/-- A WRITE to table 3. -/
def sortEntryWrite (r f : Nat) (v : Int) : Instr :=
  if 8 ≤ r ∨ 16 < f then .write 3 r f v else if f = 0 then .writeEntryState r v else .writeEntrySetting r f v

/-- A WRITE, by its address. -/
def sortWrite (t r f : Nat) (v : Int) : Instr :=
  if t = 2 ∧ r < 24 ∧ f < 8 then .writeZone r f v
  else if t = 5 ∧ r < 8 ∧ f < 5 then .writeDerateRow r f v
  else if t = 3 then sortEntryWrite r f v
  else if t = 6 ∧ r = 0 then sortSettingsWrite f v
  else .write t r f v

/-- A node-0 request without payload. -/
def sortBare (kind : Nat) : Instr :=
  match kind with
  | 0x32 => .deploy none
  | 0x33 => .stow
  | 0x34 => .park
  | 0x35 => .wake
  | 0x37 => .release
  | 0x38 => .resume
  | 0x39 => .dropResume
  | 0x3A => .renegotiate
  | 0x3B => .txOn
  | 0x3C => .txOff
  | 0x3D => .clearHold
  | 0x3E => .lineRestart
  | 0x3F => .reset
  | k => .unknownRequest k

/-- A node-0 request. -/
def sortRequest (kind : Nat) (payload : List Byte) : Instr :=
  match payload with
  | [] => sortBare kind
  | [r] => if kind = kindAcquire then .acquire r.toNat else .unknownRequest kind
  | [h, l] => if kind = kindDeploy then .deploy (some (u16 h l : Nat)) else .unknownRequest kind
  | [t, r, f] => if kind = kindRead then sortRead t.toNat r.toNat f.toNat else .unknownRequest kind
  | [t, r, f, a, b, c, d] =>
    if kind = kindWrite then sortWrite t.toNat r.toNat f.toNat (s32 a b c d) else .unknownRequest kind
  | _ => .unknownRequest kind

/-- R178: a frame taken on the upstream port. -/
def sortUpstream (f : Frame) : Instr :=
  let n := f.address.toNat
  match axisOfNode n with
  | some a => sortMotion a f.kind.toNat f.payload
  | none => if n = 0 then sortRequest f.kind.toNat f.payload else .accessoryFrame n f.kind.toNat f.payload

/-- A POSITION report with its codes. -/
def positionFields (a : Axis) : List Byte → Option Instr
  | [h, l, m, x, c] =>
    match bitByte m, bitByte x with
    | some moving, some fault => some (.position a (s16 h l) moving fault c.toNat)
    | _, _ => none
  | _ => none

/-- The reports of the drive line that the part takes. -/
def driveReport (node kind : Nat) (payload : List Byte) : Option Instr :=
  if kind = kindPosition then (axisOfNode node).bind fun a => positionFields a payload
  else match payload with
    | [h, l] => if kind = kindWind ∧ node = 5 then some (.wind (s16 h l)) else none
    | [h, l, x, y] => if kind = kindSlope ∧ node = 6 then some (.slope (s16 h l) (s16 x y)) else none
    | _ => none

/-- R178: a frame taken on the drive port. One that bears address 0 is discarded. -/
def sortDrive (f : Frame) : Instr :=
  let n := f.address.toNat
  if n = 0 then .frameDiscarded .drive
  else (driveReport n f.kind.toNat f.payload).getD (.driveFrameForward n f.kind.toNat f.payload)

/-- A choice and its toggle. -/
def choiceFields : List Byte → Option (Choice × Bool)
  | [b, p, t, x] =>
    match bandOf b, polOf p, periodOf t, bitByte x with
    | some band, some pol, some period, some toggle => some (⟨band, pol, period⟩, toggle)
    | _, _, _, _ => none
  | _ => none

/-- A site ABILITY. -/
def abilityFields : List Byte → Option Instr
  | [b, p, t, x] =>
    if b.toNat < 16 ∧ p.toNat < 4 ∧ t.toNat < 8 then
      (bitByte x).map fun ack => .ability (b.setWidth 4) (p.setWidth 2) (t.setWidth 3) ack
    else none
  | _ => none

/-- A REPORT: a VALID one carries a level of the range. -/
def reportFields : List Byte → Option Instr
  | [q, h, l, x] =>
    match bitByte x with
    | some squelched =>
      if squelched || (-1300 ≤ s16 h l && s16 h l ≤ -100) then some (.report q.toNat (s16 h l) (!squelched)) else none
    | none => none
  | _ => none

/-- An IDENT: the codes from 1. -/
def identFields : List Byte → Option Instr
  | [h, l] => if u16 h l = 0 then none else some (.ident (u16 h l))
  | _ => none

/-- R116: a page of a page kind; none for one that is malformed. -/
def pageFields (kind : Nat) (payload : List Byte) : Option Instr :=
  if kind = 0x50 then abilityFields payload
  else if kind = 0x51 then (choiceFields payload).map fun _ => .inboundNoEffectPage .choice
  else if kind = 0x52 then (choiceFields payload).map fun c => .choiceEcho c.1 c.2
  else if kind = 0x53 then identFields payload
  else if kind = 0x54 then reportFields payload
  else if payload = [] then some (.inboundNoEffectPage .leave)
  else none

/-- R178: a page taken on the site port. One without address 0 and a page kind is discarded. -/
def sortSite (f : Frame) : Instr :=
  let k := f.kind.toNat
  if f.address.toNat = 0 ∧ 0x50 ≤ k ∧ k ≤ 0x55 then (pageFields k f.payload).getD .malformedPage
  else .frameDiscarded .site

/-- R178: a frame taken on a port. -/
def sortFrame : Port → Frame → Instr
  | .upstream, f => sortUpstream f
  | .drive, f => sortDrive f
  | .site, f => sortSite f

/-- R178: the commands that the bytes arriving on a port are. -/
def receive (p : Port) (bytes : List Byte) : List Instr :=
  (hunt bytes.length bytes).map fun r => match r with
    | some f => sortFrame p f
    | none => .frameDiscarded p

/-! ## The frame that carries a command -/

/-- A payload that no layout with fields has: 24 bytes (R41, R181). -/
def badPayload : List Byte := List.replicate 24 0#8

/-- Codes of Table 11-8. -/
def dirCode : Dir → Nat
  | .up => 0
  | .down => 1

/-- Codes of Table 11-8. -/
def priorityCode : Priority → Nat
  | .normal => 0
  | .override => 1

/-- Payload of a console MOVE. -/
def movePayload : Option MoveFields → List Byte
  | none => badPayload
  | some ⟨t, p, none⟩ => be16 t ++ [byteOf (priorityCode p)]
  | some ⟨t, p, some r⟩ => be16 t ++ [byteOf (priorityCode p)] ++ be16 r

/-- Payload of a console JOG. -/
def jogPayload : Option JogFields → List Byte
  | none => badPayload
  | some ⟨d, p, r⟩ => [byteOf (dirCode d), byteOf (priorityCode p)] ++ be16 r

/-- Payload of a console STOP. -/
def stopPayload : Option Priority → List Byte
  | none => badPayload
  | some p => [byteOf (priorityCode p)]

/-- Payload of a console SELECT. -/
def selectPayload : Option SelectFields → List Byte
  | none => badPayload
  | some ⟨x, p⟩ => [byteOf (selCode x), byteOf (priorityCode p)]

/-- Payload of a CHOICE page and of its echo. -/
def choicePayload (c : Choice) (toggle : Bool) : List Byte :=
  [byteOf (bandCode c.band), byteOf (polCode c.pol), byteOf (periodCode c.period), byteOf (boolCode toggle)]

/-- A console frame for a drive. -/
def toDrive (a : Axis) (kind : Nat) (payload : List Byte) : Option (Port × Frame) :=
  some (.upstream, ⟨byteOf (axisNode a), byteOf kind, payload⟩)

/-- A node-0 request. -/
def toPart (kind : Nat) (payload : List Byte) : Option (Port × Frame) :=
  some (.upstream, ⟨0#8, byteOf kind, payload⟩)

/-- A READ. -/
def readFrameOf (t r f : Nat) : Option (Port × Frame) := toPart kindRead [byteOf t, byteOf r, byteOf f]

/-- A WRITE. -/
def writeFrameOf (t r f : Nat) (v : Int) : Option (Port × Frame) :=
  toPart kindWrite ([byteOf t, byteOf r, byteOf f] ++ be32 v)

/-- A page of the site. -/
def pageOf (kind : Nat) (payload : List Byte) : Option (Port × Frame) := some (.site, ⟨0#8, byteOf kind, payload⟩)

/-- A frame of the drive line. -/
def fromDrive (node kind : Nat) (payload : List Byte) : Option (Port × Frame) :=
  some (.drive, ⟨byteOf node, byteOf kind, payload⟩)

/-- Table 11-8: the port and the frame that carry a command; none for a command that is no frame. -/
def frameOf : Instr → Option (Port × Frame)
  | .consoleMove a f => toDrive a kindMove (movePayload f)
  | .consoleJog a f => toDrive a kindJog (jogPayload f)
  | .consoleStop a p => toDrive a kindStop (stopPayload p)
  | .consoleSelect a f => toDrive a kindSelect (selectPayload f)
  | .consoleChannel a => toDrive a kindChannel [0#8, 0#8]
  | .consoleOtherKind a k => toDrive a k []
  | .accessoryFrame n k p => some (.upstream, ⟨byteOf n, byteOf k, p⟩)
  | .position a pos m f c => fromDrive (axisNode a) kindPosition (positionPayload pos m f c)
  | .wind v => fromDrive 5 kindWind (be16 v)
  | .slope r p => fromDrive 6 kindSlope (be16 r ++ be16 p)
  | .driveFrameForward n k p => fromDrive n k p
  | .ability b p t a => pageOf 0x50 [b.setWidth 8, p.setWidth 8, t.setWidth 8, byteOf (boolCode a)]
  | .choiceEcho c t => pageOf 0x52 (choicePayload c t)
  | .ident n => pageOf 0x53 (be16 n)
  | .report q l v => pageOf 0x54 ([byteOf q] ++ be16 l ++ [byteOf (boolCode (!v))])
  | .inboundNoEffectPage .choice => pageOf 0x51 [1#8, 0#8, 0#8, 0#8]
  | .inboundNoEffectPage .leave => pageOf 0x55 []
  | .malformedPage => pageOf 0x53 [0#8, 0#8]
  | .read t r f => readFrameOf t r f
  | .readSiteUp => readFrameOf 10 0 1
  | .readNotice r => readFrameOf 9 r 0
  | .write t r f v => writeFrameOf t r f v
  | .writeZone r f v => writeFrameOf 2 r f v
  | .writeDerateRow r f v => writeFrameOf 5 r f v
  | .writeVanAbilityWord v => writeFrameOf 6 0 36 v
  | .writeEntrySetting r f v => writeFrameOf 3 r f v
  | .writeEntryState r v => writeFrameOf 3 r 0 v
  | .writeWindSetting .warnThreshold v => writeFrameOf 6 0 28 v
  | .writeWindSetting .holdThreshold v => writeFrameOf 6 0 29 v
  | .writeWindSetting .stowWind v => writeFrameOf 6 0 30 v
  | .unknownRequest k => toPart k badPayload
  | .deploy none => toPart kindDeploy []
  | .deploy (some h) => toPart kindDeploy (be16 h)
  | .stow => toPart kindStow []
  | .park => toPart kindPark []
  | .wake => toPart kindWake []
  | .clearHold => toPart kindClearHold []
  | .acquire r => toPart kindAcquire [byteOf r]
  | .release => toPart kindRelease []
  | .resume => toPart kindResume []
  | .dropResume => toPart kindDropResume []
  | .renegotiate => toPart kindRenegotiate []
  | .txOn => toPart kindTxOn []
  | .txOff => toPart kindTxOff []
  | .lineRestart => toPart kindLineRestart []
  | .reset => toPart kindReset []
  | .powerOnReset _ | .parkInRelease | .parkInAssert | .stowInAssert | .stowInRelease | .frameDiscarded _ | .rateChange
  | .upstreamFrameSent | .arrivalTimeout _ | .silenceWatchExpiry _ | .deadmanExpiry _ | .slotTimerExpiry
  | .windSilenceExpiry | .slopeSilenceExpiry | .offerTimerExpiry | .echoTimerExpiry | .reportSilenceExpiry
  | .quietTimeExpiry | .settleTimerExpiry | .linkWaitExpiry | .gapTimerExpiry | .rstRelease => none

/-! ## What the part sends (Table 11-8). Its own address on the upstream line is 0 (log 32). -/

/-- A frame on the drive line. -/
def DriveFrame.frame : DriveFrame → Frame
  | .move a target rate => ⟨byteOf (axisNode a), byteOf kindMove, be16 target ++ be16 rate⟩
  | .stop a => ⟨byteOf (axisNode a), byteOf kindStop, []⟩
  | .channel c st => ⟨byteOf (axisNode c.axis), byteOf kindChannel, [byteOf c.code, byteOf st.code]⟩
  | .forwarded node kind payload => ⟨byteOf node, byteOf kind, payload⟩

/-- A page on the site line. -/
def SitePage.frame : SitePage → Frame
  | .ability b p t a => ⟨0#8, 0x50#8, [b.setWidth 8, p.setWidth 8, t.setWidth 8, byteOf (boolCode a)]⟩
  | .choice c t => ⟨0#8, 0x51#8, choicePayload c t⟩
  | .leave => ⟨0#8, 0x55#8, []⟩

/-- Cause, value count and values of a notice (R187); NONE is cause 0 with no values. -/
def noticeBytes : Option Notice → List Byte
  | none => [0#8, 0#8]
  | some n => byteOf n.causeNo :: byteOf n.values.length :: n.values.flatMap be16

/-- Data of a REPLY (Table 11-8, note 2). -/
def ReplyData.bytes : ReplyData → List Byte
  | .none => []
  | .field present value => byteOf (boolCode present) :: be32 value
  | .notice n => noticeBytes n

/-- Status and reason of a REPLY. -/
def statusBytes : Option Reason → List Byte
  | none => [0#8, 0#8]
  | some why => [1#8, byteOf why.code]

/-- A frame on the upstream line. -/
def UpFrame.frame : UpFrame → Frame
  | .reply kind node refusal data =>
    ⟨0#8, byteOf kindReply, [byteOf kind, byteOf node] ++ statusBytes refusal ++ data.bytes⟩
  | .notice n => ⟨0#8, byteOf kindNotice, byteOf n.cls.row :: noticeBytes (some n)⟩
  | .forwarded node kind payload => ⟨byteOf node, byteOf kind, payload⟩

end Sys2Proof.Machine
end

