-- ==== Sys2Proof/Safety.lean ====
section
/-! DEFINITION. The terms in which claims about the part are stated: the invariant that every command keeps, the blocks of
the state that a command leaves alone, and the conditions under which the part takes a command. -/

namespace Sys2Proof

/-! ## Kinds of commands -/

/-- The commands that the console sends (Table 11-8): R179 discards them while the queue is full. -/
def Instr.fromConsole : Instr → Bool
  | .consoleMove _ _ | .consoleJog _ _ | .consoleStop _ _ | .consoleSelect _ _ | .consoleChannel _ | .consoleOtherKind _ _
  | .accessoryFrame _ _ _ | .read _ _ _ | .readSiteUp | .readNotice _ | .write _ _ _ _ | .writeZone _ _ _
  | .writeDerateRow _ _ _ | .writeVanAbilityWord _ | .writeEntrySetting _ _ _ | .writeEntryState _ _
  | .writeWindSetting _ _ | .unknownRequest _ | .deploy _ | .stow | .park | .wake | .clearHold | .acquire _ | .release
  | .resume | .dropResume | .renegotiate | .txOn | .txOff | .lineRestart | .reset => true
  | _ => false

/-- The kind of a node-0 request (Tables 11-2 and 11-8). -/
def Instr.requestKind : Instr → Option Nat
  | .read _ _ _ | .readSiteUp | .readNotice _ => some 0x30
  | .write _ _ _ _ | .writeZone _ _ _ | .writeDerateRow _ _ _ | .writeVanAbilityWord _ | .writeEntrySetting _ _ _
  | .writeEntryState _ _ | .writeWindSetting _ _ => some 0x31
  | .deploy _ => some 0x32
  | .stow => some 0x33
  | .park => some 0x34
  | .wake => some 0x35
  | .acquire _ => some 0x36
  | .release => some 0x37
  | .resume => some 0x38
  | .dropResume => some 0x39
  | .renegotiate => some 0x3A
  | .txOn => some 0x3B
  | .txOff => some 0x3C
  | .clearHold => some 0x3D
  | .lineRestart => some 0x3E
  | .reset => some 0x3F
  | .unknownRequest kind => some kind
  | _ => none

/-- The kind and the axis of a console frame for a drive (Table 11-8). -/
def Instr.driveKind : Instr → Option (Nat × Axis)
  | .consoleMove a _ => some (1, a)
  | .consoleJog a _ => some (2, a)
  | .consoleStop a _ => some (3, a)
  | .consoleSelect a _ => some (4, a)
  | .consoleChannel a => some (5, a)
  | .consoleOtherKind a kind => some (kind, a)
  | _ => none

/-- The commands that are a level of an input pin or a power-on reset. -/
def Instr.isPin : Instr → Bool
  | .powerOnReset _ | .rstRelease | .parkInRelease | .parkInAssert | .stowInAssert | .stowInRelease => true
  | _ => false

end Sys2Proof

namespace Sys2Proof.Machine

/-! ## The conditions under which a command is taken -/

/-- R186: the part is out of reset. -/
def State.running (s : State) : Prop := s.lnu.rst = false

/-- R179, R186: a console frame is taken: the part is out of reset and the upstream queue has a free place. -/
def State.listens (s : State) : Prop := s.lnu.rst = false ∧ s.lnu.queue.length < Config.queuePlaces

/-! ## What a command comes to -/

/-- The command answers a next state of which something holds. -/
def completes (i : Instr) (s : State) (Q : State → Prop) : Prop := ∃ t, exec i s = .next t ∧ Q t

/-- The state with one more frame behind those that wait in the upstream queue. -/
def State.queues (s : State) (f : UpFrame) : State := { s with lnu := { s.lnu with queue := s.lnu.queue ++ [f] } }

/-- A frame of the upstream line is a REPLY. -/
def UpFrame.isReply : UpFrame → Bool
  | .reply _ _ _ _ => true
  | .notice _ | .forwarded _ _ _ => false

/-- REPLY DONE to a node-0 request (R181). -/
def replyDone (kind : Nat) : UpFrame := .reply kind 0 none .none

/-- REPLY REFUSED to a node-0 request (R181). -/
def replyRefused (kind : Nat) (why : Reason) : UpFrame := .reply kind 0 (some why) .none

/-- What follows when a written value lies within a range, both ends included. -/
def within (lo hi v : Int) (x : α) : Option α := if lo ≤ v ∧ v ≤ hi then some x else none

/-- What a WRITE comes to: the state it leaves, answered DONE, or REFUSED RANGE with nothing else changed (R182). -/
def writeOutcome (s : State) : Option State → Host.Outcome State Fault Refusal
  | some t => .next (t.queues (replyDone 0x31))
  | none => .next (s.queues (replyRefused 0x31 .range))

/-- A frame of the drive line joins the queue while it holds fewer than 24 frames, and is lost otherwise (R179). -/
def State.forwards (s : State) (node kind : Nat) (payload : List Byte) : State :=
  if s.lnu.queue.length < 24 then s.queues (.forwarded node kind payload) else s

/-- An event of a class is handed to the Notice Unit (R183), and its NOTICE frame finds a place (R179): with pending clear it
becomes the latest notice, pending is set and one frame is placed; with pending set it replaces the latest notice and sets
newer-cause. -/
def State.noticed (s : State) (n : Notice) : State :=
  let row := s.ntu.get n.cls
  if row.pending then { s with ntu := s.ntu.set n.cls { row with latest := some n, newer := true } }
  else { s with ntu := s.ntu.set n.cls { row with latest := some n, pending := true } }.queues (.notice n)

/-- A NOTICE frame finds a place at once: none is held and the queue holds fewer than 63 (R179). -/
def State.roomy (s : State) : Prop := s.ntu.held = [] ∧ s.lnu.queue.length < Config.noticePlaces

/-- R175, R176: the fields of TXC once it has been handed the position of a clean report. With TXEN asserted, a pose that is
forbidden or absent takes TXEN off and leaves the enable pending, nothing seen; with the enable pending, TXEN is asserted once
PAN and TILT have both been seen and the pose is clear. A report of POL changes nothing. -/
def State.watches (s : State) (a : Axis) (pos : Int) : Txc :=
  let x := s.txc
  let clear := poseClear (s.setAxis a { s.axis a with position := some pos })
  let pan := x.panSeen || a = .pan
  let tilt := x.tiltSeen || a = .tilt
  if a = .pol then x
  else if x.txen then (if clear then x else { x with txen := false, pending := true, panSeen := false, tiltSeen := false })
  else if x.pending then
    (if pan && tilt && clear then { x with txen := true, pending := false, panSeen := false, tiltSeen := false }
      else { x with panSeen := pan, tiltSeen := tilt })
  else x

/-- R14, R175: a clean report of an axis has been taken: the record of the axis is `q`, and TXC has judged the pose. -/
def State.reports (s : State) (a : Axis) (pos : Int) (q : AxisRec) : State :=
  { s with axs := s.axs.set a q, txc := s.watches a pos }

/-! ## Slews -/

/-- R140: the axis that moves first in a slew, with its target: TILT when the dish rises, PAN otherwise. -/
def slewFirst (s : State) (pan tilt : Int) : Axis × Int :=
  if ((s.axis .tilt).position.any fun p => p < tilt) = true then (.tilt, tilt) else (.pan, pan)

/-- PAN, TILT and POL stand ready for a new context: IDLE, owned by NONE or CONSOLE, the channel FULL, a position present. -/
def State.slewFree (s : State) : Prop :=
  ∀ a : Axis, a ≠ .mast →
    (s.axis a).motion = .idle ∧ ((s.axis a).owner = .none ∨ (s.axis a).owner = .console) ∧
    s.chan (moveChannel a) = .full ∧ (s.axis a).position.isSome

/-- The first move of a slew to a pan and a tilt is inside the soft range, ALLOWED, and at a rate above 0. -/
def State.slewAllowed (s : State) (pan tilt : Int) : Prop :=
  let a := (slewFirst s pan tilt).1
  let target := (slewFirst s pan tilt).2
  (s.axis a).softMin ≤ target ∧ target ≤ (s.axis a).softMax ∧ inFull a target = true ∧ (moveCheck s a target).1 = false ∧
  0 < capped (s.axis a).rateLimit (rateCap s.wsm a)

/-- A context of a row has been created and its slew has begun: PAN, TILT and POL are owned by SEARCH with no run open, and
the first axis is sent its MOVE. -/
def State.slewing (s : State) (row : Nat) (pan tilt pol : Int) (after : Phase) (again : Bool) (t : State) : Prop :=
  let a := (slewFirst s pan tilt).1
  let target := (slewFirst s pan tilt).2
  (∃ c, t.acq.ctx = some c ∧ c.row = row ∧ c.phase = .slew ∧ c.step = none ∧ c.stepAxis = some a ∧ c.slewPan = pan ∧
    c.slewTilt = tilt ∧ c.slewPol = pol ∧ c.afterSettle = after ∧ c.reacquire = again) ∧
  (∀ b : Axis, b ≠ .mast → (t.axis b).owner = .search ∧ t.jog b = none) ∧
  (t.axis a).motion = .moving ∧ (t.axis a).working = some target ∧ (t.axis a).sel = .work ∧
  t.out.drive = s.out.drive ++
    [.move a target (min (capped (s.axis a).rateLimit (rateCap s.wsm a)) (s.axis a).rateLimit)]

/-- R163, R164: a running context has been suspended with a cause: no context runs, its entry is on top of the stack, and no
track is on. -/
def State.suspended (t : State) (c : Ctx) (cause : SuspendCause) : Prop :=
  t.acq.ctx = none ∧ (∃ e rest, t.acq.stack = e :: rest ∧ e.row = c.row ∧ e.cause = cause) ∧ t.txc.tracked = false

/-- PAN, TILT and POL are owned by NONE and none of them is MOVING. -/
def State.searchReleased (t : State) : Prop :=
  ∀ a : Axis, a ≠ .mast → (t.axis a).owner = .none ∧ (t.axis a).motion ≠ .moving

/-! ## Requests to AXS -/

/-- R7: AXS accepts a move of an axis that an owner asks for. -/
def State.accepts (s : State) (o : Owner) (a : Axis) (target : Int) (rate : Nat) : Prop :=
  let r := s.axis a
  r.owner = o ∧ r.motion ≠ .off ∧ r.motion ≠ .halted ∧ channelsFull s a = true ∧ r.position.isSome ∧
  inFull a target = true ∧ 0 < rate

/-- R7, R8: the state after the MOVE of an axis whose record, with its targets written, is `q`. -/
def State.withMove (s : State) (a : Axis) (q : AxisRec) (target : Int) (rate : Nat) : State :=
  { s with
    axs := s.axs.set a
      { q with
        motion := .moving, jogTarget := none, stopping := false, stopMoved := false, arrivalTimer := some q.arrivalLimit }
    mgt := if (s.axis a).motion = .jogging then s.mgt.set a none else s.mgt
    out := { s.out with drive := s.out.drive ++ [.move a target (min rate q.rateLimit)] } }

/-- R11, R63: the state after the STOP of an axis that is IDLE, MOVING or JOGGING. -/
def State.withStop (s : State) (a : Axis) : State :=
  let r := s.axis a
  { s with
    axs := s.axs.set a
      { r with
        motion := .idle, jogTarget := none, stopping := true, arrivalTimer := none
        stopMoved := r.motion = .moving || (r.stopping && r.stopMoved) }
    mgt := s.mgt.set a none
    out := { s.out with drive := s.out.drive ++ [.stop a] } }

/-! ## Console frames turned away (R29, R46, R48 to R51, R61) -/

/-- R29: every zone that blocks a move of an axis to a target has one more hit, up to 255. -/
def State.hitBy (s : State) (a : Axis) (x : Int) : State :=
  { s with zones := s.zones.map fun z =>
      if moveBlocker s a x z then { z with hits := if z.hits < 255 then z.hits + 1 else z.hits } else z }

/-- R61: a frame past step 1 has closed an open run of the axis, and has then been refused at step 3 or later: a JOGGING axis
whose run it closed is stopped. -/
def State.turnedAway (s : State) (a : Axis) : State :=
  if (s.jog a).isSome ∧ (s.axis a).motion = .jogging then s.withStop a else { s with mgt := s.mgt.set a none }

/-- R48: step 3 passes. -/
def State.movable (s : State) (a : Axis) : Prop :=
  (s.axis a).motion ≠ .off ∧ (s.axis a).motion ≠ .halted ∧ (s.axis a).position.isSome ∧ channelsFull s a = true

/-- R48 to R51, R61: a MOVE or SELECT (the command `i`, of a kind) on an axis owned by NONE or CONSOLE in DEPLOYED that would give
the drive a target is refused with the reason of the first of steps 3 to 6 that fails; ZONE counts the hits. -/
def State.turnsAway (s : State) (a : Axis) (kind : Nat) (target : Option Int) (i : Instr) : Prop :=
  let r := s.axis a
  let range := ∃ x, target = some x ∧ r.softMin ≤ x ∧ x ≤ r.softMax ∧ (a = .mast → x ≤ s.dsq.maxHeight)
  let wind := a = .mast → ∀ x row, target = some x → s.wsm.caps = some row → x ≤ row.heightCap
  let refused : Reason → State → Prop := fun why u =>
    exec i s = .next ((u.turnedAway a).queues (.reply kind (axisNode a) (some why) .none))
  (¬ s.movable a → refused .state s) ∧ (s.movable a → ¬ range → refused .range s) ∧
  (s.movable a → range → ¬ wind → refused .wind s) ∧
  (∀ x, s.movable a → range → wind → target = some x → a ≠ .pol → (∃ z ∈ s.zones, moveBlocker s a x z = true) →
    refused .zone (s.hitBy a x))

/-! ## The Site Handshake Agent (R119, R120) -/

/-- R119, R120: SHA has entered OFFERING from SILENT and sent one ABILITY, with the masks of the running context's row or else
the van ability word. -/
def State.offers (s : State) : State :=
  let row := s.acq.ctx.bind fun c => s.sites[c.row]?
  let bands := (row.map (·.set.bandMask)).getD s.sha.vanBands
  let pols := (row.map (·.set.polMask)).getD s.sha.vanPols
  { s with
    sha :=
      { s.sha with
        state := .offering, echoTimer := none, reportWatch := none, identity := none, linkReady := false
        heard := false, offerTimer := some 500 }
    out := { s.out with site := s.out.site ++ [.ability bands pols 7 false] } }

/-! ## The running context -/

/-- The state with a running context. -/
def State.withCtx (s : State) (c : Ctx) : State := { s with acq := { s.acq with ctx := some c } }

/-- The state with an entry of the Site Table. -/
def State.withEntry (s : State) (row : Nat) (e : Entry) : State := { s with sites := s.sites.set row e }

/-- R156, R158: the context `c` has ended by a failure or a loss, with a cause, and no context follows it. -/
def State.endsSearch (s : State) (c : Ctx) (cause : LastCause) (t : State) : Prop :=
  ∀ e, s.sites[c.row]? = some e → (e.state = .acquiring ∨ e.state = .tracked) →
    t.acq = { s.acq with ctx := none } ∧ t.searchReleased ∧ t.sha = { s.sha with linkReady := false } ∧
    t.sites = s.sites.set c.row { e with state := .lost, learned := { e.learned with cause := cause } } ∧
    (e.state = .tracked → t.txc.tracked = false) ∧
    t.out.drive =
      s.out.drive ++ ([Axis.pan, .tilt, .pol].filter fun a => (s.axis a).motion = .moving).map DriveFrame.stop ∧
    (t.ntu.get .search).latest = some (.searchEnded cause c.row c.phase)

/-- R140, R145, R152, Note 2 of Table 8-3: a move of the context `c` by a target of one of its axes, at the rate limit lowered
to the cap in force: a failure with ZONE where the move check is BLOCKED and with ABORTED where AXS refuses; otherwise it is
sent, and the axis is the step axis. -/
def State.searches (s : State) (c : Ctx) (a : Axis) (which : Sel) (x : Int) (t : State) : Prop :=
  let r := s.axis a
  let rate := capped r.rateLimit (rateCap s.wsm a)
  let blocked := (moveCheck s a x).1
  (blocked = true → s.endsSearch c .zone t) ∧
  (blocked = false → ¬ s.accepts .search a x rate → s.endsSearch c .aborted t) ∧
  (blocked = false → s.accepts .search a x rate →
    t = (s.withMove a { r.setTarget which (some x) with sel := which } x rate).withCtx { c with stepAxis := some a })

/-- R140: the next move of a slew: a failure with ZONE where the target lies outside the soft range. -/
def State.slewsOn (s : State) (c : Ctx) (a : Axis) (x : Int) (t : State) : Prop :=
  let within := (s.axis a).softMin ≤ x ∧ x ≤ (s.axis a).softMax
  (¬ within → s.endsSearch c .zone t) ∧ (within → s.searches c a .work x t)

/-- R145: the lower end of the sweep interval of an axis about a centre. -/
def State.sweepLow (s : State) (a : Axis) (centre : Int) (extent : Nat) : Int :=
  let margin : Int := if (s.axis a).tolerance = 0 then 1 else (s.axis a).tolerance
  let free := max (centre - extent) (s.axis a).softMin
  match extentQuery s a centre .down with
  | some b => max free (b + margin)
  | none => free

/-- R145: the upper end. -/
def State.sweepHigh (s : State) (a : Axis) (centre : Int) (extent : Nat) : Int :=
  let margin : Int := if (s.axis a).tolerance = 0 then 1 else (s.axis a).tolerance
  let free := min (centre + extent) (s.axis a).softMax
  match extentQuery s a centre .up with
  | some b => min free (b - margin)
  | none => free

/-- R145: what gave an end of the sweep interval: a zone before the soft range, and the soft range before the extent (the
model's order: log 24). -/
def clippedBy (zone soft : Prop) [Decidable zone] [Decidable soft] : Clip :=
  if zone then .zone else if soft then .soft else .none

/-- R145: TO_START of the context `c`, its centre and extent set. -/
def State.formsSweep (s : State) (c : Ctx) (t : State) : Prop :=
  let a := phaseAxis c.phase
  let r := s.axis a
  ∀ centre extent here, c.centre = some centre → c.extent = some extent → r.position = some here →
    let margin : Int := if r.tolerance = 0 then 1 else r.tolerance
    let low := s.sweepLow a centre extent
    let high := s.sweepHigh a centre extent
    let start := if (here - low).natAbs ≤ (high - here).natAbs then low else high
    (high < low → s.endsSearch c .zone t) ∧
    (low ≤ high → s.searches
      { c with
        step := some .toStart, rest := none, sweepStart := some start, sweepEnd := some (if start = low then high else low)
        clipLow := clippedBy ((extentQuery s a centre .down).map (· + margin) = some low) (low = r.softMin)
        clipHigh := clippedBy ((extentQuery s a centre .up).map (· - margin) = some high) (high = r.softMax) } a .alt start t)

/-- R144: a sweep phase starts in the context `c`. -/
def State.startsSweep (s : State) (c : Ctx) (p : Phase) (t : State) : Prop :=
  ∀ e, s.sites[c.row]? = some e →
    let extent : Option Nat :=
      match p with
      | .azSweep => some e.set.searchAz
      | .elSweep => some e.set.searchEl
      | .retrimAz => some e.set.trimAz
      | .retrimEl => some e.set.trimEl
      | .slew | .settle | .track => none
    s.formsSweep
      { c with
        phase := p, step := some .toStart, rest := none, centre := (s.axis (phaseAxis p)).working, extent := extent
        widened := false, gapRestarts := 0, partialBegin := none, partialEnd := none, partialOpen := false
        stepAxis := none } t

/-- R30, R146: SWEEPING begins in the context `c`: the Report Window is emptied, the partial edges are absent, and the axis is
sent to the sweep end at the search rate lowered to the cap in force, the gap timer at twice the agreed period. A sweep end
outside the soft range, or blocked, fails the acquisition with ZONE (Table 8-7; log 44). -/
def State.beginsSweep (s : State) (c : Ctx) (t : State) : Prop :=
  let a := phaseAxis c.phase
  let r := s.axis a
  ∀ e x, s.sites[c.row]? = some e → c.sweepEnd = some x →
    let u := { s with sha := { s.sha with window := [] } }
    let d := { c with step := some .sweeping, rest := none, partialBegin := none, partialEnd := none, partialOpen := false }
    let rate := capped e.set.searchRate (rateCap s.wsm a)
    let within := r.softMin ≤ x ∧ x ≤ r.softMax
    let blocked := (moveCheck s a x).1
    (¬ within ∨ blocked = true → u.endsSearch d .zone t) ∧
    (within → blocked = false → ¬ s.accepts .search a x rate → u.endsSearch d .aborted t) ∧
    (within → blocked = false → s.accepts .search a x rate →
      t = (u.withMove a (r.setTarget r.sel (some x)) x rate).withCtx
        { d with stepAxis := some a, gapTimer := s.sha.agreed.map fun k => 2 * periodMs k.period })

/-- R148, R149, R152: CENTRING of the context `c`, whose partial edges are both set. R107: the boresight offset and the
re-trim interval are read here. -/
def State.centres (s : State) (c : Ctx) (t : State) : Prop :=
  let a := phaseAxis c.phase
  let r := s.axis a
  ∀ e b f pan tilt height, s.sites[c.row]? = some e → c.partialBegin = some b → c.partialEnd = some f →
    (s.axis .pan).position = some pan → (s.axis .tilt).position = some tilt → (s.axis .mast).position = some height →
    let offset := if a = .tilt then e.adjust.offsetEl else e.adjust.offsetAz
    let x := max r.softMin (min r.softMax ((b + f) / 2 + offset))
    let d := { c with step := some .centring, rest := none, gapTimer := none, retrimRead := e.adjust.retrim }
    let forbidden := (poseCheck s ⟨if a = .pan then x else pan, if a = .tilt then x else tilt, height⟩).1
    (forbidden = true → s.endsSearch d .zone t) ∧ (forbidden = false → s.searches d a .work x t)

/-- R109, R154: entry to TRACK of the context `c`. The re-trim interval in use becomes the one read for the entry, which after
a centring is the row's as it stood when the target was formed (R107, R114; log 35). -/
def State.tracks (s : State) (c : Ctx) (t : State) : Prop :=
  ∀ e, s.sites[c.row]? = some e → (e.state = .acquiring ∨ e.state = .tracked) →
    t.acq = { s.acq with
      ctx := some
        { c with
          phase := .track, step := none, rest := none, stepAxis := none, retrimInUse := c.retrimRead
          reportCount := 0, lostRun := 0 } } ∧
    t.sites = s.sites.set c.row
      { e with
        state := .tracked
        learned := { e.learned with pan := (s.axis .pan).working, tilt := (s.axis .tilt).working } } ∧
    t.txc.tracked = true ∧ (t.ntu.get .search).latest = some (.searchTracked c.row) ∧
    t.axs = s.axs ∧ t.sha = s.sha ∧ t.out = s.out

/-- R141, R154, R155, R167: the settle timer of the context `c` has run out: a search sweep starts, or TRACK is entered with the
re-trim interval of the row, and RETRIM_AZ starts at once. -/
def State.settled (s : State) (c : Ctx) (t : State) : Prop :=
  let d := { c with settleTimer := none }
  (c.afterSettle = .azSweep ∨ c.afterSettle = .elSweep → s.startsSweep d c.afterSettle t) ∧
  (c.afterSettle = .track → ∀ e, s.sites[c.row]? = some e → (e.state = .acquiring ∨ e.state = .tracked) →
    ∃ u k, s.tracks { d with retrimRead := e.adjust.retrim } u ∧ u.acq.ctx = some k ∧ u.startsSweep k .retrimAz t)

/-- R108, R152: the centring of the context `c` has arrived: the edges are written, and the next phase starts. -/
def State.centred (s : State) (c : Ctx) (t : State) : Prop :=
  ∀ e b f, s.sites[c.row]? = some e → c.partialBegin = some b → c.partialEnd = some f →
    let edges : Edges := ⟨b, f, (b + f) / 2, c.partialOpen⟩
    let az := s.withEntry c.row { e with learned := { e.learned with az := some edges } }
    let el := s.withEntry c.row { e with learned := { e.learned with el := some edges } }
    (c.phase = .azSweep → az.startsSweep c .elSweep t) ∧ (c.phase = .retrimAz → az.startsSweep c .retrimEl t) ∧
    (c.phase = .elSweep ∨ c.phase = .retrimEl → el.tracks c t)

/-- R157: a loss of the context `c` has been followed by a re-acquisition of its row. -/
def State.reacquires (s : State) (c : Ctx) (cause : LastCause) (e : Entry) (t : State) : Prop :=
  s.slewing c.row (slewPose e).1 (slewPose e).2 e.set.presetPol .azSweep true t ∧
  t.sites = s.sites.set c.row { e with state := .acquiring, learned := { e.learned with cause := cause } } ∧
  t.txc.tracked = false ∧ (t.ntu.get .search).latest = some (.searchReacquire c.row)

/-- R156, R157: the track of the context `c` is lost. A re-acquisition is judged where the row asks for one and the context is
not one itself: in DEPLOYED outside HOLD, where steps 7 to 9 of Table 8-4 pass (stated with the axes standing still). -/
def State.loses (s : State) (c : Ctx) (cause : LastCause) (t : State) : Prop :=
  ∀ e, s.sites[c.row]? = some e → e.state = .tracked →
    let again := e.set.autoReacquire = true ∧ c.reacquire = false ∧ s.dsq.deploy = .deployed ∧ s.wsm.gust ≠ .hold
    let pose := slewPose e
    (¬ again → s.endsSearch c cause t) ∧
    (again → (slewChecks s c.row).1 ≠ none → (∀ a : Axis, a ≠ .mast → (s.axis a).motion ≠ .moving) →
      s.endsSearch c cause t) ∧
    (again → (slewChecks s c.row).1 = none → s.slewAllowed pose.1 pose.2 →
      (∀ a : Axis, a ≠ .mast → (s.axis a).motion = .idle ∧ (s.axis a).owner = .search ∧ s.jog a = none) →
      s.reacquires c cause e t)

/-- R149, R150: a sweep of the context `c` has ended without a begin edge. -/
def State.noEdge (s : State) (c : Ctx) (t : State) : Prop :=
  (c.phase.tracks = true → s.loses c .lostLevel t) ∧
  (c.phase.tracks = false → ∀ extent, c.extent = some extent →
    let wide := min (2 * extent) s.acq.maxExtent
    let skipped := c.widened = true ∨ wide ≤ extent ∨ (c.clipLow ≠ .none ∧ c.clipHigh ≠ .none)
    (skipped → s.endsSearch c .noSignal t) ∧
    (¬ skipped → s.formsSweep { c with widened := true, extent := some wide } t))

/-! ## What SHA tells the context -/

/-- R142, R146: READY has been told. -/
def State.hearsReady (s t : State) : Prop :=
  ∀ c, s.acq.ctx = some c →
    let d := { c with linkIsReady := true, linkUsed := true, linkWait := none }
    let waits := c.step = some .toStart ∧ c.stepAxis = none ∧ c.rest = none
    (c.linkIsReady = true → t = s) ∧ (c.linkIsReady = false → waits → s.beginsSweep d t) ∧
    (c.linkIsReady = false → ¬ waits → t = s.withCtx d)

/-- R142, R146: WAIT has been told. (At a rest still awaited it takes the place of the judgement: log 36.) -/
def State.hearsWait (s t : State) : Prop :=
  ∀ c, s.acq.ctx = some c →
    let a := phaseAxis c.phase
    let d := { c with linkIsReady := false, linkWait := some 10000 }
    (c.step ≠ some .sweeping → t = s.withCtx d) ∧
    (c.step = some .sweeping → ((s.axis a).motion = .idle ∨ (s.axis a).motion = .moving) →
      t = (s.withStop a).withCtx
        { d with
          partialBegin := none, partialEnd := none, partialOpen := false, rest := some .reform, gapTimer := none
          stepAxis := none })

/-- R142: LINK has been told, or the link wait timer has run out with link used yes. -/
def State.losesLink (s : State) (c : Ctx) (t : State) : Prop :=
  (c.phase.tracks = false → s.endsSearch c .link t) ∧ (c.phase.tracks = true → s.loses c .link t)

/-- R142: LINK has been told. -/
def State.hearsLink (s t : State) : Prop :=
  ∀ c, s.acq.ctx = some c →
    (c.linkUsed = false → s.hearsWait t) ∧ (c.linkUsed = true → s.losesLink c t)

/-- Table 8-5, R147, R148, R155, R156: a report that SHA has taken into the Report Window is told. The report count past 255 is
a free value (log 10). -/
def State.usesReport (s t : State) : Prop :=
  ∀ c e record rest mean, s.acq.ctx = some c → s.sites[c.row]? = some e → s.sha.window = record :: rest →
    meanLevel s.sha.window e.set.avgLength = some mean →
    let a := phaseAxis c.phase
    let here := if a = .tilt then record.tilt else record.pan
    let run := if mean < e.set.lostLevel then c.lostRun + 1 else 0
    let counted : Nat → Ctx := fun n => { c with lostRun := run, reportCount := n }
    (c.phase ≠ .track → c.step ≠ some .sweeping ∨ c.rest ≠ none → t = s) ∧
    (c.phase = .track →
      (e.set.lostCount ≤ run → s.loses { c with lostRun := run } .lostLevel t) ∧
      (run < e.set.lostCount → c.reportCount < 255 →
        (c.retrimInUse = 0 ∨ c.reportCount + 1 < c.retrimInUse → t = s.withCtx (counted (c.reportCount + 1))) ∧
        (c.retrimInUse ≠ 0 → c.retrimInUse ≤ c.reportCount + 1 → s.startsSweep (counted (c.reportCount + 1)) .retrimAz t)) ∧
      (run < e.set.lostCount → 255 ≤ c.reportCount → c.retrimInUse = 0 →
        ∃ n, t = { s with acq := { s.acq with ctx := some (counted n), drawn := s.acq.drawn + 1 } })) ∧
    (c.phase ≠ .track → c.step = some .sweeping → c.rest = none →
      (here = none → t = s) ∧
      (∀ x, here = some x →
        (c.partialBegin = none → e.set.edgeLevel ≤ mean → t = s.withCtx { c with partialBegin := some x }) ∧
        (c.partialBegin = none → mean < e.set.edgeLevel → t = s) ∧
        (c.partialBegin ≠ none → e.set.edgeLevel ≤ mean → t = s) ∧
        (c.partialBegin ≠ none → mean < e.set.edgeLevel → ((s.axis a).motion = .idle ∨ (s.axis a).motion = .moving) →
          t = (s.withStop a).withCtx
            { c with
              partialEnd := some x, partialOpen := false, step := some .centring, rest := some .centre, gapTimer := none
              stepAxis := none })))

/-! ## Blocks left alone -/

/-- The parts of the state, for statements of what a command leaves unchanged. -/
inductive Block
  | axs | mgt | zones | dsq | wsm | sites | sha | acq | txc | ntu | lnu | drive | site | upstream
deriving DecidableEq, Repr

/-- A block holds the same in two states. -/
def Block.same (s t : State) : Block → Prop
  | .axs => t.axs = s.axs
  | .mgt => t.mgt = s.mgt
  | .zones => t.zones = s.zones
  | .dsq => t.dsq = s.dsq
  | .wsm => t.wsm = s.wsm
  | .sites => t.sites = s.sites
  | .sha => t.sha = s.sha
  | .acq => t.acq = s.acq
  | .txc => t.txc = s.txc
  | .ntu => t.ntu = s.ntu
  | .lnu => t.lnu = s.lnu
  | .drive => t.out.drive = s.out.drive
  | .site => t.out.site = s.out.site
  | .upstream => t.out.upstream = s.out.upstream

/-- Every block but the named ones, and the queue of waiting commands, are the same. -/
def sameBut (bs : List Block) (s t : State) : Prop :=
  t.pending = s.pending ∧ ∀ b : Block, b ∉ bs → b.same s t

/-! ## Walks -/

/-- R84: HELD has been entered with a cause: every axis taken for SEQUENCE, each travelling one stopped, the notice raised.
(The order of the STOP frames is the model's: log 39.) -/
def State.holds (s : State) (cause : HoldCause) (t : State) : Prop :=
  t.dsq = { s.dsq with deploy := .held, holdCause := cause, slot := none, slotTimer := none } ∧
  (∀ a : Axis, (t.axis a).owner = .sequence ∧ (t.axis a).travelling = false) ∧
  (t.ntu.get .deploy).latest = some (.deployHeld cause) ∧
  t.out.drive = s.out.drive ++ ([Axis.mast, .pan, .tilt, .pol].filter fun a => (s.axis a).travelling).map DriveFrame.stop

/-- Table 4-4: the axis and the target of a motion action. -/
def Dsq.motionOf (d : Dsq) : ActionKind → Option (Axis × Option Int)
  | .none | .channel => none
  | .mastUp => some (.mast, d.deployHeight)
  | .mastDown => some (.mast, some 0)
  | .tiltOut => some (.tilt, some d.unstowTilt)
  | .tiltIn => some (.tilt, some d.stowTilt)
  | .panHome => some (.pan, some d.stowPan)

/-- R13 (Table 1-6): the record of an axis at rest whose channel comes to another state. -/
def AxisRec.switched (r : AxisRec) (st : ChanState) : AxisRec :=
  { r with motion := if r.motion = .halted then .halted else if st = .off then .off else .idle }

/-- R71, R12: the CHANNEL action of slot `m` has set its channels, and the slot timer runs. With every axis at rest each named
channel is sent one CHANNEL frame, and the axis of a channel that changes is IDLE or OFF by its state (R13). -/
def State.setsChannels (s : State) (m : Nat) (act : Action) (t : State) : Prop :=
  t.dsq = { s.dsq with slot := some m, slotTimer := some s.dsq.slotTime } ∧
  (∀ c : Channel, t.chan c = if act.channel.names c then act.state else s.chan c) ∧
  ((∀ a, (s.axis a).travelling = false) →
    (∀ a, t.axis a =
      if act.channel.names (moveChannel a) ∧ s.chan (moveChannel a) ≠ act.state then (s.axis a).switched act.state
      else s.axis a) ∧
    t.out.drive =
      s.out.drive ++ ([Channel.lift, .lock, .pan, .tilt, .pol].filter act.channel.names).map (DriveFrame.channel · act.state) ∧
    sameBut [.axs, .mgt, .dsq, .drive] s t)

/-- R70, R72: the motion action of slot `m` sends its MOVE for SEQUENCE, or enters HELD with cause ACTION where AXS refuses. -/
def State.sendsAction (s : State) (m : Nat) (a : Axis) (x : Int) (t : State) : Prop :=
  let r := s.axis a
  let rate := capped r.rateLimit (rateCap s.wsm a)
  (s.accepts .sequence a x rate →
    t = { s with dsq := { s.dsq with slot := some m } }.withMove a (r.setTarget r.sel (some x)) x rate) ∧
  (¬ s.accepts .sequence a x rate → s.holds .action t)

/-- R70 to R72 (Tables 4-4 and 4-5): what the forward walk comes to over the slots from `n` on: the first slot whose deploy
action is not NONE, or the end of the walk. -/
def State.raisesOver (s : State) (n : Nat) (t : State) : Prop :=
  let d := s.dsq
  (∀ m sm, n ≤ m → d.slots[m]? = some sm →
    (∀ k sk, n ≤ k → k < m → d.slots[k]? = some sk → sk.deploy.kind = .none) →
    (sm.deploy.kind = .channel → s.setsChannels m sm.deploy t) ∧
    (∀ a, d.motionOf sm.deploy.kind = some (a, none) → s.holds .action t) ∧
    (∀ a x, d.motionOf sm.deploy.kind = some (a, some x) →
      let within := (s.axis a).softMin ≤ x ∧ x ≤ (s.axis a).softMax ∧ (a = .mast → x ≤ d.maxHeight)
      let calm := a = .mast → ∀ row, s.wsm.caps = some row → x ≤ row.heightCap
      let blocked := (moveCheck s a x).1
      (¬ within → s.holds .action t) ∧ (within → ¬ calm → s.holds .wind t) ∧
      (within → calm → blocked = true → s.holds .zone t) ∧ (within → calm → blocked = false → s.sendsAction m a x t))) ∧
  ((∀ k sk, n ≤ k → d.slots[k]? = some sk → sk.deploy.kind = .none) → s.wsm.gust ≠ .hold →
    t.dsq = { d with deploy := .deployed, slot := none } ∧ (∀ a : Axis, t.axis a = { s.axis a with owner := .none }) ∧
    (t.ntu.get .deploy).latest = some .deployUp ∧ t.txc.deploy = .deployed ∧ t.out = s.out)

/-- R70, R71, R74 (Tables 4-4 and 4-5): what the backward walk comes to over the slots below `n`, from the highest down. -/
def State.lowersOver (s : State) (n : Nat) (t : State) : Prop :=
  let d := s.dsq
  (∀ m sm, m < n → d.slots[m]? = some sm → (∀ k sk, m < k → k < n → d.slots[k]? = some sk → sk.stow.kind = .none) →
    (sm.stow.kind = .channel → s.setsChannels m sm.stow t) ∧
    (∀ a, d.motionOf sm.stow.kind = some (a, none) → s.holds .action t) ∧
    (∀ a x, d.motionOf sm.stow.kind = some (a, some x) →
      (sm.stow.kind = .mastUp → d.maxHeight < x → s.holds .action t) ∧
      (sm.stow.kind ≠ .mastUp ∨ x ≤ d.maxHeight → s.sendsAction m a x t))) ∧
  ((∀ k sk, k < n → d.slots[k]? = some sk → sk.stow.kind = .none) →
    (stowTest s = true →
      t.dsq = { d with deploy := .stowed, slot := none } ∧ (∀ a : Axis, (t.axis a).owner = .none) ∧
      (∀ c : Channel, t.chan c = .off) ∧ (t.ntu.get .deploy).latest = some .deployDown ∧ t.txc.deploy = .stowed) ∧
    (stowTest s = false → s.holds .unsure t))

/-- R71: a walk goes on from the slot in progress, whose action has completed. -/
def State.walksOn (s t : State) : Prop :=
  ∀ n, s.dsq.slot = some n →
    (s.dsq.deploy = .raising → s.raisesOver (n + 1) t) ∧ (s.dsq.deploy = .lowering → s.lowersOver n t)

/-! ## The STOW effects -/

/-- R13 (Table 1-6): the record of an axis whose channel, at `ch`, is set to FULL. -/
def AxisRec.opened (r : AxisRec) (ch : ChanState) : AxisRec :=
  if r.motion = .off ∧ ch ≠ .full then { r with motion := .idle } else r

/-- R69, R77, R79: the backward walk passes the slots below `n`: from RAISING those up to the slot in progress, otherwise those
up to the last slot whose deploy action is not NONE. -/
def State.walksBackFrom (s : State) (n : Nat) : Prop :=
  (s.dsq.deploy = .raising → s.dsq.slot = if n = 0 then none else some (n - 1)) ∧
  (s.dsq.deploy ≠ .raising →
    (∀ k sk, n ≤ k → s.dsq.slots[k]? = some sk → sk.deploy.kind = .none) ∧
    (n ≠ 0 → ∃ sl, s.dsq.slots[n - 1]? = some sl ∧ sl.deploy.kind ≠ .none))

/-- R5, R11, R74, R77, R78, R160: the backward walk over the slots below `n` is about to start, with a cause: the part is
LOWERING, the LOWERING notice raised; every axis is taken for SEQUENCE, each travelling one stopped, and where there are slots
to pass every channel that was not FULL is set to FULL. (The order of the STOP frames is the model's: log 39.) -/
def State.lowers (s : State) (cause : WalkCause) (n : Nat) (u : State) : Prop :=
  let stops := ([Axis.mast, .pan, .tilt, .pol].filter fun a => (s.axis a).travelling).map DriveFrame.stop
  let opens := if n = 0 then [] else [Channel.lift, .lock, .pan, .tilt, .pol].filter fun c => s.chan c ≠ .full
  let rest : AxisRec → AxisRec := fun q =>
    { q with
      owner := .sequence, motion := .idle, jogTarget := none, stopping := true, stopMoved := true, arrivalTimer := none }
  { u.dsq with slot := none } =
    { s.dsq with deploy := .lowering, slot := none, slotTimer := none, walkCause := cause, holdCause := .none } ∧
  (∀ a : Axis,
    let r := s.axis a
    (r.travelling = false →
      u.axis a = { (if n = 0 then r else r.opened (s.chan (moveChannel a))) with owner := .sequence }) ∧
    (r.motion = .moving → u.axis a = rest r) ∧
    (r.motion = .jogging → r.owner ≠ .sequence → u.axis a = rest (r.setTarget r.sel r.jogTarget)) ∧
    (r.travelling = true ∨ r.owner ≠ .sequence → u.jog a = none)) ∧
  (∀ c : Channel, u.chan c = if n = 0 then s.chan c else .full) ∧
  u.out.drive = s.out.drive ++ stops ++ opens.map (DriveFrame.channel · .full) ∧
  (u.ntu.get .deploy).latest = some (.deployLowering cause) ∧
  (∀ c, s.acq.ctx = some c → (u.ntu.get .search).latest = some (.searchStowed c.row)) ∧
  u.zones = s.zones ∧ u.wsm = s.wsm

/-- R78, R160, R170: the rows of the running context and of the Resume Stack are LOADED with last cause STOWED, and the others
stay. -/
def State.unloads (s t : State) : Prop :=
  ∀ row e, s.sites[row]? = some e →
    let held :=
      (∃ c, s.acq.ctx = some c ∧ c.row = row ∧ (e.state = .acquiring ∨ e.state = .tracked)) ∨
      (e.state = .suspended ∧ ∃ x ∈ s.acq.stack, x.row = row)
    (held → t.sites[row]? = some { e with state := .loaded, learned := { e.learned with cause := .stowed } }) ∧
    (¬ held → t.sites[row]? = some e)

/-- R77 to R79, R131, R160, R170, R177: the STOW effects have been raised with a cause: the context, the stack and the link have
ended, TXEN is off with its latch and mute, and the backward walk has started and come to its first action that is not NONE,
or to its end. -/
def State.stows (s : State) (cause : WalkCause) (t : State) : Prop :=
  t.dsq.walkCause = cause ∧ (t.dsq.deploy = .lowering ∨ t.dsq.deploy = .stowed ∨ t.dsq.deploy = .held) ∧
  t.acq.ctx = none ∧ t.acq.stack = [] ∧ s.unloads t ∧
  t.txc.txen = false ∧ t.txc.pending = false ∧ t.txc.latch = false ∧ t.txc.mute = false ∧
  t.sha.state = .silent ∧ (s.sha.state = .silent → t.out.site = s.out.site) ∧
  (s.sha.state ≠ .silent → t.sha.window = [] ∧ t.sha.agreed = none ∧ t.sha.quietTimer = some 2000 ∧
    t.out.site = s.out.site ++ [.leave]) ∧
  ∀ n, s.walksBackFrom n → ∃ u v, s.lowers cause n u ∧ u.lowersOver n v ∧ sameBut [.ntu, .lnu] v t

/-! ## First reports (R68) -/

/-- R68, R80, R81: a report of an axis, taken in UNKNOWN, is recorded where it is of MAST, PAN or TILT. Once all three have
reported the pose is judged: STOWED where the stow test passes and none of the three is HALTED, HELD with cause UNSURE
otherwise, followed at once by the STOW effects with cause BUTTON while STOW_IN is asserted, or else INTERLOCK while PARK_IN is
released. -/
def State.firstReport (s : State) (a : Axis) (t : State) : Prop :=
  let first : Dsq :=
    { s.dsq with
      mastReported := s.dsq.mastReported || a = .mast, panReported := s.dsq.panReported || a = .pan
      tiltReported := s.dsq.tiltReported || a = .tilt }
  let all := first.mastReported && first.panReported && first.tiltReported
  let u : State := { s with dsq := first }
  let halted := ∃ b ∈ [Axis.mast, .pan, .tilt], (s.axis b).motion = .halted
  (all = false → t = u) ∧
  (all = true → stowTest u = true → ¬ halted →
    t = { u with dsq := { first with deploy := .stowed }, txc := { s.txc with deploy := .stowed } }) ∧
  (all = true → stowTest u = false ∨ halted →
    (s.dsq.stowIn = true → u.stows .button t) ∧ (s.dsq.stowIn = false → s.dsq.parkIn = false → u.stows .interlock t) ∧
    (s.dsq.stowIn = false → s.dsq.parkIn = true → u.holds .unsure t))

/-! ## The wind -/

/-- R96 (Table 5-6): in the deploy state as it stands the wind calls for the stow. -/
def State.windCallsStow (s : State) : Prop :=
  let above : Option Int → Prop := fun h => ∃ x row, h = some x ∧ s.wsm.caps = some row ∧ row.heightCap < x
  let condition :=
    (∃ g, s.wsm.gustValue = some g ∧ s.wsm.stowWind ≤ g) ∨
    ∃ row, s.wsm.caps = some row ∧ row.heightCap < s.dsq.minHeight
  match s.dsq.deploy with
  | .unknown | .stowed | .lowering => False
  | .raising => condition ∨ above s.dsq.deployHeight
  | .deployed => condition ∨ ((s.axis .mast).owner = .sequence ∧ above s.dsq.deployHeight)
  | .parked => condition ∨ above (s.axis .mast).position
  | .held => condition

/-- R97 (Table 5-6): MAST is not owned by SEQUENCE, and the lowering test passes with a height cap. -/
def State.lowersTo (s : State) (cap : Int) : Prop :=
  (s.axis .mast).owner ≠ .sequence ∧
  ∃ row h, s.wsm.caps = some row ∧ row.heightCap = cap ∧ (s.axis .mast).position = some h ∧ cap < h

/-- R98: a wind lowering is under way to a target at or below a height cap. -/
def State.loweringTo (s : State) (cap : Int) : Prop :=
  (s.axis .mast).owner = .wind ∧ (s.axis .mast).motion = .moving ∧ ∃ x, (s.axis .mast).selected = some x ∧ x ≤ cap

/-- R98: MAST can be lowered: not HALTED or OFF, LIFT and LOCK FULL, the position present. -/
def State.mastFree (s : State) : Prop :=
  (s.axis .mast).motion ≠ .halted ∧ (s.axis .mast).motion ≠ .off ∧ s.chan .lift = .full ∧ s.chan .lock = .full ∧
  (s.axis .mast).position.isSome

/-- R96 to R98: what an entry to HOLD (`entry`), or a re-judgement in it, makes of a state. The stow where the wind calls for
it. In DEPLOYED otherwise the running context suspended with cause GUST, and at an entry the STOP of each travelling axis
owned by neither SEQUENCE nor WIND; then the lowering of MAST to the height cap where its test passes, unless at a
re-judgement one is under way already, or its notice BLOCKED. Nothing in the other states. (The order of the STOP frames, and
that a run whose axis is IDLE at its limit stays open, are the model's: logs 39 and 40.) -/
def State.windHolds (s : State) (entry : Bool) (t : State) : Prop :=
  let stops : Axis → Bool := fun a =>
    entry && (s.axis a).travelling && (s.axis a).owner ≠ .sequence && (s.axis a).owner ≠ .wind
  let frames := ([Axis.mast, .pan, .tilt, .pol].filter stops).map DriveFrame.stop
  let lowers : Int → Prop := fun cap => s.lowersTo cap ∧ (entry = true ∨ ¬ s.loweringTo cap)
  let stays : Axis → Prop := fun a => a ≠ .mast ∨ ¬ s.mastFree ∨ ∀ cap, ¬ lowers cap
  (s.windCallsStow →
    s.stows .wind t ∧ ∀ g : Nat, s.wsm.gustValue = some g → (t.ntu.get .wind).latest = some (.windStow g)) ∧
  (¬ s.windCallsStow → s.dsq.deploy ≠ .deployed → t = s) ∧
  (¬ s.windCallsStow → s.dsq.deploy = .deployed →
    t.dsq = s.dsq ∧ (∀ c, s.acq.ctx = some c → t.suspended c .gust) ∧ (s.acq.ctx = none → t.acq = s.acq) ∧
    (∀ a, stops a = true → stays a → (t.axis a).motion = .idle ∧ (t.axis a).stopping = true ∧ t.jog a = none) ∧
    (s.acq.ctx = none → ∀ a, stops a = false → stays a → t.axis a = s.axis a ∧ t.jog a = s.jog a) ∧
    (∀ cap, lowers cap → s.mastFree → inFull .mast cap = true →
      (t.axis .mast).owner = .wind ∧ (t.axis .mast).motion = .moving ∧ (t.axis .mast).selected = some cap ∧
      ((s.axis .mast).owner ≠ .wind → t.jog .mast = none) ∧ (t.ntu.get .wind).latest = some (.windLowering cap) ∧
      (s.acq.ctx = none → t.out.drive = s.out.drive ++ frames ++ [.move .mast cap (s.axis .mast).rateLimit])) ∧
    (∀ cap, lowers cap → ¬ s.mastFree →
      (t.ntu.get .wind).latest = some .windBlocked ∧ (s.acq.ctx = none → t.out.drive = s.out.drive ++ frames)) ∧
    ((∀ cap, ¬ lowers cap) → s.acq.ctx = none → t.out.drive = s.out.drive ++ frames ∧ (frames = [] → t = s)))

/-! ## PARK (R82) -/

/-- R13, R63, R82, R163, R164: a PARK has been taken, up to the re-judgement of R98. A running context is suspended with cause
PARK, its row SUSPENDED, PAN, TILT and POL stopped where MOVING and released. Each channel is LOW where the keep-on mask holds
it and OFF otherwise; a travelling axis (its channels FULL, as in every state of the invariant) is stopped before the CHANNEL frame, each axis whose channel changes
is IDLE or OFF by the new state, and its jog run is closed. -/
def State.parks (s u : State) : Prop :=
  let state : Channel → ChanState := fun c => if keptOn s.dsq.keepOn c then .low else .off
  let early : Axis → Bool := fun a => s.acq.ctx.isSome && a ≠ .mast && (s.axis a).motion = .moving
  let channel : Channel → List DriveFrame := fun c =>
    (if c ≠ .lock ∧ (s.axis c.axis).travelling = true ∧ early c.axis = false then [.stop c.axis] else []) ++ [.channel c (state c)]
  u.dsq = { s.dsq with deploy := .parked } ∧ u.acq.ctx = none ∧ (s.acq.ctx = none → u.acq = s.acq ∧ u.sites = s.sites) ∧
  (∀ c, s.acq.ctx = some c →
    (∃ e rest, u.acq.stack = e :: rest ∧ e.row = c.row ∧ e.cause = .park ∧ (s.acq.stack.length < 3 → rest = s.acq.stack)) ∧
    ∀ e, s.sites[c.row]? = some e → (e.state = .acquiring ∨ e.state = .tracked) →
      u.sites[c.row]? = some { e with state := .suspended, learned := { e.learned with cause := .none } }) ∧
  (∀ c : Channel, u.chan c = state c) ∧ u.txc.deploy = .parked ∧ u.txc.latch = false ∧ u.txc.mute = false ∧
  u.wsm = s.wsm ∧ (∀ a : Axis, (u.axis a).position = (s.axis a).position) ∧
  ((∀ a : Axis, (s.axis a).travelling = true → channelsFull s a = true) →
    (∀ a : Axis,
      let r := s.axis a
      let changes := s.chan (moveChannel a) ≠ state (moveChannel a)
      (changes → (u.axis a).motion =
        if r.motion = .halted then .halted else if state (moveChannel a) = .off then .off else .idle) ∧
      (¬ changes → (u.axis a).motion = r.motion) ∧ (r.travelling = true → (u.axis a).stopping = true) ∧
      (changes → u.jog a = none)) ∧
    u.out.drive =
      s.out.drive ++ ([Axis.pan, .tilt, .pol].filter early).map DriveFrame.stop ++
        [Channel.lift, .lock, .pan, .tilt, .pol].flatMap channel)

/-! ## The wake (R83, R168) -/

/-- R12, R13, R66, R83, R173: the five channels have been set to FULL, each OFF axis is IDLE, and the state is DEPLOYED, which
sets enable pending where it makes the enable condition true. -/
def State.awake (s : State) : State :=
  let x := s.axs
  let t : Txc := { s.txc with deploy := .deployed }
  let pends : Prop := t.gust ≠ .hold ∧ t.axisHalted = false ∧ (t.latch = true ∨ (t.tracked = true ∧ t.mute = false))
  { s with
    axs :=
      { mast := x.mast.opened x.channels.lift, pan := x.pan.opened x.channels.pan, tilt := x.tilt.opened x.channels.tilt
        pol := x.pol.opened x.channels.pol, channels := ⟨.full, .full, .full, .full, .full⟩ }
    dsq := { s.dsq with deploy := .deployed }
    txc := if pends then { t with pending := true, panSeen := false, tiltSeen := false } else t
    out := { s.out with drive := s.out.drive ++
      [.channel .lift .full, .channel .lock .full, .channel .pan .full, .channel .tilt .full, .channel .pol .full] } }

/-- R168: the slew pose and the phase after settle by which a PARK entry of a row resumes at a wake. -/
def State.wakeSlew (s : State) (e : StackEntry) (x : Entry) : (Int × Int) × Phase :=
  match s.dsq.wakePose, x.learned.pan, x.learned.tilt with
  | .preset, _, _ => ((x.set.presetPan, x.set.presetTilt), .azSweep)
  | .return, some pan, some tilt => ((pan, tilt), .track)
  | .return, _, _ => (resumePose s e e.phase, e.phase.after)

/-- R166, R168: the PARK entry `e` of the row `x` has been popped at a wake that made the state `s`, and its slew has begun. -/
def State.resumesAtWake (s : State) (e : StackEntry) (x : Entry) (t : State) : Prop :=
  let w := s.wakeSlew e x
  s.slewing e.row w.1.1 w.1.2 x.set.presetPol w.2 e.reacquire t ∧ t.acq.stack = s.acq.stack.tail ∧
  t.sites = s.sites.set e.row { x with state := .acquiring } ∧
  (t.ntu.get .resume).latest = some (.resumeResumed e.row .park) ∧
  t.dsq = s.dsq ∧ t.txc = s.txc ∧ t.axs.channels = s.axs.channels

/-- R98, R168: the state `s` that a wake has made is in HOLD; it has been re-judged, and the PARK entry `e` that then stands on
top is kept, with its notice. -/
def State.keepsAtWake (s : State) (e : StackEntry) (t : State) : Prop :=
  (∃ u, s.windHolds false u ∧ sameBut [.ntu, .lnu] u t) ∧ t.acq = s.acq ∧ t.sites = s.sites ∧
  (t.ntu.get .resume).latest = some (.resumeKept e.row)

/-- R98, R168: no PARK entry stands on top once the state `s` that a wake has made in HOLD is re-judged. -/
def State.keepsNone (s : State) : Prop :=
  s.acq.ctx ≠ none ∨ s.windCallsStow ∨ ∀ e rest, s.acq.stack = e :: rest → e.cause ≠ .park

/-! ## A halt told to the owner (R17, Table 1-5) -/

/-- R84, R99, R153: the owner of an axis has been told that it is HALTED: for SEARCH the acquisition fails with ABORTED, for
SEQUENCE HELD is entered with cause AXIS, and for WIND the lowering ends, MAST released. -/
def State.haltTold (s : State) (a : Axis) (cause : FaultCause) (t : State) : Prop :=
  let owner := (s.axis a).owner
  (owner = .search → ∀ c, s.acq.ctx = some c → s.endsSearch c .aborted t) ∧
  (owner = .sequence → s.dsq.deploy = .raising ∨ s.dsq.deploy = .lowering ∨ s.dsq.deploy = .deployed → s.holds .axis t) ∧
  (owner = .wind →
    t.axs = s.axs.set .mast { s.axis .mast with owner := .none } ∧
    (t.ntu.get .wind).latest = some (.windHalted cause) ∧ sameBut [.axs, .ntu, .lnu] s t)

/-! ## The re-check of a zone write (R35, R36) -/

/-- R36 (Tables 2-6 and 8-6): an axis has been stopped by a zone row. The zone gains a hit, the notice is raised, and the
owner is told: nothing for CONSOLE; for SEARCH the sweep in SWEEPING awaits its rest, and any other move fails with ZONE; for
SEQUENCE HELD is entered with cause ZONE. -/
def State.zoneStopped (s : State) (row : Nat) (a : Axis) (t : State) : Prop :=
  let r := s.axis a
  let stopped : State := { s.withStop a with zones := s.zones.modify row Zone.hit }
  ∃ u : State, (u.ntu.get .zone).latest = some (.zoneStopped a row) ∧ sameBut [.ntu, .lnu] stopped u ∧
    (s.roomy → u = stopped.noticed (.zoneStopped a row)) ∧
    (r.owner = .none ∨ r.owner = .console → t = u) ∧
    (r.owner = .sequence → s.dsq.deploy = .raising ∨ s.dsq.deploy = .deployed → u.holds .zone t) ∧
    (r.owner = .search → ∀ c, s.acq.ctx = some c →
      let sweeping := c.stepAxis = some a ∧ c.step = some .sweeping
      let d := { c with gapTimer := none, stepAxis := none }
      (sweeping → c.partialBegin ≠ none → t = u.withCtx { d with step := some .centring, rest := some .edgeHere }) ∧
      (sweeping → c.partialBegin = none → t = u.withCtx { d with rest := some .noEdge }) ∧
      (¬ sweeping → u.endsSearch c .zone t))

/-- R35: the re-check of one axis against the written zone alone. An axis that does not travel, one owned by WIND, and one
owned by SEQUENCE in LOWERING are skipped. The remaining move is stopped where its box meets the zone or, from a pose inside
the zone, where its end pose lies inside too. -/
def State.rechecks (s : State) (z : Zone) (row : Nat) (a : Axis) (t : State) : Prop :=
  let r := s.axis a
  let blocked : Prop := ∃ x, r.presentTarget = some x ∧
    (presentPose s = none → zoneMeets z (sweptBox s a x) = true) ∧
    ∀ p, presentPose s = some p →
      if zoneHolds z p = true then zoneHolds z (endPose s a x p) = true else zoneMeets z (sweptBox s a x) = true
  let stops : Prop :=
    r.travelling = true ∧ r.owner ≠ .wind ∧ ¬ (r.owner = .sequence ∧ s.dsq.deploy = .lowering) ∧ blocked
  (¬ stops → t = s) ∧ (stops → s.zoneStopped row a t)

/-! ## The invariant -/

/-- An axis record is of one piece (R5, R8 to R11, R17, R20): its arrival timer runs while it travels and only then, it has
a jog target while JOGGING and only then, a selected target while MOVING, a position while it travels, a fault cause while
HALTED and only then, release ready only while HALTED, and is stopping only at rest. -/
def AxisRec.wf (r : AxisRec) : Prop :=
  (r.arrivalTimer.isSome = r.travelling) ∧
  (r.jogTarget.isSome = decide (r.motion = .jogging)) ∧
  (r.motion = .moving → r.selected.isSome) ∧
  (r.travelling → r.position.isSome) ∧
  (decide (r.faultCause = .none) = !decide (r.motion = .halted)) ∧
  (r.releaseReady → r.motion = .halted) ∧
  (r.stopping → r.motion = .idle ∨ r.motion = .off)

/-- R7, R13: the channels of an axis that travels are FULL. -/
def State.powered (s : State) : Prop := ∀ a : Axis, (s.axis a).travelling = true → channelsFull s a = true

/-- The capacities of the tables and buffers (R22, R69, R90, R92, R104, R132, R162, R179). -/
def State.fits (s : State) : Prop :=
  s.lnu.queue.length ≤ Config.queuePlaces ∧ s.sha.window.length ≤ Config.windowPlaces ∧
  s.acq.stack.length ≤ Config.stackPlaces ∧ s.wsm.memory.length ≤ 3 ∧ s.zones.length = 24 ∧
  s.sites.length = 8 ∧ s.dsq.slots.length = 8 ∧ s.wsm.derate.length = 8

/-- The fields handed to TXC agree with the blocks that handed them (R173). -/
def State.agrees (s : State) : Prop :=
  s.txc.deploy = s.dsq.deploy ∧ s.txc.gust = s.wsm.gust ∧ s.txc.axisHalted = anyHalted s

/-- R173, R175: while the enable condition is true TXEN is asserted or the enable is pending, not both; while it is false,
neither. -/
def Txc.ordered (t : Txc) : Prop := (t.txen != t.pending) = t.condition ∧ (t.txen && t.pending) = false

/-- Everything of the invariant but the pose. -/
def State.sound (s : State) : Prop := (∀ a, (s.axis a).wf) ∧ s.fits ∧ s.agrees ∧ s.txc.ordered

/-- R175, R176: TXEN is asserted only at a last reported pose that is present and inside no valid zone. -/
def State.posed (s : State) : Prop := s.txc.txen → poseClear s

/-- The state of a row of the Site Table; none for a row that does not exist. -/
def State.rowState (s : State) (row : Nat) : Option EntryState := s.sites[row]?.map (·.state)

/-- R110, R162: the rows SUSPENDED are exactly those of the Resume Stack, which holds no row twice; a row is ACQUIRING or
TRACKED exactly when the running context is its own, TRACKED in the track and the re-trims and ACQUIRING before. R167: the
phase after settle of the context is AZ_SWEEP, EL_SWEEP or TRACK. -/
def State.rowsAgree (s : State) : Prop :=
  (∀ row, s.rowState row = some .suspended ↔ ∃ e ∈ s.acq.stack, e.row = row) ∧
  (∀ row, s.rowState row = some .acquiring ↔ ∃ c, s.acq.ctx = some c ∧ c.row = row ∧ c.phase.tracks = false) ∧
  (∀ row, s.rowState row = some .tracked ↔ ∃ c, s.acq.ctx = some c ∧ c.row = row ∧ c.phase.tracks = true) ∧
  (s.acq.stack.map (·.row)).Nodup ∧
  (∀ c, s.acq.ctx = some c → c.afterSettle = .azSweep ∨ c.afterSettle = .elSweep ∨ c.afterSettle = .track)

/-- R132, R133: every record of the Report Window lies 1 to 127 ahead of the one before it, modulo 256, and no two records bear
the same sequence. -/
def State.inSequence (s : State) : Prop :=
  (∀ n new old, s.sha.window[n]? = some new → s.sha.window[n + 1]? = some old →
    1 ≤ (new.seq + 256 - old.seq) % 256 ∧ (new.seq + 256 - old.seq) % 256 ≤ 127) ∧
  (s.sha.window.map (·.seq)).Nodup

/-- R92: the wind floors of the valid rows of a derate table rise strictly with the row number. -/
def risingFloors (rows : List DerateRow) : Prop := ((rows.filter (·.valid)).map (·.floor)).Pairwise (· < ·)

/-- The invariant. -/
def State.inv (s : State) : Prop :=
  s.sound ∧ s.posed ∧ s.rowsAgree ∧ s.inSequence ∧ risingFloors s.wsm.derate ∧ s.powered

end Sys2Proof.Machine
end

