-- ==== Sys2Proof/WellFormed.lean ====
section
/-! DEFINITION. Which commands can stand on the lines: each field fits the width that Table 11-8 gives it, and each row
of the table stands for its own addresses and kinds only. -/

namespace Sys2Proof

/-- Fits one byte. -/
abbrev fitsU8 (n : Nat) : Bool := n < 256
/-- Fits two bytes, unsigned. -/
abbrev fitsU16 (n : Nat) : Bool := n < 65536
/-- Fits two bytes, two's complement. -/
abbrev fitsS16 (v : Int) : Bool := -32768 ≤ v ∧ v ≤ 32767
/-- Fits four bytes, two's complement. -/
abbrev fitsS32 (v : Int) : Bool := -2147483648 ≤ v ∧ v ≤ 2147483647

/-- Kinds of console frames to the drives that have a row of their own (Table 11-8: 01 to 05). -/
abbrev isMotionKind (kind : Nat) : Bool := 1 ≤ kind ∧ kind ≤ 5

/-- Addresses whose READ has a row of its own: SITE_UP (table 10, field 1) and the latest notices (table 9, field 0). -/
abbrev isSpecialRead (table row field : Nat) : Bool :=
  (table = 10 ∧ row = 0 ∧ field = 1) ∨ (table = 9 ∧ row < 8 ∧ field = 0)

/-- Addresses whose WRITE has a row of its own. -/
abbrev isSpecialWrite (table row field : Nat) : Bool :=
  (table = 2 ∧ row < 24 ∧ field < 8) ∨ (table = 5 ∧ row < 8 ∧ field < 5) ∨
  (table = 6 ∧ row = 0 ∧ (field = 36 ∨ (28 ≤ field ∧ field ≤ 30))) ∨
  (table = 3 ∧ row < 8 ∧ field ≤ 16)

/-- A drive frame that is a report of nodes 1 to 6 with a row of its own: POSITION of nodes 1 to 4 with its codes,
WIND of node 5, SLOPE of node 6 (R178, Table 11-8). -/
def isDriveReport (node kind : Nat) (payload : List Byte) : Bool :=
  match payload with
  | [_, _, moving, fault, _] => kind = 0x10 && 1 ≤ node && node ≤ 4 && moving.toNat ≤ 1 && fault.toNat ≤ 1
  | [_, _] => kind = 0x11 && node = 5
  | [_, _, _, _] => kind = 0x12 && node = 6
  | _ => false

/-- The check of a command. -/
def Instr.wf : Instr → Bool
  | .consoleMove _ (some f) => fitsS16 f.target && (f.rate.all fitsU16)
  | .consoleJog _ (some f) => fitsU16 f.rate
  | .consoleOtherKind _ kind => fitsU8 kind && !isMotionKind kind
  | .accessoryFrame node kind payload => 5 ≤ node && node ≤ 31 && fitsU8 kind && payload.length ≤ 24
  | .position _ pos _ _ code => fitsS16 pos && fitsU8 code
  | .wind speed => fitsS16 speed
  | .slope roll pitch => fitsS16 roll && fitsS16 pitch
  | .driveFrameForward node kind payload =>
      1 ≤ node && node ≤ 31 && fitsU8 kind && payload.length ≤ 24 && !isDriveReport node kind payload
  | .ident code => 1 ≤ code && fitsU16 code
  | .report seq level valid => fitsU8 seq && fitsS16 level && (!valid || (-1300 ≤ level && level ≤ -100))
  | .read t r f => fitsU8 t && fitsU8 r && fitsU8 f && !isSpecialRead t r f
  | .readNotice cls => cls < 8
  | .write t r f v => fitsU8 t && fitsU8 r && fitsU8 f && fitsS32 v && !isSpecialWrite t r f
  | .writeZone r f v => r < 24 && f < 8 && fitsS32 v
  | .writeDerateRow r f v => r < 8 && f < 5 && fitsS32 v
  | .writeVanAbilityWord v => fitsS32 v
  | .writeEntrySetting r f v => r < 8 && 1 ≤ f && f ≤ 16 && fitsS32 v
  | .writeEntryState r v => r < 8 && fitsS32 v
  | .writeWindSetting _ v => fitsS32 v
  | .unknownRequest kind => fitsU8 kind
  | .deploy (some h) => 0 ≤ h && h ≤ 65535
  | .acquire row => fitsU8 row
  | .powerOnReset _ | .parkInRelease | .parkInAssert | .stowInAssert | .stowInRelease | .frameDiscarded _
  | .consoleMove _ none | .consoleJog _ none | .consoleStop _ _ | .consoleSelect _ _ | .consoleChannel _
  | .ability _ _ _ _ | .choiceEcho _ _ | .inboundNoEffectPage _ | .malformedPage | .readSiteUp
  | .deploy none | .stow | .park | .wake | .clearHold | .release | .resume | .dropResume | .renegotiate
  | .txOn | .txOff | .lineRestart | .reset | .rateChange | .upstreamFrameSent | .arrivalTimeout _
  | .silenceWatchExpiry _ | .deadmanExpiry _ | .slotTimerExpiry | .windSilenceExpiry | .slopeSilenceExpiry
  | .offerTimerExpiry | .echoTimerExpiry | .reportSilenceExpiry | .quietTimeExpiry | .settleTimerExpiry
  | .linkWaitExpiry | .gapTimerExpiry | .rstRelease => true

end Sys2Proof
end

