-- ==== Sys2Proof/Certificates/Slice0/Obligations.lean ====
section
/-! DEFINITION. What is stated of the part, for the provers. -/

open Sys2Proof Sys2Proof.Machine

/-! ## The step and the queue of waiting commands -/

/-- Whatever command stands at the front of the queue, a step is that command on the state with the queue's rest; on an
empty queue the part idles. The queue is the model's (log 1). -/
def Obligations.StepTakesTheFrontCommand : Prop :=
  (∀ (c : Instr) (rest : List Instr) (s : State), s.pending = c :: rest → step s = exec c { s with pending := rest }) ∧
  (∀ s : State, s.pending = [] → step s = .next s)

/-- Every command answers a next state, whatever its operands and the state, and leaves the queue of waiting commands alone:
the spec names no behaviour that stops the part. -/
def Obligations.EveryCommandIsTakenWhole : Prop :=
  ∀ (c : Instr) (s : State), completes c s fun t => t.pending = s.pending

/-! ## Resets -/

/-- R186: when power has come up, and when RST is released, every table, setting and state takes its power-on value, and the
STOP and CHANNEL OFF frames of AXS are sent. The levels of the two input pins come from outside the part; what has left on
the lines, what waits and how many free values were drawn is the model's (logs 1, 3, 4, 10). -/
def Obligations.PowerUpTakesPowerOnValues : Prop :=
  ∀ s : State,
    let t : State :=
      { State.reset with
        dsq := { State.reset.dsq with parkIn := s.dsq.parkIn, stowIn := s.dsq.stowIn }
        acq := { State.reset.acq with drawn := s.acq.drawn }
        out := { s.out with drive := s.out.drive ++
          [.stop .mast, .stop .pan, .stop .tilt, .stop .pol, .channel .lift .off, .channel .lock .off, .channel .pan .off,
            .channel .tilt .off, .channel .pol .off] }
        pending := s.pending }
    exec (.powerOnReset .powerUp) s = .next t ∧ exec .rstRelease s = .next t

/-- R186: when RST is asserted, TXEN goes off, no frame is sent on any port, the RST input reads asserted, and every
operation in flight has ended: no context, no jog run, every axis OFF, every timer stopped, nothing held or queued. -/
def Obligations.AssertedRstEndsEverything : Prop :=
  ∀ s : State, completes (.powerOnReset .rstAsserted) s fun t =>
    t.lnu.rst = true ∧ t.txc.txen = false ∧ t.out = s.out ∧ t.lnu.queue = [] ∧ t.ntu.held = [] ∧
    t.acq.ctx = none ∧ t.acq.stack = [] ∧
    (∀ a : Axis, (t.axis a).motion = .off ∧ (t.axis a).arrivalTimer = none ∧ (t.axis a).silenceWatch = none ∧ t.jog a = none) ∧
    t.dsq.slotTimer = none ∧ t.wsm.windWatch = none ∧ t.wsm.slopeWatch = none ∧ t.sha.offerTimer = none ∧
    t.sha.echoTimer = none ∧ t.sha.reportWatch = none ∧ t.sha.quietTimer = none ∧
    t.dsq.parkIn = s.dsq.parkIn ∧ t.dsq.stowIn = s.dsq.stowIn

/-- R186: while RST is asserted every frame received is discarded and nothing runs out: no command but those of the pins and
of the power-on reset changes anything. -/
def Obligations.AssertedRstDiscardsEverything : Prop :=
  ∀ (c : Instr) (s : State), s.lnu.rst = true → c.isPin = false → exec c s = .next s

/-- R179: a console frame of any address received while the queue holds 64 frames is discarded. -/
def Obligations.FullQueueDiscardsConsoleFrames : Prop :=
  ∀ (c : Instr) (s : State), c.fromConsole = true → 64 ≤ s.lnu.queue.length → exec c s = .next s

/-- Power-on values of the axis records, the channels, the jog runs, the zones, the Sequence Table and the deploy status and
settings (R2, R3, R22, R57, R66, R67, R69). -/
def Obligations.PowerOnValuesOfMotion : Prop :=
  (∀ a : Axis,
    let r := State.reset.axis a
    r.motion = .off ∧ r.owner = .none ∧ r.position = none ∧ r.working = none ∧ r.alternate = none ∧ r.sel = .work ∧
    r.jogTarget = none ∧ r.stopping = false ∧ r.faultCause = .none ∧ r.driveCode = none ∧ r.releaseReady = false ∧
    r.arrivalTimer = none ∧ r.silenceWatch = none ∧
    (r.rateLimit, r.tolerance, r.arrivalLimit, r.softMin, r.softMax) =
      (match a with
        | .mast => (10, 2, 90, 0, 1500)
        | .pan => (100, 1, 60, 0, 3599)
        | .tilt => (50, 1, 30, -100, 900)
        | .pol => (150, 5, 20, -900, 900)) ∧
    State.reset.jog a = none) ∧
  (∀ c : Channel, State.reset.chan c = .off) ∧ State.reset.mgt.deadmanTime = 150 ∧
  State.reset.zones = List.replicate 24
    { valid := false, arcFrom := 0, arcTo := 3599, tiltLow := -100, tiltHigh := 900, heightLow := 0, heightHigh := 1500,
      hits := 0 } ∧
  State.reset.dsq.slots.map (fun sl => (sl.deploy.kind, sl.stow.kind)) = List.replicate 8 (.none, .none) ∧
  (let d := State.reset.dsq
   d.deploy = .unknown ∧ d.slot = none ∧ d.holdCause = .none ∧ d.walkCause = .none ∧ d.deployHeight = none ∧
    d.slotTimer = none ∧ (d.mastReported, d.panReported, d.tiltReported) = (false, false, false) ∧
    (d.stowHeight, d.stowPan, d.stowTilt, d.unstowTilt) = (20, 0, -100, 0) ∧
    (d.minHeight, d.maxHeight, d.defaultHeight) = (300, 1500, 800) ∧ d.slotTime = 1000 ∧ d.keepOn = 0 ∧
    d.wakePose = .return)

/-- Power-on values of the wind and slope monitor, the Site Table with its settings, adjustments and learned fields, the
handshake, the acquisition, the transmitter enable, the notice classes and the lines (R65, R90 to R94, R101, R105, R109,
R112, R115, R117, R118, R136, R137, R162, R173, R179, R180, R183). That the sent choice is absent is the model's choice (log
23): R117 gives it no reset value. -/
def Obligations.PowerOnValuesOfTheOtherBlocks : Prop :=
  (let w := State.reset.wsm
   w.gust = .calm ∧ w.memory = [] ∧ (w.warnRun, w.holdRun, w.calmRun) = (0, 0, 0) ∧
    w.derate = List.replicate 8 { valid := false, floor := 0, heightCap := 1500, panCap := 300, tiltCap := 300 } ∧
    (w.warnThreshold, w.holdThreshold, w.stowWind, w.slopeLimit, w.slopeMargin) = (110, 200, 250, 50, 20) ∧
    w.lastSlope = none ∧ w.slopeState = .none ∧ w.windWatch = none ∧ w.slopeWatch = none) ∧
  State.reset.sites = List.replicate 8
    { state := .empty
      set :=
        { siteCode := 0, presetPan := 0, presetTilt := 0, presetPol := 0, bandMask := 15, polMask := 3, edgeLevel := -700
          lostLevel := -900, lostCount := 5, avgLength := 4, searchAz := 60, searchEl := 60, trimAz := 10, trimEl := 10
          searchRate := 10, autoReacquire := false }
      adjust := { offsetAz := 0, offsetEl := 0, retrim := 0 }
      learned := { az := none, el := none, pan := none, tilt := none, cause := .none } } ∧
  (let h := State.reset.sha
   h.state = .silent ∧ h.agreed = none ∧ h.sent = none ∧ h.toggle = false ∧ h.resends = 0 ∧ h.heard = false ∧ h.siteAbility = none ∧
    h.identity = none ∧ h.linkReady = false ∧ h.downSeen = false ∧ h.window = [] ∧ h.vanBands = 15 ∧ h.vanPols = 3 ∧
    (h.offerTimer, h.echoTimer, h.reportWatch, h.quietTimer) = (none, none, none, none)) ∧
  (let x := State.reset.acq
   x.ctx = none ∧ x.stack = [] ∧ x.settleTime = 2000 ∧ x.maxExtent = 200) ∧
  State.reset.txc =
    { txen := false, latch := false, mute := false, tracked := false, deploy := .unknown, gust := .calm,
      axisHalted := false, pending := false, panSeen := false, tiltSeen := false } ∧
  (∀ c : NoticeClass, State.reset.ntu.get c = { latest := none, pending := false, newer := false }) ∧
  State.reset.ntu.held = [] ∧ State.reset.lnu.queue = [] ∧ State.reset.lnu.rateSet = 38400 ∧ State.reset.lnu.rateInForce = 38400 ∧
  State.reset.lnu.window = .pass

/-- R185, with R3, R57, R66, R90, R94, R101, R115, R117, R131, R135, R136, R162, R173 and R183: what a RESET request leaves.
Where the state left is not SILENT the quiet time runs (R131, R135). That the sent choice is absent after it, that the quiet
time starts after the timers of R117 are stopped and that no WAIT is told before are the model's readings (logs 23, 37 and
41). -/
def Obligations.ResetRequestKeepsTablesAndSettings : Prop :=
  ∀ s : State, s.listens → completes .reset s fun t =>
    (∀ a : Axis, t.axis a =
      { s.axis a with
        motion := .off, owner := .none, sel := .work, working := (s.axis a).position, alternate := (s.axis a).position
        jogTarget := none, stopping := false, stopMoved := false, faultCause := .none, driveCode := none
        releaseReady := false, arrivalTimer := none, silenceWatch := none }) ∧
    (∀ c : Channel, t.chan c = .off) ∧
    t.mgt = { s.mgt with mast := none, pan := none, tilt := none, pol := none } ∧ t.zones = s.zones ∧
    t.dsq =
      { s.dsq with
        deploy := .unknown, slot := none, holdCause := .none, walkCause := .none, deployHeight := none, slotTimer := none
        mastReported := false, panReported := false, tiltReported := false } ∧
    t.wsm =
      { s.wsm with
        gust := .calm, memory := [], warnRun := 0, holdRun := 0, calmRun := 0, lastSlope := none, slopeState := .none
        windWatch := none, slopeWatch := none } ∧
    t.sites = s.sites.map (fun e => if e.state = .empty then e else { e with state := .loaded }) ∧
    t.sha =
      { State.reset.sha with
        vanBands := s.sha.vanBands, vanPols := s.sha.vanPols
        quietTimer := if s.sha.state = .silent then none else some 2000 } ∧
    t.acq = { s.acq with ctx := none, stack := [] } ∧ t.txc = State.reset.txc ∧ t.ntu = State.reset.ntu ∧
    t.lnu = { s.lnu with queue := s.lnu.queue ++ [replyDone 0x3F] } ∧
    t.out.drive = s.out.drive ++
      [.stop .mast, .stop .pan, .stop .tilt, .stop .pol, .channel .lift .off, .channel .lock .off, .channel .pan .off,
        .channel .tilt .off, .channel .pol .off] ∧
    t.out.site = (if s.sha.state = .silent then s.out.site else s.out.site ++ [.leave]) ∧
    t.out.upstream = s.out.upstream

/-! ## Replies -/

/-- R181 (with R179): every node-0 request taken is answered by exactly one REPLY with its kind and node 0, whatever else it
does. -/
def Obligations.EveryRequestGetsExactlyOneReply : Prop :=
  ∀ (c : Instr) (kind : Nat) (s : State), c.requestKind = some kind → s.listens →
    completes c s fun t => ∃ why data,
      t.lnu.queue.filter UpFrame.isReply = s.lnu.queue.filter UpFrame.isReply ++ [.reply kind 0 why data]

/-- R42: a console frame for a drive is answered by no REPLY when it is taken, and by exactly one REPLY REFUSED with the
frame's kind and its node when it is refused. -/
def Obligations.DriveFramesAreAnsweredOnlyByRefusals : Prop :=
  ∀ (c : Instr) (kind : Nat) (a : Axis) (s : State), c.driveKind = some (kind, a) → s.listens →
    completes c s fun t =>
      t.lnu.queue.filter UpFrame.isReply = s.lnu.queue.filter UpFrame.isReply ∨
      ∃ why, t.lnu.queue.filter UpFrame.isReply =
        s.lnu.queue.filter UpFrame.isReply ++ [.reply kind (axisNode a) (some why) .none]

/-! ## Input lines and the STOW effects -/

/-- R80, R81: the levels are followed. An assertion of PARK_IN and a release of STOW_IN change nothing else; a level that
does not change has no effect; and in UNKNOWN, STOWED and LOWERING a release of PARK_IN and an assertion of STOW_IN change
nothing else. -/
def Obligations.InputLevelsThatOnlyFollow : Prop :=
  ∀ s : State,
    exec .parkInAssert s = .next { s with dsq := { s.dsq with parkIn := true } } ∧
    exec .stowInRelease s = .next { s with dsq := { s.dsq with stowIn := false } } ∧
    (s.dsq.parkIn = false → exec .parkInRelease s = .next s) ∧
    (s.dsq.stowIn = true → exec .stowInAssert s = .next s) ∧
    ((s.dsq.deploy = .unknown ∨ s.dsq.deploy = .stowed ∨ s.dsq.deploy = .lowering) →
      (s.dsq.parkIn = true → exec .parkInRelease s = .next { s with dsq := { s.dsq with parkIn := false } }) ∧
      (s.dsq.stowIn = false → exec .stowInAssert s = .next { s with dsq := { s.dsq with stowIn := true } }))

/-- R77 to R81, R131, R160, R170, R177: in RAISING, DEPLOYED, PARKED and HELD a STOW request, a release of PARK_IN and an
assertion of STOW_IN raise the STOW effects: the context and the stack have ended, their rows LOADED with last cause STOWED, TXEN
is off with its latch and mute, the link is ended with one LEAVE unless it was SILENT, every axis is taken for SEQUENCE and the
travelling ones stopped, the LOWERING notice carries the walk cause, and every channel is set to FULL. R69 to R72, R74, R77,
R79: the backward walk starts at the slot in progress from RAISING and at the last slot of the table otherwise, and comes to its
first stow action that is not NONE, a CHANNEL action or a motion action, or to its end. The STOW request ends with its REPLY
DONE. In UNKNOWN it is refused STATE, and in STOWED and LOWERING it is answered DONE with no other effect. (The order of several
STOP frames is the model's, log 39, as is that the notice precedes the first slot, log 16.) -/
def Obligations.StowRequestsAndTheStowEffects : Prop :=
  ∀ s : State,
    let raises := s.dsq.deploy = .raising ∨ s.dsq.deploy = .deployed ∨ s.dsq.deploy = .parked ∨ s.dsq.deploy = .held
    (s.listens → raises → completes .stow s fun t => s.stows .request t ∧ t.lnu.queue.getLast? = some (replyDone 0x33)) ∧
    (s.running → raises → s.dsq.parkIn = true → completes .parkInRelease s fun t =>
      { s with dsq := { s.dsq with parkIn := false } }.stows .interlock t ∧ t.dsq.parkIn = false) ∧
    (s.running → raises → s.dsq.stowIn = false → completes .stowInAssert s fun t =>
      { s with dsq := { s.dsq with stowIn := true } }.stows .button t ∧ t.dsq.stowIn = true) ∧
    (s.listens → s.dsq.deploy = .unknown → exec .stow s = .next (s.queues (replyRefused 0x33 .state))) ∧
    (s.listens → (s.dsq.deploy = .stowed ∨ s.dsq.deploy = .lowering) → exec .stow s = .next (s.queues (replyDone 0x33)))

/-! ## Console frames for the drives -/

/-- R52, R7, R8, R47, R50: a MOVE in DEPLOYED on an axis owned by NONE or CONSOLE that passes steps 3 to 6 (R48 to R51) is
sent: one MOVE frame at the clamped rate, the axis MOVING for CONSOLE, the selected target written, the arrival timer started
afresh, an open jog run closed. Nothing else changes, and no REPLY is sent. One that does not pass is refused STATE, RANGE,
WIND or ZONE by the first step that fails, ZONE with the hits of the blocking zones; R61: where it has closed a run, a JOGGING
axis is stopped, and the run stays closed. -/
def Obligations.ConsoleMoveIsSent : Prop :=
  ∀ (a : Axis) (f : MoveFields) (s : State),
    let r := s.axis a
    let rate := capped (f.rate.getD r.rateLimit) (rateCap s.wsm a)
    s.listens → s.dsq.deploy = .deployed → (r.owner = .none ∨ r.owner = .console) → f.rate ≠ some 0 →
    (s.movable a → r.softMin ≤ f.target → f.target ≤ r.softMax → inFull a f.target = true → 0 < rate →
    (a = .mast → f.target ≤ s.dsq.maxHeight ∧ ∀ row, s.wsm.caps = some row → f.target ≤ row.heightCap) →
    (moveCheck s a f.target).1 = false →
    exec (.consoleMove a (some f)) s = .next
      { s with
        axs := s.axs.set a
          { r.setTarget r.sel (some f.target) with
            owner := .console, motion := .moving, jogTarget := none, stopping := false, stopMoved := false
            arrivalTimer := some r.arrivalLimit }
        mgt := s.mgt.set a none
        out := { s.out with drive := s.out.drive ++ [.move a f.target (min rate r.rateLimit)] } }) ∧
    s.turnsAway a 1 (some f.target) (.consoleMove a (some f))

/-- R53, R7, R8, R47, R50: a SELECT under the same conditions sends the named target and sets select to it. Neither target
is changed. One that does not pass steps 3 to 6 is refused as a MOVE is, and RANGE where the named target is absent. -/
def Obligations.ConsoleSelectIsSent : Prop :=
  ∀ (a : Axis) (f : SelectFields) (s : State),
    let r := s.axis a
    let rate := capped r.rateLimit (rateCap s.wsm a)
    s.listens → s.dsq.deploy = .deployed → (r.owner = .none ∨ r.owner = .console) →
    (∀ target, (r.motion = .idle ∨ r.motion = .moving ∨ (r.motion = .jogging ∧ r.owner = .console)) → s.movable a →
      r.target f.sel = some target → r.softMin ≤ target → target ≤ r.softMax → inFull a target = true → 0 < rate →
      (a = .mast → target ≤ s.dsq.maxHeight ∧ ∀ row, s.wsm.caps = some row → target ≤ row.heightCap) →
      (moveCheck s a target).1 = false →
      exec (.consoleSelect a (some f)) s = .next
        { s with
          axs := s.axs.set a
            { r with
              sel := f.sel, owner := .console, motion := .moving, jogTarget := none, stopping := false, stopMoved := false
              arrivalTimer := some r.arrivalLimit }
          mgt := s.mgt.set a none
          out := { s.out with drive := s.out.drive ++ [.move a target (min rate r.rateLimit)] } }) ∧
    s.turnsAway a 4 (r.target f.sel) (.consoleSelect a (some f))

/-- R57, R59, R60, R61: a JOG on an axis with an open run of its direction reloads the deadman timer and does nothing else.
With no open run of that direction (a run of the other direction is closed first), one that passes its steps opens a run with
the deadman time and sends a MOVE to the jog limit: the axis is JOGGING for CONSOLE, and neither its targets nor its select
change. R58 (Table 3-4): the jog limit is the nearest bound in the direction; where some bound is not beyond the position the
JOG is refused RANGE, WIND or ZONE, the first of them with such a bound, and ZONE counts the hits of a move check of the
boundary. R33 (Table 2-5): the boundary is the nearest candidate among the zones that bound the travel. R48: an axis that cannot
be moved is refused STATE; R30: a limit outside the soft range is refused before the move check (with RANGE, which is the
model's: log 43); R59: a limit whose move check is BLOCKED is refused ZONE, with the hits. R61: where a refused JOG has closed a
run of the other direction, a JOGGING axis is stopped. -/
def Obligations.ConsoleJogOpensOrHoldsARun : Prop :=
  ∀ (a : Axis) (f : JogFields) (s : State),
    let r := s.axis a
    let rate := capped f.rate (rateCap s.wsm a)
    let run : Option JogRun := some ⟨f.dir, s.mgt.deadmanTime⟩
    (s.listens → s.dsq.deploy = .deployed → f.rate ≠ 0 →
      ((∃ old, s.jog a = some old ∧ old.dir = f.dir) →
        exec (.consoleJog a (some f)) s = .next { s with mgt := s.mgt.set a run }) ∧
      (∀ p, (∀ old, s.jog a = some old → old.dir ≠ f.dir) → (r.owner = .none ∨ r.owner = .console) →
        (r.motion = .idle ∨ r.motion = .moving ∨ (r.motion = .jogging ∧ r.owner = .console)) →
        r.position = some p → channelsFull s a = true →
        let bound := extentQuery s a p f.dir
        let limit := jogLimit s a f.dir bound
        jogRefusal s a f.dir p bound = none → r.softMin ≤ limit → limit ≤ r.softMax → (moveCheck s a limit).1 = false →
        inFull a limit = true → 0 < rate →
        exec (.consoleJog a (some f)) s = .next
          { s with
            axs := s.axs.set a
              { r with
                owner := .console, motion := .jogging, jogTarget := some limit, stopping := false, stopMoved := false
                arrivalTimer := some r.arrivalLimit }
            mgt := s.mgt.set a run
            out := { s.out with drive := s.out.drive ++ [.move a limit (min rate r.rateLimit)] } }) ∧
      ((∀ old, s.jog a = some old → old.dir ≠ f.dir) → (r.owner = .none ∨ r.owner = .console) →
        let refused : Reason → State → Prop := fun why u =>
          exec (.consoleJog a (some f)) s = .next ((u.turnedAway a).queues (.reply 2 (axisNode a) (some why) .none))
        (¬ s.movable a → refused .state s) ∧
        (∀ p, s.movable a → r.position = some p →
          let bound := extentQuery s a p f.dir
          let limit := jogLimit s a f.dir bound
          let within := r.softMin ≤ limit ∧ limit ≤ r.softMax
          (∀ why, jogRefusal s a f.dir p bound = some why → why ≠ .zone → refused why s) ∧
          (∀ b, jogRefusal s a f.dir p bound = some .zone → bound = some b → refused .zone (s.hitBy a b)) ∧
          (jogRefusal s a f.dir p bound = none → ¬ within → refused .range s) ∧
          (jogRefusal s a f.dir p bound = none → within → (moveCheck s a limit).1 = true →
            refused .zone (s.hitBy a limit))))) ∧
    (∀ (p : Int) (bound : Option Int),
      let nearest : List Int → Int → Prop := fun l x => x ∈ l ∧ ∀ y ∈ l, if f.dir = .up then x ≤ y else y ≤ x
      let short : List Int → Prop := fun l => ∃ x ∈ l, ¬ (if f.dir = .up then p < x else x < p)
      let margin : Int := if r.tolerance = 0 then 1 else r.tolerance
      let raised := a = .mast ∧ f.dir = .up
      let range : List Int :=
        (if f.dir = .up then r.softMax - r.tolerance else r.softMin + r.tolerance) ::
          (if raised then [s.dsq.maxHeight] else [])
      let wind : List Int := if raised then (s.wsm.caps.map (·.heightCap)).toList else []
      let zone : List Int := (bound.map fun b => if f.dir = .up then b - margin else b + margin).toList
      nearest (range ++ wind ++ zone) (jogLimit s a f.dir bound) ∧
      (short range → jogRefusal s a f.dir p bound = some .range) ∧
      (¬ short range → short wind → jogRefusal s a f.dir p bound = some .wind) ∧
      (¬ short range → ¬ short wind → short zone → jogRefusal s a f.dir p bound = some .zone) ∧
      (¬ short range → ¬ short wind → ¬ short zone → jogRefusal s a f.dir p bound = none)) ∧
    (∀ start : Int,
      let bounds : Zone → Prop := fun z =>
        let pan := axisSpan s .pan
        z.valid = true ∧
        (a ≠ .pan →
          if z.arcFrom ≤ z.arcTo then pan.1 ≤ z.arcTo ∧ z.arcFrom ≤ pan.2 else z.arcFrom ≤ pan.2 ∨ pan.1 ≤ z.arcTo) ∧
        (a ≠ .tilt → (axisSpan s .tilt).1 ≤ z.tiltHigh ∧ z.tiltLow ≤ (axisSpan s .tilt).2) ∧
        (a ≠ .mast → (axisSpan s .mast).1 ≤ z.heightHigh ∧ z.heightLow ≤ (axisSpan s .mast).2)
      let candidate : Zone → Int → Prop := fun z x =>
        let low := match a with | .pan => z.arcFrom | .tilt => z.tiltLow | .mast | .pol => z.heightLow
        let high := match a with | .pan => z.arcTo | .tilt => z.tiltHigh | .mast | .pol => z.heightHigh
        a ≠ .pol ∧ x = (if f.dir = .up then low else high) ∧
        (if a = .pan ∧ z.arcTo < z.arcFrom then z.arcTo < start ∧ start < z.arcFrom
          else if f.dir = .up then start < low else high < start)
      (∀ b, extentQuery s a start f.dir = some b ↔
        (∃ z ∈ s.zones, bounds z ∧ candidate z b) ∧
        ∀ z ∈ s.zones, bounds z → ∀ x, candidate z x → if f.dir = .up then b ≤ x else x ≤ b) ∧
      (extentQuery s a start f.dir = none ↔ ∀ z ∈ s.zones, bounds z → ∀ x, ¬ candidate z x))

/-- R11, R44, R54: a STOP on an axis owned by NONE or CONSOLE, in DEPLOYED, RAISING, LOWERING and HELD, takes the axis for
CONSOLE and closes its run. An IDLE, MOVING or JOGGING axis is sent one STOP and is IDLE and stopping; a HALTED axis is sent
the STOP only; an OFF axis is sent nothing. No REPLY is sent. (A STOP of an axis still stopping keeps the mark of the STOP that
found it MOVING: the model's reading, log 11.) R55: on an axis owned by SEARCH the STOP suspends the running acquisition with
cause OVERRIDE, PAN, TILT and POL are released and stopped where MOVING, and the axis is taken for CONSOLE and stopped. R56: on
one owned by SEQUENCE or WIND the STOP is carried out and the owner stays; where it found the axis MOVING, the Deploy Sequencer
enters HELD with cause STOPPED in RAISING, LOWERING and DEPLOYED, and a wind lowering ends with MAST released and its notice. -/
def Obligations.ConsoleStopIsCarriedOut : Prop :=
  ∀ (a : Axis) (p : Priority) (s : State),
    let r := s.axis a
    let stop := { s.out with drive := s.out.drive ++ [DriveFrame.stop a] }
    let stopped : AxisRec :=
      { r with
        motion := .idle, jogTarget := none, stopping := true, arrivalTimer := none
        stopMoved := r.motion = .moving || (r.stopping && r.stopMoved) }
    let atRest := r.motion = .idle ∨ r.motion = .moving ∨ r.motion = .jogging
    s.listens → (s.dsq.deploy = .deployed ∨ s.dsq.deploy = .raising ∨ s.dsq.deploy = .lowering ∨ s.dsq.deploy = .held) →
    ((r.owner = .console ∨ (r.owner = .none ∧ r.motion ≠ .jogging)) →
      (atRest → exec (.consoleStop a (some p)) s = .next
        { s with axs := s.axs.set a { stopped with owner := .console }, mgt := s.mgt.set a none, out := stop }) ∧
      (r.motion = .halted →
        exec (.consoleStop a (some p)) s = .next
          { s with axs := s.axs.set a { r with owner := .console }, mgt := s.mgt.set a none, out := stop }) ∧
      (r.motion = .off →
        exec (.consoleStop a (some p)) s = .next
          { s with axs := s.axs.set a { r with owner := .console }, mgt := s.mgt.set a none })) ∧
    (∀ c, r.owner = .search → s.acq.ctx = some c → completes (.consoleStop a (some p)) s fun t =>
      let moved := [Axis.pan, .tilt, .pol].filter fun b => b ≠ a ∧ (s.axis b).motion = .moving
      t.suspended c .override ∧ (∀ b : Axis, b ≠ .mast → b ≠ a → (t.axis b).owner = .none ∧ (t.axis b).motion ≠ .moving) ∧
      (t.axis a).owner = .console ∧ t.jog a = none ∧ (atRest → (t.axis a).motion = .idle ∧ (t.axis a).stopping = true) ∧
      t.out.drive = s.out.drive ++ moved.map DriveFrame.stop ++ (if r.motion = .off then [] else [.stop a])) ∧
    (r.owner = .sequence ∨ r.owner = .wind → r.motion = .idle ∨ r.motion = .jogging →
      exec (.consoleStop a (some p)) s = .next { s with axs := s.axs.set a stopped, mgt := s.mgt.set a none, out := stop }) ∧
    (r.owner = .sequence → r.motion = .moving → s.dsq.deploy ≠ .held → completes (.consoleStop a (some p)) s fun t =>
      t.dsq.deploy = .held ∧ t.dsq.holdCause = .stopped ∧ t.dsq.slot = none ∧ t.dsq.slotTimer = none ∧
      (∀ b : Axis, (t.axis b).owner = .sequence ∧ (t.axis b).travelling = false) ∧
      ∃ frames, t.out.drive = s.out.drive ++ .stop a :: frames) ∧
    (a = .mast → r.owner = .wind → r.motion = .moving → s.roomy →
      exec (.consoleStop a (some p)) s = .next
        ({ s with axs := s.axs.set a { stopped with owner := .none }, mgt := s.mgt.set a none, out := stop }.noticed
          .windStopped))

/-- R41: a CHANNEL frame from the console is refused OWNER, a frame of any other kind IGNORED, and a MOVE, JOG, STOP or SELECT
without the fields of its kind, or with a rate of 0, RANGE. Nothing else changes. -/
def Obligations.ConsoleFramesRefusedAtOnce : Prop :=
  ∀ (a : Axis) (s : State), s.listens →
    let refused : Nat → Reason → Host.Outcome State Fault Refusal := fun kind why =>
      .next (s.queues (.reply kind (axisNode a) (some why) .none))
    exec (.consoleChannel a) s = refused 5 .owner ∧ (∀ kind, exec (.consoleOtherKind a kind) s = refused kind .ignored) ∧
    exec (.consoleMove a none) s = refused 1 .range ∧ exec (.consoleJog a none) s = refused 2 .range ∧
    exec (.consoleStop a none) s = refused 3 .range ∧ exec (.consoleSelect a none) s = refused 4 .range ∧
    (∀ t p, exec (.consoleMove a (some ⟨t, p, some 0⟩)) s = refused 1 .range) ∧
    (∀ d p, exec (.consoleJog a (some ⟨d, p, 0⟩)) s = refused 2 .range)

/-- R43, R44: in UNKNOWN, STOWED, RAISING, LOWERING and HELD a MOVE, JOG or SELECT is refused STATE and changes nothing else;
in UNKNOWN, STOWED and PARKED a STOP has no effect and gets no REPLY. R43, R83: in PARKED a MOVE, JOG or SELECT wakes the part,
with the AWAKE notice, every channel FULL and the state DEPLOYED, and is then refused STATE; R98, R166, R168: in HOLD the change
of the deploy state re-judges, and a PARK entry on top of the stack is popped outside HOLD, and kept with its notice in HOLD, as
at a WAKE. -/
def Obligations.ConsoleMotionOutsideDeployed : Prop :=
  ∀ (a : Axis) (s : State), s.listens →
    let woken := (s.noticed .deployAwake).awake
    let wakes : Instr → Nat → Prop := fun c kind =>
      let refusal : UpFrame := .reply kind (axisNode a) (some .state) .none
      (s.wsm.gust ≠ .hold → (∀ e rest, s.acq.stack = e :: rest → e.cause ≠ .park) → completes c s fun t =>
        t.dsq = { s.dsq with deploy := .deployed } ∧ t.acq = s.acq ∧ (∀ ch : Channel, t.chan ch = .full) ∧
        (t.ntu.get .deploy).latest = some .deployAwake ∧ t.txc.deploy = .deployed ∧
        t.lnu.queue.getLast? = some refusal) ∧
      (s.agrees → s.roomy →
        (∀ e rest x, s.wsm.gust ≠ .hold → s.acq.stack = e :: rest → e.cause = .park → s.acq.ctx = none →
          s.sites[e.row]? = some x → x.state = .suspended → woken.slewFree →
          woken.slewAllowed (woken.wakeSlew e x).1.1 (woken.wakeSlew e x).1.2 →
          completes c s fun t => woken.resumesAtWake e x t ∧ (t.ntu.get .deploy).latest = some .deployAwake ∧
            t.lnu.queue.getLast? = some refusal) ∧
        (s.wsm.gust = .hold → woken.keepsNone →
          completes c s fun t => ∃ u, woken.windHolds false u ∧ t = u.queues refusal) ∧
        (∀ e rest, s.wsm.gust = .hold → ¬ woken.keepsNone → s.acq.stack = e :: rest →
          completes c s fun t => woken.keepsAtWake e t ∧ t.lnu.queue.getLast? = some refusal))
    ((s.dsq.deploy = .unknown ∨ s.dsq.deploy = .stowed ∨ s.dsq.deploy = .raising ∨ s.dsq.deploy = .lowering ∨
        s.dsq.deploy = .held) →
      (∀ f : MoveFields, f.rate ≠ some 0 →
        exec (.consoleMove a (some f)) s = .next (s.queues (.reply 1 (axisNode a) (some .state) .none))) ∧
      (∀ f : JogFields, f.rate ≠ 0 →
        exec (.consoleJog a (some f)) s = .next (s.queues (.reply 2 (axisNode a) (some .state) .none))) ∧
      (∀ f : SelectFields,
        exec (.consoleSelect a (some f)) s = .next (s.queues (.reply 4 (axisNode a) (some .state) .none)))) ∧
    ((s.dsq.deploy = .unknown ∨ s.dsq.deploy = .stowed ∨ s.dsq.deploy = .parked) →
      ∀ p : Priority, exec (.consoleStop a (some p)) s = .next s) ∧
    (s.dsq.deploy = .parked →
      (∀ f : MoveFields, f.rate ≠ some 0 → wakes (.consoleMove a (some f)) 1) ∧
      (∀ f : JogFields, f.rate ≠ 0 → wakes (.consoleJog a (some f)) 2) ∧
      (∀ f : SelectFields, wakes (.consoleSelect a (some f)) 4))

/-- R45: in DEPLOYED a MOVE, JOG or SELECT on an axis owned by SEQUENCE or WIND, or with priority NORMAL on one owned by
SEARCH, is refused OWNER, and nothing else changes. (An open jog run belongs to an axis owned by CONSOLE.) R46: one with
priority OVERRIDE on an axis owned by SEARCH suspends the running acquisition with cause OVERRIDE, PAN, TILT and POL are
released, and the axis is taken for CONSOLE. Refused at step 3, it is answered STATE and an axis still MOVING is stopped. A
MOVE that passes steps 3 to 6 is sent (here with no valid zone). -/
def Obligations.ConsoleMotionOnAnotherOwnersAxis : Prop :=
  ∀ (a : Axis) (s : State), s.listens → s.dsq.deploy = .deployed → s.jog a = none →
    let r := s.axis a
    let refused : Priority → Prop := fun p => r.owner = .sequence ∨ r.owner = .wind ∨ (r.owner = .search ∧ p = .normal)
    (∀ f : MoveFields, f.rate ≠ some 0 → refused f.priority →
      exec (.consoleMove a (some f)) s = .next (s.queues (.reply 1 (axisNode a) (some .owner) .none))) ∧
    (∀ f : JogFields, f.rate ≠ 0 → refused f.priority →
      exec (.consoleJog a (some f)) s = .next (s.queues (.reply 2 (axisNode a) (some .owner) .none))) ∧
    (∀ f : SelectFields, refused f.priority →
      exec (.consoleSelect a (some f)) s = .next (s.queues (.reply 4 (axisNode a) (some .owner) .none))) ∧
    (∀ c, r.owner = .search → s.acq.ctx = some c →
      let taken : State → Prop := fun t =>
        t.suspended c .override ∧ (∀ b : Axis, b ≠ .mast → b ≠ a → (t.axis b).owner = .none ∧ (t.axis b).motion ≠ .moving) ∧
        (t.axis a).owner = .console ∧ t.jog a = none
      let turnedAway : Instr → Nat → Prop := fun i kind => completes i s fun t =>
        taken t ∧ (r.motion = .moving → (t.axis a).motion = .idle ∧ (t.axis a).stopping = true) ∧
        t.lnu.queue.getLast? = some (.reply kind (axisNode a) (some .state) .none)
      (channelsFull s a = false ∨ r.position = none ∨ r.motion = .halted ∨ r.motion = .off →
        (∀ t rate, rate ≠ some 0 → turnedAway (.consoleMove a (some ⟨t, .override, rate⟩)) 1) ∧
        (∀ d rate, rate ≠ 0 → turnedAway (.consoleJog a (some ⟨d, .override, rate⟩)) 2) ∧
        (∀ which, turnedAway (.consoleSelect a (some ⟨which, .override⟩)) 4)) ∧
      (∀ target rate, a ≠ .mast → channelsFull s a = true → r.position.isSome → r.motion = .idle ∨ r.motion = .moving →
        r.softMin ≤ target → target ≤ r.softMax → inFull a target = true → rate ≠ some 0 →
        0 < capped (rate.getD r.rateLimit) (rateCap s.wsm a) → (∀ z ∈ s.zones, z.valid = false) →
        completes (.consoleMove a (some ⟨target, .override, rate⟩)) s fun t =>
          taken t ∧ (t.axis a).motion = .moving ∧ (t.axis a).selected = some target ∧
          t.out.drive.getLast? =
            some (.move a target (min (capped (rate.getD r.rateLimit) (rateCap s.wsm a)) r.rateLimit))))

/-- R24, R29, R51: a MOVE that passes steps 0 to 5 and whose move check is BLOCKED is refused ZONE, every blocking zone gains
one hit up to 255, and nothing else changes (but that an open run of the axis is closed and a JOGGING axis then stopped: R61).
R26, R27, R29: the present targets, the intervals of the axes, the swept box and
the end pose of a move, and which zones block it: with the start pose inside no zone those that the box meets, and otherwise
those that hold the end pose and those that the box meets and that do not hold the start pose. Table 1-1: the full range of the
axis and the channels that move it. -/
def Obligations.BlockedConsoleMoveCountsHits : Prop :=
  ∀ (a : Axis) (f : MoveFields) (s : State),
    let r := s.axis a
    (s.listens → s.dsq.deploy = .deployed → (r.owner = .none ∨ r.owner = .console) → s.movable a → a ≠ .pol →
      r.softMin ≤ f.target → f.target ≤ r.softMax → f.rate ≠ some 0 →
      (a = .mast → f.target ≤ s.dsq.maxHeight ∧ ∀ row, s.wsm.caps = some row → f.target ≤ row.heightCap) →
      (∃ z ∈ s.zones, moveBlocker s a f.target z = true) →
      exec (.consoleMove a (some f)) s = .next
        (((s.hitBy a f.target).turnedAway a).queues (.reply 1 (axisNode a) (some .zone) .none))) ∧
    (r.presentTarget =
      (match r.motion with
        | .moving => r.selected
        | .jogging => r.jogTarget
        | .off | .idle | .halted => r.position)) ∧
    (axisSpan s a =
      (match r.position with
        | none => (fullLow a, fullHigh a)
        | some p => (min p (r.presentTarget.getD p), max p (r.presentTarget.getD p)))) ∧
    (∀ (target : Int) (start : Pose),
      let swept : Int × Int :=
        match r.position with
        | none => (fullLow a, fullHigh a)
        | some p => (min p target, max p target)
      let last : Axis → Int → Int := fun b here => if b = a then target else (s.axis b).presentTarget.getD here
      sweptBox s a target =
        { pan := if a = .pan then swept else axisSpan s .pan, tilt := if a = .tilt then swept else axisSpan s .tilt
          height := if a = .mast then swept else axisSpan s .mast } ∧
      endPose s a target start =
        { pan := last .pan start.pan, tilt := last .tilt start.tilt, height := last .mast start.height }) ∧
    (∀ start, presentPose s = some start ↔
      (s.axis .pan).position = some start.pan ∧ (s.axis .tilt).position = some start.tilt ∧
      (s.axis .mast).position = some start.height) ∧
    (∀ (target : Int) (z : Zone),
      let met := zoneMeets z (sweptBox s a target) = true
      (presentPose s = none → (moveBlocker s a target z = true ↔ met)) ∧
      (∀ start, presentPose s = some start →
        ((∀ y ∈ s.zones, zoneHolds y start = false) → (moveBlocker s a target z = true ↔ met)) ∧
        ((∃ y ∈ s.zones, zoneHolds y start = true) →
          (moveBlocker s a target z = true ↔
            zoneHolds z (endPose s a target start) = true ∨ (met ∧ zoneHolds z start = false))))) ∧
    (∀ target : Int, (moveCheck s a target).1 = true ↔ a ≠ .pol ∧ ∃ z ∈ s.zones, moveBlocker s a target z = true) ∧
    (∀ x : Int, inFull a x = true ↔
      match a with
      | .mast => 0 ≤ x ∧ x ≤ 1500
      | .pan => 0 ≤ x ∧ x ≤ 3599
      | .tilt => -100 ≤ x ∧ x ≤ 900
      | .pol => -900 ≤ x ∧ x ≤ 900) ∧
    (channelsFull s a = true ↔ s.chan (moveChannel a) = .full ∧ (a = .mast → s.chan .lock = .full)) ∧
    [Axis.mast, .pan, .tilt, .pol].map moveChannel = [.lift, .pan, .tilt, .pol]

/-! ## Accessory frames and the drive line -/

/-- R65: with window mode PASS a console frame for nodes 5 to 31 goes out on the drive line unchanged and gets no REPLY; with
CLOSED it is refused NO_TARGET and is not forwarded. -/
def Obligations.AccessoryFramesFollowTheWindowMode : Prop :=
  ∀ (node kind : Nat) (payload : List Byte) (s : State), s.listens →
    (s.lnu.window = .pass → exec (.accessoryFrame node kind payload) s = .next
      { s with out := { s.out with drive := s.out.drive ++ [.forwarded node kind payload] } }) ∧
    (s.lnu.window = .closed → exec (.accessoryFrame node kind payload) s = .next
      (s.queues (.reply kind node (some .noTarget) .none)))

/-- R116, R178, R179: a discarded frame changes no state but that its port hunts again, and a malformed page changes none. A
frame of the drive line that no block takes joins the upstream queue unchanged while it holds fewer than 24 frames, and is
discarded otherwise. -/
def Obligations.FramesThatNoBlockTakes : Prop :=
  ∀ s : State, s.running →
    exec .malformedPage s = .next s ∧
    exec (.frameDiscarded .upstream) s = .next { s with lnu := { s.lnu with upstreamPort := .hunting } } ∧
    exec (.frameDiscarded .drive) s = .next { s with lnu := { s.lnu with drivePort := .hunting } } ∧
    exec (.frameDiscarded .site) s = .next { s with lnu := { s.lnu with sitePort := .hunting } } ∧
    ∀ (node kind : Nat) (payload : List Byte),
      exec (.driveFrameForward node kind payload) s = .next (s.forwards node kind payload)

/-! ## Reports of the drive line -/

/-- R10, R11, R14, R19, R20: a POSITION report without a fault, within the full range, is taken: the position is recorded, the
silence watch restarts at 1000 ms, TXC judges the pose (R175, R176) and the frame is forwarded. A HALTED axis becomes release
ready; a travelling axis at rest within tolerance of its target has arrived; a stopping axis at rest has stopped, and where the
STOP found it MOVING its selected target is the position. Otherwise nothing else changes. (What the arrival or the rest of an
axis of SEARCH comes to, and the arrival of one of SEQUENCE, are O43, O44 and O52.) R99: the arrival of a wind lowering releases
MAST with its notice. R68: in UNKNOWN a report of MAST, PAN or TILT is recorded besides, and once all three have reported the
pose is judged: STOWED where the stow test passes and none of the three is HALTED, HELD with cause UNSURE otherwise; R80, R81:
from there the STOW effects follow at once, with cause BUTTON while STOW_IN is asserted, or else INTERLOCK while PARK_IN is
released. (The order within the report, and that of several STOP frames, are the model's: logs 12 and 39.) -/
def Obligations.PositionReportsAreTaken : Prop :=
  ∀ (a : Axis) (pos : Int) (moving : Bool) (code : Nat) (s : State),
    let r := s.axis a
    let seen := { r with position := some pos, silenceWatch := some 1000 }
    let arrived := { seen with motion := .idle, arrivalTimer := none, jogTarget := none }
    let up : State → State := fun t => t.forwards (axisNode a) 0x10 (positionPayload pos moving false code)
    let takenAs : AxisRec → Prop := fun q =>
      (s.dsq.deploy ≠ .unknown → exec (.position a pos moving false code) s = .next (up (s.reports a pos q))) ∧
      (s.dsq.deploy = .unknown → s.txc.deploy = .unknown →
        ∃ t, (s.reports a pos q).firstReport a t ∧ exec (.position a pos moving false code) s = .next (up t))
    s.running → inFull a pos = true → s.txc.ordered →
    (r.motion = .halted → takenAs { seen with releaseReady := true }) ∧
    (r.motion ≠ .halted → moving = true → takenAs seen) ∧
    (r.motion = .off ∨ r.motion = .idle → r.stopping = false → takenAs seen) ∧
    (r.motion = .off ∨ r.motion = .idle → r.stopping = true → moving = false → r.owner ≠ .search →
      takenAs
        { (if r.stopMoved then seen.setTarget r.sel (some pos) else seen) with stopping := false, stopMoved := false }) ∧
    (∀ target, r.motion = .moving → r.selected = some target → moving = false → (r.owner = .none ∨ r.owner = .console) →
      (pos - target).natAbs ≤ r.tolerance → takenAs arrived) ∧
    (∀ target, r.motion = .moving → r.selected = some target → moving = false → a = .mast → r.owner = .wind →
      (pos - target).natAbs ≤ r.tolerance → s.dsq.deploy ≠ .unknown → s.roomy →
      exec (.position a pos moving false code) s = .next
        (up ((s.reports a pos { arrived with owner := .none }).noticed (.windLowered pos)))) ∧
    (∀ target, r.motion = .jogging → r.jogTarget = some target → moving = false → (pos - target).natAbs ≤ r.tolerance →
      takenAs arrived) ∧
    (∀ target, (r.motion = .moving ∧ r.selected = some target ∨ r.motion = .jogging ∧ r.jogTarget = some target) →
      r.stopping = false → r.tolerance < (pos - target).natAbs → takenAs seen)

/-- R15 to R20, R63, R173: an arrival timeout, a running silence watch that runs out, a position outside the full range and a
faulted report each halt an axis that is not HALTED, with its cause: the axis is sent a STOP, its jog run closes, the notice
is raised, TXC is told and TXEN is off. Besides the NOTICE frames that find a place, only the frame of the report joins the
upstream queue. The owner of an axis of SEARCH, SEQUENCE or WIND is then told (the order of several STOP frames is the model's,
log 39). On a HALTED axis the last three clear release ready, and a faulted report records its position and drive code. R68: in
UNKNOWN a faulted report is recorded besides, as a clean one is. -/
def Obligations.AxisEventsHaltTheAxis : Prop :=
  ∀ (a : Axis) (s : State),
    let r := s.axis a
    let forwarded : Int → Bool → Bool → Nat → State → State := fun pos moving fault code u =>
      u.forwards (axisNode a) 0x10 (positionPayload pos moving fault code)
    let halts : FaultCause → AxisRec → (State → State) → State → Prop := fun cause q report t =>
      t.axs = s.axs.set a
        { q with
          motion := .halted, faultCause := cause, arrivalTimer := none, stopping := false, stopMoved := false
          jogTarget := none, releaseReady := false } ∧
      t.mgt = s.mgt.set a none ∧ t.out.drive = s.out.drive ++ [.stop a] ∧
      t.txc.axisHalted = true ∧ t.txc.txen = false ∧ t.txc.pending = false ∧
      (t.ntu.get .axis).latest = some (.axis a cause) ∧
      (∀ c : NoticeClass, c ≠ .axis → t.ntu.get c = s.ntu.get c) ∧
      (∃ u : State,
        (∃ notices : List Notice, u.lnu = { s.lnu with queue := s.lnu.queue ++ notices.map .notice }) ∧
        (s.roomy → u.lnu = (s.noticed (.axis a cause)).lnu ∧ t.ntu = (s.noticed (.axis a cause)).ntu) ∧
        t.lnu = (report u).lnu) ∧
      sameBut [.axs, .mgt, .txc, .ntu, .lnu, .drive] s t
    let told : FaultCause → AxisRec → (State → State) → State → Prop := fun cause q report t =>
      ∃ u v, halts cause q id u ∧ u.haltTold a cause v ∧ t = report v
    s.running → s.txc.ordered →
    (r.owner = .none ∨ r.owner = .console → r.motion ≠ .halted →
      (r.arrivalTimer.isSome → r.travelling → completes (.arrivalTimeout a) s (halts .arrival r id)) ∧
      (r.silenceWatch.isSome → completes (.silenceWatchExpiry a) s (halts .silence { r with silenceWatch := none } id)) ∧
      (∀ pos moving fault code, inFull a pos = false →
        completes (.position a pos moving fault code) s (halts .badReport r (forwarded pos moving fault code))) ∧
      (∀ pos moving code, inFull a pos = true → s.dsq.deploy ≠ .unknown →
        completes (.position a pos moving true code) s
          (halts .drive { r with position := some pos, silenceWatch := some 1000, driveCode := some code }
            (forwarded pos moving true code)))) ∧
    (r.owner ≠ .none → r.owner ≠ .console → r.motion ≠ .halted →
      (r.arrivalTimer.isSome → r.travelling → completes (.arrivalTimeout a) s (told .arrival r id)) ∧
      (r.silenceWatch.isSome → completes (.silenceWatchExpiry a) s (told .silence { r with silenceWatch := none } id)) ∧
      (∀ pos moving fault code, inFull a pos = false →
        completes (.position a pos moving fault code) s (told .badReport r (forwarded pos moving fault code))) ∧
      (∀ pos moving code, inFull a pos = true → s.dsq.deploy ≠ .unknown →
        completes (.position a pos moving true code) s
          (told .drive { r with position := some pos, silenceWatch := some 1000, driveCode := some code }
            (forwarded pos moving true code)))) ∧
    (r.motion ≠ .halted → s.dsq.deploy = .unknown → s.txc.deploy = .unknown →
      ∀ pos moving code, inFull a pos = true → ∃ u v t,
        halts .drive { r with position := some pos, silenceWatch := some 1000, driveCode := some code } id u ∧
        (r.owner ≠ .search → r.owner ≠ .wind → v = u) ∧ u.haltTold a .drive v ∧ v.firstReport a t ∧
        exec (.position a pos moving true code) s = .next (forwarded pos moving true code t)) ∧
    (r.motion = .halted →
      (r.silenceWatch.isSome → exec (.silenceWatchExpiry a) s = .next
        { s with axs := s.axs.set a { r with silenceWatch := none, releaseReady := false } }) ∧
      (∀ pos moving fault code, inFull a pos = false →
        exec (.position a pos moving fault code) s = .next
          (forwarded pos moving fault code { s with axs := s.axs.set a { r with releaseReady := false } })) ∧
      (∀ pos moving code, inFull a pos = true → s.txc.axisHalted = true →
        let u : State :=
          { s with
            axs := s.axs.set a
              { r with position := some pos, silenceWatch := some 1000, driveCode := some code, releaseReady := false } }
        (s.dsq.deploy ≠ .unknown →
          exec (.position a pos moving true code) s = .next (forwarded pos moving true code u)) ∧
        (s.dsq.deploy = .unknown → s.txc.deploy = .unknown →
          ∃ t, u.firstReport a t ∧ exec (.position a pos moving true code) s = .next (forwarded pos moving true code t))))

/-- R175, R176: a clean POSITION report of an axis of any owner hands TXC a pose. With TXEN asserted, a pose that is forbidden
or absent takes TXEN off and leaves the enable pending, nothing seen; with the enable pending, TXEN is asserted once PAN and
TILT have both been seen and the pose is clear. A report of POL, and one with neither, changes nothing of TXC. TXC judges before
an arrival or a rest is told (log 12); what SEARCH or a walk then makes of one that it is told may take TXEN off, and never
asserts it. -/
def Obligations.EnableFollowsTheReportedPose : Prop :=
  ∀ (a : Axis) (pos : Int) (moving : Bool) (code : Nat) (s : State),
    let r := s.axis a
    let arrives := r.motion = .moving ∧ ∃ target, r.selected = some target ∧ (pos - target).natAbs ≤ r.tolerance
    let told :=
      moving = false ∧ r.motion ≠ .halted ∧
      (r.owner = .search ∧ (arrives ∨ r.stopping = true) ∨
        r.owner = .sequence ∧ arrives ∧ (s.dsq.deploy = .raising ∨ s.dsq.deploy = .lowering))
    s.running → inFull a pos = true → s.dsq.deploy ≠ .unknown → s.txc.ordered →
    completes (.position a pos moving false code) s fun t =>
      (¬ told → t.txc = s.watches a pos) ∧ (t.txc.txen = true → (s.watches a pos).txen = true)

/-- R90, R91, R95 (Table 5-5): a WIND report within 0 to 600 enters the report memory of three, restarts the wind watch at
2000 ms, moves the three run counts up to their limits of 3, 3 and 60, and the gust state follows from them. Where the gust
state stays CALM or WARN the report does nothing else but be forwarded; a report outside the range is only forwarded. A change
of the gust state is handed to TXC, with its notice of the new state and the gust value. R96, R97: HOLD is then entered, TXEN
and the pending enable off. R98: a report in HOLD re-judges. R100, R168: where HOLD is left, a top entry with cause GUST is
resumed in DEPLOYED, and kept with a notice in the other states. R90, R93: the gust value is the highest speed of the memory,
and the row in force the highest-numbered valid row whose floor it reaches; R50: the rate caps are those of that row. (The
order of the STOP frames at the entry to HOLD, and that a run whose axis is IDLE at its limit stays open there, are the
model's: logs 39 and 40.) -/
def Obligations.WindReportsAreTaken : Prop :=
  ∀ (v : Nat) (speed : Int) (s : State),
    let w := s.wsm
    let taken : Wsm :=
      { w with
        memory := (v :: w.memory).take 3
        warnRun := if w.warnThreshold ≤ v then min (w.warnRun + 1) 3 else 0
        holdRun := if w.holdThreshold ≤ v then min (w.holdRun + 1) 3 else 0
        calmRun := if v < w.warnThreshold then min (w.calmRun + 1) 60 else 0
        windWatch := some 2000 }
    let gust : Gust :=
      match w.gust with
      | .calm => if taken.holdRun = 3 then .hold else if taken.warnRun = 3 then .warn else .calm
      | .warn => if taken.holdRun = 3 then .hold else if taken.calmRun = 60 then .calm else .warn
      | .hold => if taken.calmRun = 60 then .calm else .hold
    let answers : State → Prop := fun t => exec (.wind v) s = .next (t.forwards 5 0x11 (be16 v))
    let x := s.txc
    (s.running →
      (v ≤ 600 →
        completes (.wind v) s (fun t => t.wsm = { taken with gust := gust }) ∧
        (gust = w.gust → gust ≠ .hold → answers { s with wsm := taken }) ∧
        (w.gust = .hold → gust = .hold → ∃ t, { s with wsm := taken }.windHolds false t ∧ answers t) ∧
        (∀ peak : Nat, gust ≠ w.gust → s.agrees → s.roomy → taken.gustValue = some peak →
          let changed : Txc → State := fun y =>
            { s with wsm := { taken with gust := gust }, txc := { y with gust := gust } }.noticed (.windState gust peak)
          (gust ≠ .hold → w.gust ≠ .hold → answers (changed x)) ∧
          (gust = .hold → x.ordered →
            let off : Txc :=
              if x.txen ∨ x.pending then { x with txen := false, pending := false, panSeen := false, tiltSeen := false } else x
            ∃ t, (changed off).windHolds true t ∧ answers t) ∧
          (w.gust = .hold →
            let pends :=
              x.deploy = .deployed ∧ x.axisHalted = false ∧ (x.latch = true ∨ (x.tracked = true ∧ x.mute = false))
            let u := changed (if pends then { x with pending := true, panSeen := false, tiltSeen := false } else x)
            ((∀ e rest, s.acq.stack = e :: rest → e.cause ≠ .gust) → answers u) ∧
            (∀ e rest, s.acq.stack = e :: rest → e.cause = .gust →
              (s.dsq.deploy ≠ .deployed → completes (.wind v) s fun t =>
                t.acq = s.acq ∧ t.sites = s.sites ∧ (t.ntu.get .resume).latest = some (.resumeKept e.row)) ∧
              (∀ y pan tilt, s.dsq.deploy = .deployed → s.acq.ctx = none → s.sites[e.row]? = some y →
                y.state = .suspended → resumePose s e e.phase = (pan, tilt) → u.slewFree → u.slewAllowed pan tilt →
                completes (.wind v) s fun t =>
                  u.slewing e.row pan tilt y.set.presetPol e.phase.after e.reacquire t ∧ t.acq.stack = rest ∧
                  t.sites = s.sites.set e.row { y with state := .acquiring } ∧
                  (t.ntu.get .resume).latest = some (.resumeResumed e.row e.cause)))))) ∧
      (speed < 0 ∨ 600 < speed → exec (.wind speed) s = .next (s.forwards 5 0x11 (be16 speed)))) ∧
    (∀ g, w.gustValue = some g ↔ g ∈ w.memory ∧ ∀ y ∈ w.memory, y ≤ g) ∧
    (∀ n r, w.inForce = some (n, r) ↔ ∃ g, w.gustValue = some g ∧ w.derate[n]? = some r ∧ r.valid = true ∧ r.floor ≤ g ∧
      ∀ m q, n < m → w.derate[m]? = some q → q.valid = true → g < q.floor) ∧
    w.caps = w.inForce.map (·.2) ∧
    (∀ a : Axis, rateCap w a =
      (match a with
        | .pan => w.caps.map (·.panCap)
        | .tilt => w.caps.map (·.tiltCap)
        | .mast | .pol => none)) ∧
    (∀ rate cap, capped rate none = rate ∧ capped rate (some cap) = min rate cap)

/-- R91, R101, R102 (Table 5-9), R84: a SLOPE report within -900 to +900 is kept, restarts the slope watch at 2000 ms and
sets the slope state from the larger absolute value. LEVEL and OVER do nothing else but be forwarded. FAULT enters HELD with
cause SLOPE in every state but STOWED and HELD, every axis taken for SEQUENCE and none travelling, and there it changes the
deploy state no more; the entry of the slope state to FAULT is a notice, and a further fault report raises none. A report
outside the range is only forwarded. -/
def Obligations.SlopeReportsAreTaken : Prop :=
  ∀ (roll pitch : Int) (s : State),
    let worst := max roll.natAbs pitch.natAbs
    let state : SlopeState :=
      if s.wsm.slopeLimit + s.wsm.slopeMargin < worst then .fault else if s.wsm.slopeLimit < worst then .over else .level
    let taken : Wsm := { s.wsm with lastSlope := some (roll, pitch), slopeState := state, slopeWatch := some 2000 }
    let inside := roll.natAbs ≤ 900 ∧ pitch.natAbs ≤ 900
    s.running →
    (inside → state ≠ .fault →
      exec (.slope roll pitch) s = .next ({ s with wsm := taken }.forwards 6 0x12 (be16 roll ++ be16 pitch))) ∧
    (inside → state = .fault → completes (.slope roll pitch) s fun t =>
      t.wsm = taken ∧
      (s.wsm.slopeState ≠ .fault → (t.ntu.get .slope).latest = some (.slopeFault roll pitch)) ∧
      (s.wsm.slopeState = .fault → t.ntu.get .slope = s.ntu.get .slope) ∧
      (s.dsq.deploy = .stowed ∨ s.dsq.deploy = .held → t.dsq = s.dsq ∧ t.axs = s.axs) ∧
      (s.dsq.deploy ≠ .stowed → s.dsq.deploy ≠ .held →
        t.dsq.deploy = .held ∧ t.dsq.holdCause = .slope ∧ t.dsq.slot = none ∧ t.dsq.slotTimer = none ∧
        ∀ a : Axis, (t.axis a).owner = .sequence ∧ (t.axis a).travelling = false)) ∧
    (¬ inside → exec (.slope roll pitch) s = .next (s.forwards 6 0x12 (be16 roll ++ be16 pitch)))

/-! ## Pages of the site line -/

/-- R116, R119, R120: a CHOICE or LEAVE page from the site enters OFFERING in SILENT while the quiet time is not running, as
any page does: site heard, identity and link ready are cleared, the offer timer starts at 500 ms and one ABILITY goes out,
with the masks of the running context's row or else the van ability word, all three periods, and the ack flag. In every other
case the page is ignored. -/
def Obligations.IgnoredPagesStartAnOfferInSilent : Prop :=
  ∀ (p : NoEffectPage) (s : State), s.running →
    (s.sha.state = .silent → s.sha.quietTimer = none → exec (.inboundNoEffectPage p) s = .next s.offers) ∧
    (s.sha.state ≠ .silent ∨ s.sha.quietTimer.isSome → exec (.inboundNoEffectPage p) s = .next s)

/-- R121, R122, R123, R124: an ABILITY taken in OFFERING, CHOSEN or UP is recorded and resolved. A resolution sends its
CHOICE with the toggle changed, echo timer 2000 ms, re-sends 0, and enters CHOSEN; where it differs in band or pol from the
agreed choice the change is a notice. No resolution enters NO_COMMON with its notice. UP is left with the window emptied.
R127, R142: a running context is then told LINK where the choice changed or there is none, WAIT where the link was UP, and
nothing otherwise. In NO_COMMON an ABILITY is only recorded. In SILENT it is ignored while the quiet time runs; otherwise it
enters OFFERING first (R119) and is then taken as there. (That a WAIT takes the place of a sweep end that is still awaited,
and that the second STOP it then makes keeps the moved seen by the first, is the model's: logs 36 and 11.) -/
def Obligations.AbilityPagesAreResolved : Prop :=
  ∀ (bands : BandMask) (pols : PolMask) (periods : PeriodMask) (ack : Bool) (s : State),
    let page : Instr := .ability bands pols periods ack
    let found := resolve s ⟨bands, pols, periods, ack⟩
    let heard : Sha := { s.sha with siteAbility := some ⟨bands, pols, periods, ack⟩, heard := true }
    let left : Sha :=
      if s.sha.state = .up then { heard with reportWatch := none, window := [], downSeen := true, linkReady := false }
      else heard
    let chosen : Choice → State → State := fun c u =>
      { u with
        sha :=
          { left with
            state := .chosen, offerTimer := none, toggle := !s.sha.toggle, sent := some (c, !s.sha.toggle), resends := 0
            echoTimer := some 2000 }
        out := { s.out with site := s.out.site ++ [.choice c (!s.sha.toggle)] } }
    let lacking : State :=
      { s with sha := { left with state := .noCommon, offerTimer := none, echoTimer := none } }.noticed .linkNoCommon
    let running := s.acq.ctx.isSome = true
    s.running →
    (s.sha.state = .offering ∨ s.sha.state = .chosen ∨ s.sha.state = .up →
      (∀ c, found = some c → (∀ old, s.sha.agreed = some old → old.band = c.band ∧ old.pol = c.pol) →
        (¬ running ∨ s.sha.state ≠ .up → exec page s = .next (chosen c s)) ∧
        (running → s.sha.state = .up → completes page s (chosen c s).hearsWait)) ∧
      (∀ c old, found = some c → s.sha.agreed = some old → (old.band ≠ c.band ∨ old.pol ≠ c.pol) → s.roomy →
        (¬ running → exec page s = .next (chosen c (s.noticed (.linkChanged c.band c.pol)))) ∧
        (running → completes page s (chosen c (s.noticed (.linkChanged c.band c.pol))).hearsLink)) ∧
      (found = none → s.roomy →
        (¬ running → exec page s = .next lacking) ∧ (running → completes page s lacking.hearsLink))) ∧
    (s.sha.state = .noCommon → exec page s = .next { s with sha := heard }) ∧
    (s.sha.state = .silent → s.sha.quietTimer.isSome → exec page s = .next s) ∧
    (s.sha.state = .silent → s.sha.quietTimer = none → exec page s = exec page s.offers)

/-- R121: the resolution takes the lowest-numbered band that the offer and the ability share, the preferred pol where they
share it and the other one otherwise, and the shortest period of the ability; it fails where there is no such band, pol or
period. H is preferred without an offer row and while the row's preset pol is at most 450 in absolute value. (The masks
are those that stand at the resolution: the model's choice, log 38.) -/
def Obligations.ResolutionTakesTheFirstCommonValues : Prop :=
  ∀ (a : Ability) (s : State),
    let row := s.acq.ctx.bind fun c => s.sites[c.row]?
    let bands := (row.map (·.set.bandMask)).getD s.sha.vanBands &&& a.bands
    let pols := (row.map (·.set.polMask)).getD s.sha.vanPols &&& a.pols
    let preferV : Bool := row.any fun e => 450 < e.set.presetPol.natAbs
    resolve s a =
      (if bands = 0 ∨ pols = 0 ∨ a.periods = 0 then none
       else some
        { band :=
            if bands.getLsbD 0 then .b1 else if bands.getLsbD 1 then .b2 else if bands.getLsbD 2 then .b3 else .b4
          pol :=
            if preferV then (if pols.getLsbD 1 then .v else .h) else (if pols.getLsbD 0 then .h else .v)
          period := if a.periods.getLsbD 0 then .p100 else if a.periods.getLsbD 1 then .p200 else .p500 })

/-- R124, R125, R127: in CHOSEN an echo whose toggle is not that of the sent choice is ignored; one equal to the sent choice
enters UP, with the agreed choice, the report silence watch at three periods and the LINK UP notice. R126, R127, R142, R146:
link ready is yes where a context runs whose row takes any site or the identity held, and the context is then told READY; it
is no otherwise. An echo with the toggle alone right enters NO_COMMON, and a context is told LINK. In OFFERING, UP and
NO_COMMON, and in SILENT while the quiet time runs, an echo is ignored; in SILENT otherwise it enters OFFERING (R119). (That
SWEEPING, which READY begins, fails with ZONE on a sweep end outside the soft range is the model's reading of R30: log 44.) -/
def Obligations.EchoPagesDecideTheLink : Prop :=
  ∀ (c sent : Choice) (toggle sentToggle : Bool) (s : State),
    let up : Bool → State := fun ready =>
      { s with
        sha :=
          { s.sha with
            state := .up, echoTimer := none, agreed := some c, reportWatch := some (3 * periodMs c.period)
            linkReady := ready } }.noticed (.linkUp c)
    let lacking : State :=
      { s with sha := { s.sha with state := .noCommon, offerTimer := none, echoTimer := none } }.noticed .linkNoCommon
    s.running →
    (s.sha.state = .chosen → s.sha.sent = some (sent, sentToggle) →
      (toggle ≠ sentToggle → exec (.choiceEcho c toggle) s = .next s) ∧
      (toggle = sentToggle → c = sent → s.roomy →
        (s.acq.ctx = none → exec (.choiceEcho c toggle) s = .next (up false)) ∧
        (∀ k e, s.acq.ctx = some k → s.sites[k.row]? = some e →
          let fits := e.set.siteCode = 0 ∨ s.sha.identity = some e.set.siteCode
          (fits → completes (.choiceEcho c toggle) s (up true).hearsReady) ∧
          (fits → k.linkIsReady = false → k.step = none →
            exec (.choiceEcho c toggle) s = .next
              { up true with
                acq := { s.acq with ctx := some { k with linkIsReady := true, linkUsed := true, linkWait := none } } }) ∧
          (¬ fits → exec (.choiceEcho c toggle) s = .next (up false)))) ∧
      (toggle = sentToggle → c ≠ sent → s.roomy →
        (s.acq.ctx = none → exec (.choiceEcho c toggle) s = .next lacking) ∧
        (s.acq.ctx.isSome → completes (.choiceEcho c toggle) s lacking.hearsLink))) ∧
    (s.sha.state = .offering ∨ s.sha.state = .up ∨ s.sha.state = .noCommon → exec (.choiceEcho c toggle) s = .next s) ∧
    (s.sha.state = .silent → s.sha.quietTimer.isSome → exec (.choiceEcho c toggle) s = .next s) ∧
    (s.sha.state = .silent → s.sha.quietTimer = none → exec (.choiceEcho c toggle) s = .next s.offers) ∧
    [Period.p100, .p200, .p500].map periodMs = [100, 200, 500]

/-- R126, R132, R133: an IDENT is recorded in CHOSEN and in UP, where one that repeats the identity held changes nothing, and
ignored in OFFERING and NO_COMMON. A REPORT in UP is accepted with the window empty or with a sequence 1 to 127 past the
newest: its record, paired with the PAN and TILT positions, enters the window of eight, from which a record of the same
sequence and those older leave, and the report silence watch restarts at three periods; a report marked invalid is recorded
with level -1300. Any other REPORT is ignored. R126, R127: an IDENT that differs in UP is compared with the site code of the
running row, where that is not 0: the match makes link ready yes and is told READY; a mismatch with link ready yes makes it
no, empties the window, raises the MISMATCH notice and is told LINK. R143: with link ready yes an accepted REPORT is told to
the context: R147, R148 in SWEEPING the mean level is judged for the begin and the end edge, R155 to R157 in TRACK the lost
run and the report count move, a lost track ends or acquires again, and a re-trim starts; elsewhere it is not used. (The
report count past 255 is a free value, log 10. Which records leave for a sequence that stands in the window already, what a
tie records as the clip of a sweep end, and that SWEEPING, which READY begins, fails with ZONE on a sweep end outside the soft
range are the model's: logs 42, 24 and 44.) R119: in SILENT outside the quiet time both enter OFFERING. -/
def Obligations.IdentAndReportPagesAreTaken : Prop :=
  ∀ (code seq : Nat) (level : Int) (valid : Bool) (s : State),
    let identified := { s with sha := { s.sha with identity := some code } }
    let accepts := s.sha.window = [] ∨
      ∃ r rest, s.sha.window = r :: rest ∧ 1 ≤ (seq + 256 - r.seq) % 256 ∧ (seq + 256 - r.seq) % 256 ≤ 127
    s.running →
    (s.sha.state = .chosen → exec (.ident code) s = .next identified) ∧
    (s.sha.state = .up → s.sha.identity = some code → exec (.ident code) s = .next s) ∧
    (s.sha.state = .up → s.acq.ctx = none → exec (.ident code) s = .next identified) ∧
    (∀ k e, s.sha.state = .up → s.sha.identity ≠ some code → s.acq.ctx = some k → s.sites[k.row]? = some e →
      let matched : State := { identified with sha := { identified.sha with linkReady := true } }
      let mismatched : State := { identified with sha := { identified.sha with window := [], linkReady := false } }
      (e.set.siteCode = 0 ∨ (code = e.set.siteCode ∧ s.sha.linkReady = true) ∨
          (code ≠ e.set.siteCode ∧ s.sha.linkReady = false) →
        exec (.ident code) s = .next identified) ∧
      (e.set.siteCode ≠ 0 → code = e.set.siteCode → s.sha.linkReady = false →
        completes (.ident code) s matched.hearsReady) ∧
      (e.set.siteCode ≠ 0 → code ≠ e.set.siteCode → s.sha.linkReady = true → s.roomy →
        completes (.ident code) s (mismatched.noticed (.linkMismatch code)).hearsLink)) ∧
    (s.sha.state = .offering ∨ s.sha.state = .noCommon → exec (.ident code) s = .next s) ∧
    (∀ c, s.sha.state = .up → s.sha.agreed = some c → accepts →
      let taken : State :=
        { s with
          sha :=
            { s.sha with
              window :=
                ({ seq := seq, level := if valid then level else -1300, pan := s.axs.pan.position,
                   tilt := s.axs.tilt.position } ::
                  s.sha.window.takeWhile fun old => old.seq != seq).take 8
              reportWatch := some (3 * periodMs c.period) } }
      (s.sha.linkReady = false ∨ s.acq.ctx = none → exec (.report seq level valid) s = .next taken) ∧
      (s.sha.linkReady = true → completes (.report seq level valid) s taken.usesReport)) ∧
    (s.sha.state = .silent → s.sha.quietTimer.isSome →
      exec (.ident code) s = .next s ∧ exec (.report seq level valid) s = .next s) ∧
    (s.sha.state = .silent → s.sha.quietTimer = none →
      exec (.ident code) s = .next s.offers ∧ exec (.report seq level valid) s = .next s.offers) ∧
    ((s.sha.state = .up ∧ ¬ accepts) ∨ s.sha.state = .offering ∨ s.sha.state = .chosen ∨ s.sha.state = .noCommon →
      exec (.report seq level valid) s = .next s)

/-- R134: the mean level of a window, newest record first, for an average length k: none with the window empty, and otherwise
the sum of the levels of the newest min(k, n) of its n records over their number, rounded down. A squelched report enters
the window at -1300. -/
def Obligations.MeanLevelOfTheNewestRecords : Prop :=
  (∀ k : Nat, meanLevel [] k = none) ∧
  (∀ (w : List WinRec) (k : Nat), w ≠ [] → 1 ≤ k →
    let n : Int := min k w.length
    let sum := ((w.take (min k w.length)).map (·.level)).sum
    ∃ m : Int, meanLevel w k = some m ∧ m * n ≤ sum ∧ sum < (m + 1) * n) ∧
  (∀ (seq : Nat) (level : Int) (s : State), s.running → s.sha.state = .up → s.sha.window = [] → s.sha.linkReady = false →
    completes (.report seq level false) s fun t =>
      t.sha.window = [{ seq := seq, level := -1300, pan := s.axs.pan.position, tilt := s.axs.tilt.position }])

/-! ## Management table access -/

/-- R182, R130: a READ of any field but SITE_UP and the latest notices answers DONE with the present flag and the value, 0
and 0 for a field that is absent or does not exist, and changes nothing. A READ of SITE_UP answers 1 in UP while the latch is
not set, else 0, and clears the latch. The fields of the eleven tables are given in order, and the enumerations by number.
While no context runs the fields of Table 8-2 but the first read their values at creation. (The numbers that a present agreed
choice, sent choice and site ability read are free values, log 9. These are the model's: that the fields which are not
optional read present and the unfilled places of the wind memory absent, log 20; one field of table 10 for each compound, and
so the numbers of its fields from 2 on, log 22; the numbers of the window mode, 0 for PASS and 1 for CLOSED, and of the phase
after settle, log 21.) -/
def Obligations.ReadsAnswerTheField : Prop :=
  ∀ (table row field : Nat) (s : State),
    let num : Nat → Option Int := fun n => some (n : Int)
    let flag : Bool → Option Int := fun b => some (if b then 1 else 0)
    let opt : Option Nat → Option Int := fun o => o.map fun n => (n : Int)
    let fields : Nat → Nat → Nat → List (Option Int) := fun n t k => (List.range n).map (readField s t k)
    (s.listens →
      (isSpecialRead table row field = false →
        exec (.read table row field) s = .next (s.queues
          (.reply 0x30 0 none (.field (readField s table row field).isSome ((readField s table row field).getD 0))))) ∧
      exec .readSiteUp s = .next
        ({ s with sha := { s.sha with downSeen := false } }.queues
          (.reply 0x30 0 none (.field true (if s.sha.state = Handshake.up ∧ s.sha.downSeen = false then 1 else 0))))) ∧
    (fields 3 0 0 = [num 4600, num 1, none] ∧ (0 < row → readField s 0 row field = none) ∧
      (11 ≤ table → readField s table row field = none)) ∧
    ((∀ a : Axis,
      let r := s.axis a
      fields 19 1 (axisNode a - 1) =
        [num r.motion.code, num r.owner.code, r.position, r.working, r.alternate, num (selCode r.sel), r.jogTarget,
          flag r.stopping, num r.rateLimit, num r.tolerance, num r.arrivalLimit, some r.softMin, some r.softMax,
          num r.faultCause.code, opt r.driveCode, flag r.releaseReady, num (s.chan (moveChannel a)).code,
          if a = .mast then num (s.chan .lock).code else none, none]) ∧
      (4 ≤ row → readField s 1 row field = none)) ∧
    ((∀ z, s.zones[row]? = some z → fields 9 2 row =
        [flag z.valid, some z.arcFrom, some z.arcTo, some z.tiltLow, some z.tiltHigh, some z.heightLow, some z.heightHigh,
          num z.hits, none]) ∧
      (s.zones[row]? = none → readField s 2 row field = none)) ∧
    ((∀ e, s.sites[row]? = some e →
      let x := e.set
      let l := e.learned
      let edges : Option Edges → List (Option Int) := fun o =>
        [o.map (·.beginEdge), o.map (·.endEdge), o.map (·.midpoint), flag (o.any (·.isOpen))]
      fields 32 3 row =
        [num e.state.code, num x.siteCode, some x.presetPan, some x.presetTilt, some x.presetPol, num x.bandMask.toNat,
          num x.polMask.toNat, some x.edgeLevel, some x.lostLevel, num x.lostCount, num x.avgLength, num x.searchAz,
          num x.searchEl, num x.trimAz, num x.trimEl, num x.searchRate, flag x.autoReacquire, some e.adjust.offsetAz,
          some e.adjust.offsetEl, num e.adjust.retrim] ++ edges l.az ++ edges l.el ++
          [l.pan, l.tilt, num l.cause.code, none]) ∧
      (s.sites[row]? = none → readField s 3 row field = none)) ∧
    ((∀ sl, s.dsq.slots[row]? = some sl →
      let action : Action → List (Option Int) := fun x =>
        [num x.kind.code, num (if x.kind = .channel then x.channel.code else 0),
          num (if x.kind = .channel then x.state.code else 0)]
      fields 7 4 row = action sl.deploy ++ action sl.stow ++ [none]) ∧
      (s.dsq.slots[row]? = none → readField s 4 row field = none)) ∧
    ((∀ r, s.wsm.derate[row]? = some r → fields 6 5 row =
        [flag r.valid, num r.floor, some r.heightCap, num r.panCap, num r.tiltCap, none]) ∧
      (s.wsm.derate[row]? = none → readField s 5 row field = none)) ∧
    (let d := s.dsq
     let w := s.wsm
     let x := s.txc
     let settings : List (Option Int) → List (Option Int) := fun context =>
      [num s.mgt.deadmanTime, num s.lnu.window.code] ++
      [num d.deploy.code, opt d.slot, num d.holdCause.code, num d.walkCause.code, d.deployHeight, flag d.parkIn,
        flag d.stowIn, some d.stowHeight, some d.stowPan, some d.stowTilt, some d.unstowTilt, some d.minHeight,
        some d.maxHeight, some d.defaultHeight, num d.slotTime, num d.keepOn.toNat, num d.wakePose.code] ++
      [opt (w.inForce.map (·.1)), num w.gust.code, opt w.gustValue, opt w.memory[0]?, opt w.memory[1]?, opt w.memory[2]?,
        num w.warnRun, num w.holdRun, num w.calmRun, num w.warnThreshold, num w.holdThreshold, num w.stowWind,
        num w.slopeLimit, num w.slopeMargin, w.lastSlope.map (·.1), w.lastSlope.map (·.2), num w.slopeState.code] ++
      [num (s.sha.vanBands.toNat + 16 * s.sha.vanPols.toNat)] ++ context ++
      [num s.acq.settleTime, num s.acq.maxExtent] ++
      [flag x.txen, flag x.latch, flag x.mute, flag x.tracked, num x.deploy.code, num x.gust.code, flag x.axisHalted,
        flag x.pending, flag x.panSeen, flag x.tiltSeen] ++
      [num s.lnu.rateSet, num s.lnu.rateInForce, none]
     let context : Ctx → List (Option Int) := fun c =>
      [num c.row, num c.phase.code, opt (c.step.map SweepStep.code), flag c.rest.isSome, c.centre, opt c.extent, c.sweepStart,
        c.sweepEnd, num c.clipLow.code, num c.clipHigh.code, flag c.widened, num c.gapRestarts, c.partialBegin, c.partialEnd,
        num c.reportCount, num c.retrimInUse, num c.lostRun, flag c.reacquire, flag c.linkIsReady, flag c.linkUsed,
        num c.afterSettle.code]
     (∀ c, s.acq.ctx = some c → fields 73 6 0 = settings (context c)) ∧
      (s.acq.ctx = none → fields 73 6 0 = settings
        [none, num 0, none, flag false, none, none, none, none, num 0, num 0, flag false, num 0, none, none, num 0, num 0,
          num 0, flag false, flag false, flag false, num 2]) ∧
      (0 < row → readField s 6 row field = none)) ∧
    ((∀ r, s.sha.window[row]? = some r → fields 5 7 row = [num r.seq, some r.level, r.pan, r.tilt, none]) ∧
      (s.sha.window[row]? = none → readField s 7 row field = none)) ∧
    ((∀ e, s.acq.stack[row]? = some e → fields 8 8 row =
        [num e.row, num e.cause.code, num e.phase.code, e.midpointAz, e.resumePan, e.resumeTilt, flag e.reacquire, none]) ∧
      (s.acq.stack[row]? = none → readField s 8 row field = none)) ∧
    ((∀ c, NoticeClass.ofRow row = some c →
        (fields 4 9 row).tail = [flag (s.ntu.get c).pending, flag (s.ntu.get c).newer, none]) ∧
      (NoticeClass.ofRow row = none → readField s 9 row field = none)) ∧
    (let h := s.sha
     [0, 1, 4, 5, 6, 8, 9, 10, 11].map (readField s 10 0) =
        [num h.state.code, flag (!h.downSeen && h.state = .up), flag h.toggle, num h.resends, flag h.heard, opt h.identity,
          flag h.linkReady, opt (h.window.head?.map (·.seq)), none] ∧
      [2, 3, 7].map (fun n => (readField s 10 0 n).isSome) = [h.agreed.isSome, h.sent.isSome, h.siteAbility.isSome] ∧
      (0 < row → readField s 10 row field = none)) ∧
    ([Motion.off, .idle, .moving, .jogging, .halted].map Motion.code = List.range 5 ∧
      [Owner.none, .console, .search, .sequence, .wind].map Owner.code = List.range 5 ∧
      [Sel.work, .alt].map selCode = List.range 2 ∧
      [FaultCause.none, .drive, .silence, .arrival, .badReport].map FaultCause.code = List.range 5 ∧
      [ChanState.off, .full, .low].map ChanState.code = List.range 3 ∧
      [EntryState.empty, .loaded, .acquiring, .tracked, .suspended, .lost].map EntryState.code = List.range 6 ∧
      [LastCause.none, .noSignal, .zone, .gaps, .link, .lostLevel, .wind, .stowed, .aborted].map LastCause.code =
        List.range 9 ∧
      [ActionKind.none, .channel, .mastUp, .mastDown, .tiltOut, .tiltIn, .panHome].map ActionKind.code = List.range 7 ∧
      [ActionChannel.lift, .lock, .pan, .tilt, .pol, .dish].map ActionChannel.code = List.range 6 ∧
      [WindowMode.pass, .closed].map WindowMode.code = List.range 2 ∧
      [Deploy.unknown, .stowed, .raising, .deployed, .parked, .lowering, .held].map Deploy.code = List.range 7 ∧
      [HoldCause.none, .unsure, .zone, .axis, .slope, .stopped, .action, .wind].map HoldCause.code = List.range 8 ∧
      [WalkCause.none, .request, .button, .interlock, .wind].map WalkCause.code = List.range 5 ∧
      [WakePose.return, .preset].map WakePose.code = List.range 2 ∧
      [Gust.calm, .warn, .hold].map Gust.code = List.range 3 ∧
      [SlopeState.none, .level, .over, .fault].map SlopeState.code = List.range 4 ∧
      [Phase.slew, .settle, .azSweep, .elSweep, .track, .retrimAz, .retrimEl].map Phase.code = List.range 7 ∧
      [SweepStep.toStart, .sweeping, .centring].map SweepStep.code = List.range 3 ∧
      [Clip.none, .soft, .zone].map Clip.code = List.range 3 ∧
      [SuspendCause.override, .gust, .switch, .park].map SuspendCause.code = List.range 4 ∧
      [ResumePhase.slew, .azSweep, .elSweep, .track].map ResumePhase.code = List.range 4 ∧
      [Handshake.silent, .offering, .chosen, .up, .noCommon].map Handshake.code = List.range 5)

/-- R184: a READ of the latest notice of a class answers with it. With pending clear it changes nothing; with pending alone
it clears pending; with newer-cause it clears newer-cause, leaves pending set and sends one fresh NOTICE of the latest. (That it
does so too while a NOTICE of the class is still held is the model's: log 45.) -/
def Obligations.NoticeReadsAcknowledgeTheClass : Prop :=
  ∀ (cls : Nat) (c : NoticeClass) (s : State),
    let row := s.ntu.get c
    let answered : State → Host.Outcome State Fault Refusal := fun t =>
      .next (t.queues (.reply 0x30 0 none (.notice row.latest)))
    s.listens → NoticeClass.ofRow cls = some c →
    (row.pending = false → exec (.readNotice cls) s = answered s) ∧
    (row.pending = true → row.newer = false →
      exec (.readNotice cls) s = answered { s with ntu := s.ntu.set c { row with pending := false } }) ∧
    (∀ n, row.pending = true → row.newer = true → row.latest = some n → s.roomy →
      exec (.readNotice cls) s =
        answered ({ s with ntu := s.ntu.set c { row with newer := false } }.queues (.notice n)))

/-- R2, R182 (Table 1-3): a WRITE of an axis setting within its range changes that setting alone and is answered DONE, and
outside it REFUSED RANGE; the other fields of an axis record, and every field of tables 0 and 7 to 10, are read-only and
answered REFUSED IGNORED. -/
def Obligations.WritesOfAxisSettings : Prop :=
  ∀ (a : Axis) (field : Nat) (v : Int) (s : State), s.listens →
    let r := s.axis a
    let write : Instr := .write 1 (axisNode a - 1) field v
    let set : AxisRec → State := fun q => { s with axs := s.axs.set a q }
    (field = 8 → exec write s = writeOutcome s
      (within 1 (if a = .mast then 30 else 300) v (set { r with rateLimit := v.toNat }))) ∧
    (field = 9 → exec write s = writeOutcome s (within 0 50 v (set { r with tolerance := v.toNat }))) ∧
    (field = 10 → exec write s = writeOutcome s (within 1 255 v (set { r with arrivalLimit := v.toNat }))) ∧
    (field = 11 → exec write s = writeOutcome s
      (within (fullLow a) (min (fullHigh a) r.softMax) v (set { r with softMin := v }))) ∧
    (field = 12 → exec write s = writeOutcome s
      (within (max (fullLow a) r.softMin) (fullHigh a) v (set { r with softMax := v }))) ∧
    (field < 8 ∨ 12 < field → exec write s = .next (s.queues (replyRefused 0x31 .ignored))) ∧
    (∀ table row, table = 0 ∨ 7 ≤ table →
      exec (.write table row field v) s = .next (s.queues (replyRefused 0x31 .ignored)))

/-- R57, R65, R67, R101, R137, R180, R182 (Table 11-4): a WRITE of a setting of table 6 within its range changes that setting
alone and is answered DONE, and outside it REFUSED RANGE. (The window mode is written 0 for PASS and 1 for CLOSED: the
model's choice, log 21.) R66, R94, R173, R182: a WRITE to a read-only field of table 6, or to an address of the table that
does not exist, is answered REFUSED IGNORED. R69: a WRITE of the Sequence Table is refused BUSY in RAISING and LOWERING; in
any other state one of the values named for the field is written, and any other value is refused RANGE. (That the channel and
the state of an action are written by their own range whatever its kind, and kept when the kind changes, is the model's: log
19.) -/
def Obligations.WritesOfTheSettingsTable : Prop :=
  ∀ (v : Int) (s : State), s.listens →
    let put : Nat → Option State → Prop := fun field o => exec (.write 6 0 field v) s = writeOutcome s o
    let d := s.dsq
    let dsq : Dsq → State := fun x => { s with dsq := x }
    put 0 (if v % 10 = 0 then within 50 500 v { s with mgt := { s.mgt with deadmanTime := v.toNat } } else none) ∧
    put 1 (within 0 1 v { s with lnu := { s.lnu with window := if v = 0 then .pass else .closed } }) ∧
    put 9 (within 0 (min 100 (d.minHeight - 1)) v (dsq { d with stowHeight := v })) ∧
    put 10 (within 0 3599 v (dsq { d with stowPan := v })) ∧
    put 11 (within (-100) 900 v (dsq { d with stowTilt := v })) ∧
    put 12 (within (-100) 900 v (dsq { d with unstowTilt := v })) ∧
    put 13 (within (max 1 (d.stowHeight + 1)) (min 1500 d.maxHeight) v (dsq { d with minHeight := v })) ∧
    put 14 (within (max 1 d.minHeight) 1500 v (dsq { d with maxHeight := v })) ∧
    put 15 (within 0 1500 v (dsq { d with defaultHeight := v })) ∧
    put 16 (if v = 200 ∨ v = 500 ∨ v = 1000 ∨ v = 2000 then some (dsq { d with slotTime := v.toNat }) else none) ∧
    put 17 (within 0 31 v (dsq { d with keepOn := BitVec.ofNat 5 v.toNat })) ∧
    put 18 (within 0 1 v (dsq { d with wakePose := if v = 0 then .return else .preset })) ∧
    put 31 (within 1 300 v { s with wsm := { s.wsm with slopeLimit := v.toNat } }) ∧
    put 32 (within 0 100 v { s with wsm := { s.wsm with slopeMargin := v.toNat } }) ∧
    put 58 (if v % 100 = 0 then within 0 10000 v { s with acq := { s.acq with settleTime := v.toNat } } else none) ∧
    put 59 (within 1 400 v { s with acq := { s.acq with maxExtent := v.toNat } }) ∧
    put 70 (if v = 38400 ∨ v = 115200 ∨ v = 460800 then some { s with lnu := { s.lnu with rateSet := v.toNat } } else none) ∧
    (∀ row field, row ≠ 0 ∨ (2 ≤ field ∧ field ≤ 8) ∨ (19 ≤ field ∧ field ≤ 27) ∨ (33 ≤ field ∧ field ≤ 35) ∨
        (37 ≤ field ∧ field ≤ 57) ∨ (60 ≤ field ∧ field ≤ 69) ∨ 71 ≤ field →
      exec (.write 6 row field v) s = .next (s.queues (replyRefused 0x31 .ignored))) ∧
    (∀ row field, s.dsq.slots[row]? = none ∨ 6 ≤ field →
      exec (.write 4 row field v) s = .next (s.queues (replyRefused 0x31 .ignored))) ∧
    (∀ row field sl, s.dsq.slots[row]? = some sl → field ≤ 5 →
      let action : Action → Nat → Option Action := fun x n =>
        match n with
        | 0 => within 0 6 v { x with
            kind := [ActionKind.none, .channel, .mastUp, .mastDown, .tiltOut, .tiltIn, .panHome].getD v.toNat .none }
        | 1 => within 0 5 v { x with
            channel := [ActionChannel.lift, .lock, .pan, .tilt, .pol, .dish].getD v.toNat .lift }
        | _ => within 0 2 v { x with state := [ChanState.off, .full, .low].getD v.toNat .off }
      let slot : Option Slot :=
        if field < 3 then (action sl.deploy field).map fun x => { sl with deploy := x }
        else (action sl.stow (field - 3)).map fun x => { sl with stow := x }
      (d.deploy = .raising ∨ d.deploy = .lowering →
        exec (.write 4 row field v) s = .next (s.queues (replyRefused 0x31 .busy))) ∧
      (d.deploy ≠ .raising → d.deploy ≠ .lowering →
        exec (.write 4 row field v) s =
          writeOutcome s (slot.map fun x => dsq { d with slots := d.slots.set row x })))

/-- R23, R34, R35, R36, R176: a WRITE to a zone is refused RANGE outside the field's range, and IGNORED for the hit count. An
accepted one sets the zone's hits to 0 and hands TXC the pose judgement: TXEN at a pose no longer clear goes off with the
enable pending, and a pending enable starts afresh. The notice of a pose that the zone has come to contain follows, and then the
re-check of MAST, PAN and TILT in that order, each in the state that the one before has left. While the written zone is not
valid, or no axis travels, nothing else happens. (The order of the STOP frames at an entry to HELD is the model's: log 39.) -/
def Obligations.WritesOfZones : Prop :=
  ∀ (row field : Nat) (v : Int) (z : Zone) (s : State), s.listens → s.zones[row]? = some z →
    let new : Option Zone :=
      match field with
      | 0 => within 0 1 v { z with valid := v = 1 }
      | 1 => within 0 3599 v { z with arcFrom := v }
      | 2 => within 0 3599 v { z with arcTo := v }
      | 3 => within (-100) z.tiltHigh v { z with tiltLow := v }
      | 4 => within z.tiltLow 900 v { z with tiltHigh := v }
      | 5 => within 0 z.heightHigh v { z with heightLow := v }
      | _ => within z.heightLow 1500 v { z with heightHigh := v }
    let after : Zone → State := fun n =>
      let u := { s with zones := s.zones.set row { n with hits := 0 } }
      { u with
        txc :=
          if s.txc.txen && !poseClear u then { s.txc with txen := false, pending := true, panSeen := false, tiltSeen := false }
          else if s.txc.pending then { s.txc with panSeen := false, tiltSeen := false }
          else s.txc }
    let entered : Zone → Bool := fun n => (presentPose s).any fun p => zoneHolds n p && !zoneHolds z p
    (field ≤ 6 → new = none → exec (.writeZone row field v) s = .next (s.queues (replyRefused 0x31 .range))) ∧
    (7 ≤ field → exec (.writeZone row field v) s = .next (s.queues (replyRefused 0x31 .ignored))) ∧
    (∀ n, field ≤ 6 → new = some n → (n.valid = false ∨ ∀ a : Axis, (s.axis a).travelling = false) → entered n = false →
      exec (.writeZone row field v) s = .next ((after n).queues (replyDone 0x31))) ∧
    (∀ n, field ≤ 6 → new = some n → (∀ a : Axis, (s.axis a).travelling = false) → entered n = true → s.roomy →
      exec (.writeZone row field v) s = .next (((after n).noticed (.zonePose row)).queues (replyDone 0x31))) ∧
    (∀ n, field ≤ 6 → new = some n → (entered n = true → s.roomy) →
      let u := if entered n then (after n).noticed (.zonePose row) else after n
      completes (.writeZone row field v) s fun t => ∃ m p w, u.rechecks n row .mast m ∧ m.rechecks n row .pan p ∧
        p.rechecks n row .tilt w ∧ t = w.queues (replyDone 0x31))

/-- R92, R94 (Table 5-4): a WRITE to a derate row is refused RANGE outside the field's range, and where valid or a floor is
written and the floors of the valid rows would not rise strictly; outside HOLD an accepted one changes that field alone, and
in HOLD it is followed by a re-judgement (R98). A WRITE of a wind setting within its set of values, its range and the order of
the settings changes it and clears the three run counts; any other is refused RANGE. -/
def Obligations.WritesOfWindTables : Prop :=
  ∀ (row field : Nat) (v : Int) (r : DerateRow) (s : State), s.listens → s.wsm.derate[row]? = some r →
    let w := s.wsm
    let new : Option DerateRow :=
      match field with
      | 0 => within 0 1 v { r with valid := v = 1 }
      | 1 => within 0 600 v { r with floor := v.toNat }
      | 2 => within 0 1500 v { r with heightCap := v }
      | 3 => within 1 300 v { r with panCap := v.toNat }
      | _ => within 1 300 v { r with tiltCap := v.toNat }
    let rises : List DerateRow → Prop := fun rows => ((rows.filter (·.valid)).map (·.floor)).Pairwise (· < ·)
    let refused : Host.Outcome State Fault Refusal := .next (s.queues (replyRefused 0x31 .range))
    let fresh : Wsm := { w with warnRun := 0, holdRun := 0, calmRun := 0 }
    (field ≤ 4 → new = none → exec (.writeDerateRow row field v) s = refused) ∧
    (∀ n, field ≤ 1 → new = some n → n.valid = true → ¬ rises (w.derate.set row n) →
      exec (.writeDerateRow row field v) s = refused) ∧
    (∀ n, field ≤ 4 → new = some n → (2 ≤ field ∨ n.valid = false ∨ rises (w.derate.set row n)) → w.gust ≠ .hold →
      exec (.writeDerateRow row field v) s =
        .next ({ s with wsm := { w with derate := w.derate.set row n } }.queues (replyDone 0x31))) ∧
    (∀ n, field ≤ 4 → new = some n → (2 ≤ field ∨ n.valid = false ∨ rises (w.derate.set row n)) → w.gust = .hold →
      ∃ t, { s with wsm := { w with derate := w.derate.set row n } }.windHolds false t ∧
        exec (.writeDerateRow row field v) s = .next (t.queues (replyDone 0x31))) ∧
    exec (.writeWindSetting .warnThreshold v) s = writeOutcome s
      (if (v = 80 ∨ v = 110 ∨ v = 140 ∨ v = 170) ∧ v < w.holdThreshold then
        some { s with wsm := { fresh with warnThreshold := v.toNat } } else none) ∧
    exec (.writeWindSetting .holdThreshold v) s = writeOutcome s
      (if 50 ≤ v ∧ v ≤ 600 ∧ w.warnThreshold < v ∧ v ≤ w.stowWind then
        some { s with wsm := { fresh with holdThreshold := v.toNat } } else none) ∧
    exec (.writeWindSetting .stowWind v) s = writeOutcome s
      (if 50 ≤ v ∧ v ≤ 600 ∧ w.holdThreshold ≤ v then
        some { s with wsm := { fresh with stowWind := v.toNat } } else none)

/-- R105 to R107, R111, R112, R118 (Table 6-1): a WRITE of an entry setting within its range puts an EMPTY, LOADED or LOST
entry in LOADED with the setting written (masks within the van ability word) and the learned fields cleared; one of an
ACQUIRING, TRACKED or SUSPENDED entry is refused BUSY. Only EMPTY is written as a state: it empties a LOADED or LOST entry. A
running adjustment is written in every state. A new van ability word narrows the masks of every entry that is not EMPTY. R104,
R182 (Table 6-7): a WRITE to a learned field, or to a field that does not exist, is answered REFUSED IGNORED. -/
def Obligations.WritesOfTheSiteTable : Prop :=
  ∀ (row field : Nat) (v : Int) (e : Entry) (s : State), s.listens → s.sites[row]? = some e →
    let x : EntrySettings :=
      if e.state = .empty then
        { e.set with bandMask := e.set.bandMask &&& s.sha.vanBands, polMask := e.set.polMask &&& s.sha.vanPols }
      else e.set
    let new : Option EntrySettings :=
      match field with
      | 1 => within 0 65535 v { x with siteCode := v.toNat }
      | 2 => within 0 3599 v { x with presetPan := v }
      | 3 => within (-100) 900 v { x with presetTilt := v }
      | 4 => within (-900) 900 v { x with presetPol := v }
      | 5 => within 0 15 v { x with bandMask := BitVec.ofNat 4 v.toNat &&& s.sha.vanBands }
      | 6 => within 0 3 v { x with polMask := BitVec.ofNat 2 v.toNat &&& s.sha.vanPols }
      | 7 => within (max x.lostLevel (-1300)) (-100) v { x with edgeLevel := v }
      | 8 => within (-1300) (min x.edgeLevel (-100)) v { x with lostLevel := v }
      | 9 => within 1 20 v { x with lostCount := v.toNat }
      | 10 => within 1 8 v { x with avgLength := v.toNat }
      | 11 => within 1 200 v { x with searchAz := v.toNat }
      | 12 => within 1 200 v { x with searchEl := v.toNat }
      | 13 => within 1 50 v { x with trimAz := v.toNat }
      | 14 => within 1 50 v { x with trimEl := v.toNat }
      | 15 => within 1 50 v { x with searchRate := v.toNat }
      | _ => within 0 1 v { x with autoReacquire := v = 1 }
    let busy := e.state = .acquiring ∨ e.state = .tracked ∨ e.state = .suspended
    let put : Entry → State := fun n => { s with sites := s.sites.set row n }
    let refused : Reason → Host.Outcome State Fault Refusal := fun why => .next (s.queues (replyRefused 0x31 why))
    (1 ≤ field → field ≤ 16 →
      (new = none → exec (.writeEntrySetting row field v) s = refused .range) ∧
      (new ≠ none → busy → exec (.writeEntrySetting row field v) s = refused .busy) ∧
      (∀ n, new = some n → ¬ busy → exec (.writeEntrySetting row field v) s =
        .next ((put { e with state := .loaded, set := n, learned := ⟨none, none, none, none, .none⟩ }).queues
          (replyDone 0x31)))) ∧
    (v ≠ 0 → exec (.writeEntryState row v) s = refused .range) ∧
    (busy → exec (.writeEntryState row 0) s = refused .busy) ∧
    (¬ busy → exec (.writeEntryState row 0) s =
      .next ((put (if e.state = .empty then e else .powerOn)).queues (replyDone 0x31))) ∧
    exec (.write 3 row 17 v) s = writeOutcome s (within (-50) 50 v (put { e with adjust := { e.adjust with offsetAz := v } })) ∧
    exec (.write 3 row 18 v) s = writeOutcome s (within (-50) 50 v (put { e with adjust := { e.adjust with offsetEl := v } })) ∧
    exec (.write 3 row 19 v) s = writeOutcome s (within 0 255 v (put { e with adjust := { e.adjust with retrim := v.toNat } })) ∧
    (∀ n, 20 ≤ n → exec (.write 3 row n v) s = refused .ignored) ∧
    exec (.writeVanAbilityWord v) s = writeOutcome s (within 0 63 v
      { s with
        sha := { s.sha with vanBands := BitVec.ofNat 4 v.toNat, vanPols := BitVec.ofNat 2 (v.toNat / 16) }
        sites := s.sites.map fun e =>
          if e.state = .empty then e
          else
            { e with
              set :=
                { e.set with
                  bandMask := e.set.bandMask &&& BitVec.ofNat 4 v.toNat
                  polMask := e.set.polMask &&& BitVec.ofNat 2 (v.toNat / 16) } } })

/-! ## Deploy Sequencer -/

/-- R75 (Table 4-7), R31: outside DEPLOYED a DEPLOY is refused with the reason of the first check that fails, in the order
STATE, INTERLOCK, NO_SEQUENCE, SLOPE, RANGE, WIND, ZONE, and has no other effect but, for ZONE, the hits of the zones that
the box of the mast path meets: the height from the MAST position to the height asked, the tilt from the stow tilt to the unstow
tilt, the pan from the PAN position to the stow pan. Where no check fails it is not refused. -/
def Obligations.DeployIsRefusedByTheFirstFailingCheck : Prop :=
  ∀ (height : Option Int) (s : State), s.listens → s.dsq.deploy ≠ .deployed →
    let h := height.getD s.dsq.defaultHeight
    let refused : Reason → Prop := fun why => exec (.deploy height) s = .next (s.queues (replyRefused 0x32 why))
    let state := s.dsq.deploy = .stowed ∧ ∀ a : Axis, (s.axis a).motion ≠ .halted
    let interlock := s.dsq.parkIn = true ∧ s.dsq.stowIn = false
    let sequence := ∃ sl ∈ s.dsq.slots, sl.deploy.kind ≠ .none
    let slope := ∃ roll pitch, s.wsm.lastSlope = some (roll, pitch) ∧ roll.natAbs ≤ s.wsm.slopeLimit ∧
      pitch.natAbs ≤ s.wsm.slopeLimit
    let range := s.dsq.minHeight ≤ h ∧ h ≤ s.dsq.maxHeight
    let wind := s.wsm.gust ≠ .hold ∧ ∀ row, s.wsm.caps = some row → h ≤ row.heightCap
    let meets : Zone → Bool := fun z => zoneMeets z (deployBox s h)
    (¬ state → refused .state) ∧
    (state → ¬ interlock → refused .interlock) ∧
    (state → interlock → ¬ sequence → refused .noSequence) ∧
    (state → interlock → sequence → ¬ slope → refused .slope) ∧
    (state → interlock → sequence → slope → ¬ range → refused .range) ∧
    (state → interlock → sequence → slope → range → ¬ wind → refused .wind) ∧
    (state → interlock → sequence → slope → range → wind → (∃ z ∈ s.zones, meets z = true) →
      exec (.deploy height) s = .next
        ({ s with zones := s.zones.map fun z =>
            if meets z then { z with hits := if z.hits < 255 then z.hits + 1 else z.hits } else z }.queues
          (replyRefused 0x32 .zone))) ∧
    (state → interlock → sequence → slope → range → wind → deployRefusal s h = none) ∧
    (∀ mast pan, (s.axis .mast).position = some mast → (s.axis .pan).position = some pan →
      let d := s.dsq
      deployBox s h =
        { height := (min mast h, max mast h), tilt := (min d.stowTilt d.unstowTilt, max d.stowTilt d.unstowTilt)
          pan := (min pan d.stowPan, max pan d.stowPan) })

/-- R69, R71, R72, R75: a DEPLOY that passes its checks keeps the height, takes every axis for SEQUENCE, answers DONE and
starts the forward walk in RAISING: the first slot whose deploy action is not NONE starts, a CHANNEL action by setting its
channels with the slot timer running, a motion action by its MOVE or by HELD (R70). When the slot timer of the last slot runs
out outside HOLD, the part is DEPLOYED, with no slot in progress, every axis released and the UP notice raised. R70 to R74
(Tables 4-4 to 4-6): in both walks a slot timer that runs out, and the arrival of the axis of a motion action, take the walk on
from the slot in progress: past the NONE slots to the next action, which sets its channels, sends its MOVE or enters HELD with
the cause of its first failing check, or to the end of the walk. (The order of the STOP frames at an entry to HELD is the model's: log 39.) -/
def Obligations.DeployRunsTheForwardWalk : Prop :=
  ∀ (height : Option Int) (s : State),
    let h := height.getD s.dsq.defaultHeight
    (s.listens → deployRefusal s h = none → (∀ z ∈ s.zones, zoneMeets z (deployBox s h) = false) →
      completes (.deploy height) s fun t => ∃ u : State,
        u.dsq = { s.dsq with deploy := .raising, deployHeight := some h } ∧
        (∀ a : Axis, (u.axis a).owner = .sequence ∧ (u.axis a).position = (s.axis a).position ∧
          ((s.axis a).travelling = false → u.axis a = { s.axis a with owner := .sequence })) ∧
        (∀ c : Channel, u.chan c = s.chan c) ∧ u.lnu.queue = s.lnu.queue ++ [replyDone 0x32] ∧ u.zones = s.zones ∧
        u.wsm = s.wsm ∧ u.out = s.out ∧ u.raisesOver 0 t) ∧
    (∀ n, s.running → s.dsq.deploy = .raising → s.dsq.slot = some n → s.dsq.slotTimer.isSome → s.wsm.gust ≠ .hold →
      (∀ m sm, n < m → s.dsq.slots[m]? = some sm → sm.deploy.kind = .none) →
      completes .slotTimerExpiry s fun t =>
        t.dsq = { s.dsq with deploy := .deployed, slot := none, slotTimer := none } ∧
        (∀ a : Axis, t.axis a = { s.axis a with owner := .none }) ∧
        (t.ntu.get .deploy).latest = some .deployUp ∧ t.txc.deploy = .deployed) ∧
    (s.running → (s.dsq.deploy = .raising ∨ s.dsq.deploy = .lowering) → s.dsq.slotTimer.isSome →
      completes .slotTimerExpiry s fun t => { s with dsq := { s.dsq with slotTimer := none } }.walksOn t) ∧
    (∀ (n : Nat) (sl : Slot) (a : Axis) (x : Option Int) (target pos : Int) (code : Nat),
      let r := s.axis a
      let u := s.reports a pos
        { r with
          position := some pos, silenceWatch := some 1000, motion := .idle, arrivalTimer := none, jogTarget := none }
      s.running → s.dsq.slot = some n → s.dsq.slots[n]? = some sl →
      (s.dsq.deploy = .raising ∧ s.dsq.motionOf sl.deploy.kind = some (a, x) ∨
        s.dsq.deploy = .lowering ∧ s.dsq.motionOf sl.stow.kind = some (a, x)) →
      r.owner = .sequence → r.motion = .moving → r.selected = some target → inFull a pos = true →
      (pos - target).natAbs ≤ r.tolerance → s.txc.ordered →
      ∃ t, u.walksOn t ∧ exec (.position a pos false false code) s = .next
        (t.forwards (axisNode a) 0x10 (positionPayload pos false false code)))

/-- R76: in DEPLOYED, a DEPLOY to a height within the deployed heights, the cap and the soft range, with MAST at rest and free
and the move ALLOWED outside HOLD, moves MAST to it for SEQUENCE and answers DONE; the deploy state stays. Otherwise it is
refused with the reason of the first check that fails, in the order RANGE, WIND, OWNER, STATE, BUSY, RANGE, ZONE, and has no
other effect but, for ZONE, the hits of the zones that block the move. On arrival MAST is released and the HEIGHT notice
raised, on air too (R175, R176). -/
def Obligations.DeployInDeployedMovesTheMast : Prop :=
  ∀ (height : Option Int) (s : State),
    let h := height.getD s.dsq.defaultHeight
    let r := s.axis .mast
    let range := s.dsq.minHeight ≤ h ∧ h ≤ s.dsq.maxHeight
    let wind := s.wsm.gust ≠ .hold ∧ ∀ row, s.wsm.caps = some row → h ≤ row.heightCap
    let owner := r.owner = .none ∨ r.owner = .console
    let idle := r.motion = .idle
    let soft := r.softMin ≤ h ∧ h ≤ r.softMax
    let refused : Reason → Prop := fun why => exec (.deploy height) s = .next (s.queues (replyRefused 0x32 why))
    (s.listens → s.dsq.deploy = .deployed → range → wind → owner → s.mastFree → idle → soft →
    inFull .mast h = true → (moveCheck s .mast h).1 = false →
    exec (.deploy height) s = .next
      ({ s with
        axs := s.axs.set .mast
          { r.setTarget r.sel (some h) with
            owner := .sequence, motion := .moving, jogTarget := none, stopping := false, stopMoved := false
            arrivalTimer := some r.arrivalLimit }
        mgt := s.mgt.set .mast none
        dsq := { s.dsq with deployHeight := some h }
        out := { s.out with drive := s.out.drive ++ [DriveFrame.move .mast h r.rateLimit] } }.queues (replyDone 0x32))) ∧
    (s.listens → s.dsq.deploy = .deployed →
      (¬ range → refused .range) ∧ (range → ¬ wind → refused .wind) ∧ (range → wind → ¬ owner → refused .owner) ∧
      (range → wind → owner → ¬ s.mastFree → refused .state) ∧ (range → wind → owner → s.mastFree → ¬ idle → refused .busy) ∧
      (range → wind → owner → s.mastFree → idle → ¬ soft → refused .range) ∧
      (range → wind → owner → s.mastFree → idle → soft → (∃ z ∈ s.zones, moveBlocker s .mast h z = true) →
        exec (.deploy height) s = .next ((s.hitBy .mast h).queues (replyRefused 0x32 .zone)))) ∧
    (∀ (target pos x : Int) (code : Nat), s.running → s.dsq.deploy = .deployed → r.owner = .sequence → r.motion = .moving →
      r.selected = some target → inFull .mast pos = true → (pos - target).natAbs ≤ r.tolerance → s.txc.ordered →
      s.dsq.deployHeight = some x → s.roomy →
      exec (.position .mast pos false false code) s = .next
        (((s.reports .mast pos
            { r with
              position := some pos, silenceWatch := some 1000, motion := .idle, arrivalTimer := none, jogTarget := none
              owner := .none }).noticed (.deployHeight x)).forwards 1 0x10 (positionPayload pos false false code)))

/-- R13, R63, R82, R83, R163, R164: a PARK in DEPLOYED with no re-height under way suspends a running context with cause PARK, its
row SUSPENDED, sets each channel LOW that the keep-on mask holds and the others OFF, enters PARKED and answers DONE. A travelling
axis (its channels FULL, as the invariant of O59 says) is stopped before its CHANNEL frame, an axis whose channel changes is IDLE
or OFF by the new state, and its jog run is closed. A WAKE in PARKED sets every channel FULL, each OFF axis IDLE, enters DEPLOYED and answers DONE; Table 4-10: it raises no
AWAKE notice, which is the wake by a console frame's (the model's reading: log 18). In other states they are refused STATE, and
PARK during a re-height BUSY. R98: in HOLD both re-judge at the change of the deploy state (log 15). R166, R168: outside HOLD a
PARK entry on top of the stack is popped at the WAKE. With wake pose RETURN it slews to the learned pose, for TRACK after the
settle, where the row holds learned pan and tilt, and else as its saved phase gives; with PRESET to the preset pose, for
AZ_SWEEP. In HOLD it is kept with its notice. -/
def Obligations.ParkAndWakeAreTaken : Prop :=
  ∀ s : State, s.listens →
    (s.dsq.deploy ≠ .deployed → exec .park s = .next (s.queues (replyRefused 0x34 .state))) ∧
    (s.dsq.deploy = .deployed → (s.axis .mast).owner = .sequence →
      exec .park s = .next (s.queues (replyRefused 0x34 .busy))) ∧
    (s.dsq.deploy = .deployed → (s.axis .mast).owner ≠ .sequence → s.agrees →
      (s.wsm.gust ≠ .hold → completes .park s fun t => s.parks t ∧ t.lnu.queue.getLast? = some (replyDone 0x34)) ∧
      (s.wsm.gust = .hold → completes .park s fun t =>
        ∃ u v, s.parks u ∧ u.windHolds false v ∧ t = v.queues (replyDone 0x34))) ∧
    (s.dsq.deploy ≠ .parked → exec .wake s = .next (s.queues (replyRefused 0x35 .state))) ∧
    (s.dsq.deploy = .parked → s.agrees →
      (s.wsm.gust ≠ .hold → (∀ e rest, s.acq.stack = e :: rest → e.cause ≠ .park) →
        exec .wake s = .next (s.awake.queues (replyDone 0x35))) ∧
      (∀ e rest x, s.wsm.gust ≠ .hold → s.acq.stack = e :: rest → e.cause = .park → s.acq.ctx = none →
        s.sites[e.row]? = some x → x.state = .suspended → s.awake.slewFree →
        s.awake.slewAllowed (s.awake.wakeSlew e x).1.1 (s.awake.wakeSlew e x).1.2 →
        completes .wake s fun t => s.awake.resumesAtWake e x t ∧ replyDone 0x35 ∈ t.lnu.queue) ∧
      (s.wsm.gust = .hold → s.awake.keepsNone →
        completes .wake s fun t => ∃ u, s.awake.windHolds false u ∧ t = u.queues (replyDone 0x35)) ∧
      (∀ e rest, s.wsm.gust = .hold → ¬ s.awake.keepsNone → s.acq.stack = e :: rest →
        completes .wake s fun t => s.awake.keepsAtWake e t ∧ replyDone 0x35 ∈ t.lnu.queue))

/-- R21, R86: CLEAR_HOLD. With an axis HALTED that is not release ready and none that is, it is refused STATE. Outside HELD an
axis HALTED and release ready, the only one HALTED, is cleared: IDLE or OFF by its channel, its targets its position; and with
none HALTED the answer is DONE and nothing changes. In HELD with no axis HALTED: above the stow height with every axis IDLE it
is refused INTERLOCK by the lines and else enters DEPLOYED; otherwise with the stow test passing it enters STOWED with the
channels OFF, and with it failing it is refused STATE. R98: a change to DEPLOYED in HOLD re-judges. R68: the stow test passes
with the MAST position at most the stow height and the PAN and TILT positions within their tolerances of the stow pan and the
stow tilt. -/
def Obligations.ClearHoldFollowsTheState : Prop :=
  ∀ s : State, s.listens → s.agrees →
    let noneHalted := ∀ a : Axis, (s.axis a).motion ≠ .halted
    let up := ((s.axis .mast).position.any fun p => s.dsq.stowHeight < p) = true ∧ ∀ a : Axis, (s.axis a).motion = .idle
    ((∃ a : Axis, (s.axis a).motion = .halted) → (∀ a : Axis, (s.axis a).motion = .halted → (s.axis a).releaseReady = false) →
      exec .clearHold s = .next (s.queues (replyRefused 0x3D .state))) ∧
    (∀ a : Axis, s.dsq.deploy ≠ .held → (s.axis a).motion = .halted → (s.axis a).releaseReady = true →
      (∀ b : Axis, b ≠ a → (s.axis b).motion ≠ .halted) → completes .clearHold s fun t =>
        t.axs = s.axs.set a
          { s.axis a with
            motion := if s.chan (moveChannel a) = .off then .off else .idle
            faultCause := .none, driveCode := none, releaseReady := false, working := (s.axis a).position
            alternate := (s.axis a).position, sel := .work } ∧
        t.txc.axisHalted = false ∧ t.lnu.queue = s.lnu.queue ++ [replyDone 0x3D] ∧ sameBut [.axs, .txc, .lnu] s t) ∧
    (noneHalted → s.dsq.deploy ≠ .held → exec .clearHold s = .next (s.queues (replyDone 0x3D))) ∧
    (noneHalted → s.dsq.deploy = .held → up → s.dsq.parkIn = false ∨ s.dsq.stowIn = true →
      exec .clearHold s = .next (s.queues (replyRefused 0x3D .interlock))) ∧
    (noneHalted → s.dsq.deploy = .held → up → s.dsq.parkIn = true → s.dsq.stowIn = false → s.wsm.gust ≠ .hold →
      completes .clearHold s fun t =>
        t.dsq = { s.dsq with deploy := .deployed, holdCause := .none } ∧
        (∀ a : Axis, t.axis a = { s.axis a with owner := .none }) ∧ (t.ntu.get .deploy).latest = some .deployUp ∧
        t.lnu.queue.getLast? = some (replyDone 0x3D)) ∧
    (noneHalted → s.dsq.deploy = .held → up → s.dsq.parkIn = true → s.dsq.stowIn = false → s.wsm.gust = .hold →
      completes .clearHold s fun t => ∃ u : State,
        { s with
          axs := { s.axs with
            mast := { s.axs.mast with owner := .none }, pan := { s.axs.pan with owner := .none }
            tilt := { s.axs.tilt with owner := .none }, pol := { s.axs.pol with owner := .none } }
          dsq := { s.dsq with deploy := .deployed, holdCause := .none }
          txc := { s.txc with deploy := .deployed } }.windHolds false u ∧
        t.axs = u.axs ∧ t.dsq = u.dsq ∧ t.acq = u.acq ∧ t.out = u.out ∧
        t.lnu.queue.getLast? = some (replyDone 0x3D)) ∧
    (noneHalted → s.dsq.deploy = .held → ¬ up → stowTest s = true → completes .clearHold s fun t =>
      t.dsq = { s.dsq with deploy := .stowed, holdCause := .none } ∧ (∀ a : Axis, (t.axis a).owner = .none) ∧
      (∀ c : Channel, t.chan c = .off)) ∧
    (noneHalted → s.dsq.deploy = .held → ¬ up → stowTest s = false →
      exec .clearHold s = .next (s.queues (replyRefused 0x3D .state))) ∧
    (stowTest s = true ↔ ∃ h p t, (s.axis .mast).position = some h ∧ (s.axis .pan).position = some p ∧
      (s.axis .tilt).position = some t ∧ h ≤ s.dsq.stowHeight ∧ (p - s.dsq.stowPan).natAbs ≤ (s.axis .pan).tolerance ∧
      (t - s.dsq.stowTilt).natAbs ≤ (s.axis .tilt).tolerance)

/-! ## Keep-Out Table -/

/-- R25, R28 (Tables 2-2 and 2-3): which poses a zone holds, and which boxes it meets: ends count, and an invalid zone takes
part in no test. A pose is forbidden when some zone holds it. A box whose intervals are in order meets a zone exactly when
the zone holds some pose of the box. -/
def Obligations.ZonesHoldPosesAndMeetBoxes : Prop :=
  ∀ (z : Zone) (p : Pose) (b : Box) (s : State),
    (zoneHolds z p = true ↔
      z.valid = true ∧
      (if z.arcFrom ≤ z.arcTo then z.arcFrom ≤ p.pan ∧ p.pan ≤ z.arcTo else z.arcFrom ≤ p.pan ∨ p.pan ≤ z.arcTo) ∧
      (z.tiltLow ≤ p.tilt ∧ p.tilt ≤ z.tiltHigh) ∧ (z.heightLow ≤ p.height ∧ p.height ≤ z.heightHigh)) ∧
    ((poseCheck s p).1 = true ↔ ∃ y ∈ s.zones, zoneHolds y p = true) ∧
    (zoneMeets z b = true ↔
      z.valid = true ∧
      (if z.arcFrom ≤ z.arcTo then b.pan.1 ≤ z.arcTo ∧ z.arcFrom ≤ b.pan.2 else z.arcFrom ≤ b.pan.2 ∨ b.pan.1 ≤ z.arcTo) ∧
      (b.tilt.1 ≤ z.tiltHigh ∧ z.tiltLow ≤ b.tilt.2) ∧ (b.height.1 ≤ z.heightHigh ∧ z.heightLow ≤ b.height.2)) ∧
    (z.tiltLow ≤ z.tiltHigh → z.heightLow ≤ z.heightHigh → b.pan.1 ≤ b.pan.2 → b.tilt.1 ≤ b.tilt.2 →
      b.height.1 ≤ b.height.2 →
      (zoneMeets z b = true ↔
        ∃ q : Pose, zoneHolds z q = true ∧ (b.pan.1 ≤ q.pan ∧ q.pan ≤ b.pan.2) ∧
          (b.tilt.1 ≤ q.tilt ∧ q.tilt ≤ b.tilt.2) ∧ (b.height.1 ≤ q.height ∧ q.height ≤ b.height.2)))

/-! ## Acquisition -/

/-- R138 (Table 8-4), R32: an ACQUIRE is refused with the reason of the first check that fails, in the order RANGE, STATE,
BUSY, EMPTY, WIND, OWNER, STATE, RANGE, ZONE, and has no other effect but, for ZONE, the hits of the zones that hold the
preset pose. Where none fails it is not refused. R140: the slew pose of an entry is its learned pan and tilt when both are
present, and its presets otherwise. -/
def Obligations.AcquireIsRefusedByTheFirstFailingCheck : Prop :=
  ∀ (row : Nat) (s : State), s.listens →
    let refused : Reason → Prop := fun why => exec (.acquire row) s = .next (s.queues (replyRefused 0x36 why))
    (8 ≤ row → refused .range) ∧
    (∀ e, row < 8 → s.sites[row]? = some e →
      let deployed := s.dsq.deploy = .deployed
      let other := ∀ c, s.acq.ctx = some c → c.row ≠ row
      let filled := e.state ≠ .empty
      let calm := s.wsm.gust ≠ .hold
      let owned := ∀ a : Axis, a ≠ .mast → (s.axis a).owner ≠ .sequence ∧ (s.axis a).owner ≠ .wind ∧
        ((s.axis a).owner = .console → (s.axis a).motion = .idle)
      let ready := (∀ a : Axis, a ≠ .mast → (s.axis a).motion ≠ .halted ∧ (s.axis a).motion ≠ .off ∧
        s.chan (moveChannel a) = .full ∧ (s.axis a).position.isSome) ∧ (s.axis .mast).position.isSome
      let soft : Axis → Int → Prop := fun a v => (s.axis a).softMin ≤ v ∧ v ≤ (s.axis a).softMax
      let ranged := soft .pan (slewPose e).1 ∧ soft .tilt (slewPose e).2 ∧ soft .pol e.set.presetPol
      let holds : Int → Zone → Bool := fun h z => zoneHolds z ⟨e.set.presetPan, e.set.presetTilt, h⟩
      (¬ deployed → refused .state) ∧
      (deployed → ¬ other → refused .busy) ∧
      (deployed → other → ¬ filled → refused .empty) ∧
      (deployed → other → filled → ¬ calm → refused .wind) ∧
      (deployed → other → filled → calm → ¬ owned → refused .owner) ∧
      (deployed → other → filled → calm → owned → ¬ ready → refused .state) ∧
      (deployed → other → filled → calm → owned → ready → ¬ ranged → refused .range) ∧
      (slewPose e =
        (match e.learned.pan, e.learned.tilt with
          | some pan, some tilt => (pan, tilt)
          | _, _ => (e.set.presetPan, e.set.presetTilt))) ∧
      (deployed → other → filled → calm → owned → acquireRefusal s row = none) ∧
      (∀ h, ready → ranged → (s.axis .mast).position = some h → (∀ z ∈ s.zones, holds h z = false) →
        (slewChecks s row).1 = none) ∧
      (ready → ¬ ranged → (slewChecks s row).1 = some .range) ∧ (¬ ready → (slewChecks s row).1 = some .state) ∧
      (∀ h, ready → ranged → (s.axis .mast).position = some h → (∃ z ∈ s.zones, holds h z = true) →
        (slewChecks s row).1 = some .zone) ∧
      (∀ h, deployed → other → filled → calm → owned → ready → ranged → (s.axis .mast).position = some h →
        (∃ z ∈ s.zones, holds h z = true) → exec (.acquire row) s = .next
          ({ s with zones := s.zones.map fun z =>
              if holds h z then { z with hits := if z.hits < 255 then z.hits + 1 else z.hits } else z }.queues
            (replyRefused 0x36 .zone))))

/-- R139, R140, R164: an ACQUIRE that passes its checks, with no context running, drops the row's own context from the Resume
Stack, moves the row to ACQUIRING, creates its context and starts its slew after the REPLY DONE. Where another context runs,
it is pushed on the stack with cause SWITCH, its row SUSPENDED, and the answer is DONE. R163 (Table 9-3): the entry that a push
forms from the context. -/
def Obligations.AcquireStartsASlew : Prop :=
  ∀ (row : Nat) (e : Entry) (s : State),
    s.listens → s.sites[row]? = some e → acquireRefusal s row = none → (slewChecks s row).1 = none →
    (s.acq.ctx = none → s.slewFree → s.slewAllowed (slewPose e).1 (slewPose e).2 →
      (e.state = .loaded ∨ e.state = .lost ∨ (e.state = .suspended ∧ ∃ x ∈ s.acq.stack, x.row = row)) →
      completes (.acquire row) s fun t =>
        s.slewing row (slewPose e).1 (slewPose e).2 e.set.presetPol .azSweep false t ∧
        t.acq.stack = s.acq.stack.filter (fun x => x.row ≠ row) ∧ t.sites = s.sites.set row { e with state := .acquiring } ∧
        t.lnu.queue = s.lnu.queue ++ [replyDone 0x36]) ∧
    (∀ c old, s.acq.ctx = some c → s.sites[c.row]? = some old → (old.state = .acquiring ∨ old.state = .tracked) →
      completes (.acquire row) s fun t =>
        let saved : StackEntry :=
          { row := c.row, cause := .switch
            phase :=
              (match c.phase with
                | .slew | .settle => .slew
                | .azSweep => .azSweep
                | .elSweep => .elSweep
                | .track | .retrimAz | .retrimEl => .track)
            midpointAz := if c.phase = .elSweep then old.learned.az.map (·.midpoint) else none
            resumePan := if c.phase = .azSweep then c.centre else none
            resumeTilt :=
              if c.phase = .azSweep then (s.axis .tilt).working else if c.phase = .elSweep then c.centre else none
            reacquire := c.reacquire }
        (∃ rest, t.acq.stack = saved :: rest) ∧
        (∃ new, t.sites[c.row]? = some new ∧ new.state = .suspended ∧ new.set = old.set) ∧
        replyDone 0x36 ∈ t.lnu.queue)

/-- R169: a DROP_RESUME is refused EMPTY while the stack is empty, in every deploy state and gust state. Otherwise it removes
the top entry, moves its row from SUSPENDED to LOADED with its last cause and learned fields kept, and is answered DONE;
nothing else changes. -/
def Obligations.DropResumeRemovesTheTopEntry : Prop :=
  ∀ s : State, s.listens →
    (s.acq.stack = [] → exec .dropResume s = .next (s.queues (replyRefused 0x39 .empty))) ∧
    (∀ e rest, s.acq.stack = e :: rest → exec .dropResume s = .next
      ({ s with
        acq := { s.acq with stack := rest }
        sites := s.sites.modify e.row fun x => if x.state = EntryState.suspended then { x with state := .loaded } else x }.queues
          (replyDone 0x39)))

/-- R159, R165, R166: RESUME is refused EMPTY while the stack is empty, and STATE outside DEPLOYED and in HOLD. A RESUME that
is taken removes the top entry, pushes a running context with cause SWITCH, moves the row to ACQUIRING, raises the notice,
answers DONE and starts the slew. A RELEASE is refused EMPTY with no context running, and otherwise ends the context and the
link: the row LOADED with last cause NONE, PAN, TILT and POL stopped and released. R167 (Table 9-4): the slew pose and the phase
after settle of a resumed context. -/
def Obligations.ResumeAndRelease : Prop :=
  ∀ s : State, s.listens →
    (s.acq.stack = [] → exec .resume s = .next (s.queues (replyRefused 0x38 .empty))) ∧
    (∀ e rest, s.acq.stack = e :: rest →
      (s.dsq.deploy ≠ .deployed ∨ s.wsm.gust = .hold → exec .resume s = .next (s.queues (replyRefused 0x38 .state))) ∧
      (∀ x pan tilt, s.dsq.deploy = .deployed → s.wsm.gust ≠ .hold → s.acq.ctx = none → s.sites[e.row]? = some x →
        x.state = .suspended → resumePose s e e.phase = (pan, tilt) → s.slewFree → s.slewAllowed pan tilt →
        completes .resume s fun t =>
          s.slewing e.row pan tilt x.set.presetPol e.phase.after e.reacquire t ∧ t.acq.stack = rest ∧
          t.sites = s.sites.set e.row { x with state := .acquiring } ∧
          (t.ntu.get .resume).latest = some (.resumeResumed e.row e.cause) ∧
          t.lnu.queue.getLast? = some (replyDone 0x38)) ∧
      (∀ c, s.dsq.deploy = .deployed → s.wsm.gust ≠ .hold → s.acq.ctx = some c → s.fits →
        completes .resume s fun t =>
          (∃ y, t.acq.stack = y :: rest ∧ y.row = c.row ∧ y.cause = .switch) ∧
          (t.ntu.get .resume).latest = some (.resumeResumed e.row e.cause) ∧ replyDone 0x38 ∈ t.lnu.queue)) ∧
    (s.acq.ctx = none → exec .release s = .next (s.queues (replyRefused 0x37 .empty))) ∧
    (∀ c, s.acq.ctx = some c → completes .release s fun t =>
      t.acq = { s.acq with ctx := none } ∧ t.searchReleased ∧
      t.sites = s.sites.modify c.row (fun e =>
        if e.state = .acquiring ∨ e.state = .tracked then
          { e with state := .loaded, learned := { e.learned with cause := .none } }
        else e) ∧
      t.txc.tracked = false ∧ t.txc.mute = false ∧ t.sha.state = .silent ∧ t.sha.linkReady = false ∧
      t.out.site = (if s.sha.state = .silent then s.out.site else s.out.site ++ [.leave]) ∧
      t.lnu.queue = s.lnu.queue ++ [replyDone 0x37]) ∧
    [ResumePhase.slew, .azSweep, .elSweep, .track].map ResumePhase.after = [.azSweep, .azSweep, .elSweep, .track] ∧
    (∀ (e : StackEntry) x, s.sites[e.row]? = some x →
      resumePose s e .slew = slewPose x ∧ resumePose s e .track = slewPose x ∧
      (∀ pan tilt, e.resumePan = some pan → e.resumeTilt = some tilt → resumePose s e .azSweep = (pan, tilt)) ∧
      (∀ mid tilt, e.midpointAz = some mid → e.resumeTilt = some tilt →
        resumePose s e .elSweep =
          (max (s.axis .pan).softMin (min (s.axis .pan).softMax (mid + x.adjust.offsetAz)), tilt)))

/-- R141, R142, R151, R156 to R158: the settle timer that runs out in SETTLE starts the phase after settle; the link wait
timer that runs out ends the search, or the track, with cause LINK; the gap timer that runs out stops the axis, and the sweep
starts afresh up to three times, the fourth time failing with GAPS. R140, R145, R146, R149, R152 (Table 8-6): what the
arrival of an axis owned by SEARCH comes to, where it is the step axis: the next move of the slew and, after POL, SETTLE;
SWEEPING at the sweep start once the link is READY; at the sweep end CENTRING with an open end edge, or the end without a
begin edge; the edges and the next phase at the centring target. R146, R148, R150, R151: what the first report at rest after
a STOP comes to, by what awaits it. Each is stated of the state in which TXC has judged the reported pose (R175, R176), off air
and on air, so of the re-trims of a track (R155) too. (The order within the report, what a tie records as the clip of a sweep
end, that the entry to TRACK takes the re-trim interval that its last centring read, and that SWEEPING fails with ZONE on a sweep
end outside the soft range are the model's: logs 12, 24, 35 and 44.) -/
def Obligations.AcquisitionTimersRunOut : Prop :=
  ∀ (c : Ctx) (e : Entry) (s : State), s.running → s.acq.ctx = some c → s.sites[c.row]? = some e →
    let phaseA : Axis := if c.phase = .elSweep ∨ c.phase = .retrimEl then .tilt else .pan
    (c.settleTimer.isSome → c.phase = .settle → completes .settleTimerExpiry s (s.settled c)) ∧
    (c.linkWait.isSome → completes .linkWaitExpiry s (s.losesLink c)) ∧
    (c.gapTimer.isSome →
      (c.gapRestarts < 3 → ((s.axis phaseA).motion = .moving ∨ (s.axis phaseA).motion = .idle) →
        exec .gapTimerExpiry s = .next
          ((s.withStop phaseA).withCtx
            { c with
              step := some .toStart, rest := some .reform, gapTimer := none, stepAxis := none, partialBegin := none
              partialEnd := none, partialOpen := false, gapRestarts := c.gapRestarts + 1 })) ∧
      (3 ≤ c.gapRestarts → completes .gapTimerExpiry s (s.endsSearch c .gaps))) ∧
    (∀ (a : Axis) (pos : Int) (code : Nat), inFull a pos = true → s.dsq.deploy ≠ .unknown → s.txc.ordered →
      (s.axis a).owner = .search →
      let r := s.axis a
      let seen := { r with position := some pos, silenceWatch := some 1000 }
      let comesTo : (State → Prop) → Prop := fun Q => ∃ v, Q v ∧
        exec (.position a pos false false code) s = .next
          (v.forwards (axisNode a) 0x10 (positionPayload pos false false code))
      (∀ target, r.motion = .moving → r.selected = some target → (pos - target).natAbs ≤ r.tolerance →
        let u := s.reports a pos { seen with motion := .idle, arrivalTimer := none, jogTarget := none }
        (c.stepAxis ≠ some a → comesTo (· = u)) ∧
        (c.stepAxis = some a → c.step = none → c.phase = .slew →
          (c.tiltFirst = true → a = .tilt → comesTo (u.slewsOn c .pan c.slewPan)) ∧
          (c.tiltFirst = true → a = .pan → comesTo (u.slewsOn c .pol c.slewPol)) ∧
          (c.tiltFirst = false → a = .pan → comesTo (u.slewsOn c .tilt c.slewTilt)) ∧
          (c.tiltFirst = false → a = .tilt → comesTo (u.slewsOn c .pol c.slewPol)) ∧
          (a = .pol →
            let settling := { c with phase := .settle, stepAxis := none, settleTimer := some s.acq.settleTime }
            (s.acq.settleTime ≠ 0 → comesTo (· = u.withCtx settling)) ∧
            (s.acq.settleTime = 0 → comesTo (u.settled settling)))) ∧
        (c.stepAxis = some a → c.step = some .toStart →
          (c.linkIsReady = true → comesTo (u.beginsSweep c)) ∧
          (c.linkIsReady = false → comesTo (· = u.withCtx { c with stepAxis := none }))) ∧
        (c.stepAxis = some a → c.step = some .sweeping →
          (c.partialBegin ≠ none →
            comesTo (u.centres { c with gapTimer := none, partialEnd := c.sweepEnd, partialOpen := true })) ∧
          (c.partialBegin = none → comesTo (u.noEdge { c with gapTimer := none, stepAxis := none }))) ∧
        (c.stepAxis = some a → c.step = some .centring → c.phase ∈ [Phase.azSweep, .elSweep, .retrimAz, .retrimEl] →
          comesTo (u.centred c))) ∧
      (r.motion = .off ∨ r.motion = .idle → r.stopping = true →
        let v := s.reports a pos
          { (if r.stopMoved then seen.setTarget r.sel (some pos) else seen) with stopping := false, stopMoved := false }
        (a ≠ phaseA ∨ c.rest = none → comesTo (· = v)) ∧
        (a = phaseA → c.rest = some .reform → comesTo (v.formsSweep c)) ∧
        (a = phaseA → c.rest = some .centre → comesTo (v.centres c)) ∧
        (a = phaseA → c.rest = some .edgeHere →
          comesTo (v.centres { c with partialEnd := some pos, partialOpen := true })) ∧
        (a = phaseA → c.rest = some .noEdge → comesTo (v.noEdge { c with rest := none })))) ∧
    (phaseAxis c.phase = phaseA ∧ (c.phase.tracks = true ↔ c.phase ∈ [Phase.track, .retrimAz, .retrimEl]))

/-! ## Transmitter, link, line and watches -/

/-- R173, R174: TX_ON in DEPLOYED sets the latch and clears the mute, and the enable becomes pending, with nothing seen, where
the condition was false and is now true; elsewhere it is refused STATE. TX_OFF clears the latch, mutes a running track, and
drops TXEN and the pending enable. Nothing else changes, and the answer is DONE. -/
def Obligations.TxOnAndTxOff : Prop :=
  ∀ s : State, s.listens → s.agrees →
    let x := s.txc
    let allowed := s.wsm.gust ≠ .hold ∧ x.axisHalted = false
    (s.dsq.deploy ≠ .deployed → exec .txOn s = .next (s.queues (replyRefused 0x3B .state))) ∧
    (s.dsq.deploy = .deployed → allowed → x.latch = false → (x.tracked = false ∨ x.mute = true) →
      exec .txOn s = .next ({ s with
        txc := { x with latch := true, mute := false, pending := true, panSeen := false, tiltSeen := false } }.queues
          (replyDone 0x3B))) ∧
    (s.dsq.deploy = .deployed → (¬ allowed ∨ x.latch = true ∨ (x.tracked = true ∧ x.mute = false)) →
      exec .txOn s = .next ({ s with txc := { x with latch := true, mute := false } }.queues (replyDone 0x3B))) ∧
    exec .txOff s = .next ({ s with
      txc :=
        { x with
          latch := false, mute := x.tracked || x.mute, txen := false, pending := false, panSeen := false
          tiltSeen := false } }.queues (replyDone 0x3C))

/-- R119, R120, R123, R129, R131: the offer timer sends another ABILITY; the echo timer sends the CHOICE again up to three
times and then enters OFFERING with the RETRY notice; the report silence watch takes the link down with its notice; the quiet
time ends. A RENEGOTIATE enters OFFERING in every state and is answered DONE. -/
def Obligations.LinkTimersRunOut : Prop :=
  ∀ s : State,
    let h := s.sha
    let row := s.acq.ctx.bind fun c => s.sites[c.row]?
    let ability : Bool → SitePage := fun ack =>
      .ability ((row.map (·.set.bandMask)).getD h.vanBands) ((row.map (·.set.polMask)).getD h.vanPols) 7 ack
    let sends : Sha → SitePage → State := fun x p => { s with sha := x, out := { s.out with site := s.out.site ++ [p] } }
    let offering : Bool → Sha := fun ack =>
      { h with
        state := .offering, echoTimer := none, reportWatch := none, quietTimer := none, identity := none
        linkReady := false, window := if h.state = .up then [] else h.window
        downSeen := h.downSeen || h.state = .up, heard := ack, offerTimer := some 500 }
    let down : Sha :=
      { h with
        state := .silent, window := [], agreed := none, identity := none, linkReady := false, downSeen := true
        reportWatch := none }
    (s.running →
      (h.offerTimer.isSome →
        exec .offerTimerExpiry s = .next (sends { h with offerTimer := some 500 } (ability h.heard))) ∧
      (∀ c toggle, h.echoTimer.isSome → h.sent = some (c, toggle) →
        (h.resends < 3 → exec .echoTimerExpiry s =
          .next (sends { h with resends := h.resends + 1, echoTimer := some 2000 } (.choice c toggle))) ∧
        (3 ≤ h.resends → s.roomy → exec .echoTimerExpiry s =
          .next ((sends (offering h.heard) (ability h.heard)).noticed .linkRetry))) ∧
      (h.reportWatch.isSome →
        (s.acq.ctx = none → s.roomy → exec .reportSilenceExpiry s = .next ({ s with sha := down }.noticed .linkDown)) ∧
        (∀ c, s.acq.ctx = some c → (c.linkUsed = false ∨ c.phase.tracks = false) →
          completes .reportSilenceExpiry s fun t =>
            t.sha = down ∧ (t.ntu.get .link).latest = some .linkDown ∧ t.out.site = s.out.site ∧
            (c.linkUsed = true → t.acq.ctx = none) ∧
            (c.linkUsed = false →
              ∃ d, t.acq.ctx = some d ∧ d.row = c.row ∧ d.linkIsReady = false ∧ d.linkWait = some 10000))) ∧
      exec .quietTimeExpiry s = .next { s with sha := { h with quietTimer := none } }) ∧
    (s.listens → completes .renegotiate s fun t =>
      t.sha = offering false ∧ t.out.site = s.out.site ++ [ability false] ∧
      t.lnu.queue = s.lnu.queue ++ [replyDone 0x3A] ∧ t.sites = s.sites)

/-- R179, R180, R181: an unknown request is refused RANGE where its kind is one of Table 11-2 and IGNORED otherwise. A
LINE_RESTART with rate set equal to the rate in force is answered DONE and changes nothing; otherwise it keeps the rate set as
the one its REPLY brings into force, and the rate changes when that REPLY has left (log 26). A frame that has left makes its
place free: the oldest held NOTICE takes it while fewer than 63 frames wait. -/
def Obligations.TheLineUnitTakesItsCommands : Prop :=
  ∀ s : State,
    (s.listens →
      (∀ kind, 0x30 ≤ kind → kind ≤ 0x3F → exec (.unknownRequest kind) s = .next (s.queues (replyRefused kind .range))) ∧
      (∀ kind, (kind < 0x30 ∨ 0x3F < kind) → exec (.unknownRequest kind) s = .next (s.queues (replyRefused kind .ignored))) ∧
      (s.lnu.rateSet = s.lnu.rateInForce → exec .lineRestart s = .next (s.queues (replyDone 0x3E))) ∧
      (s.lnu.rateSet ≠ s.lnu.rateInForce → exec .lineRestart s = .next
        ({ s with lnu := { s.lnu with restarts := s.lnu.restarts ++ [s.lnu.rateSet] } }.queues (replyDone 0x3E)))) ∧
    (s.running →
      (∀ rate rest, s.lnu.restarts = rate :: rest →
        exec .rateChange s = .next { s with lnu := { s.lnu with rateInForce := rate, restarts := rest } }) ∧
      (s.lnu.queue = [] → exec .upstreamFrameSent s = .next s) ∧
      (∀ f rest, s.lnu.queue = f :: rest →
        let sent : Out := { s.out with upstream := s.out.upstream ++ [f] }
        (s.ntu.held = [] ∨ 63 ≤ rest.length →
          exec .upstreamFrameSent s = .next { s with lnu := { s.lnu with queue := rest }, out := sent }) ∧
        (∀ n held, s.ntu.held = n :: held → rest.length = 62 → exec .upstreamFrameSent s = .next
          { s with
            lnu := { s.lnu with queue := rest ++ [.notice n] }, ntu := { s.ntu with held := held }, out := sent })))

/-- R18, R19, R62, R71, R91, R119, R123, R129, R131, R141, R142, R151 (log 2): a timer that is not running does not run
out. -/
def Obligations.StoppedTimersDoNothing : Prop :=
  ∀ (a : Axis) (s : State),
    ((s.axis a).arrivalTimer = none → exec (.arrivalTimeout a) s = .next s) ∧
    ((s.axis a).silenceWatch = none → exec (.silenceWatchExpiry a) s = .next s) ∧
    (s.jog a = none → exec (.deadmanExpiry a) s = .next s) ∧
    (s.dsq.slotTimer = none → exec .slotTimerExpiry s = .next s) ∧
    (s.wsm.windWatch = none → exec .windSilenceExpiry s = .next s) ∧
    (s.wsm.slopeWatch = none → exec .slopeSilenceExpiry s = .next s) ∧
    (s.sha.offerTimer = none → exec .offerTimerExpiry s = .next s) ∧
    (s.sha.echoTimer = none → exec .echoTimerExpiry s = .next s) ∧
    (s.sha.reportWatch = none → exec .reportSilenceExpiry s = .next s) ∧
    (s.sha.quietTimer = none → exec .quietTimeExpiry s = .next s) ∧
    ((∀ c, s.acq.ctx = some c → c.settleTimer = none) → exec .settleTimerExpiry s = .next s) ∧
    ((∀ c, s.acq.ctx = some c → c.linkWait = none) → exec .linkWaitExpiry s = .next s) ∧
    ((∀ c, s.acq.ctx = some c → c.gapTimer = none) → exec .gapTimerExpiry s = .next s)

/-- R62, R11: when the deadman timer of an open run runs out, the run closes and the axis is sent one STOP: it is IDLE and
stopping, and its targets and select are kept. R91: when a sensor's silence watch runs out, its notice is raised; the wind
keeps its report memory, counts and gust state, and the slope loses its last report and its state. -/
def Obligations.DeadmanAndSensorWatchesRunOut : Prop :=
  ∀ s : State, s.running →
    (∀ (a : Axis) (run : JogRun), s.jog a = some run →
      let r := s.axis a
      (r.motion = .jogging ∨ r.motion = .idle) → exec (.deadmanExpiry a) s = .next
        { s with
          axs := s.axs.set a
            { r with
              motion := .idle, jogTarget := none, stopping := true, arrivalTimer := none
              stopMoved := r.stopping && r.stopMoved }
          mgt := s.mgt.set a none, out := { s.out with drive := s.out.drive ++ [.stop a] } }) ∧
    (s.roomy →
      (s.wsm.windWatch.isSome →
        exec .windSilenceExpiry s = .next ({ s with wsm := { s.wsm with windWatch := none } }.noticed .windSilent)) ∧
      (s.wsm.slopeWatch.isSome → exec .slopeSilenceExpiry s = .next
        ({ s with wsm := { s.wsm with slopeWatch := none, lastSlope := none, slopeState := .none } }.noticed .slopeSilent)))

/-! ## The invariant and the bytes of the lines -/

/-- The invariant holds right after reset. -/
def Obligations.InvariantHoldsAtReset : Prop := State.reset.inv

/-- R5, R7 to R11, R13, R17, R20, R22, R69, R90, R92, R104, R110, R132, R133, R162, R167, R173, R175, R176, R179: every step
keeps the invariant: axis records of one piece, the channels of each axis that travels FULL, tables and buffers within their capacities, the fields handed to the transmitter
control equal to those of the blocks that handed them, TXEN or the pending enable exactly while the enable condition is true,
and TXEN only at a last reported pose inside no valid zone. The rows SUSPENDED are exactly those of the Resume Stack, which
holds no row twice; a row is ACQUIRING or TRACKED exactly when the running context is its own, TRACKED in the track and the
re-trims. Each record of the Report Window is 1 to 127 ahead of the one before it, and no two bear the same sequence (which
of two such leaves is the model's: log 42). The floors of the valid derate rows rise strictly. -/
def Obligations.EveryStepKeepsTheInvariant : Prop := ∀ s t : State, s.inv → step s = .next t → t.inv

/-- R178, R187 (Tables 11-7 and 11-8): the bytes of the frame that carries a well-formed command, arriving on its port, are
taken as that command and nothing else, with every operand at every value the frame admits. (That a rate and a DEPLOY height
are unsigned, and that a drive report that is malformed is only forwarded, is the model's reading: logs 7 and 8.) -/
def Obligations.BytesOfACommandAreThatCommand : Prop :=
  ∀ (i : Instr) (p : Port) (f : Frame), i.wf = true → frameOf i = some (p, f) → receive p f.bytes = [i]
end

