-- ==== Sys2Proof/Laws/State.lean ====
section
/-! SUPPORT. What each update of the state does to each field, and the records by axis, class and channel. -/

namespace Sys2Proof.Machine

/-! ## `withAxs` -/

@[simp] theorem State.axs_withAxs (s : State) (v) : (s.withAxs v).axs = v := rfl
@[simp] theorem State.mgt_withAxs (s : State) (v) : (s.withAxs v).mgt = s.mgt := rfl
@[simp] theorem State.zones_withAxs (s : State) (v) : (s.withAxs v).zones = s.zones := rfl
@[simp] theorem State.dsq_withAxs (s : State) (v) : (s.withAxs v).dsq = s.dsq := rfl
@[simp] theorem State.wsm_withAxs (s : State) (v) : (s.withAxs v).wsm = s.wsm := rfl
@[simp] theorem State.sites_withAxs (s : State) (v) : (s.withAxs v).sites = s.sites := rfl
@[simp] theorem State.sha_withAxs (s : State) (v) : (s.withAxs v).sha = s.sha := rfl
@[simp] theorem State.acq_withAxs (s : State) (v) : (s.withAxs v).acq = s.acq := rfl
@[simp] theorem State.txc_withAxs (s : State) (v) : (s.withAxs v).txc = s.txc := rfl
@[simp] theorem State.ntu_withAxs (s : State) (v) : (s.withAxs v).ntu = s.ntu := rfl
@[simp] theorem State.lnu_withAxs (s : State) (v) : (s.withAxs v).lnu = s.lnu := rfl
@[simp] theorem State.out_withAxs (s : State) (v) : (s.withAxs v).out = s.out := rfl
@[simp] theorem State.pending_withAxs (s : State) (v) : (s.withAxs v).pending = s.pending := rfl
@[simp] theorem State.withAxs_withAxs (s : State) (u v) : (s.withAxs u).withAxs v = s.withAxs v := rfl

/-! ## `withMgt` -/

@[simp] theorem State.axs_withMgt (s : State) (v) : (s.withMgt v).axs = s.axs := rfl
@[simp] theorem State.mgt_withMgt (s : State) (v) : (s.withMgt v).mgt = v := rfl
@[simp] theorem State.zones_withMgt (s : State) (v) : (s.withMgt v).zones = s.zones := rfl
@[simp] theorem State.dsq_withMgt (s : State) (v) : (s.withMgt v).dsq = s.dsq := rfl
@[simp] theorem State.wsm_withMgt (s : State) (v) : (s.withMgt v).wsm = s.wsm := rfl
@[simp] theorem State.sites_withMgt (s : State) (v) : (s.withMgt v).sites = s.sites := rfl
@[simp] theorem State.sha_withMgt (s : State) (v) : (s.withMgt v).sha = s.sha := rfl
@[simp] theorem State.acq_withMgt (s : State) (v) : (s.withMgt v).acq = s.acq := rfl
@[simp] theorem State.txc_withMgt (s : State) (v) : (s.withMgt v).txc = s.txc := rfl
@[simp] theorem State.ntu_withMgt (s : State) (v) : (s.withMgt v).ntu = s.ntu := rfl
@[simp] theorem State.lnu_withMgt (s : State) (v) : (s.withMgt v).lnu = s.lnu := rfl
@[simp] theorem State.out_withMgt (s : State) (v) : (s.withMgt v).out = s.out := rfl
@[simp] theorem State.pending_withMgt (s : State) (v) : (s.withMgt v).pending = s.pending := rfl
@[simp] theorem State.withMgt_withMgt (s : State) (u v) : (s.withMgt u).withMgt v = s.withMgt v := rfl

/-! ## `withZones` -/

@[simp] theorem State.axs_withZones (s : State) (v) : (s.withZones v).axs = s.axs := rfl
@[simp] theorem State.mgt_withZones (s : State) (v) : (s.withZones v).mgt = s.mgt := rfl
@[simp] theorem State.zones_withZones (s : State) (v) : (s.withZones v).zones = v := rfl
@[simp] theorem State.dsq_withZones (s : State) (v) : (s.withZones v).dsq = s.dsq := rfl
@[simp] theorem State.wsm_withZones (s : State) (v) : (s.withZones v).wsm = s.wsm := rfl
@[simp] theorem State.sites_withZones (s : State) (v) : (s.withZones v).sites = s.sites := rfl
@[simp] theorem State.sha_withZones (s : State) (v) : (s.withZones v).sha = s.sha := rfl
@[simp] theorem State.acq_withZones (s : State) (v) : (s.withZones v).acq = s.acq := rfl
@[simp] theorem State.txc_withZones (s : State) (v) : (s.withZones v).txc = s.txc := rfl
@[simp] theorem State.ntu_withZones (s : State) (v) : (s.withZones v).ntu = s.ntu := rfl
@[simp] theorem State.lnu_withZones (s : State) (v) : (s.withZones v).lnu = s.lnu := rfl
@[simp] theorem State.out_withZones (s : State) (v) : (s.withZones v).out = s.out := rfl
@[simp] theorem State.pending_withZones (s : State) (v) : (s.withZones v).pending = s.pending := rfl
@[simp] theorem State.withZones_withZones (s : State) (u v) : (s.withZones u).withZones v = s.withZones v := rfl

/-! ## `withDsq` -/

@[simp] theorem State.axs_withDsq (s : State) (v) : (s.withDsq v).axs = s.axs := rfl
@[simp] theorem State.mgt_withDsq (s : State) (v) : (s.withDsq v).mgt = s.mgt := rfl
@[simp] theorem State.zones_withDsq (s : State) (v) : (s.withDsq v).zones = s.zones := rfl
@[simp] theorem State.dsq_withDsq (s : State) (v) : (s.withDsq v).dsq = v := rfl
@[simp] theorem State.wsm_withDsq (s : State) (v) : (s.withDsq v).wsm = s.wsm := rfl
@[simp] theorem State.sites_withDsq (s : State) (v) : (s.withDsq v).sites = s.sites := rfl
@[simp] theorem State.sha_withDsq (s : State) (v) : (s.withDsq v).sha = s.sha := rfl
@[simp] theorem State.acq_withDsq (s : State) (v) : (s.withDsq v).acq = s.acq := rfl
@[simp] theorem State.txc_withDsq (s : State) (v) : (s.withDsq v).txc = s.txc := rfl
@[simp] theorem State.ntu_withDsq (s : State) (v) : (s.withDsq v).ntu = s.ntu := rfl
@[simp] theorem State.lnu_withDsq (s : State) (v) : (s.withDsq v).lnu = s.lnu := rfl
@[simp] theorem State.out_withDsq (s : State) (v) : (s.withDsq v).out = s.out := rfl
@[simp] theorem State.pending_withDsq (s : State) (v) : (s.withDsq v).pending = s.pending := rfl
@[simp] theorem State.withDsq_withDsq (s : State) (u v) : (s.withDsq u).withDsq v = s.withDsq v := rfl

/-! ## `withWsm` -/

@[simp] theorem State.axs_withWsm (s : State) (v) : (s.withWsm v).axs = s.axs := rfl
@[simp] theorem State.mgt_withWsm (s : State) (v) : (s.withWsm v).mgt = s.mgt := rfl
@[simp] theorem State.zones_withWsm (s : State) (v) : (s.withWsm v).zones = s.zones := rfl
@[simp] theorem State.dsq_withWsm (s : State) (v) : (s.withWsm v).dsq = s.dsq := rfl
@[simp] theorem State.wsm_withWsm (s : State) (v) : (s.withWsm v).wsm = v := rfl
@[simp] theorem State.sites_withWsm (s : State) (v) : (s.withWsm v).sites = s.sites := rfl
@[simp] theorem State.sha_withWsm (s : State) (v) : (s.withWsm v).sha = s.sha := rfl
@[simp] theorem State.acq_withWsm (s : State) (v) : (s.withWsm v).acq = s.acq := rfl
@[simp] theorem State.txc_withWsm (s : State) (v) : (s.withWsm v).txc = s.txc := rfl
@[simp] theorem State.ntu_withWsm (s : State) (v) : (s.withWsm v).ntu = s.ntu := rfl
@[simp] theorem State.lnu_withWsm (s : State) (v) : (s.withWsm v).lnu = s.lnu := rfl
@[simp] theorem State.out_withWsm (s : State) (v) : (s.withWsm v).out = s.out := rfl
@[simp] theorem State.pending_withWsm (s : State) (v) : (s.withWsm v).pending = s.pending := rfl
@[simp] theorem State.withWsm_withWsm (s : State) (u v) : (s.withWsm u).withWsm v = s.withWsm v := rfl

/-! ## `withSites` -/

@[simp] theorem State.axs_withSites (s : State) (v) : (s.withSites v).axs = s.axs := rfl
@[simp] theorem State.mgt_withSites (s : State) (v) : (s.withSites v).mgt = s.mgt := rfl
@[simp] theorem State.zones_withSites (s : State) (v) : (s.withSites v).zones = s.zones := rfl
@[simp] theorem State.dsq_withSites (s : State) (v) : (s.withSites v).dsq = s.dsq := rfl
@[simp] theorem State.wsm_withSites (s : State) (v) : (s.withSites v).wsm = s.wsm := rfl
@[simp] theorem State.sites_withSites (s : State) (v) : (s.withSites v).sites = v := rfl
@[simp] theorem State.sha_withSites (s : State) (v) : (s.withSites v).sha = s.sha := rfl
@[simp] theorem State.acq_withSites (s : State) (v) : (s.withSites v).acq = s.acq := rfl
@[simp] theorem State.txc_withSites (s : State) (v) : (s.withSites v).txc = s.txc := rfl
@[simp] theorem State.ntu_withSites (s : State) (v) : (s.withSites v).ntu = s.ntu := rfl
@[simp] theorem State.lnu_withSites (s : State) (v) : (s.withSites v).lnu = s.lnu := rfl
@[simp] theorem State.out_withSites (s : State) (v) : (s.withSites v).out = s.out := rfl
@[simp] theorem State.pending_withSites (s : State) (v) : (s.withSites v).pending = s.pending := rfl
@[simp] theorem State.withSites_withSites (s : State) (u v) : (s.withSites u).withSites v = s.withSites v := rfl

/-! ## `withSha` -/

@[simp] theorem State.axs_withSha (s : State) (v) : (s.withSha v).axs = s.axs := rfl
@[simp] theorem State.mgt_withSha (s : State) (v) : (s.withSha v).mgt = s.mgt := rfl
@[simp] theorem State.zones_withSha (s : State) (v) : (s.withSha v).zones = s.zones := rfl
@[simp] theorem State.dsq_withSha (s : State) (v) : (s.withSha v).dsq = s.dsq := rfl
@[simp] theorem State.wsm_withSha (s : State) (v) : (s.withSha v).wsm = s.wsm := rfl
@[simp] theorem State.sites_withSha (s : State) (v) : (s.withSha v).sites = s.sites := rfl
@[simp] theorem State.sha_withSha (s : State) (v) : (s.withSha v).sha = v := rfl
@[simp] theorem State.acq_withSha (s : State) (v) : (s.withSha v).acq = s.acq := rfl
@[simp] theorem State.txc_withSha (s : State) (v) : (s.withSha v).txc = s.txc := rfl
@[simp] theorem State.ntu_withSha (s : State) (v) : (s.withSha v).ntu = s.ntu := rfl
@[simp] theorem State.lnu_withSha (s : State) (v) : (s.withSha v).lnu = s.lnu := rfl
@[simp] theorem State.out_withSha (s : State) (v) : (s.withSha v).out = s.out := rfl
@[simp] theorem State.pending_withSha (s : State) (v) : (s.withSha v).pending = s.pending := rfl
@[simp] theorem State.withSha_withSha (s : State) (u v) : (s.withSha u).withSha v = s.withSha v := rfl

/-! ## `withAcq` -/

@[simp] theorem State.axs_withAcq (s : State) (v) : (s.withAcq v).axs = s.axs := rfl
@[simp] theorem State.mgt_withAcq (s : State) (v) : (s.withAcq v).mgt = s.mgt := rfl
@[simp] theorem State.zones_withAcq (s : State) (v) : (s.withAcq v).zones = s.zones := rfl
@[simp] theorem State.dsq_withAcq (s : State) (v) : (s.withAcq v).dsq = s.dsq := rfl
@[simp] theorem State.wsm_withAcq (s : State) (v) : (s.withAcq v).wsm = s.wsm := rfl
@[simp] theorem State.sites_withAcq (s : State) (v) : (s.withAcq v).sites = s.sites := rfl
@[simp] theorem State.sha_withAcq (s : State) (v) : (s.withAcq v).sha = s.sha := rfl
@[simp] theorem State.acq_withAcq (s : State) (v) : (s.withAcq v).acq = v := rfl
@[simp] theorem State.txc_withAcq (s : State) (v) : (s.withAcq v).txc = s.txc := rfl
@[simp] theorem State.ntu_withAcq (s : State) (v) : (s.withAcq v).ntu = s.ntu := rfl
@[simp] theorem State.lnu_withAcq (s : State) (v) : (s.withAcq v).lnu = s.lnu := rfl
@[simp] theorem State.out_withAcq (s : State) (v) : (s.withAcq v).out = s.out := rfl
@[simp] theorem State.pending_withAcq (s : State) (v) : (s.withAcq v).pending = s.pending := rfl
@[simp] theorem State.withAcq_withAcq (s : State) (u v) : (s.withAcq u).withAcq v = s.withAcq v := rfl

/-! ## `withTxc` -/

@[simp] theorem State.axs_withTxc (s : State) (v) : (s.withTxc v).axs = s.axs := rfl
@[simp] theorem State.mgt_withTxc (s : State) (v) : (s.withTxc v).mgt = s.mgt := rfl
@[simp] theorem State.zones_withTxc (s : State) (v) : (s.withTxc v).zones = s.zones := rfl
@[simp] theorem State.dsq_withTxc (s : State) (v) : (s.withTxc v).dsq = s.dsq := rfl
@[simp] theorem State.wsm_withTxc (s : State) (v) : (s.withTxc v).wsm = s.wsm := rfl
@[simp] theorem State.sites_withTxc (s : State) (v) : (s.withTxc v).sites = s.sites := rfl
@[simp] theorem State.sha_withTxc (s : State) (v) : (s.withTxc v).sha = s.sha := rfl
@[simp] theorem State.acq_withTxc (s : State) (v) : (s.withTxc v).acq = s.acq := rfl
@[simp] theorem State.txc_withTxc (s : State) (v) : (s.withTxc v).txc = v := rfl
@[simp] theorem State.ntu_withTxc (s : State) (v) : (s.withTxc v).ntu = s.ntu := rfl
@[simp] theorem State.lnu_withTxc (s : State) (v) : (s.withTxc v).lnu = s.lnu := rfl
@[simp] theorem State.out_withTxc (s : State) (v) : (s.withTxc v).out = s.out := rfl
@[simp] theorem State.pending_withTxc (s : State) (v) : (s.withTxc v).pending = s.pending := rfl
@[simp] theorem State.withTxc_withTxc (s : State) (u v) : (s.withTxc u).withTxc v = s.withTxc v := rfl

/-! ## `withNtu` -/

@[simp] theorem State.axs_withNtu (s : State) (v) : (s.withNtu v).axs = s.axs := rfl
@[simp] theorem State.mgt_withNtu (s : State) (v) : (s.withNtu v).mgt = s.mgt := rfl
@[simp] theorem State.zones_withNtu (s : State) (v) : (s.withNtu v).zones = s.zones := rfl
@[simp] theorem State.dsq_withNtu (s : State) (v) : (s.withNtu v).dsq = s.dsq := rfl
@[simp] theorem State.wsm_withNtu (s : State) (v) : (s.withNtu v).wsm = s.wsm := rfl
@[simp] theorem State.sites_withNtu (s : State) (v) : (s.withNtu v).sites = s.sites := rfl
@[simp] theorem State.sha_withNtu (s : State) (v) : (s.withNtu v).sha = s.sha := rfl
@[simp] theorem State.acq_withNtu (s : State) (v) : (s.withNtu v).acq = s.acq := rfl
@[simp] theorem State.txc_withNtu (s : State) (v) : (s.withNtu v).txc = s.txc := rfl
@[simp] theorem State.ntu_withNtu (s : State) (v) : (s.withNtu v).ntu = v := rfl
@[simp] theorem State.lnu_withNtu (s : State) (v) : (s.withNtu v).lnu = s.lnu := rfl
@[simp] theorem State.out_withNtu (s : State) (v) : (s.withNtu v).out = s.out := rfl
@[simp] theorem State.pending_withNtu (s : State) (v) : (s.withNtu v).pending = s.pending := rfl
@[simp] theorem State.withNtu_withNtu (s : State) (u v) : (s.withNtu u).withNtu v = s.withNtu v := rfl

/-! ## `withLnu` -/

@[simp] theorem State.axs_withLnu (s : State) (v) : (s.withLnu v).axs = s.axs := rfl
@[simp] theorem State.mgt_withLnu (s : State) (v) : (s.withLnu v).mgt = s.mgt := rfl
@[simp] theorem State.zones_withLnu (s : State) (v) : (s.withLnu v).zones = s.zones := rfl
@[simp] theorem State.dsq_withLnu (s : State) (v) : (s.withLnu v).dsq = s.dsq := rfl
@[simp] theorem State.wsm_withLnu (s : State) (v) : (s.withLnu v).wsm = s.wsm := rfl
@[simp] theorem State.sites_withLnu (s : State) (v) : (s.withLnu v).sites = s.sites := rfl
@[simp] theorem State.sha_withLnu (s : State) (v) : (s.withLnu v).sha = s.sha := rfl
@[simp] theorem State.acq_withLnu (s : State) (v) : (s.withLnu v).acq = s.acq := rfl
@[simp] theorem State.txc_withLnu (s : State) (v) : (s.withLnu v).txc = s.txc := rfl
@[simp] theorem State.ntu_withLnu (s : State) (v) : (s.withLnu v).ntu = s.ntu := rfl
@[simp] theorem State.lnu_withLnu (s : State) (v) : (s.withLnu v).lnu = v := rfl
@[simp] theorem State.out_withLnu (s : State) (v) : (s.withLnu v).out = s.out := rfl
@[simp] theorem State.pending_withLnu (s : State) (v) : (s.withLnu v).pending = s.pending := rfl
@[simp] theorem State.withLnu_withLnu (s : State) (u v) : (s.withLnu u).withLnu v = s.withLnu v := rfl

/-! ## `withOut` -/

@[simp] theorem State.axs_withOut (s : State) (v) : (s.withOut v).axs = s.axs := rfl
@[simp] theorem State.mgt_withOut (s : State) (v) : (s.withOut v).mgt = s.mgt := rfl
@[simp] theorem State.zones_withOut (s : State) (v) : (s.withOut v).zones = s.zones := rfl
@[simp] theorem State.dsq_withOut (s : State) (v) : (s.withOut v).dsq = s.dsq := rfl
@[simp] theorem State.wsm_withOut (s : State) (v) : (s.withOut v).wsm = s.wsm := rfl
@[simp] theorem State.sites_withOut (s : State) (v) : (s.withOut v).sites = s.sites := rfl
@[simp] theorem State.sha_withOut (s : State) (v) : (s.withOut v).sha = s.sha := rfl
@[simp] theorem State.acq_withOut (s : State) (v) : (s.withOut v).acq = s.acq := rfl
@[simp] theorem State.txc_withOut (s : State) (v) : (s.withOut v).txc = s.txc := rfl
@[simp] theorem State.ntu_withOut (s : State) (v) : (s.withOut v).ntu = s.ntu := rfl
@[simp] theorem State.lnu_withOut (s : State) (v) : (s.withOut v).lnu = s.lnu := rfl
@[simp] theorem State.out_withOut (s : State) (v) : (s.withOut v).out = v := rfl
@[simp] theorem State.pending_withOut (s : State) (v) : (s.withOut v).pending = s.pending := rfl
@[simp] theorem State.withOut_withOut (s : State) (u v) : (s.withOut u).withOut v = s.withOut v := rfl

/-! ## `withPending` -/

@[simp] theorem State.axs_withPending (s : State) (v) : (s.withPending v).axs = s.axs := rfl
@[simp] theorem State.mgt_withPending (s : State) (v) : (s.withPending v).mgt = s.mgt := rfl
@[simp] theorem State.zones_withPending (s : State) (v) : (s.withPending v).zones = s.zones := rfl
@[simp] theorem State.dsq_withPending (s : State) (v) : (s.withPending v).dsq = s.dsq := rfl
@[simp] theorem State.wsm_withPending (s : State) (v) : (s.withPending v).wsm = s.wsm := rfl
@[simp] theorem State.sites_withPending (s : State) (v) : (s.withPending v).sites = s.sites := rfl
@[simp] theorem State.sha_withPending (s : State) (v) : (s.withPending v).sha = s.sha := rfl
@[simp] theorem State.acq_withPending (s : State) (v) : (s.withPending v).acq = s.acq := rfl
@[simp] theorem State.txc_withPending (s : State) (v) : (s.withPending v).txc = s.txc := rfl
@[simp] theorem State.ntu_withPending (s : State) (v) : (s.withPending v).ntu = s.ntu := rfl
@[simp] theorem State.lnu_withPending (s : State) (v) : (s.withPending v).lnu = s.lnu := rfl
@[simp] theorem State.out_withPending (s : State) (v) : (s.withPending v).out = s.out := rfl
@[simp] theorem State.pending_withPending (s : State) (v) : (s.withPending v).pending = v := rfl
@[simp] theorem State.withPending_withPending (s : State) (u v) : (s.withPending u).withPending v = s.withPending v := rfl

/-! ## Records by axis, channel and class -/

@[simp] theorem Axs.get_set_self (x : Axs) (a : Axis) (r) : (x.set a r).get a = r := by cases a <;> rfl
@[simp] theorem Axs.get_set_ne (x : Axs) {a b : Axis} (r) (h : b ≠ a) : (x.set a r).get b = x.get b := by
  cases a <;> cases b <;> first | rfl | exact absurd rfl h
theorem Axs.get_set (x : Axs) (a b : Axis) (r) : (x.set a r).get b = if b = a then r else x.get b := by
  cases a <;> cases b <;> rfl
@[simp] theorem Axs.channels_set (x : Axs) (a : Axis) (r) : (x.set a r).channels = x.channels := by cases a <;> rfl
@[simp] theorem Axs.get_withChannels (x : Axs) (a : Axis) (c) : ({ x with channels := c } : Axs).get a = x.get a := by
  cases a <;> rfl
@[simp] theorem Channels.get_set_self (x : Channels) (c : Channel) (v) : (x.set c v).get c = v := by cases c <;> rfl
@[simp] theorem Channels.get_set_ne (x : Channels) {c d : Channel} (v) (h : d ≠ c) : (x.set c v).get d = x.get d := by
  cases c <;> cases d <;> first | rfl | exact absurd rfl h
theorem Channels.get_set (x : Channels) (c d : Channel) (v) : (x.set c v).get d = if d = c then v else x.get d := by
  cases c <;> cases d <;> rfl
@[simp] theorem Mgt.get_set_self (x : Mgt) (a : Axis) (v) : (x.set a v).get a = v := by cases a <;> rfl
@[simp] theorem Mgt.get_set_ne (x : Mgt) {a b : Axis} (v) (h : b ≠ a) : (x.set a v).get b = x.get b := by
  cases a <;> cases b <;> first | rfl | exact absurd rfl h
@[simp] theorem Mgt.deadmanTime_set (x : Mgt) (a : Axis) (v) : (x.set a v).deadmanTime = x.deadmanTime := by
  cases a <;> rfl
@[simp] theorem Ntu.get_set_self (x : Ntu) (c : NoticeClass) (v) : (x.set c v).get c = v := by cases c <;> rfl
@[simp] theorem Ntu.get_set_ne (x : Ntu) {c d : NoticeClass} (v) (h : d ≠ c) : (x.set c v).get d = x.get d := by
  cases c <;> cases d <;> first | rfl | exact absurd rfl h
@[simp] theorem Ntu.held_set (x : Ntu) (c : NoticeClass) (v) : (x.set c v).held = x.held := by cases c <;> rfl
@[simp] theorem State.axis_setAxis_self (s : State) (a : Axis) (r) : (s.setAxis a r).axis a = r := Axs.get_set_self _ _ _
@[simp] theorem State.axis_setAxis_ne (s : State) {a b : Axis} (r) (h : b ≠ a) : (s.setAxis a r).axis b = s.axis b :=
  Axs.get_set_ne _ _ h
theorem State.axis_setAxis (s : State) (a b : Axis) (r) : (s.setAxis a r).axis b = if b = a then r else s.axis b :=
  Axs.get_set _ _ _ _
@[simp] theorem State.chan_setAxis (s : State) (a : Axis) (r) (c) : (s.setAxis a r).chan c = s.chan c := by
  cases a <;> rfl

@[simp] theorem State.mgt_setAxis (s : State) (a r) : (s.setAxis a r).mgt = s.mgt := rfl
@[simp] theorem State.zones_setAxis (s : State) (a r) : (s.setAxis a r).zones = s.zones := rfl
@[simp] theorem State.dsq_setAxis (s : State) (a r) : (s.setAxis a r).dsq = s.dsq := rfl
@[simp] theorem State.wsm_setAxis (s : State) (a r) : (s.setAxis a r).wsm = s.wsm := rfl
@[simp] theorem State.sites_setAxis (s : State) (a r) : (s.setAxis a r).sites = s.sites := rfl
@[simp] theorem State.sha_setAxis (s : State) (a r) : (s.setAxis a r).sha = s.sha := rfl
@[simp] theorem State.acq_setAxis (s : State) (a r) : (s.setAxis a r).acq = s.acq := rfl
@[simp] theorem State.txc_setAxis (s : State) (a r) : (s.setAxis a r).txc = s.txc := rfl
@[simp] theorem State.ntu_setAxis (s : State) (a r) : (s.setAxis a r).ntu = s.ntu := rfl
@[simp] theorem State.lnu_setAxis (s : State) (a r) : (s.setAxis a r).lnu = s.lnu := rfl
@[simp] theorem State.out_setAxis (s : State) (a r) : (s.setAxis a r).out = s.out := rfl
@[simp] theorem State.pending_setAxis (s : State) (a r) : (s.setAxis a r).pending = s.pending := rfl
@[simp] theorem State.axis_withMgt (s : State) (v a) : (s.withMgt v).axis a = s.axis a := rfl
@[simp] theorem State.chan_withMgt (s : State) (v c) : (s.withMgt v).chan c = s.chan c := rfl
@[simp] theorem State.axis_withZones (s : State) (v a) : (s.withZones v).axis a = s.axis a := rfl
@[simp] theorem State.chan_withZones (s : State) (v c) : (s.withZones v).chan c = s.chan c := rfl
@[simp] theorem State.axis_withDsq (s : State) (v a) : (s.withDsq v).axis a = s.axis a := rfl
@[simp] theorem State.chan_withDsq (s : State) (v c) : (s.withDsq v).chan c = s.chan c := rfl
@[simp] theorem State.axis_withWsm (s : State) (v a) : (s.withWsm v).axis a = s.axis a := rfl
@[simp] theorem State.chan_withWsm (s : State) (v c) : (s.withWsm v).chan c = s.chan c := rfl
@[simp] theorem State.axis_withSites (s : State) (v a) : (s.withSites v).axis a = s.axis a := rfl
@[simp] theorem State.chan_withSites (s : State) (v c) : (s.withSites v).chan c = s.chan c := rfl
@[simp] theorem State.axis_withSha (s : State) (v a) : (s.withSha v).axis a = s.axis a := rfl
@[simp] theorem State.chan_withSha (s : State) (v c) : (s.withSha v).chan c = s.chan c := rfl
@[simp] theorem State.axis_withAcq (s : State) (v a) : (s.withAcq v).axis a = s.axis a := rfl
@[simp] theorem State.chan_withAcq (s : State) (v c) : (s.withAcq v).chan c = s.chan c := rfl
@[simp] theorem State.axis_withTxc (s : State) (v a) : (s.withTxc v).axis a = s.axis a := rfl
@[simp] theorem State.chan_withTxc (s : State) (v c) : (s.withTxc v).chan c = s.chan c := rfl
@[simp] theorem State.axis_withNtu (s : State) (v a) : (s.withNtu v).axis a = s.axis a := rfl
@[simp] theorem State.chan_withNtu (s : State) (v c) : (s.withNtu v).chan c = s.chan c := rfl
@[simp] theorem State.axis_withLnu (s : State) (v a) : (s.withLnu v).axis a = s.axis a := rfl
@[simp] theorem State.chan_withLnu (s : State) (v c) : (s.withLnu v).chan c = s.chan c := rfl
@[simp] theorem State.axis_withOut (s : State) (v a) : (s.withOut v).axis a = s.axis a := rfl
@[simp] theorem State.chan_withOut (s : State) (v c) : (s.withOut v).chan c = s.chan c := rfl
@[simp] theorem State.axis_withPending (s : State) (v a) : (s.withPending v).axis a = s.axis a := rfl
@[simp] theorem State.chan_withPending (s : State) (v c) : (s.withPending v).chan c = s.chan c := rfl

end Sys2Proof.Machine
end

