-- ==== Sys2Proof/Laws/Ops.lean ====
section
/-! SUPPORT. What the named operations every block uses leave alone (Sys2Proof/Machine/Ops.lean), and what they do to the one
block they change. -/

namespace Sys2Proof.Machine

/-! ## Frames and pages sent -/

@[simp] theorem axs_sendDrive (s : State) (f) : (sendDrive s f).axs = s.axs := rfl
@[simp] theorem mgt_sendDrive (s : State) (f) : (sendDrive s f).mgt = s.mgt := rfl
@[simp] theorem zones_sendDrive (s : State) (f) : (sendDrive s f).zones = s.zones := rfl
@[simp] theorem dsq_sendDrive (s : State) (f) : (sendDrive s f).dsq = s.dsq := rfl
@[simp] theorem wsm_sendDrive (s : State) (f) : (sendDrive s f).wsm = s.wsm := rfl
@[simp] theorem sites_sendDrive (s : State) (f) : (sendDrive s f).sites = s.sites := rfl
@[simp] theorem sha_sendDrive (s : State) (f) : (sendDrive s f).sha = s.sha := rfl
@[simp] theorem acq_sendDrive (s : State) (f) : (sendDrive s f).acq = s.acq := rfl
@[simp] theorem txc_sendDrive (s : State) (f) : (sendDrive s f).txc = s.txc := rfl
@[simp] theorem ntu_sendDrive (s : State) (f) : (sendDrive s f).ntu = s.ntu := rfl
@[simp] theorem lnu_sendDrive (s : State) (f) : (sendDrive s f).lnu = s.lnu := rfl
@[simp] theorem pending_sendDrive (s : State) (f) : (sendDrive s f).pending = s.pending := rfl

@[simp] theorem axs_sendDriveAll (s : State) (f) : (sendDriveAll s f).axs = s.axs := rfl
@[simp] theorem mgt_sendDriveAll (s : State) (f) : (sendDriveAll s f).mgt = s.mgt := rfl
@[simp] theorem zones_sendDriveAll (s : State) (f) : (sendDriveAll s f).zones = s.zones := rfl
@[simp] theorem dsq_sendDriveAll (s : State) (f) : (sendDriveAll s f).dsq = s.dsq := rfl
@[simp] theorem wsm_sendDriveAll (s : State) (f) : (sendDriveAll s f).wsm = s.wsm := rfl
@[simp] theorem sites_sendDriveAll (s : State) (f) : (sendDriveAll s f).sites = s.sites := rfl
@[simp] theorem sha_sendDriveAll (s : State) (f) : (sendDriveAll s f).sha = s.sha := rfl
@[simp] theorem acq_sendDriveAll (s : State) (f) : (sendDriveAll s f).acq = s.acq := rfl
@[simp] theorem txc_sendDriveAll (s : State) (f) : (sendDriveAll s f).txc = s.txc := rfl
@[simp] theorem ntu_sendDriveAll (s : State) (f) : (sendDriveAll s f).ntu = s.ntu := rfl
@[simp] theorem lnu_sendDriveAll (s : State) (f) : (sendDriveAll s f).lnu = s.lnu := rfl
@[simp] theorem pending_sendDriveAll (s : State) (f) : (sendDriveAll s f).pending = s.pending := rfl

@[simp] theorem axs_sendSite (s : State) (f) : (sendSite s f).axs = s.axs := rfl
@[simp] theorem mgt_sendSite (s : State) (f) : (sendSite s f).mgt = s.mgt := rfl
@[simp] theorem zones_sendSite (s : State) (f) : (sendSite s f).zones = s.zones := rfl
@[simp] theorem dsq_sendSite (s : State) (f) : (sendSite s f).dsq = s.dsq := rfl
@[simp] theorem wsm_sendSite (s : State) (f) : (sendSite s f).wsm = s.wsm := rfl
@[simp] theorem sites_sendSite (s : State) (f) : (sendSite s f).sites = s.sites := rfl
@[simp] theorem sha_sendSite (s : State) (f) : (sendSite s f).sha = s.sha := rfl
@[simp] theorem acq_sendSite (s : State) (f) : (sendSite s f).acq = s.acq := rfl
@[simp] theorem txc_sendSite (s : State) (f) : (sendSite s f).txc = s.txc := rfl
@[simp] theorem ntu_sendSite (s : State) (f) : (sendSite s f).ntu = s.ntu := rfl
@[simp] theorem lnu_sendSite (s : State) (f) : (sendSite s f).lnu = s.lnu := rfl
@[simp] theorem pending_sendSite (s : State) (f) : (sendSite s f).pending = s.pending := rfl

/-! ## The send queue, replies -/

@[simp] theorem axs_placeUp (s : State) (f) : (placeUp s f).axs = s.axs := rfl
@[simp] theorem mgt_placeUp (s : State) (f) : (placeUp s f).mgt = s.mgt := rfl
@[simp] theorem zones_placeUp (s : State) (f) : (placeUp s f).zones = s.zones := rfl
@[simp] theorem dsq_placeUp (s : State) (f) : (placeUp s f).dsq = s.dsq := rfl
@[simp] theorem wsm_placeUp (s : State) (f) : (placeUp s f).wsm = s.wsm := rfl
@[simp] theorem sites_placeUp (s : State) (f) : (placeUp s f).sites = s.sites := rfl
@[simp] theorem sha_placeUp (s : State) (f) : (placeUp s f).sha = s.sha := rfl
@[simp] theorem acq_placeUp (s : State) (f) : (placeUp s f).acq = s.acq := rfl
@[simp] theorem txc_placeUp (s : State) (f) : (placeUp s f).txc = s.txc := rfl
@[simp] theorem ntu_placeUp (s : State) (f) : (placeUp s f).ntu = s.ntu := rfl
@[simp] theorem out_placeUp (s : State) (f) : (placeUp s f).out = s.out := rfl
@[simp] theorem pending_placeUp (s : State) (f) : (placeUp s f).pending = s.pending := rfl

@[simp] theorem axs_placeReply (s : State) (f) : (placeReply s f).axs = s.axs := by unfold placeReply; split <;> rfl
@[simp] theorem mgt_placeReply (s : State) (f) : (placeReply s f).mgt = s.mgt := by unfold placeReply; split <;> rfl
@[simp] theorem zones_placeReply (s : State) (f) : (placeReply s f).zones = s.zones := by unfold placeReply; split <;> rfl
@[simp] theorem dsq_placeReply (s : State) (f) : (placeReply s f).dsq = s.dsq := by unfold placeReply; split <;> rfl
@[simp] theorem wsm_placeReply (s : State) (f) : (placeReply s f).wsm = s.wsm := by unfold placeReply; split <;> rfl
@[simp] theorem sites_placeReply (s : State) (f) : (placeReply s f).sites = s.sites := by unfold placeReply; split <;> rfl
@[simp] theorem sha_placeReply (s : State) (f) : (placeReply s f).sha = s.sha := by unfold placeReply; split <;> rfl
@[simp] theorem acq_placeReply (s : State) (f) : (placeReply s f).acq = s.acq := by unfold placeReply; split <;> rfl
@[simp] theorem txc_placeReply (s : State) (f) : (placeReply s f).txc = s.txc := by unfold placeReply; split <;> rfl
@[simp] theorem ntu_placeReply (s : State) (f) : (placeReply s f).ntu = s.ntu := by unfold placeReply; split <;> rfl
@[simp] theorem out_placeReply (s : State) (f) : (placeReply s f).out = s.out := by unfold placeReply; split <;> rfl
@[simp] theorem pending_placeReply (s : State) (f) : (placeReply s f).pending = s.pending := by unfold placeReply; split <;> rfl

@[simp] theorem axs_forwardUp (s : State) (n k p) : (forwardUp s n k p).axs = s.axs := by unfold forwardUp; split <;> rfl
@[simp] theorem mgt_forwardUp (s : State) (n k p) : (forwardUp s n k p).mgt = s.mgt := by unfold forwardUp; split <;> rfl
@[simp] theorem zones_forwardUp (s : State) (n k p) : (forwardUp s n k p).zones = s.zones := by unfold forwardUp; split <;> rfl
@[simp] theorem dsq_forwardUp (s : State) (n k p) : (forwardUp s n k p).dsq = s.dsq := by unfold forwardUp; split <;> rfl
@[simp] theorem wsm_forwardUp (s : State) (n k p) : (forwardUp s n k p).wsm = s.wsm := by unfold forwardUp; split <;> rfl
@[simp] theorem sites_forwardUp (s : State) (n k p) : (forwardUp s n k p).sites = s.sites := by unfold forwardUp; split <;> rfl
@[simp] theorem sha_forwardUp (s : State) (n k p) : (forwardUp s n k p).sha = s.sha := by unfold forwardUp; split <;> rfl
@[simp] theorem acq_forwardUp (s : State) (n k p) : (forwardUp s n k p).acq = s.acq := by unfold forwardUp; split <;> rfl
@[simp] theorem txc_forwardUp (s : State) (n k p) : (forwardUp s n k p).txc = s.txc := by unfold forwardUp; split <;> rfl
@[simp] theorem ntu_forwardUp (s : State) (n k p) : (forwardUp s n k p).ntu = s.ntu := by unfold forwardUp; split <;> rfl
@[simp] theorem out_forwardUp (s : State) (n k p) : (forwardUp s n k p).out = s.out := by unfold forwardUp; split <;> rfl
@[simp] theorem pending_forwardUp (s : State) (n k p) : (forwardUp s n k p).pending = s.pending := by unfold forwardUp; split <;> rfl

@[simp] theorem axs_done (s : State) (k) : (done s k).axs = s.axs := by simp [done]
@[simp] theorem mgt_done (s : State) (k) : (done s k).mgt = s.mgt := by simp [done]
@[simp] theorem zones_done (s : State) (k) : (done s k).zones = s.zones := by simp [done]
@[simp] theorem dsq_done (s : State) (k) : (done s k).dsq = s.dsq := by simp [done]
@[simp] theorem wsm_done (s : State) (k) : (done s k).wsm = s.wsm := by simp [done]
@[simp] theorem sites_done (s : State) (k) : (done s k).sites = s.sites := by simp [done]
@[simp] theorem sha_done (s : State) (k) : (done s k).sha = s.sha := by simp [done]
@[simp] theorem acq_done (s : State) (k) : (done s k).acq = s.acq := by simp [done]
@[simp] theorem txc_done (s : State) (k) : (done s k).txc = s.txc := by simp [done]
@[simp] theorem ntu_done (s : State) (k) : (done s k).ntu = s.ntu := by simp [done]
@[simp] theorem out_done (s : State) (k) : (done s k).out = s.out := by simp [done]
@[simp] theorem pending_done (s : State) (k) : (done s k).pending = s.pending := by simp [done]

@[simp] theorem axs_doneWith (s : State) (k d) : (doneWith s k d).axs = s.axs := by simp [doneWith]
@[simp] theorem mgt_doneWith (s : State) (k d) : (doneWith s k d).mgt = s.mgt := by simp [doneWith]
@[simp] theorem zones_doneWith (s : State) (k d) : (doneWith s k d).zones = s.zones := by simp [doneWith]
@[simp] theorem dsq_doneWith (s : State) (k d) : (doneWith s k d).dsq = s.dsq := by simp [doneWith]
@[simp] theorem wsm_doneWith (s : State) (k d) : (doneWith s k d).wsm = s.wsm := by simp [doneWith]
@[simp] theorem sites_doneWith (s : State) (k d) : (doneWith s k d).sites = s.sites := by simp [doneWith]
@[simp] theorem sha_doneWith (s : State) (k d) : (doneWith s k d).sha = s.sha := by simp [doneWith]
@[simp] theorem acq_doneWith (s : State) (k d) : (doneWith s k d).acq = s.acq := by simp [doneWith]
@[simp] theorem txc_doneWith (s : State) (k d) : (doneWith s k d).txc = s.txc := by simp [doneWith]
@[simp] theorem ntu_doneWith (s : State) (k d) : (doneWith s k d).ntu = s.ntu := by simp [doneWith]
@[simp] theorem out_doneWith (s : State) (k d) : (doneWith s k d).out = s.out := by simp [doneWith]
@[simp] theorem pending_doneWith (s : State) (k d) : (doneWith s k d).pending = s.pending := by simp [doneWith]

@[simp] theorem axs_refuse (s : State) (k w) : (refuse s k w).axs = s.axs := by simp [refuse]
@[simp] theorem mgt_refuse (s : State) (k w) : (refuse s k w).mgt = s.mgt := by simp [refuse]
@[simp] theorem zones_refuse (s : State) (k w) : (refuse s k w).zones = s.zones := by simp [refuse]
@[simp] theorem dsq_refuse (s : State) (k w) : (refuse s k w).dsq = s.dsq := by simp [refuse]
@[simp] theorem wsm_refuse (s : State) (k w) : (refuse s k w).wsm = s.wsm := by simp [refuse]
@[simp] theorem sites_refuse (s : State) (k w) : (refuse s k w).sites = s.sites := by simp [refuse]
@[simp] theorem sha_refuse (s : State) (k w) : (refuse s k w).sha = s.sha := by simp [refuse]
@[simp] theorem acq_refuse (s : State) (k w) : (refuse s k w).acq = s.acq := by simp [refuse]
@[simp] theorem txc_refuse (s : State) (k w) : (refuse s k w).txc = s.txc := by simp [refuse]
@[simp] theorem ntu_refuse (s : State) (k w) : (refuse s k w).ntu = s.ntu := by simp [refuse]
@[simp] theorem out_refuse (s : State) (k w) : (refuse s k w).out = s.out := by simp [refuse]
@[simp] theorem pending_refuse (s : State) (k w) : (refuse s k w).pending = s.pending := by simp [refuse]

@[simp] theorem axs_refuseFrame (s : State) (k n w) : (refuseFrame s k n w).axs = s.axs := by simp [refuseFrame]
@[simp] theorem mgt_refuseFrame (s : State) (k n w) : (refuseFrame s k n w).mgt = s.mgt := by simp [refuseFrame]
@[simp] theorem zones_refuseFrame (s : State) (k n w) : (refuseFrame s k n w).zones = s.zones := by simp [refuseFrame]
@[simp] theorem dsq_refuseFrame (s : State) (k n w) : (refuseFrame s k n w).dsq = s.dsq := by simp [refuseFrame]
@[simp] theorem wsm_refuseFrame (s : State) (k n w) : (refuseFrame s k n w).wsm = s.wsm := by simp [refuseFrame]
@[simp] theorem sites_refuseFrame (s : State) (k n w) : (refuseFrame s k n w).sites = s.sites := by simp [refuseFrame]
@[simp] theorem sha_refuseFrame (s : State) (k n w) : (refuseFrame s k n w).sha = s.sha := by simp [refuseFrame]
@[simp] theorem acq_refuseFrame (s : State) (k n w) : (refuseFrame s k n w).acq = s.acq := by simp [refuseFrame]
@[simp] theorem txc_refuseFrame (s : State) (k n w) : (refuseFrame s k n w).txc = s.txc := by simp [refuseFrame]
@[simp] theorem ntu_refuseFrame (s : State) (k n w) : (refuseFrame s k n w).ntu = s.ntu := by simp [refuseFrame]
@[simp] theorem out_refuseFrame (s : State) (k n w) : (refuseFrame s k n w).out = s.out := by simp [refuseFrame]
@[simp] theorem pending_refuseFrame (s : State) (k n w) : (refuseFrame s k n w).pending = s.pending := by simp [refuseFrame]

/-! ## Notices -/

@[simp] theorem axs_placeHeld (s : State)  : (placeHeld s ).axs = s.axs := rfl
@[simp] theorem mgt_placeHeld (s : State)  : (placeHeld s ).mgt = s.mgt := rfl
@[simp] theorem zones_placeHeld (s : State)  : (placeHeld s ).zones = s.zones := rfl
@[simp] theorem dsq_placeHeld (s : State)  : (placeHeld s ).dsq = s.dsq := rfl
@[simp] theorem wsm_placeHeld (s : State)  : (placeHeld s ).wsm = s.wsm := rfl
@[simp] theorem sites_placeHeld (s : State)  : (placeHeld s ).sites = s.sites := rfl
@[simp] theorem sha_placeHeld (s : State)  : (placeHeld s ).sha = s.sha := rfl
@[simp] theorem acq_placeHeld (s : State)  : (placeHeld s ).acq = s.acq := rfl
@[simp] theorem txc_placeHeld (s : State)  : (placeHeld s ).txc = s.txc := rfl
@[simp] theorem out_placeHeld (s : State)  : (placeHeld s ).out = s.out := rfl
@[simp] theorem pending_placeHeld (s : State)  : (placeHeld s ).pending = s.pending := rfl

@[simp] theorem axs_noticeDue (s : State) (n) : (noticeDue s n).axs = s.axs := rfl
@[simp] theorem mgt_noticeDue (s : State) (n) : (noticeDue s n).mgt = s.mgt := rfl
@[simp] theorem zones_noticeDue (s : State) (n) : (noticeDue s n).zones = s.zones := rfl
@[simp] theorem dsq_noticeDue (s : State) (n) : (noticeDue s n).dsq = s.dsq := rfl
@[simp] theorem wsm_noticeDue (s : State) (n) : (noticeDue s n).wsm = s.wsm := rfl
@[simp] theorem sites_noticeDue (s : State) (n) : (noticeDue s n).sites = s.sites := rfl
@[simp] theorem sha_noticeDue (s : State) (n) : (noticeDue s n).sha = s.sha := rfl
@[simp] theorem acq_noticeDue (s : State) (n) : (noticeDue s n).acq = s.acq := rfl
@[simp] theorem txc_noticeDue (s : State) (n) : (noticeDue s n).txc = s.txc := rfl
@[simp] theorem out_noticeDue (s : State) (n) : (noticeDue s n).out = s.out := rfl
@[simp] theorem pending_noticeDue (s : State) (n) : (noticeDue s n).pending = s.pending := rfl

@[simp] theorem axs_raise (s : State) (n) : (raise s n).axs = s.axs := by unfold raise; dsimp only; split <;> rfl
@[simp] theorem mgt_raise (s : State) (n) : (raise s n).mgt = s.mgt := by unfold raise; dsimp only; split <;> rfl
@[simp] theorem zones_raise (s : State) (n) : (raise s n).zones = s.zones := by unfold raise; dsimp only; split <;> rfl
@[simp] theorem dsq_raise (s : State) (n) : (raise s n).dsq = s.dsq := by unfold raise; dsimp only; split <;> rfl
@[simp] theorem wsm_raise (s : State) (n) : (raise s n).wsm = s.wsm := by unfold raise; dsimp only; split <;> rfl
@[simp] theorem sites_raise (s : State) (n) : (raise s n).sites = s.sites := by unfold raise; dsimp only; split <;> rfl
@[simp] theorem sha_raise (s : State) (n) : (raise s n).sha = s.sha := by unfold raise; dsimp only; split <;> rfl
@[simp] theorem acq_raise (s : State) (n) : (raise s n).acq = s.acq := by unfold raise; dsimp only; split <;> rfl
@[simp] theorem txc_raise (s : State) (n) : (raise s n).txc = s.txc := by unfold raise; dsimp only; split <;> rfl
@[simp] theorem out_raise (s : State) (n) : (raise s n).out = s.out := by unfold raise; dsimp only; split <;> rfl
@[simp] theorem pending_raise (s : State) (n) : (raise s n).pending = s.pending := by unfold raise; dsimp only; split <;> rfl

@[simp] theorem axs_readNotice (s : State) (c) : (readNotice s c).axs = s.axs := by unfold readNotice; dsimp only; repeat' split <;> try rfl
@[simp] theorem mgt_readNotice (s : State) (c) : (readNotice s c).mgt = s.mgt := by unfold readNotice; dsimp only; repeat' split <;> try rfl
@[simp] theorem zones_readNotice (s : State) (c) : (readNotice s c).zones = s.zones := by unfold readNotice; dsimp only; repeat' split <;> try rfl
@[simp] theorem dsq_readNotice (s : State) (c) : (readNotice s c).dsq = s.dsq := by unfold readNotice; dsimp only; repeat' split <;> try rfl
@[simp] theorem wsm_readNotice (s : State) (c) : (readNotice s c).wsm = s.wsm := by unfold readNotice; dsimp only; repeat' split <;> try rfl
@[simp] theorem sites_readNotice (s : State) (c) : (readNotice s c).sites = s.sites := by unfold readNotice; dsimp only; repeat' split <;> try rfl
@[simp] theorem sha_readNotice (s : State) (c) : (readNotice s c).sha = s.sha := by unfold readNotice; dsimp only; repeat' split <;> try rfl
@[simp] theorem acq_readNotice (s : State) (c) : (readNotice s c).acq = s.acq := by unfold readNotice; dsimp only; repeat' split <;> try rfl
@[simp] theorem txc_readNotice (s : State) (c) : (readNotice s c).txc = s.txc := by unfold readNotice; dsimp only; repeat' split <;> try rfl
@[simp] theorem out_readNotice (s : State) (c) : (readNotice s c).out = s.out := by unfold readNotice; dsimp only; repeat' split <;> try rfl
@[simp] theorem pending_readNotice (s : State) (c) : (readNotice s c).pending = s.pending := by unfold readNotice; dsimp only; repeat' split <;> try rfl

/-! ## A REPLY that finds a place (R179) -/

theorem placeReply_room {s : State} (f : UpFrame) (h : s.lnu.queue.length < Config.queuePlaces) :
    placeReply s f = s.withLnu { s.lnu with queue := s.lnu.queue ++ [f] } := by
  unfold placeReply placeUp; rw [if_pos h]

theorem done_room {s : State} (k : Nat) (h : s.lnu.queue.length < Config.queuePlaces) :
    done s k = s.withLnu { s.lnu with queue := s.lnu.queue ++ [.reply k 0 none .none] } := placeReply_room _ h

theorem refuse_room {s : State} (k : Nat) (w : Reason) (h : s.lnu.queue.length < Config.queuePlaces) :
    refuse s k w = s.withLnu { s.lnu with queue := s.lnu.queue ++ [.reply k 0 (some w) .none] } := placeReply_room _ h

theorem refuseFrame_room {s : State} (k n : Nat) (w : Reason) (h : s.lnu.queue.length < Config.queuePlaces) :
    refuseFrame s k n w = s.withLnu { s.lnu with queue := s.lnu.queue ++ [.reply k n (some w) .none] } :=
  placeReply_room _ h

/-! ## Commands that are taken -/

theorem onPart_running {s : State} (f : State → State) (h : s.running) : onPart f s = f s := by
  unfold onPart; rw [h]; rfl

theorem onConsole_listens {s : State} (f : State → State) (h : s.listens) : onConsole f s = f s := by
  unfold onConsole
  rw [onPart_running _ h.1, if_pos h.2]

/-- R186: while RST is asserted nothing is taken. -/
theorem onPart_reset {s : State} (f : State → State) (h : s.lnu.rst = true) : onPart f s = s := by
  unfold onPart; rw [h]; rfl

theorem onConsole_reset {s : State} (f : State → State) (h : s.lnu.rst = true) : onConsole f s = s := onPart_reset _ h

/-- R179: a console frame is discarded while the queue is full. -/
theorem onConsole_full {s : State} (f : State → State) (h : ¬ s.lnu.queue.length < Config.queuePlaces) :
    onConsole f s = s := by
  unfold onConsole onPart; simp [h]

end Sys2Proof.Machine
end

