-- ==== Sys2Proof/Laws/Quiet.lean ====
section
/-! SUPPORT. What the operations that hand nothing to the Transmitter Enable Control can do. `Calm P` and `Quiet P` say that a
property survives each kind of small change they are made of, the second with those of the Site Table and the contexts; each
lemma below says it of one operation, so that a proof about an operation cites its lemma and does not unfold it. -/

namespace Sys2Proof.Machine

variable {P : State → Prop}

/-- A zone with its count of hits left out. -/
def Zone.place (z : Zone) : Zone := { z with hits := 0 }

/-- A property that survives what the Axis Supervisor does and the notices that are raised. -/
structure Steady (P : State → Prop) : Prop where
  drive : ∀ {s} (l : List DriveFrame), P s → P (s.withOut { s.out with drive := l })
  mgt : ∀ {s} (v : Mgt), P s → P (s.withMgt v)
  ntu : ∀ {s} (v : Ntu), P s → P (s.withNtu v)
  lnu : ∀ {s} (v : Lnu) (fs : List UpFrame), v.rst = s.lnu.rst → v.queue = s.lnu.queue ++ fs →
    (∀ f ∈ fs, f.isReply = false) → (fs = [] ∨ v.queue.length ≤ Config.noticePlaces) → P s → P (s.withLnu v)
  axis : ∀ {s} (a : Axis) (r : AxisRec), r.position = (s.axis a).position →
    (r.motion = .halted ↔ (s.axis a).motion = .halted) →
    ((s.axis a).wf → r.wf) ∧ (r.travelling = true → (s.axis a).travelling = true ∨ channelsFull s a = true) →
    P s → P (s.setAxis a r)
  channels : ∀ {s} (c : Channels),
    (∀ a, (s.axis a).travelling = true → channelsFull s a = true →
      channelsFull (s.withAxs { s.axs with channels := c }) a = true) →
    P s → P (s.withAxs { s.axs with channels := c })

/-- The Report Window of `v` is that of `h`, or is emptied, or has taken one record that R133 accepts. -/
def Sha.follows (h v : Sha) : Prop :=
  v.window = h.window ∨ v.window = [] ∨
    ∃ r, h.accepts r.seq = true ∧ v.window = (r :: h.window.takeWhile (·.seq != r.seq)).take Config.windowPlaces

theorem Sha.follows.length {h v : Sha} (f : h.follows v) (hw : h.window.length ≤ Config.windowPlaces) :
    v.window.length ≤ Config.windowPlaces := by
  rcases f with f | f | ⟨r, -, f⟩
  · rw [f]; exact hw
  · rw [f]; exact Nat.zero_le _
  · rw [f]; exact List.length_take_le _ _

/-- A property that survives every change but those of the Site Table and the contexts that is handed to no other block and
keeps every capacity. -/
structure Calm (P : State → Prop) : Prop extends Steady P where
  site : ∀ {s} (l : List SitePage), P s → P (s.withOut { s.out with site := l })
  zones : ∀ {s} (zs : List Zone), zs.map Zone.place = s.zones.map Zone.place → P s → P (s.withZones zs)
  dsq : ∀ {s} (d : Dsq), d.deploy = s.dsq.deploy → d.slots.length = s.dsq.slots.length → P s → P (s.withDsq d)
  sha : ∀ {s} (v : Sha), s.sha.follows v → P s → P (s.withSha v)

/-- A calm property that also survives the changes of the Site Table and the contexts that keep every capacity. -/
structure Quiet (P : State → Prop) : Prop extends Calm P where
  sites : ∀ {s} (v : List Entry), v.length = s.sites.length → P s → P (s.withSites v)
  acq : ∀ {s} (v : Acq), (s.acq.stack.length ≤ Config.stackPlaces → v.stack.length ≤ Config.stackPlaces) →
    P s → P (s.withAcq v)

namespace Quiet

/-- A property of both branches is a property of the choice. -/
theorem ite {α : Type} {P : α → Prop} {c : Prop} [Decidable c] {a b : α} (ha : P a) (hb : P b) : P (if c then a else b) := by
  split <;> assumption

/-! ## Folds -/

/-- A property survives a list of operations each of which it survives. -/
theorem fold {α : Type} {f : State → α → State} (hf : ∀ {s} (x : α), P s → P (f s x)) (l : List α) {s} (hs : P s) :
    P (l.foldl f s) := by
  induction l generalizing s with
  | nil => exact hs
  | cons x l ih => exact ih (hf x hs)

end Quiet

namespace Steady

/-! ## Frames and notices -/

theorem sendDrive (h : Steady P) {s} (f : DriveFrame) (hs : P s) : P (sendDrive s f) := h.drive _ hs
theorem sendDriveAll (h : Steady P) {s} (fs : List DriveFrame) (hs : P s) : P (sendDriveAll s fs) := h.drive _ hs

theorem forwardUp (h : Steady P) {s} (n k : Nat) (p : List Byte) (hs : P s) : P (forwardUp s n k p) := by
  unfold Machine.forwardUp placeUp
  split
  · rename_i hq
    refine h.lnu _ [.forwarded n k p] rfl rfl (by simp [UpFrame.isReply]) (Or.inr ?_) hs
    simp only [Config.forwardPlaces, Config.noticePlaces, List.length_append, List.length_singleton] at *
    omega
  · exact hs

/-- The held NOTICE frames that find a place stand behind the frames that wait, within the first 63 places. -/
theorem fillNotices_append (q : List UpFrame) (ns : List Notice) :
    ∃ fs, (fillNotices q ns).1 = q ++ fs ∧ (∀ f ∈ fs, f.isReply = false) ∧
      (fs = [] ∨ (fillNotices q ns).1.length ≤ Config.noticePlaces) := by
  induction ns generalizing q with
  | nil => exact ⟨[], by simp [fillNotices], by simp, Or.inl rfl⟩
  | cons n ns ih =>
    unfold fillNotices
    split
    · rename_i hlt
      obtain ⟨fs, h1, h2, h3⟩ := ih (q ++ [.notice n])
      refine ⟨.notice n :: fs, by rw [h1]; simp, by simpa [UpFrame.isReply] using h2, Or.inr ?_⟩
      rcases h3 with h3 | h3
      · rw [h1, h3]
        simp only [Config.noticePlaces, List.append_nil, List.length_append, List.length_singleton] at *
        omega
      · exact h3
    · exact ⟨[], by simp, by simp, Or.inl rfl⟩

theorem placeHeld (h : Steady P) {s} (hs : P s) : P (placeHeld s) := by
  obtain ⟨fs, h1, h2, h3⟩ := fillNotices_append s.lnu.queue s.ntu.held
  exact h.ntu _ (h.lnu { s.lnu with queue := (fillNotices s.lnu.queue s.ntu.held).1 } fs rfl h1 h2 h3 hs)

theorem noticeDue (h : Steady P) {s} (n : Notice) (hs : P s) : P (noticeDue s n) := h.placeHeld (h.ntu _ hs)

theorem raise (h : Steady P) {s} (n : Notice) (hs : P s) : P (raise s n) := by
  unfold Machine.raise
  dsimp only
  split
  · exact h.ntu _ hs
  · exact h.noticeDue _ (h.ntu _ hs)

theorem readNotice (h : Steady P) {s} (c : NoticeClass) (hs : P s) : P (readNotice s c) := by
  unfold Machine.readNotice
  dsimp only
  split
  · exact hs
  · split
    · split
      · exact h.noticeDue _ (h.ntu _ hs)
      · exact h.ntu _ hs
    · exact h.ntu _ hs

end Steady

namespace Calm

theorem sendSite (h : Calm P) {s} (p : SitePage) (hs : P s) : P (sendSite s p) := h.site _ hs

/-! ## Hits (R24) -/

theorem place_hit (z : Zone) : z.hit.place = z.place := rfl

theorem countedCheck (h : Calm P) {s} (f : Zone → Bool) (hs : P s) : P (countedCheck s f).2 := by
  refine h.zones _ ?_ hs
  rw [List.map_map]
  refine List.map_congr_left fun z _ => ?_
  show (if f z then z.hit else z).place = z.place
  split <;> rfl

theorem moveCheck (h : Calm P) {s} (a : Axis) (t : Int) (hs : P s) : P (moveCheck s a t).2 := by
  unfold Machine.moveCheck
  split
  · exact hs
  · exact h.countedCheck _ hs

theorem boxCheck (h : Calm P) {s} (b : Box) (hs : P s) : P (boxCheck s b).2 := h.countedCheck _ hs
theorem poseCheck (h : Calm P) {s} (p : Pose) (hs : P s) : P (poseCheck s p).2 := h.countedCheck _ hs

theorem map_place_modify (zs : List Zone) (n : Nat) : (zs.modify n Zone.hit).map Zone.place = zs.map Zone.place := by
  induction zs generalizing n with
  | nil => cases n <;> rfl
  | cons z zs ih =>
    cases n with
    | zero => rfl
    | succ n => simp [ih]

end Calm

end Sys2Proof.Machine
end

