-- ==== Sys2Proof/Laws/Axs.lean ====
section
/-! SUPPORT. The operations of the Axis Supervisor: what each does to a record, and that they are steady. -/

namespace Sys2Proof.Machine

variable {P : State → Prop}

/-! ## Records -/

@[simp] theorem AxisRec.target_sel (r : AxisRec) : r.target r.sel = r.selected := by
  unfold AxisRec.target AxisRec.selected; cases r.sel <;> rfl
@[simp] theorem AxisRec.selected_setTarget_self (r : AxisRec) (v) : (r.setTarget r.sel v).selected = v := by
  cases r with | mk m o p w al se => cases se <;> rfl
theorem AxisRec.selected_setTarget (r : AxisRec) (which v) :
    (r.setTarget which v).selected = if which = r.sel then v else r.selected := by
  cases r with | mk m o p w al se => cases se <;> cases which <;> rfl

theorem AxisRec.wf_taken {r : AxisRec} (o : Owner) (h : r.wf) : (r.taken o).wf := by
  obtain ⟨m, ow, p, w, al, se⟩ := r
  cases m <;> cases se <;> simp_all [AxisRec.wf, AxisRec.taken, AxisRec.setTarget, AxisRec.selected, AxisRec.travelling]

theorem AxisRec.wf_withOwner {r : AxisRec} (o : Owner) (h : r.wf) : ({ r with owner := o } : AxisRec).wf := h

theorem AxisRec.wf_stopped {r : AxisRec} (hm : r.motion ≠ .halted) (h : r.wf) : r.stopped.wf := by
  obtain ⟨m, ow, p, w, al, se⟩ := r
  cases m <;> simp_all [AxisRec.wf, AxisRec.stopped, AxisRec.travelling]

theorem AxisRec.wf_setTarget {r : AxisRec} (which : Sel) (v : Int) (h : r.wf) : (r.setTarget which (some v)).wf := by
  obtain ⟨m, ow, p, w, al, se⟩ := r
  cases m <;> cases which <;> cases se <;> simp_all [AxisRec.wf, AxisRec.setTarget, AxisRec.selected, AxisRec.travelling]

theorem AxisRec.wf_moveSent {r : AxisRec} (hm : r.motion ≠ .halted) (hp : r.position.isSome) (ht : r.selected.isSome)
    (h : r.wf) : r.moveSent.wf := by
  obtain ⟨m, ow, p, w, al, se⟩ := r
  cases m <;> simp_all [AxisRec.wf, AxisRec.moveSent, AxisRec.selected, AxisRec.travelling]

theorem AxisRec.wf_jogSent {r : AxisRec} (t : Int) (hm : r.motion ≠ .halted) (hp : r.position.isSome) (h : r.wf) :
    (r.jogSent t).wf := by
  obtain ⟨m, ow, p, w, al, se⟩ := r
  cases m <;> simp_all [AxisRec.wf, AxisRec.jogSent, AxisRec.moveSent, AxisRec.selected, AxisRec.travelling]

theorem AxisRec.wf_halt {r : AxisRec} {c : FaultCause} (hc : c ≠ .none) : (r.halt c).wf := by
  simp [AxisRec.wf, AxisRec.halt, AxisRec.travelling, hc]

theorem AxisRec.wf_cleared {r : AxisRec} (ch : ChanState) (hm : r.motion = .halted) (h : r.wf) : (r.cleared ch).wf := by
  obtain ⟨m, ow, p, w, al, se⟩ := r
  subst hm
  cases ch <;> simp_all [AxisRec.wf, AxisRec.cleared, AxisRec.travelling]

theorem AxisRec.wf_resetKept (r : AxisRec) : r.resetKept.wf := by
  simp [AxisRec.wf, AxisRec.resetKept, AxisRec.travelling]

theorem AxisRec.wf_powerOn (a b c : Nat) (d e : Int) : (AxisRec.powerOn a b c d e).wf := by
  simp [AxisRec.wf, AxisRec.powerOn, AxisRec.travelling]

theorem AxisRec.wf_restMotion {r : AxisRec} (c : Channel) (st : ChanState) (h : r.wf) :
    ({ r with motion := restMotion c st r.motion } : AxisRec).wf := by
  obtain ⟨m, ow, p, w, al, se⟩ := r
  cases c <;> cases m <;> cases st <;> simp_all [AxisRec.wf, restMotion, AxisRec.travelling, AxisRec.selected]

theorem restMotion_halted (c : Channel) (st : ChanState) (m : Motion) : restMotion c st m = .halted ↔ m = .halted := by
  cases c <;> cases m <;> cases st <;> simp [restMotion]

@[simp] theorem AxisRec.position_setTarget (r : AxisRec) (w v) : (r.setTarget w v).position = r.position := by
  cases w <;> rfl
@[simp] theorem AxisRec.motion_setTarget (r : AxisRec) (w v) : (r.setTarget w v).motion = r.motion := by
  cases w <;> rfl
@[simp] theorem AxisRec.owner_setTarget (r : AxisRec) (w v) : (r.setTarget w v).owner = r.owner := by
  cases w <;> rfl

theorem AxisRec.position_taken (r : AxisRec) (o) : (r.taken o).position = r.position := by
  unfold AxisRec.taken; split <;> simp
theorem AxisRec.halted_taken (r : AxisRec) (o) : (r.taken o).motion = .halted ↔ r.motion = .halted := by
  unfold AxisRec.taken; split <;> simp_all
theorem AxisRec.travelling_of_taken {r : AxisRec} {o} (h : (r.taken o).travelling = true) : r.travelling = true := by
  unfold AxisRec.taken at h; split at h <;> simp_all [AxisRec.travelling]
theorem AxisRec.travelling_of_restMotion {r : AxisRec} {c st}
    (h : ({ r with motion := restMotion c st r.motion } : AxisRec).travelling = true) : r.travelling = true := by
  obtain ⟨m, ow, p, w, al, se⟩ := r
  cases c <;> cases m <;> cases st <;> simp_all [AxisRec.travelling, restMotion]
theorem AxisRec.owner_taken (r : AxisRec) (o) : (r.taken o).owner = o := by
  unfold AxisRec.taken; split <;> rfl

/-! ## Moves -/

/-- R7: what an accepted move has found. -/
theorem moveRefusal_none {s o a t rate} (h : moveRefusal s o a t rate = none) :
    (s.axis a).owner = o ∧ (s.axis a).motion ≠ .halted ∧ (s.axis a).motion ≠ .off ∧ channelsFull s a = true ∧
      (s.axis a).position.isSome ∧ (∃ v, t = some v ∧ inFull a v = true) ∧ rate ≠ some 0 := by
  unfold moveRefusal at h
  simp only [] at h
  split at h <;> try contradiction
  split at h <;> try contradiction
  split at h <;> try contradiction
  split at h <;> try contradiction
  split at h <;> try contradiction
  split at h <;> try contradiction
  rename_i h1 h2 h3 h4 h5 h6
  refine ⟨by simpa using h1, by simp_all, by simp_all, by simpa using h3, ?_, ?_, h6⟩
  · cases hp : (s.axis a).position <;> simp_all
  · cases t with
    | none => simp at h5
    | some v => exact ⟨v, rfl, by simpa using h5⟩

namespace Steady

theorem closeRun (h : Steady P) {s} (a : Axis) (hs : P s) : P (closeRun s a) := h.mgt _ hs

theorem axsTake (h : Steady P) {s} (o : Owner) (a : Axis) (hs : P s) : P (axsTake s o a) := by
  unfold Machine.axsTake
  split
  · exact hs
  · exact h.closeRun a (h.axis a _ (AxisRec.position_taken _ _) (AxisRec.halted_taken _ _)
      ⟨AxisRec.wf_taken o, fun ht => Or.inl (AxisRec.travelling_of_taken ht)⟩ hs)

theorem axsTakeAll (h : Steady P) {s} (o : Owner) (as : List Axis) (hs : P s) : P (axsTakeAll s o as) :=
  Quiet.fold (fun a => h.axsTake o a) as hs

theorem axsRelease (h : Steady P) {s} (a : Axis) (hs : P s) : P (axsRelease s a) :=
  h.axis a _ rfl Iff.rfl ⟨id, Or.inl⟩ hs

theorem axsReleaseAll (h : Steady P) {s} (as : List Axis) (hs : P s) : P (axsReleaseAll s as) :=
  Quiet.fold (fun a => h.axsRelease a) as hs

theorem axsStop (h : Steady P) {s} (a : Axis) (hs : P s) : P (axsStop s a) := by
  unfold Machine.axsStop
  split
  · exact hs
  · exact h.sendDrive _ hs
  all_goals
    rename_i hm
    refine h.closeRun a (h.sendDrive _ (h.axis a _ rfl ?_ ⟨AxisRec.wf_stopped ?_, nofun⟩ hs)) <;>
      simp [AxisRec.stopped, hm]

theorem axsStop_rests (s : State) (a : Axis) : ¬ ((Machine.axsStop s a).axis a).travelling = true := by
  unfold Machine.axsStop
  split
  · rename_i hm; unfold AxisRec.travelling; rw [hm]; decide
  · rename_i hm
    show ¬ (s.axis a).travelling = true
    unfold AxisRec.travelling; rw [hm]; decide
  all_goals
    rw [show ∀ v : State, (Machine.closeRun (Machine.sendDrive v (.stop a)) a).axis a = v.axis a from fun _ => rfl,
      State.axis_setAxis_self]
    simp [AxisRec.stopped, AxisRec.travelling]

theorem axsStopTravelling (h : Steady P) {s} (a : Axis) (hs : P s) : P (axsStopTravelling s a) := by
  unfold Machine.axsStopTravelling
  split
  · exact h.axsStop a hs
  · exact hs

theorem axsStopAll (h : Steady P) {s} (as : List Axis) (hs : P s) : P (axsStopAll s as) :=
  Quiet.fold (fun a => h.axsStopTravelling a) as hs

theorem endJog (h : Steady P) {s} (a : Axis) (hs : P s) : P (endJog s a) := by
  unfold Machine.endJog
  split
  · exact h.closeRun a hs
  · exact hs

theorem axis_endJog (s : State) (a b : Axis) : (Machine.endJog s a).axis b = s.axis b := by
  unfold Machine.endJog Machine.closeRun
  split <;> simp

theorem channelsFull_endJog (s : State) (a b : Axis) : channelsFull (Machine.endJog s a) b = channelsFull s b := by
  unfold Machine.endJog Machine.closeRun
  split <;> rfl

theorem sendMove (h : Steady P) {s} (a : Axis) (r : AxisRec) (t : Int) (rate)
    (hp : r.position = (s.axis a).position) (hm : r.motion = .halted ↔ (s.axis a).motion = .halted)
    (hw : (s.axis a).wf → r.wf) (hf : channelsFull s a = true) (hs : P s) : P (sendMove s a r t rate) := by
  unfold Machine.sendMove
  have e := axis_endJog s a a
  exact h.sendDrive _ (h.axis a r (by rw [e]; exact hp) (by rw [e]; exact hm)
    ⟨by rw [e]; exact hw, fun _ => Or.inr (by rw [channelsFull_endJog]; exact hf)⟩ (h.endJog a hs))

theorem axsMoveTo (h : Steady P) {s s1 o} {a : Axis} {t rate} (hs : P s) (he : axsMoveTo s o a t rate = .ok s1) :
    P s1 := by
  unfold Machine.axsMoveTo at he
  split at he
  · contradiction
  · rename_i hr
    obtain ⟨-, hm, -, hf, hp, -, -⟩ := moveRefusal_none hr
    cases he
    refine h.sendMove a _ t rate (by simp [AxisRec.moveSent]) (by simp [AxisRec.moveSent, hm]) (fun hw => ?_) hf hs
    exact AxisRec.wf_moveSent (by simpa using hm) (by simpa using hp) (by simp) (AxisRec.wf_setTarget _ _ hw)

theorem axsSetTarget (h : Steady P) {s s1 o} {a : Axis} {w t} (hs : P s) (he : axsSetTarget s o a w t = .ok s1) :
    P s1 := by
  unfold Machine.axsSetTarget at he
  simp only [] at he
  repeat' split at he
  all_goals try contradiction
  cases he
  exact h.axis a _ (by simp) (by simp) ⟨AxisRec.wf_setTarget _ _, fun ht => Or.inl (by simpa [AxisRec.travelling] using ht)⟩ hs

theorem axsSelect (h : Steady P) {s s1 o} {a : Axis} {w rate} (hs : P s) (he : axsSelect s o a w rate = .ok s1) :
    P s1 := by
  unfold Machine.axsSelect at he
  simp only [] at he
  split at he
  · contradiction
  · contradiction
  · rename_i t hr ht
    obtain ⟨-, hm, -, hf, hp, -, -⟩ := moveRefusal_none hr
    cases he
    refine h.sendMove a _ t rate rfl (by simp [AxisRec.moveSent, hm]) (fun hw => ?_) hf hs
    have hsel : ({ s.axis a with sel := w } : AxisRec).selected = some t := by
      rw [← ht]; cases w <;> rfl
    revert hw hm hp hsel
    generalize s.axis a = r
    intro hm hp hw hsel
    obtain ⟨m, ow, p, wk, al, se⟩ := r
    cases m <;> simp_all [AxisRec.wf, AxisRec.moveSent, AxisRec.travelling, AxisRec.selected]

theorem axsJogMove (h : Steady P) {s s1 o} {a : Axis} {t rate} (hs : P s) (he : axsJogMove s o a t rate = .ok s1) :
    P s1 := by
  unfold Machine.axsJogMove at he
  split at he
  · contradiction
  · rename_i hr
    obtain ⟨-, hm, -, hf, hp, -, -⟩ := moveRefusal_none hr
    cases he
    exact h.sendDrive _ (h.axis a _ rfl (by simp [AxisRec.jogSent, AxisRec.moveSent, hm])
      ⟨fun hw => AxisRec.wf_jogSent t hm hp hw, fun _ => Or.inr hf⟩ hs)

/-! ## Channels -/

/-- R13: a channel that is set leaves the channels of the travelling axes FULL, where its own axis is at rest, or the
channel is set to FULL or to the state it holds. -/
theorem channelsFull_set {s : State} {c : Channel} {st : ChanState}
    (hc : (s.axis c.axis).travelling = true → st = .full ∨ s.chan c = st) (a : Axis) (ht : (s.axis a).travelling = true)
    (hf : channelsFull s a = true) : channelsFull (s.withAxs { s.axs with channels := s.axs.channels.set c st }) a = true := by
  have g : ∀ d, d.axis = a → s.chan d = .full → (s.axs.channels.set c st).get d = .full := by
    rintro d rfl h
    rw [Channels.get_set]
    split
    · rename_i e
      rw [e] at ht h
      exact (hc ht).elim id fun k => k.symm.trans h
    · exact h
  unfold channelsFull at hf ⊢
  simp only [Bool.and_eq_true, Bool.or_eq_true, decide_eq_true_eq] at hf ⊢
  refine ⟨g _ (by cases a <;> rfl) hf.1, ?_⟩
  by_cases hm : a = .mast
  · exact Or.inr (g .lock hm.symm (hf.2.resolve_left (by simp [hm])))
  · exact Or.inl (by simpa using hm)

theorem sendChannel (h : Steady P) {s} (c : Channel) (st : ChanState)
    (hc : (s.axis c.axis).travelling = true → st = .full ∨ s.chan c = st) (hs : P s) : P (sendChannel s c st) :=
  h.sendDrive _ (h.channels _ (channelsFull_set hc) hs)

theorem closeRunUnlessFull (h : Steady P) {s} (a : Axis) (st : ChanState) (hs : P s) :
    P (closeRunUnlessFull s a st) := by
  unfold Machine.closeRunUnlessFull
  split
  · exact hs
  · exact h.closeRun a hs

theorem endLowering (h : Steady P) {s} (n : Notice) (hs : P s) : P (endLowering s n) :=
  h.raise n (h.axsRelease .mast hs)

theorem restMotion (h : Steady P) {s} (a : Axis) (c : Channel) (st : ChanState) (hs : P s) :
    P (s.setAxis a { s.axis a with motion := restMotion c st (s.axis a).motion }) :=
  h.axis a _ rfl (restMotion_halted c st _)
    ⟨AxisRec.wf_restMotion c st, fun ht => Or.inl (AxisRec.travelling_of_restMotion (c := c) (st := st) ht)⟩ hs

/-- R13: before a channel changes, the move that the change ends has been stopped. -/
theorem channelChange_rests (s : State) (c : Channel) (st : ChanState) :
    let u := Machine.closeRunUnlessFull (if endsMove s c st then Machine.axsStop s c.axis else s) c.axis st
    (u.axis c.axis).travelling = true → st = .full ∨ u.chan c = st := by
  intro u ht
  have e : ∀ v : State, (Machine.closeRunUnlessFull v c.axis st).axis c.axis = v.axis c.axis ∧
      (Machine.closeRunUnlessFull v c.axis st).chan c = v.chan c := by
    intro v; unfold Machine.closeRunUnlessFull; split <;> exact ⟨rfl, rfl⟩
  simp only [u] at ht ⊢
  rw [(e _).1] at ht; rw [(e _).2]
  split at ht
  · exact absurd ht (axsStop_rests s c.axis)
  · rename_i h
    rw [if_neg h]
    unfold endsMove at h
    by_contra k
    rw [not_or] at k
    exact h (by simp [k.1, k.2, ht])

theorem channelChange (h : Steady P) {s} (c : Channel) (st : ChanState) (hs : P s) : P (channelChange s c st) := by
  unfold Machine.channelChange
  have h1 : P (if endsMove s c st then Machine.axsStop s c.axis else s) := Quiet.ite (h.axsStop _ hs) hs
  have h3 := h.restMotion c.axis c st (h.sendChannel c st (channelChange_rests s c st) (h.closeRunUnlessFull c.axis st h1))
  exact Quiet.ite (h.endLowering _ h3) h3

theorem axsChannel (h : Steady P) {s} (c : Channel) (st : ChanState) (hs : P s) : P (axsChannel s c st) := by
  unfold Machine.axsChannel
  split
  · exact h.sendDrive _ hs
  · exact h.channelChange c st hs

theorem axsChannels (h : Steady P) {s} (w : State → Channel → Option ChanState) (hs : P s) : P (axsChannels s w) := by
  refine Quiet.fold (fun c hs => ?_) allChannels hs
  split
  · exact h.axsChannel _ _ hs
  · exact hs

end Steady

end Sys2Proof.Machine
end

