-- ==== Sys2Proof/Laws/Link.lean ====
section
/-! SUPPORT. The operations of the Site Table, of the Site Handshake Agent and of the contexts: which of them are calm and
which are quiet. -/

namespace Sys2Proof.Machine

variable {P : State → Prop}

namespace Calm

/-! ## Site Handshake Agent -/

/-- A change of the agent that leaves the Report Window alone. -/
theorem shaSame (h : Calm P) {s} (v : Sha) (e : v.window = s.sha.window) (hs : P s) : P (s.withSha v) :=
  h.sha v (.inl e) hs

/-- A change of the agent that empties the Report Window. -/
theorem shaEmpty (h : Calm P) {s} (v : Sha) (e : v.window = []) (hs : P s) : P (s.withSha v) :=
  h.sha v (.inr (.inl e)) hs

theorem sendAbility (h : Calm P) {s} (hs : P s) : P (sendAbility s) := h.sendSite _ (h.shaSame _ rfl hs)

theorem enterOffering (h : Calm P) {s} (b : Bool) (hs : P s) : P (enterOffering s b) := by
  refine h.sendAbility (h.sha _ ?_ hs)
  by_cases hu : s.sha.state = .up
  · exact .inr (.inl (by simp [Sha.offering, hu]))
  · exact .inl (by simp [Sha.offering, hu])

theorem shaWake (h : Calm P) {s} (hs : P s) : P (shaWake s) := Quiet.ite (h.enterOffering _ hs) hs

theorem enterChosen (h : Calm P) {s} (c : Choice) (hs : P s) : P (enterChosen s c) :=
  h.sendSite _ (h.shaSame _ rfl hs)

theorem enterNoCommon (h : Calm P) {s} (hs : P s) : P (enterNoCommon s).1 := h.raise _ (h.shaSame _ rfl hs)

theorem leaveUp (h : Calm P) {s} (hs : P s) : P (s.withSha s.sha.leaveUp) := by
  refine h.sha _ ?_ hs
  unfold Sha.leaveUp
  split
  · exact .inr (.inl rfl)
  · exact .inl rfl

theorem shaResolve (h : Calm P) {s} (a : Ability) (hs : P s) : P (shaResolve s a).1 := by
  unfold Machine.shaResolve
  simp only []
  split
  · exact h.enterNoCommon (h.leaveUp hs)
  · split
    · exact h.enterChosen _ (h.raise _ (h.leaveUp hs))
    · exact h.enterChosen _ (h.leaveUp hs)

theorem shaAbility (h : Calm P) {s} (a : Ability) (hs : P s) : P (shaAbility s a).1 := by
  have h1 := h.shaWake hs
  have h2 : P ((Machine.shaWake s).withSha { (Machine.shaWake s).sha with siteAbility := some a, heard := true }) :=
    h.shaSame _ rfl h1
  unfold Machine.shaAbility
  simp only []
  split
  · exact h1
  · exact h2
  all_goals exact h.shaResolve a h2

theorem judgeReady (h : Calm P) {s} (hs : P s) : P (judgeReady s).1 := h.shaSame _ rfl hs

theorem enterUp (h : Calm P) {s} (c : Choice) (hs : P s) : P (enterUp s c).1 :=
  h.judgeReady (h.raise _ (h.shaSame _ rfl hs))

theorem shaEchoChosen (h : Calm P) {s} (c : Choice) (t : Bool) (hs : P s) : P (shaEchoChosen s c t).1 := by
  unfold Machine.shaEchoChosen
  split
  · exact hs
  · split
    · exact hs
    · split
      · exact h.enterUp _ hs
      · exact h.enterNoCommon hs

theorem shaEcho (h : Calm P) {s} (c : Choice) (t : Bool) (hs : P s) : P (shaEcho s c t).1 := by
  unfold Machine.shaEcho
  simp only []
  split
  · exact h.shaEchoChosen c t (h.shaWake hs)
  · exact h.shaWake hs

theorem shaIdentUp (h : Calm P) {s} (n : Nat) (hs : P s) : P (shaIdentUp s n).1 := by
  have h1 : P (s.withSha { s.sha with identity := some n }) := h.shaSame _ rfl hs
  unfold Machine.shaIdentUp
  simp only []
  split
  · exact h1
  · split
    · exact h1
    · split
      · split
        · exact h1
        · exact h.shaSame _ rfl h1
      · split
        · exact h.raise _ (h.shaEmpty _ rfl h1)
        · exact h1

theorem shaIdent (h : Calm P) {s} (n : Nat) (hs : P s) : P (shaIdent s n).1 := by
  have h1 := h.shaWake hs
  unfold Machine.shaIdent
  simp only []
  split
  · exact h.shaSame _ rfl h1
  · split
    · exact h1
    · exact h.shaIdentUp n h1
  all_goals exact h1

theorem shaName (h : Calm P) {s} (hs : P s) : P (shaName s).1 := by
  unfold Machine.shaName
  split
  · split
    · have h1 := h.judgeReady hs
      split
      · rename_i e; rw [e] at h1; exact h1
      · rename_i e; rw [e] at h1; exact h1
    · exact hs
  · exact h.enterOffering _ hs

theorem shaNoContext (h : Calm P) {s} (hs : P s) : P (shaNoContext s) := h.shaSame _ rfl hs
theorem shaRenegotiate (h : Calm P) {s} (hs : P s) : P (shaRenegotiate s).1 := h.enterOffering _ hs
theorem shaDown (h : Calm P) {s} (hs : P s) : P (shaDown s).1 := h.raise _ (h.shaEmpty _ rfl hs)

theorem shaEnd (h : Calm P) {s} (hs : P s) : P (shaEnd s) := Quiet.ite hs (h.sendSite _ (h.shaEmpty _ rfl hs))

theorem shaOfferTimer (h : Calm P) {s} (hs : P s) : P (shaOfferTimer s) := Quiet.ite (h.sendAbility hs) hs

theorem shaEchoTimer (h : Calm P) {s} (hs : P s) : P (shaEchoTimer s) := by
  unfold Machine.shaEchoTimer
  split
  · exact Quiet.ite (h.sendSite _ (h.shaSame _ rfl hs)) (h.raise _ (h.enterOffering _ hs))
  · exact hs

theorem acceptRecord (h : Calm P) {s} (r : WinRec) (ha : s.sha.accepts r.seq = true) (hs : P s) : P (acceptRecord s r) :=
  h.sha _ (.inr (.inr ⟨r, ha, rfl⟩)) hs

theorem shaReport (h : Calm P) {s} (q : Nat) (l : Int) (v : Bool) (hs : P s) : P (shaReport s q l v).1 := by
  unfold Machine.shaReport
  simp only []
  split
  · rename_i ha
    simp only [Bool.and_eq_true] at ha
    exact h.acceptRecord _ ha.2 (h.shaWake hs)
  · exact h.shaWake hs

theorem emptyWindow (h : Calm P) {s} (hs : P s) : P (emptyWindow s) := h.shaEmpty _ rfl hs

/-! ## Axes and checks of an acquisition -/

theorem stopSearch (h : Calm P) {s} (o : Option Axis) (hs : P s) : P (stopSearch s o) :=
  Quiet.fold (fun a hs => Quiet.ite (h.axsStop a hs) hs) searchAxes hs

theorem releaseSearch (h : Calm P) {s} (hs : P s) : P (releaseSearch s) := h.axsReleaseAll _ hs

theorem slewChecks (h : Calm P) {s} (row : Nat) (hs : P s) : P (slewChecks s row).2 := by
  unfold Machine.slewChecks
  simp only []
  split
  · split
    · exact h.poseCheck _ hs
    · exact hs
  · exact hs

end Calm

namespace Quiet

/-! ## Site Table -/

theorem modifyEntry (h : Quiet P) {s} (row : Nat) (f : Entry → Entry) (hs : P s) : P (modifyEntry s row f) :=
  h.sites _ (by simp) hs

theorem stbChange (h : Quiet P) {s} (row : Nat) (l : List EntryState) (t : EntryState) (c : Option LastCause) (hs : P s) :
    P (stbChange s row l t c) := h.modifyEntry _ _ hs

/-! ## Context and stack -/

theorem setCtx (h : Quiet P) {s} (c : Ctx) (hs : P s) : P (setCtx s c) := h.acq _ id hs
theorem endCtx (h : Quiet P) {s} (hs : P s) : P (endCtx s) := h.shaNoContext (h.acq _ id hs)

theorem setStack (h : Quiet P) {s} (l : List StackEntry)
    (hl : s.acq.stack.length ≤ Config.stackPlaces → l.length ≤ Config.stackPlaces) (hs : P s) : P (setStack s l) :=
  h.acq _ hl hs

theorem makeRoom (h : Quiet P) {s} (hs : P s) : P (makeRoom s) := by
  unfold Machine.makeRoom
  split
  · exact hs
  · split
    · exact hs
    · refine h.raise _ (h.setStack _ (fun hl => ?_) (h.stbChange _ _ _ _ hs))
      exact Nat.le_trans (by show (s.acq.stack.take _).length ≤ s.acq.stack.length; simp) hl

theorem acqEmptyStack (h : Quiet P) {s} (hs : P s) : P (acqEmptyStack s) :=
  h.setStack _ (fun _ => Nat.zero_le _) (fold (fun _ hs => h.stbChange _ _ _ _ hs) s.acq.stack hs)

theorem acqDrop (h : Quiet P) {s} (e : StackEntry) (hs : P s) : P (acqDrop s e) :=
  h.stbChange _ _ _ _ (h.setStack _ (fun hl => Nat.le_trans (by simp) hl) hs)

theorem setStepAxis (h : Quiet P) {s} (a : Option Axis) (hs : P s) : P (setStepAxis s a) := by
  unfold Machine.setStepAxis
  split
  · exact hs
  · exact h.setCtx _ hs

theorem createCtx (h : Quiet P) {s} (c : Ctx) (hs : P s) : P (createCtx s c) := by
  unfold Machine.createCtx
  have h1 := h.shaName (h.setCtx c hs)
  split
  · rename_i e; rw [e] at h1; exact h1
  · rename_i e; rw [e] at h1; exact h.setCtx _ h1

theorem writeLearned (h : Quiet P) {s} (row : Nat) (hs : P s) : P (writeLearned s row) := h.modifyEntry _ _ hs
theorem writeEdges (h : Quiet P) {s} (c : Ctx) (hs : P s) : P (writeEdges s c) := h.modifyEntry _ _ hs

end Quiet

end Sys2Proof.Machine
end

