-- ==== Sys2Proof/Laws/Closed.lean ====
section
/-! SUPPORT. What the operations that hand something to the Transmitter Enable Control can do. `Closed P` adds to `Quiet P`
the changes that are handed on; the lemmas go through the Acquisition Engine once, and `Engine P` gathers what its operations
keep, for the blocks above it. -/

namespace Sys2Proof.Machine

variable {P : State → Prop}

/-- A quiet property that also survives what is handed to the Transmitter Enable Control. -/
structure Closed (P : State → Prop) : Prop extends Quiet P where
  deploy : ∀ {s} (d : Deploy), d ≠ .unknown → P s → P (setDeploy s d)
  halt : ∀ {s} (a : Axis) (c : FaultCause), c ≠ .none → P s → P (axsHalt s a c)
  clear : ∀ {s}, P s → P (clearAxes s)
  tracked : ∀ {s} (b : Bool), P s → P (txcTracked s b)
  txOn : ∀ {s}, P s → P (txcOn s)
  txOff : ∀ {s}, P s → P (txcOff s)
  lower : ∀ {s}, P s → P (beforeWalk s)

namespace Closed

/-! ## Acquisition Engine: ends and pushes -/

theorem markFailed (h : Closed P) {s} (c : Ctx) (l : LastCause) (hs : P s) : P (markFailed s c l) :=
  have h1 := h.stbChange c.row runningStates .lost (some l) hs
  h.raise _ (Quiet.ite (h.tracked _ h1) h1)

theorem acqFail (h : Closed P) {s} (l : LastCause) (hs : P s) : P (acqFail s l) := by
  unfold Machine.acqFail
  split
  · exact hs
  · exact h.endCtx (h.releaseSearch (h.markFailed _ _ (h.stopSearch _ hs)))

theorem acqAbort (h : Closed P) {s} (hs : P s) : P (acqAbort s) := by
  unfold Machine.acqAbort
  split
  · exact hs
  · exact h.endCtx (h.tracked _ (h.markFailed _ _ hs))

theorem acqWalkAbort (h : Closed P) {s} (hs : P s) : P (acqWalkAbort s) := by
  unfold Machine.acqWalkAbort
  split
  · exact hs
  · exact h.endCtx (h.tracked _ (h.raise _ (h.stbChange _ _ _ _ hs)))

theorem acqRelease (h : Closed P) {s} (c : Ctx) (hs : P s) : P (acqRelease s c) :=
  h.shaEnd (h.endCtx (h.releaseSearch (h.tracked _ (h.stbChange _ _ _ _ (h.stopSearch _ hs)))))

theorem makeRoom_length (s : State) : (makeRoom s).acq.stack.length < Config.stackPlaces := by
  unfold makeRoom
  split
  · assumption
  · split
    · rename_i hl
      rw [List.getLast?_eq_none_iff] at hl
      rw [hl]; decide
    · rw [acq_raise]
      show (s.acq.stack.take 2).length < 3
      simp only [List.length_take]
      omega

theorem acqPush (h : Closed P) {s} (u : SuspendCause) (o : Option Axis) (hs : P s) : P (acqPush s u o) := by
  unfold Machine.acqPush
  split
  · exact hs
  · refine h.raise _ (h.endCtx (h.tracked _ (h.releaseSearch (h.stbChange _ _ _ _ ?_))))
    exact h.setStack _ (fun _ => makeRoom_length _) (h.makeRoom (h.stopSearch o hs))

/-! ## Acquisition Engine: moves and phases -/

theorem searchSelect (h : Closed P) {s} (a : Axis) (w : Sel) (t : Int) (hs : P s) : P (searchSelect s a w t) := by
  unfold Machine.searchSelect
  split
  · exact h.acqFail _ hs
  · rename_i e1
    have h1 := h.axsSetTarget hs e1
    split
    · exact h.acqFail _ h1
    · rename_i e2
      exact h.setStepAxis _ (h.axsSelect h1 e2)

theorem searchMove (h : Closed P) {s} (a : Axis) (w : Sel) (t : Int) (hs : P s) : P (searchMove s a w t) :=
  have h1 := h.moveCheck a t hs
  Quiet.ite (h.acqFail _ h1) (h.searchSelect a w t h1)

theorem slewMove (h : Closed P) {s} (c : Ctx) (a : Axis) (hs : P s) : P (slewMove s c a) :=
  Quiet.ite (h.searchMove a _ _ hs) (h.acqFail _ hs)

theorem startSlew (h : Closed P) {s} (hs : P s) : P (startSlew s) := by
  unfold Machine.startSlew
  split
  · exact hs
  · exact h.slewMove _ _ (h.setCtx _ hs)

theorem reacquire (h : Closed P) {s} (row : Nat) (hs : P s) : P (reacquire s row) :=
  h.startSlew (h.raise _ (h.createCtx _ (h.stbChange _ _ _ _ hs)))

theorem judgeReacquire (h : Closed P) {s} (row : Nat) (hs : P s) : P (judgeReacquire s row) := by
  have h1 := h.slewChecks row hs
  unfold Machine.judgeReacquire
  split
  · split
    · rename_i e; rw [e] at h1; exact h.reacquire _ h1
    · rename_i e; rw [e] at h1; exact h.releaseSearch h1
  · exact h.releaseSearch hs

theorem acqLose (h : Closed P) {s} (l : LastCause) (hs : P s) : P (acqLose s l) := by
  unfold Machine.acqLose
  split
  · exact hs
  · rename_i c _
    have h2 := h.endCtx (h.raise (.searchEnded l c.row c.phase)
      (h.tracked false (h.stbChange c.row [.tracked] .lost (some l) (h.stopSearch none hs))))
    exact Quiet.ite (h.judgeReacquire _ h2) (h.releaseSearch h2)

theorem linkFailed (h : Closed P) {s} (hs : P s) : P (linkFailed s) := by
  unfold Machine.linkFailed
  split
  · exact hs
  · exact Quiet.ite (h.acqLose _ hs) (h.acqFail _ hs)

theorem toStart (h : Closed P) {s} (hs : P s) : P (toStart s) := by
  unfold Machine.toStart
  split
  · exact hs
  · exact Quiet.ite (h.acqFail _ hs) (h.searchMove _ _ _ (h.setCtx _ hs))

theorem startSweep (h : Closed P) {s} (p : Phase) (hs : P s) : P (startSweep s p) := by
  unfold Machine.startSweep
  split
  · exact hs
  · exact h.toStart (h.setCtx _ hs)

theorem enterTrack (h : Closed P) {s} (hs : P s) : P (enterTrack s) := by
  unfold Machine.enterTrack
  split
  · exact hs
  · exact h.raise _ (h.tracked _ (h.setCtx _ (h.writeLearned _ (h.stbChange _ _ _ _ hs))))

theorem afterSettle (h : Closed P) {s} (hs : P s) : P (afterSettle s) := by
  unfold Machine.afterSettle
  split
  · exact hs
  · exact Quiet.ite (h.startSweep _ (h.enterTrack (h.setCtx _ hs))) (h.startSweep _ (h.setCtx _ hs))

theorem enterSettle (h : Closed P) {s} (hs : P s) : P (enterSettle s) := by
  unfold Machine.enterSettle
  split
  · exact hs
  · exact Quiet.ite (h.afterSettle (h.setCtx _ hs)) (h.setCtx _ hs)

theorem beginSweeping (h : Closed P) {s} (hs : P s) : P (beginSweeping s) := by
  unfold Machine.beginSweeping
  split
  · exact hs
  · rename_i c _
    have h0 := h.setCtx
      { c with step := some .sweeping, rest := none, partialBegin := none, partialEnd := none, partialOpen := false }
      (h.emptyWindow hs)
    have h1 := h.moveCheck (phaseAxis c.phase) (c.sweepEnd.getD 0) h0
    refine Quiet.ite (h.acqFail _ h0) (Quiet.ite (h.acqFail _ h1) ?_)
    split
    · exact h.acqFail _ h1
    · rename_i e
      exact h.setCtx _ (h.axsMoveTo h1 e)

theorem stopSweep (h : Closed P) {s} (c : Ctx) (st : SweepStep) (n : RestThen) (hs : P s) : P (stopSweep s c st n) :=
  h.setCtx _ (h.axsStop _ hs)

theorem widen (h : Closed P) {s} (c : Ctx) (hs : P s) : P (widen s c) :=
  Quiet.ite (h.acqFail _ hs) (h.toStart (h.setCtx _ hs))

theorem noBeginEdge (h : Closed P) {s} (c : Ctx) (hs : P s) : P (noBeginEdge s c) :=
  Quiet.ite (h.acqLose _ hs) (h.widen c hs)

theorem centre (h : Closed P) {s} (hs : P s) : P (centre s) := by
  unfold Machine.centre
  split
  · exact hs
  · rename_i c _
    have h1 := fun d p => h.poseCheck p (h.setCtx (s := s) d hs)
    exact Quiet.ite (h.acqFail _ (h1 _ _)) (h.searchMove _ _ _ (h1 _ _))

theorem centred (h : Closed P) {s} (c : Ctx) (hs : P s) : P (centred s c) := by
  have h1 := h.writeEdges c hs
  unfold Machine.centred
  simp only []
  split
  · exact h.startSweep _ h1
  · exact h.startSweep _ h1
  all_goals exact h.enterTrack h1

/-! ## Acquisition Engine: events -/

theorem sweepEnded (h : Closed P) {s} (c : Ctx) (hs : P s) : P (sweepEnded s c) := by
  unfold Machine.sweepEnded
  split
  · exact h.centre (h.setCtx _ hs)
  · exact h.noBeginEdge _ (h.setCtx _ hs)

theorem atStart (h : Closed P) {s} (c : Ctx) (hs : P s) : P (atStart s c) :=
  Quiet.ite (h.beginSweeping hs) (h.setCtx _ hs)

theorem slewArrived (h : Closed P) {s} (c : Ctx) (a : Axis) (hs : P s) : P (slewArrived s c a) := by
  unfold Machine.slewArrived
  split
  · exact h.slewMove _ _ hs
  · exact h.enterSettle hs

theorem acqArrival (h : Closed P) {s} (a : Axis) (hs : P s) : P (acqArrival s a) := by
  unfold Machine.acqArrival
  split
  · exact hs
  · split
    · exact hs
    · split
      · exact h.atStart _ hs
      · exact h.sweepEnded _ hs
      · exact h.centred _ hs
      · exact Quiet.ite (h.slewArrived _ a hs) hs

theorem acqRest (h : Closed P) {s} (a : Axis) (p : Int) (hs : P s) : P (acqRest s a p) := by
  unfold Machine.acqRest
  split
  · exact hs
  · split
    · exact hs
    · split
      · exact hs
      · exact h.toStart hs
      · exact h.centre hs
      · exact h.centre (h.setCtx _ hs)
      · exact h.noBeginEdge _ (h.setCtx _ hs)

theorem acqZoneStop (h : Closed P) {s} (a : Axis) (hs : P s) : P (acqZoneStop s a) := by
  unfold Machine.acqZoneStop
  split
  · exact hs
  · exact Quiet.ite (Quiet.ite (h.setCtx _ hs) (h.setCtx _ hs)) (h.acqFail _ hs)

theorem judgeEdges (h : Closed P) {s} (c : Ctx) (m p : Int) (hs : P s) : P (judgeEdges s c m p) := by
  unfold Machine.judgeEdges
  simp only []
  split
  · exact Quiet.ite (h.setCtx _ hs) hs
  · exact Quiet.ite (h.stopSweep _ _ _ hs) hs

theorem countReport (h : Closed P) {s} (c : Ctx) (hs : P s) : P (countReport s c) :=
  have hd : P (drawPast255 s c.reportCount) := Quiet.ite hs (h.acq _ id hs)
  Quiet.ite (h.startSweep _ (h.setCtx _ hd)) (h.setCtx _ hd)

theorem trackReport (h : Closed P) {s} (c : Ctx) (m : Int) (hs : P s) : P (trackReport s c m) :=
  Quiet.ite (h.acqLose _ (h.setCtx _ hs)) (h.countReport _ hs)

theorem acqReport (h : Closed P) {s} (r : WinRec) (hs : P s) : P (acqReport s r) := by
  unfold Machine.acqReport
  split
  · exact hs
  · split
    · exact hs
    · refine Quiet.ite (h.trackReport _ _ hs) (Quiet.ite ?_ hs)
      split
      · exact h.judgeEdges _ _ _ hs
      · exact hs

theorem acqReady (h : Closed P) {s} (hs : P s) : P (acqReady s) := by
  unfold Machine.acqReady
  split
  · exact hs
  · exact Quiet.ite hs (Quiet.ite (h.beginSweeping (h.setCtx _ hs)) (h.setCtx _ hs))

theorem acqWait (h : Closed P) {s} (hs : P s) : P (acqWait s) := by
  unfold Machine.acqWait
  split
  · exact hs
  · exact Quiet.ite (h.stopSweep _ _ _ hs) (h.setCtx _ hs)

theorem acqLink (h : Closed P) {s} (hs : P s) : P (acqLink s) := by
  unfold Machine.acqLink
  split
  · exact hs
  · exact Quiet.ite (h.linkFailed hs) (h.acqWait hs)

theorem acqSettleTimer (h : Closed P) {s} (hs : P s) : P (acqSettleTimer s) := by
  unfold Machine.acqSettleTimer
  split
  · exact hs
  · exact Quiet.ite (h.afterSettle hs) hs

theorem acqLinkWait (h : Closed P) {s} (hs : P s) : P (acqLinkWait s) := by
  unfold Machine.acqLinkWait
  split
  · exact hs
  · exact Quiet.ite (h.linkFailed hs) hs

theorem acqGapTimer (h : Closed P) {s} (hs : P s) : P (acqGapTimer s) := by
  unfold Machine.acqGapTimer
  split
  · exact hs
  · exact Quiet.ite hs (Quiet.ite (h.acqFail _ hs) (h.stopSweep _ _ _ hs))

/-! ## Acquisition Engine: bringing a context back -/

theorem popTo (h : Closed P) {s} (e : StackEntry) (c : State → Ctx) (hs : P s) : P (popTo s e c) :=
  h.raise _ (h.createCtx _ (h.axsTakeAll _ _ (h.acqPush _ _ (h.stbChange _ _ _ _
    (h.setStack _ (fun hl => Nat.le_trans (by simp) hl) hs)))))

theorem acqWake (h : Closed P) {s} (hs : P s) : P (acqWake s) := by
  unfold Machine.acqWake
  split
  · exact hs
  · refine Quiet.ite hs (Quiet.ite (h.raise _ hs) ?_)
    split
    · exact h.startSlew (h.popTo _ _ hs)
    · exact h.startSlew (h.popTo _ _ hs)

theorem acqHoldCleared (h : Closed P) {s} (hs : P s) : P (acqHoldCleared s) := by
  unfold Machine.acqHoldCleared
  split
  · exact hs
  · exact Quiet.ite hs (Quiet.ite (h.startSlew (h.popTo _ _ hs)) (h.raise _ hs))

theorem removeStacked (h : Closed P) {s} (row : Nat) (hs : P s) : P (removeStacked s row) :=
  Quiet.ite (h.stbChange _ _ _ _ (h.setStack _ (fun hl => Nat.le_trans (List.length_filter_le _ _) hl) hs)) hs

theorem acquireTaken (h : Closed P) {s} (row : Nat) (hs : P s) : P (acquireTaken s row) :=
  h.createCtx _ (h.stbChange _ _ _ _ (h.axsTakeAll _ _ (h.acqPush _ _ (h.removeStacked row hs))))

end Closed

/-! ## The Acquisition Engine as the blocks above it see it -/

/-- A calm property that survives every operation of the Acquisition Engine, every write of the Site Table, and what is handed
to the Transmitter Enable Control. A property of the contexts, the Resume Stack and the Site Table together survives these
whole operations and not the changes that they are made of. -/
structure Engine (P : State → Prop) : Prop extends Calm P where
  deploy : ∀ {s} (d : Deploy), d ≠ .unknown → P s → P (setDeploy s d)
  halt : ∀ {s} (a : Axis) (c : FaultCause), c ≠ .none → P s → P (axsHalt s a c)
  clear : ∀ {s}, P s → P (clearAxes s)
  txOn : ∀ {s}, P s → P (txcOn s)
  txOff : ∀ {s}, P s → P (txcOff s)
  lower : ∀ {s}, P s → P (beforeWalk s)
  acqFail : ∀ {s} (l : LastCause), P s → P (Machine.acqFail s l)
  acqAbort : ∀ {s}, P s → P (Machine.acqAbort s)
  acqPush : ∀ {s} (u : SuspendCause) (o : Option Axis), P s → P (Machine.acqPush s u o)
  acqRelease : ∀ {s} (c : Ctx), s.acq.ctx = some c → P s → P (Machine.acqRelease s c)
  acqArrival : ∀ {s} (a : Axis), P s → P (Machine.acqArrival s a)
  acqRest : ∀ {s} (a : Axis) (p : Int), P s → P (Machine.acqRest s a p)
  acqZoneStop : ∀ {s} (a : Axis), P s → P (Machine.acqZoneStop s a)
  acqReady : ∀ {s}, P s → P (Machine.acqReady s)
  acqWait : ∀ {s}, P s → P (Machine.acqWait s)
  acqLink : ∀ {s}, P s → P (Machine.acqLink s)
  acqReport : ∀ {s} (r : WinRec), P s → P (Machine.acqReport s r)
  acqSettleTimer : ∀ {s}, P s → P (Machine.acqSettleTimer s)
  acqLinkWait : ∀ {s}, P s → P (Machine.acqLinkWait s)
  acqGapTimer : ∀ {s}, P s → P (Machine.acqGapTimer s)
  startSlew : ∀ {s}, P s → P (Machine.startSlew s)
  popTop : ∀ {s} (e : StackEntry) (rest : List StackEntry), s.acq.stack = e :: rest → P s → P (popSaved s e)
  acqWake : ∀ {s}, P s → P (Machine.acqWake s)
  acqHoldCleared : ∀ {s}, P s → P (Machine.acqHoldCleared s)
  acquireTaken : ∀ {s} (row : Nat), acquireRefusal s row = none → P s → P (Machine.acquireTaken s row)
  dropTop : ∀ {s} (e : StackEntry) (rest : List StackEntry), s.acq.stack = e :: rest → P s → P (Machine.acqDrop s e)
  entry : ∀ {s} (row : Nat) (e e1 : Entry) (field : Nat) (v : Int), s.entry row = some e → e.write s.sha field v = .ok e1 →
    P s → P (s.withSites (s.sites.set row e1))
  van : ∀ {s} (n : Nat), P s → P (Machine.vanWritten s n)
  acqSetting : ∀ {s} (v : Acq), v.ctx = s.acq.ctx → v.stack = s.acq.stack → P s → P (s.withAcq v)

/-- What survives each of the changes survives the operations made of them. -/
theorem Closed.engine (h : Closed P) : Engine P where
  __ := h
  acqFail l hs := h.acqFail l hs
  acqAbort hs := h.acqAbort hs
  acqPush u o hs := h.acqPush u o hs
  acqRelease c _ hs := h.acqRelease c hs
  acqArrival a hs := h.acqArrival a hs
  acqRest a p hs := h.acqRest a p hs
  acqZoneStop a hs := h.acqZoneStop a hs
  acqReady hs := h.acqReady hs
  acqWait hs := h.acqWait hs
  acqLink hs := h.acqLink hs
  acqReport r hs := h.acqReport r hs
  acqSettleTimer hs := h.acqSettleTimer hs
  acqLinkWait hs := h.acqLinkWait hs
  acqGapTimer hs := h.acqGapTimer hs
  startSlew hs := h.startSlew hs
  popTop e _ _ hs := h.popTo e _ hs
  acqWake hs := h.acqWake hs
  acqHoldCleared hs := h.acqHoldCleared hs
  acquireTaken row _ hs := h.acquireTaken row hs
  dropTop e _ _ hs := h.acqDrop e hs
  entry _ _ _ _ _ _ _ hs := h.sites _ (by simp) hs
  van _ hs := h.sites _ (by simp) (h.shaSame _ rfl hs)
  acqSetting v _ e hs := h.acq v (fun hl => by rw [e]; exact hl) hs

namespace Engine

theorem deliver (h : Engine P) {r : State × Option LinkTell} (hs : P r.1) : P (deliver r) := by
  unfold Machine.deliver
  split
  · exact hs
  · exact h.acqReady hs
  · exact h.acqWait hs
  · exact h.acqLink hs

theorem deliverReport (h : Engine P) {r : State × Option WinRec} (hs : P r.1) : P (deliverReport r) := by
  unfold Machine.deliverReport
  split
  · exact hs
  · exact h.acqReport _ hs

end Engine

end Sys2Proof.Machine
end

