-- ==== Sys2Proof/Laws/Walks.lean ====
section
/-! SUPPORT. The Deploy Sequencer, the Wind and Slope Monitor and the tells to the owners of axes, for a
property that the Acquisition Engine keeps. -/

namespace Sys2Proof.Machine

variable {P : State → Prop}

namespace Engine

/-! ## Deploy Sequencer, lower part -/

theorem setSlot (h : Engine P) {s} (n : Option Nat) (hs : P s) : P (setSlot s n) := h.dsq _ rfl rfl hs

theorem abortIfPointing (h : Engine P) {s} (hs : P s) : P (abortIfPointing s) := by
  unfold Machine.abortIfPointing
  split
  · exact h.acqAbort hs
  · exact h.acqAbort hs
  all_goals exact hs

theorem heldEntry (h : Engine P) {s} (c : HoldCause) (hs : P s) : P (heldEntry s c) :=
  Quiet.ite hs (h.raise _ (h.deploy _ (by decide) (h.axsStopAll _ (h.axsTakeAll _ _ (h.abortIfPointing (h.dsq _ rfl rfl hs))))))

theorem channelAction (h : Engine P) {s} (a : Action) (hs : P s) : P (channelAction s a) :=
  h.dsq _ rfl rfl (h.axsChannels _ hs)

theorem actionMoveTo (h : Engine P) {s} (a : Axis) (t : Int) (hs : P s) : P (actionMoveTo s a t) := by
  unfold Machine.actionMoveTo
  split
  · exact h.heldEntry _ hs
  · rename_i e
    exact h.axsMoveTo hs e

theorem goStowed (h : Engine P) {s} (hs : P s) : P (goStowed s) := h.deploy _ (by decide) (h.axsReleaseAll _ (h.axsChannels _ hs))

theorem backwardEnd (h : Engine P) {s} (hs : P s) : P (backwardEnd s) :=
  Quiet.ite (h.raise _ (h.goStowed (h.setSlot _ hs))) (h.heldEntry _ (h.setSlot _ hs))

theorem lowerMove (h : Engine P) {s} (k : ActionKind) (a : Axis) (t : Option Int) (hs : P s) : P (lowerMove s k a t) := by
  cases t with
  | none => exact h.heldEntry _ hs
  | some t => exact Quiet.ite (h.heldEntry _ hs) (h.actionMoveTo _ _ hs)

theorem lowerFrom (h : Engine P) (n : Nat) {s} (hs : P s) : P (lowerFrom n s) := by
  induction n generalizing s with
  | zero => exact h.backwardEnd hs
  | succ n ih =>
    have h1 := h.setSlot (some n) hs
    unfold Machine.lowerFrom
    simp only []
    split
    · exact ih h1
    · exact h.channelAction _ h1
    · exact h.lowerMove _ _ _ h1

theorem stowEffects (h : Engine P) {s} (c : WalkCause) (hs : P s) : P (stowEffects s c) := by
  have h1 := h.lower hs
  unfold Machine.stowEffects
  generalize beforeWalk s = t at h1
  have h2 := h.raise (.deployLowering c) (h.dsq { t.dsq with walkCause := c, holdCause := .none } rfl rfl h1)
  by_cases hn : slotsToLower s = 0
  · simp only [hn, if_true]
    exact h.backwardEnd h2
  · simp only [hn, if_false]
    exact h.lowerFrom _ (h.axsChannels _ h2)

theorem stowIfUp (h : Engine P) {s} (c : WalkCause) (hs : P s) : P (stowIfUp s c) := Quiet.ite (h.stowEffects c hs) hs

theorem record_deploy (d : Dsq) (a : Axis) : (d.record a).deploy = d.deploy ∧ (d.record a).slots = d.slots := by
  cases a <;> exact ⟨rfl, rfl⟩

theorem judgeFirst (h : Engine P) {s} (hs : P s) : P (judgeFirst s) :=
  have h1 := h.heldEntry .unsure hs
  Quiet.ite (h.deploy _ (by decide) hs) (Quiet.ite (h.stowIfUp _ h1) (Quiet.ite (h.stowIfUp _ h1) h1))

theorem dsqReport (h : Engine P) {s} (a : Axis) (hs : P s) : P (dsqReport s a) :=
  have h1 := h.dsq (s.dsq.record a) (record_deploy _ a).1 (congrArg List.length (record_deploy _ a).2) hs
  Quiet.ite (Quiet.ite (h.judgeFirst h1) h1) hs

theorem sequenceFault (h : Engine P) {s} (c : HoldCause) (hs : P s) : P (sequenceFault s c) := by
  unfold Machine.sequenceFault
  split
  · exact h.heldEntry _ hs
  · exact h.heldEntry _ hs
  · exact h.heldEntry _ hs
  all_goals exact hs

theorem slopeFault (h : Engine P) {s} (hs : P s) : P (slopeFault s) := by
  unfold Machine.slopeFault
  split
  · exact h.heldEntry _ hs
  · exact h.heldEntry _ hs
  · exact h.heldEntry _ hs
  · exact h.heldEntry _ hs
  · exact h.heldEntry _ hs
  all_goals exact hs

/-! ## Wind and Slope Monitor -/

theorem startLowering (h : Engine P) {s} (c : Int) (hs : P s) : P (startLowering s c) := by
  unfold Machine.startLowering
  split
  · split
    · rename_i e
      exact h.raise _ (h.axsMoveTo (h.axsTake _ _ hs) e)
    · exact h.raise _ hs
  · exact h.raise _ hs

theorem windStow (h : Engine P) {s} (hs : P s) : P (windStow s) := h.raise _ (h.stowEffects _ hs)

theorem stopForHold (h : Engine P) {s} (hs : P s) : P (stopForHold s) :=
  Quiet.fold (fun a hs => Quiet.ite hs (h.axsStopTravelling a hs)) allAxes hs

theorem lowerAtEntry (h : Engine P) {s} (hs : P s) : P (lowerAtEntry s) := by
  unfold Machine.lowerAtEntry
  split
  · exact hs
  · split
    · exact h.startLowering _ hs
    · exact hs

theorem lowerAgain (h : Engine P) {s} (hs : P s) : P (lowerAgain s) := by
  unfold Machine.lowerAgain
  split
  · exact hs
  · split
    · exact Quiet.ite hs (h.startLowering _ hs)
    · exact hs

theorem holdEntry (h : Engine P) {s} (hs : P s) : P (holdEntry s) :=
  Quiet.ite (h.windStow hs) (Quiet.ite (h.lowerAtEntry (h.stopForHold (h.acqPush _ _ hs))) hs)

theorem rejudge (h : Engine P) {s} (hs : P s) : P (rejudge s) :=
  Quiet.ite (h.windStow hs) (Quiet.ite (h.lowerAgain (h.acqPush _ _ hs)) hs)

theorem rejudgeInHold (h : Engine P) {s} (hs : P s) : P (rejudgeInHold s) := Quiet.ite (h.rejudge hs) hs

/-! ## Deploy Sequencer, upper part -/

theorem enterDeploy (h : Engine P) {s} (d : Deploy) (hd : d ≠ .unknown) (hs : P s) : P (enterDeploy s d) :=
  h.rejudgeInHold (h.deploy d hd hs)

theorem forwardEnd (h : Engine P) {s} (hs : P s) : P (forwardEnd s) :=
  h.raise _ (h.enterDeploy _ (by decide) (h.axsReleaseAll _ (h.setSlot _ hs)))

theorem raiseMove (h : Engine P) {s} (a : Axis) (t : Option Int) (hs : P s) : P (raiseMove s a t) := by
  cases t with
  | none => exact h.heldEntry _ hs
  | some t =>
    have h1 := h.moveCheck a t hs
    exact Quiet.ite (h.heldEntry _ hs) (Quiet.ite (h.heldEntry _ hs) (Quiet.ite (h.heldEntry _ hs)
      (Quiet.ite (h.heldEntry _ h1) (h.actionMoveTo _ _ h1))))

theorem raiseFrom (h : Engine P) (len n : Nat) {s} (hs : P s) : P (raiseFrom len n s) := by
  induction n generalizing s with
  | zero => exact h.forwardEnd hs
  | succ n ih =>
    have h1 := h.setSlot (some (len - (n + 1))) hs
    unfold Machine.raiseFrom
    simp only []
    split
    · exact ih h1
    · exact h.channelAction _ h1
    · exact h.raiseMove _ _ h1

theorem slotDone (h : Engine P) {s} (hs : P s) : P (slotDone s) := by
  unfold Machine.slotDone
  split
  · exact h.raiseFrom _ _ hs
  · exact h.lowerFrom _ hs
  · exact hs

theorem dsqSlotTimer (h : Engine P) {s} (hs : P s) : P (dsqSlotTimer s) :=
  Quiet.ite (h.slotDone (h.dsq _ rfl rfl hs)) hs

theorem dsqArrival (h : Engine P) {s} (a : Axis) (hs : P s) : P (dsqArrival s a) :=
  Quiet.ite (Quiet.ite (h.raise _ (h.axsRelease _ hs)) hs) (Quiet.ite (h.slotDone hs) hs)

theorem deployTaken (h : Engine P) {s} (v : Int) (hs : P s) : P (deployTaken s v) :=
  h.deploy _ (by decide) (h.axsTakeAll _ _ (h.dsq _ rfl rfl hs))

theorem startForward (h : Engine P) {s} (hs : P s) : P (startForward s) := h.raiseFrom _ _ hs

theorem parkTaken (h : Engine P) {s} (hs : P s) : P (parkTaken s) :=
  h.enterDeploy _ (by decide) (h.axsChannels _ (h.acqPush _ _ hs))

theorem wakeUp (h : Engine P) {s} (hs : P s) : P (wakeUp s) := h.enterDeploy _ (by decide) (h.axsChannels _ hs)

theorem wakeByFrame (h : Engine P) {s} (hs : P s) : P (wakeByFrame s) := h.acqWake (h.wakeUp (h.raise _ hs))

/-! ## Tells to the owners of axes -/

theorem tellArrival (h : Engine P) {s} (a : Axis) (p : Int) (hs : P s) : P (tellArrival s a p) := by
  unfold Machine.tellArrival
  split
  · exact hs
  · exact hs
  · exact h.acqArrival a hs
  · exact h.dsqArrival a hs
  · exact h.endLowering _ hs

theorem tellRest (h : Engine P) {s} (a : Axis) (p : Int) (hs : P s) : P (tellRest s a p) := by
  unfold Machine.tellRest
  split
  · exact hs
  · exact hs
  · exact hs
  · exact hs
  · exact h.acqRest _ _ hs

theorem tellHalted (h : Engine P) {s} (a : Axis) (c : FaultCause) (hs : P s) : P (tellHalted s a c) := by
  unfold Machine.tellHalted
  split
  · exact hs
  · exact hs
  · exact h.acqFail _ hs
  · exact h.sequenceFault _ hs
  · exact h.endLowering _ hs

theorem tellZoneStop (h : Engine P) {s} (a : Axis) (hs : P s) : P (tellZoneStop s a) := by
  unfold Machine.tellZoneStop
  split
  · exact hs
  · exact hs
  · exact hs
  · exact h.acqZoneStop _ hs
  · exact h.sequenceFault _ hs

theorem tellConsoleStop (h : Engine P) {s} (a : Axis) (hs : P s) : P (tellConsoleStop s a) := by
  unfold Machine.tellConsoleStop
  split
  · exact hs
  · exact hs
  · exact hs
  · exact h.sequenceFault _ hs
  · exact h.endLowering _ hs

/-! ## Events of an axis -/

theorem haltAxis (h : Engine P) {s} (a : Axis) (c : FaultCause) (hc : c ≠ .none) (hs : P s) : P (haltAxis s a c) :=
  h.tellHalted _ _ (h.halt a c hc hs)

theorem setReleaseReady (h : Engine P) {s} (a : Axis) (b : Bool) (hm : (s.axis a).motion = .halted) (hs : P s) :
    P (setReleaseReady s a b) := by
  refine h.axis a _ rfl Iff.rfl ⟨fun hw => ?_, Or.inl⟩ hs
  obtain ⟨h1, h2, h3, h4, h5, -, h7⟩ := hw
  exact ⟨h1, h2, h3, h4, h5, fun _ => hm, h7⟩

theorem arrivalTimeout (h : Engine P) {s} (a : Axis) (hs : P s) : P (arrivalTimeout s a) :=
  Quiet.ite (h.haltAxis _ _ (by decide) hs) hs

theorem silenceExpiry (h : Engine P) {s} (a : Axis) (hs : P s) : P (silenceExpiry s a) := by
  have h1 : P (s.setAxis a { s.axis a with silenceWatch := none }) := h.axis a _ rfl Iff.rfl ⟨id, Or.inl⟩ hs
  unfold Machine.silenceExpiry
  simp only []
  split
  · split
    · rename_i hm
      exact h.setReleaseReady _ _ hm h1
    · exact h.haltAxis _ _ (by decide) h1
  · exact hs

theorem badReport (h : Engine P) {s} (a : Axis) (hs : P s) : P (badReport s a) := by
  unfold Machine.badReport
  split
  · rename_i hm
    exact h.setReleaseReady _ _ hm hs
  · exact h.haltAxis _ _ (by decide) hs

theorem faultedReport (h : Engine P) {s} (a : Axis) (n : Nat) (hs : P s) : P (faultedReport s a n) := by
  have h1 : P (s.setAxis a { s.axis a with driveCode := some n }) := h.axis a _ rfl Iff.rfl ⟨id, Or.inl⟩ hs
  unfold Machine.faultedReport
  simp only []
  split
  · rename_i hm
    exact h.setReleaseReady _ _ hm h1
  · exact h.haltAxis _ _ (by decide) h1

theorem arrived (h : Engine P) {s} (a : Axis) (hm : (s.axis a).motion ≠ .halted) (hs : P s) :
    P (s.setAxis a (s.axis a).arrived) := by
  refine h.axis a _ rfl (by simp [AxisRec.arrived, hm]) ⟨fun hw => ?_, nofun⟩ hs
  revert hm hw
  generalize s.axis a = r
  obtain ⟨m, ow, p, w, al, se⟩ := r
  cases m <;> simp_all [AxisRec.wf, AxisRec.arrived, AxisRec.travelling]

theorem rested (h : Engine P) {s} (a : Axis) (p : Int) (hs : P s) : P (s.setAxis a ((s.axis a).rested p)) := by
  have key : ∀ r : AxisRec, (r.rested p).position = r.position ∧ (r.rested p).motion = r.motion ∧ (r.wf → (r.rested p).wf) := by
    intro r
    refine ⟨?_, ?_, fun hw => ?_⟩
    · unfold AxisRec.rested; dsimp only; split <;> simp
    · unfold AxisRec.rested; dsimp only; split <;> simp
    · have h1 : (if r.stopMoved then r.setTarget r.sel (some p) else r).wf := Quiet.ite (P := AxisRec.wf) (AxisRec.wf_setTarget _ _ hw) hw
      obtain ⟨a1, a2, a3, a4, a5, a6, -⟩ := h1
      exact ⟨a1, a2, a3, a4, a5, a6, fun hc => absurd hc (by simp [AxisRec.rested])⟩
  exact h.axis a _ (key _).1 (by rw [(key _).2.1])
    ⟨(key _).2.2, fun ht => Or.inl (by unfold AxisRec.travelling at ht ⊢; rw [(key _).2.1] at ht; exact ht)⟩ hs

theorem cleanReport (h : Engine P) {s} (a : Axis) (p : Int) (m : Bool) (hs : P s) : P (cleanReport s a p m) := by
  unfold Machine.cleanReport
  simp only []
  split
  · rename_i hm
    exact h.setReleaseReady _ _ hm hs
  · rename_i hm
    exact Quiet.ite hs (Quiet.ite (h.tellArrival _ _ (h.arrived a hm hs)) (Quiet.ite (h.arrived a hm hs)
      (Quiet.ite (h.tellRest _ _ (h.rested a p hs)) hs)))

theorem zoneStop (h : Engine P) {s} (row : Nat) (a : Axis) (hs : P s) : P (zoneStop s row a) :=
  h.tellZoneStop _ (h.raise _ (h.zones _ (Calm.map_place_modify _ _) (h.axsStop a hs)))

theorem recheckAxis (h : Engine P) {s} (row : Nat) (a : Axis) (hs : P s) : P (recheckAxis row s a) := by
  unfold Machine.recheckAxis
  split
  · exact Quiet.ite (h.zoneStop _ _ hs) hs
  · exact hs

theorem recheck (h : Engine P) {s} (row : Nat) (hs : P s) : P (recheck s row) :=
  Quiet.fold (fun a hs => h.recheckAxis row a hs) _ hs

end Engine

end Sys2Proof.Machine
end

