-- ==== Sys2Proof/Laws/Commands.lean ====
section
/-! SUPPORT. From the operations to the commands: `Inner P` takes in what the blocks do up to their REPLY, and a property that
survives the changes of `Whole` survives every command. -/

namespace Sys2Proof.Machine

variable {P : State → Prop}

/-- A property that also survives a position, a wind report and a write. -/
structure Inner (P : State → Prop) : Prop extends Engine P where
  lines : ∀ {s} (v : Lnu), v.rst = s.lnu.rst → v.queue = s.lnu.queue → P s → P (s.withLnu v)
  wsm : ∀ {s} (w : Wsm), w.gust = s.wsm.gust → (s.wsm.memory.length ≤ 3 → w.memory.length ≤ 3) →
    w.derate.length = s.wsm.derate.length → (floorsRise s.wsm.derate → floorsRise w.derate) → P s → P (s.withWsm w)
  gust : ∀ {s} (g : Gust), P s → P (txcGust (s.withWsm { s.wsm with gust := g }) g)
  handed : ∀ {s} (a : Axis) (p : Int) (fault : Bool) (code : Nat), P s →
    P (txcPosition (if fault then faultedReport (takePosition s a p) a code else takePosition s a p) a)
  zone : ∀ {s} (row : Nat) (z : Zone), P s → P (txcZone (s.withZones (s.zones.set row z)))

/-- A property that also survives a REPLY, a frame that leaves, and a reset. -/
structure Whole (P : State → Prop) : Prop extends Inner P where
  placeReply : ∀ {s} (k n : Nat) (w : Option Reason) (d : ReplyData), P s → P (placeReply s (.reply k n w d))
  sent : ∀ {s}, P s → P (frameSent s)
  powerUp : ∀ {s}, P s → P (powerUp s)
  inReset : ∀ {s}, P s → P (holdInReset s)
  restart : ∀ {s}, P s → P (resetBlocks (axsReset s))

namespace Inner

/-! ## Wind and slope reports -/

theorem setGust (h : Inner P) {s} (g : Gust) (hs : P s) : P (setGust s g) := h.raise _ (h.gust g hs)

theorem windTaken (h : Inner P) {s} (v : Nat) (hs : P s) : P (windTaken s v) := by
  have h1 : P (s.withWsm (s.wsm.take v)) := h.wsm _ rfl (fun _ => List.length_take_le _ _) rfl id hs
  unfold Machine.windTaken
  simp only []
  split
  · exact h.rejudge h1
  · exact h.holdEntry (h.setGust _ h1)
  · exact h.acqHoldCleared (h.setGust _ h1)
  · exact Quiet.ite h1 (h.setGust _ h1)

theorem wsmWind (h : Inner P) {s} (v : Int) (hs : P s) : P (wsmWind s v) := Quiet.ite (h.windTaken _ hs) hs

theorem wsmWindSilent (h : Inner P) {s} (hs : P s) : P (wsmWindSilent s) :=
  Quiet.ite (h.raise _ (h.wsm _ rfl id rfl id hs)) hs

theorem slopeTaken (h : Inner P) {s} (r p : Int) (hs : P s) : P (slopeTaken s r p) := by
  have h1 : P (s.withWsm
    { s.wsm with
      lastSlope := some (r, p), slopeState := slopeOf s.wsm.slopeLimit s.wsm.slopeMargin r p
      slopeWatch := some Config.sensorSilenceMs }) := h.wsm _ rfl id rfl id hs
  exact Quiet.ite (Quiet.ite (h.slopeFault h1) (h.raise _ (h.slopeFault h1))) h1

theorem wsmSlope (h : Inner P) {s} (r p : Int) (hs : P s) : P (wsmSlope s r p) := Quiet.ite (h.slopeTaken _ _ hs) hs

theorem wsmSlopeSilent (h : Inner P) {s} (hs : P s) : P (wsmSlopeSilent s) :=
  Quiet.ite (h.raise _ (h.wsm _ rfl id rfl id hs)) hs

/-! ## POSITION reports and zone writes -/

theorem positionTaken (h : Inner P) {s} (a : Axis) (p : Int) (m f : Bool) (c : Nat) (hs : P s) :
    P (positionTaken s a p m f c) :=
  have h1 := h.handed a p f c hs
  h.dsqReport a (Quiet.ite h1 (h.cleanReport a p m h1))

theorem axsReport (h : Inner P) {s} (a : Axis) (p : Int) (m f : Bool) (c : Nat) (hs : P s) : P (axsReport s a p m f c) :=
  Quiet.ite (h.positionTaken a p m f c hs) (h.badReport a hs)

theorem zoneWritten (h : Inner P) {s} (row : Nat) (o n : Zone) (hs : P s) : P (zoneWritten s row o n) := by
  have h1 := h.zone row { n with hits := 0 } hs
  unfold Machine.zoneWritten
  simp only []
  split
  · refine h.recheck row (Quiet.ite (h.raise _ h1) h1)
  · exact Quiet.ite (h.raise _ h1) h1

/-! ## Writes -/

theorem orRange_ok {α β : Type} {v : Option α} {f : α → β} {b : β} (e : orRange v f = .ok b) : ∃ x, v = some x ∧ b = f x := by
  cases v with
  | none => cases e
  | some x => cases e; exact ⟨x, rfl, rfl⟩

theorem map_ok {α β : Type} {v : Except Reason α} {f : α → β} {b : β} (e : v.map f = .ok b) : ∃ x, v = .ok x ∧ b = f x := by
  cases v with
  | error w => cases e
  | ok x => cases e; exact ⟨x, rfl, rfl⟩

/-- A write to an axis record changes a setting, which is no part of what makes the record of one piece. -/
theorem axisRec_write {r r1 : AxisRec} {a f v} (e : r.write a f v = .ok r1) :
    r1.position = r.position ∧ r1.motion = r.motion ∧ (r.wf → r1.wf) := by
  unfold AxisRec.write at e
  split at e
  all_goals first
    | (obtain ⟨x, -, rfl⟩ := orRange_ok e; exact ⟨rfl, rfl, id⟩)
    | cases e

theorem writeAxisField (h : Inner P) {s s1} {row f v} (hs : P s) (e : writeAxisField s row f v = .ok s1) : P s1 := by
  unfold Machine.writeAxisField at e
  split at e
  · obtain ⟨r, hr, rfl⟩ := map_ok e
    obtain ⟨h1, h2, h3⟩ := axisRec_write hr
    exact h.axis _ _ h1 (by rw [h2]) ⟨h3, fun ht => Or.inl (by unfold AxisRec.travelling at ht ⊢; rw [h2] at ht; exact ht)⟩ hs
  · cases e

theorem writeZoneField (h : Inner P) {s s1} {row f v} (hs : P s) (e : writeZoneField s row f v = .ok s1) : P s1 := by
  unfold Machine.writeZoneField at e
  split at e
  · obtain ⟨z, -, rfl⟩ := map_ok e
    exact h.zoneWritten _ _ _ hs
  · cases e

theorem writeEntryField (h : Inner P) {s s1} {row f v} (hs : P s) (e : writeEntryField s row f v = .ok s1) : P s1 := by
  unfold Machine.writeEntryField at e
  split at e
  · rename_i he
    obtain ⟨z, hz, rfl⟩ := map_ok e
    exact h.entry _ _ _ _ _ he hz hs
  · cases e

theorem writeSlot_ok {d d1 : Dsq} {row f v} (e : d.writeSlot row f v = .ok d1) :
    d1.deploy = d.deploy ∧ d1.slots.length = d.slots.length := by
  unfold Dsq.writeSlot at e
  split at e
  · cases e
  · split at e
    · cases e
    · split at e
      · cases e
      · obtain ⟨x, -, rfl⟩ := map_ok e
        exact ⟨rfl, by simp⟩

theorem derateWrite_length {rows rows1 : List DerateRow} {row f v} (e : derateWrite rows row f v = .ok rows1) :
    rows1.length = rows.length := by
  unfold derateWrite at e
  split at e
  · cases e
  · split at e
    · cases e
    · simp only [] at e
      split at e
      · cases e
      · cases e; simp

/-- The floors of a list of rows whose valid ones keep their places rise where those of the list do. -/
theorem floorsRise_iff (rows : List DerateRow) :
    floorsRise rows = true ↔ ((rows.filter (·.valid)).map (·.floor)).Pairwise (· < ·) := by
  unfold floorsRise
  simp only []
  generalize (rows.filter (·.valid)).map (·.floor) = fs
  induction fs with
  | nil => simp
  | cons a t ih =>
    cases t with
    | nil => simp
    | cons b u =>
      have ih' := ih
      simp only [List.tail_cons, List.zip_cons_cons, List.all_cons, Bool.and_eq_true, decide_eq_true_eq] at ih' ⊢
      rw [ih', List.pairwise_cons (a := a)]
      constructor
      · rintro ⟨h1, h2⟩
        refine ⟨fun x hx => ?_, h2⟩
        rcases List.mem_cons.mp hx with rfl | hx
        · exact h1
        · exact Nat.lt_trans h1 ((List.pairwise_cons.mp h2).1 x hx)
      · rintro ⟨h1, h2⟩
        exact ⟨h1 b (by simp), h2⟩

/-- The valid floors after one row has been replaced: the row not valid takes one away at most, and a row that keeps its valid
field and its floor changes none. -/
theorem floors_set (rows : List DerateRow) (n : Nat) (r q : DerateRow) (h : rows[n]? = some r) :
    (q.valid = false → List.Sublist (((rows.set n q).filter (·.valid)).map (·.floor)) ((rows.filter (·.valid)).map (·.floor))) ∧
    (q.valid = r.valid → q.floor = r.floor →
      ((rows.set n q).filter (·.valid)).map (·.floor) = (rows.filter (·.valid)).map (·.floor)) := by
  induction rows generalizing n with
  | nil => simp at h
  | cons x xs ih =>
    cases n with
    | zero =>
      simp only [List.getElem?_cons_zero, Option.some.injEq] at h
      subst h
      refine ⟨fun hv => ?_, fun hv hf => ?_⟩
      · simp only [List.set_cons_zero, List.filter_cons, hv, Bool.false_eq_true, if_false]
        split
        · exact List.sublist_cons_self _ _
        · exact List.Sublist.refl _
      · simp only [List.set_cons_zero, List.filter_cons, hv]
        split
        · simp [hf]
        · rfl
    | succ n =>
      obtain ⟨h1, h2⟩ := ih n (by simpa using h)
      refine ⟨fun hv => ?_, fun hv hf => ?_⟩
      · simp only [List.set_cons_succ, List.filter_cons]
        split
        · exact (h1 hv).cons_cons _
        · exact h1 hv
      · simp only [List.set_cons_succ, List.filter_cons]
        split
        · simp [h2 hv hf]
        · exact h2 hv hf

/-- R92: an accepted write of the derate table leaves the floors of the valid rows rising. -/
theorem derateWrite_rises {rows rows1 : List DerateRow} {row f v} (e : derateWrite rows row f v = .ok rows1)
    (h : floorsRise rows = true) : floorsRise rows1 = true := by
  unfold derateWrite at e
  split at e
  · cases e
  · rename_i r hr
    split at e
    · cases e
    · rename_i q hq
      simp only [] at e
      split at e
      · cases e
      · rename_i hn
        cases e
        simp only [Bool.and_eq_true, Bool.not_eq_true, not_and] at hn
        obtain ⟨h1, h2⟩ := floors_set rows row r q hr
        rw [floorsRise_iff] at h ⊢
        by_cases hv : q.valid = true
        · by_cases hf : (decide (f = 0) || decide (f = 1)) = true
          · have := hn (by simp [hv]; simpa using hf)
            rw [← floorsRise_iff]; simpa using this
          · have key : q.valid = r.valid ∧ q.floor = r.floor := by
              simp only [Bool.or_eq_true, decide_eq_true_eq, not_or] at hf
              unfold DerateRow.write at hq
              split at hq
              · exact absurd rfl hf.1
              · exact absurd rfl hf.2
              all_goals first
                | (obtain ⟨x, -, rfl⟩ := orRange_ok hq; exact ⟨rfl, rfl⟩)
                | cases hq
            rw [h2 key.1 key.2]; exact h
        · exact h.sublist (h1 (by simpa using hv))

theorem writeDerateField (h : Inner P) {s s1} {row f v} (hs : P s) (e : writeDerateField s row f v = .ok s1) : P s1 := by
  unfold Machine.writeDerateField at e
  obtain ⟨rows, hr, rfl⟩ := map_ok e
  exact h.rejudgeInHold (h.wsm _ rfl id (derateWrite_length hr) (derateWrite_rises hr) hs)

theorem dsqSetting_ok {d d1 : Dsq} {f v} (e : d.writeSetting f v = .ok d1) :
    d1.deploy = d.deploy ∧ d1.slots = d.slots := by
  unfold Dsq.writeSetting at e
  split at e
  all_goals first
    | (obtain ⟨x, -, rfl⟩ := orRange_ok e; exact ⟨rfl, rfl⟩)
    | cases e

theorem wsmSetting_ok {w w1 : Wsm} {f v} (e : w.writeSetting f v = .ok w1) :
    w1.gust = w.gust ∧ w1.memory = w.memory ∧ w1.derate = w.derate := by
  unfold Wsm.writeSetting at e
  simp only [] at e
  repeat' split at e
  all_goals first
    | (cases e; exact ⟨rfl, rfl, rfl⟩)
    | cases e

theorem writeOther (h : Inner P) {s s1} {f v} (hs : P s) (e : writeOther s f v = .ok s1) : P s1 := by
  unfold Machine.writeOther at e
  split at e
  all_goals first
    | (obtain ⟨x, -, rfl⟩ := orRange_ok e
       first
        | exact h.mgt _ hs
        | exact h.lines _ rfl rfl hs
        | exact h.wsm _ rfl id rfl id hs
        | exact h.van _ hs
        | exact h.acqSetting _ rfl rfl hs)
    | cases e

theorem writeSettings (h : Inner P) {s s1} {f v} (hs : P s) (e : writeSettings s f v = .ok s1) : P s1 := by
  unfold Machine.writeSettings at e
  split at e
  · obtain ⟨d, hd, rfl⟩ := map_ok e
    obtain ⟨h1, h2⟩ := dsqSetting_ok hd
    exact h.dsq _ h1 (by rw [h2]) hs
  · split at e
    · unfold Machine.writeWind at e
      obtain ⟨w, hw, rfl⟩ := map_ok e
      obtain ⟨h1, h2, h3⟩ := wsmSetting_ok hw
      exact h.wsm _ h1 (by rw [h2]; exact id) (by rw [h3]) (by rw [h3]; exact id) hs
    · exact h.writeOther hs e

theorem writeField (h : Inner P) {s s1} {t r f v} (hs : P s) (e : writeField s t r f v = .ok s1) : P s1 := by
  unfold Machine.writeField at e
  split at e
  · exact h.writeAxisField hs e
  · exact h.writeZoneField hs e
  · exact h.writeEntryField hs e
  · obtain ⟨d, hd, rfl⟩ := map_ok e
    obtain ⟨h1, h2⟩ := writeSlot_ok hd
    exact h.dsq _ h1 h2 hs
  · exact h.writeDerateField hs e
  · split at e
    · exact h.writeSettings hs e
    · cases e
  · cases e

/-! ## Motion Gate -/

/-- Where a refusal or a success of an attempt leaves the property. -/
def Keeps (P : State → Prop) : Attempt → Prop
  | .ok s => P s
  | .error (_, s) => P s

theorem takeIfFree (h : Inner P) {s} (a : Axis) (hs : P s) : P (takeIfFree s a) := Quiet.ite (h.axsTake _ _ hs) hs

theorem gateSteps_ok (h : Inner P) {s s1} {a : Axis} {t t1} (hs : P s) (e : gateSteps s a t = .ok (t1, s1)) : P s1 := by
  unfold Machine.gateSteps at e
  split at e
  · cases e
  · split at e
    · cases e
    · simp only [] at e
      repeat' split at e
      all_goals first
        | cases e
      exact h.moveCheck _ _ hs

theorem gateSteps_error (h : Inner P) {s} {a : Axis} {t w s1} (hs : P s) (e : gateSteps s a t = .error (w, s1)) : P s1 := by
  unfold Machine.gateSteps at e
  split at e
  · cases e; exact hs
  · split at e
    · cases e; exact hs
    · simp only [] at e
      repeat' split at e
      all_goals first
        | (cases e; done)
        | (cases e; exact hs)
        | (cases e; exact h.moveCheck _ _ hs)

theorem tryMove (h : Inner P) {s} (a : Axis) (t : Int) (r : Option Nat) (hs : P s) : Keeps P (tryMove a t r s) := by
  unfold Machine.tryMove
  split
  · rename_i e; exact h.gateSteps_error hs e
  · rename_i e
    have h2 := h.takeIfFree a (h.gateSteps_ok hs e)
    simp only []
    cases hm : Machine.axsMoveTo _ _ a _ _ with
    | error w => exact h2
    | ok s3 => exact h.axsMoveTo h2 hm

theorem trySelect (h : Inner P) {s} (a : Axis) (w : Sel) (hs : P s) : Keeps P (trySelect a w s) := by
  unfold Machine.trySelect
  split
  · rename_i e; exact h.gateSteps_error hs e
  · rename_i e
    have h2 := h.takeIfFree a (h.gateSteps_ok hs e)
    simp only []
    cases hm : Machine.axsSelect _ _ a _ _ with
    | error w => exact h2
    | ok s3 => exact h.axsSelect h2 hm

theorem openRun (h : Inner P) {s} (a : Axis) (d : Dir) (hs : P s) : P (openRun s a d) := h.mgt _ hs

theorem jogMove (h : Inner P) {s} (a : Axis) (d : Dir) (l : Int) (r : Nat) (hs : P s) : Keeps P (jogMove s a d l r) := by
  unfold Machine.jogMove
  split
  · exact hs
  · rename_i e; exact h.openRun a d (h.axsJogMove hs e)

theorem countBoundary (h : Inner P) {s} (a : Axis) (w : Reason) (z : Option Int) (hs : P s) : P (countBoundary s a w z) := by
  unfold Machine.countBoundary
  split
  · exact h.moveCheck _ _ hs
  · exact hs

theorem tryJog (h : Inner P) {s} (a : Axis) (d : Dir) (r : Nat) (hs : P s) : Keeps P (tryJog a d r s) := by
  unfold Machine.tryJog
  split
  · simp only []
    split
    · exact h.countBoundary _ _ _ hs
    · have h1 := fun t => h.moveCheck a t hs
      exact Quiet.ite hs (Quiet.ite (h1 _) (h.jogMove a d _ r (h.takeIfFree a (h1 _))))
  · exact hs

theorem overrideTake (h : Inner P) {s} (a : Axis) (hs : P s) : P (overrideTake s a) := h.axsTake _ _ (h.acqPush _ _ hs)

theorem stopByOwner (h : Inner P) {s} (a : Axis) (hs : P s) : P (stopByOwner s a) := by
  unfold Machine.stopByOwner
  split
  · exact h.axsStop _ (h.closeRun _ (h.takeIfFree _ hs))
  · exact h.axsStop _ (h.closeRun _ (h.takeIfFree _ hs))
  · exact h.axsStop _ (h.overrideTake _ hs)
  all_goals exact Quiet.ite (h.tellConsoleStop _ (h.axsStop _ hs)) (h.axsStop _ hs)

theorem deadmanExpiry (h : Inner P) {s} (a : Axis) (hs : P s) : P (deadmanExpiry s a) :=
  Quiet.ite (h.axsStop _ (h.closeRun _ hs)) hs

/-! ## Lines -/

theorem setParkIn (h : Inner P) {s} (b : Bool) (hs : P s) : P (setParkIn s b) := h.dsq _ rfl rfl hs

theorem setStowIn (h : Inner P) {s} (b : Bool) (hs : P s) : P (setStowIn s b) := h.dsq _ rfl rfl hs

theorem onPart (_ : Inner P) {s} {f : State → State} (hf : ∀ {s}, P s → P (f s)) (hs : P s) : P (onPart f s) :=
  Quiet.ite hs (hf hs)

theorem parkInReleased (h : Inner P) {s} (hs : P s) : P (parkInReleased s) :=
  Quiet.ite (h.onPart (fun hs => h.stowIfUp _ hs) (h.setParkIn _ hs)) hs

theorem stowInAsserted (h : Inner P) {s} (hs : P s) : P (stowInAsserted s) :=
  Quiet.ite hs (h.onPart (fun hs => h.stowIfUp _ hs) (h.setStowIn _ hs))

theorem huntOn (h : Inner P) {s} (p : Port) (hs : P s) : P (huntOn s p) := by
  cases p <;> exact h.lines _ rfl rfl hs

theorem rateChanged (h : Inner P) {s} (hs : P s) : P (rateChanged s) := by
  unfold Machine.rateChanged
  split
  · exact hs
  · exact h.lines _ rfl rfl hs

theorem reportSilence (h : Inner P) {s} (hs : P s) : P (reportSilence s) :=
  Quiet.ite (h.deliver (h.shaDown hs)) hs

end Inner

namespace Whole

/-! ## Replies -/

theorem done (h : Whole P) {s} (k : Nat) (hs : P s) : P (done s k) := h.placeReply _ _ _ _ hs

theorem doneWith (h : Whole P) {s} (k : Nat) (d : ReplyData) (hs : P s) : P (doneWith s k d) := h.placeReply _ _ _ _ hs

theorem refuse (h : Whole P) {s} (k : Nat) (w : Reason) (hs : P s) : P (refuse s k w) := h.placeReply _ _ _ _ hs

theorem refuseFrame (h : Whole P) {s} (k n : Nat) (w : Reason) (hs : P s) : P (refuseFrame s k n w) :=
  h.placeReply _ _ _ _ hs

/-! ## Requests to the Deploy Sequencer -/

theorem deployFromStowed (h : Whole P) {s} (v : Int) (hs : P s) : P (deployFromStowed s v) := by
  have h1 := h.boxCheck (deployBox s v) hs
  unfold Machine.deployFromStowed
  split
  · exact h.refuse _ _ hs
  · exact Quiet.ite (h.refuse _ _ h1) (h.startForward (h.done _ (h.deployTaken _ h1)))

theorem reheightTaken (h : Whole P) {s} (v : Int) (hs : P s) : P (reheightTaken s v) := by
  unfold Machine.reheightTaken
  split
  · exact h.refuse _ _ hs
  · rename_i e
    exact h.done _ (h.dsq _ rfl rfl (h.axsMoveTo (h.axsTake _ _ hs) e))

theorem reheight (h : Whole P) {s} (v : Int) (hs : P s) : P (reheight s v) := by
  have h1 := h.moveCheck .mast v hs
  unfold Machine.reheight
  split
  · exact h.refuse _ _ hs
  · exact Quiet.ite (h.refuse _ _ h1) (h.reheightTaken _ h1)

theorem clearHeld (h : Whole P) {s} (hs : P s) : P (clearHeld s) :=
  Quiet.ite (h.refuse _ _ hs) (Quiet.ite
    (Quiet.ite (h.refuse _ _ hs)
      (h.done _ (h.raise _ (h.enterDeploy _ (by decide) (h.dsq _ rfl rfl (h.axsReleaseAll _ hs))))))
    (Quiet.ite (h.done _ (h.goStowed (h.dsq _ rfl rfl hs))) (h.refuse _ _ hs)))

theorem clearHold (h : Whole P) {s} (hs : P s) : P (clearHold s) :=
  have h1 := h.clear hs
  Quiet.ite (h.clearHeld h1) (Quiet.ite (h.refuse _ _ h1) (h.done _ h1))

/-! ## Reads and writes -/

theorem readRequest (h : Whole P) {s} (t r f : Nat) (hs : P s) : P (readRequest s t r f) := by
  unfold Machine.readRequest
  refine Quiet.ite (h.doneWith _ _ (h.shaSame _ rfl hs)) (Quiet.ite ?_ (h.doneWith _ _ hs))
  split
  · exact h.doneWith _ _ (h.readNotice _ hs)
  · exact h.doneWith _ _ hs

theorem writeRequest (h : Whole P) {s} (t r f : Nat) (v : Int) (hs : P s) : P (writeRequest s t r f v) := by
  unfold Machine.writeRequest Machine.replyWrite
  split
  · rename_i e
    exact h.done _ (h.writeField hs e)
  · exact h.refuse _ _ hs

/-! ## Motion Gate -/

theorem refuseLate (h : Whole P) {s} (a : Axis) (k : Nat) (w : Reason) (b c : Bool) (hs : P s) :
    P (refuseLate s a k w b c) := h.refuseFrame _ _ _ (Quiet.ite (h.axsStop _ hs) hs)

theorem runAttempt (h : Whole P) {s} (a : Axis) (k : Nat) (b c : Bool) {f : State → Attempt}
    (hf : ∀ {s}, P s → Inner.Keeps P (f s)) (hs : P s) : P (runAttempt s a k b c f) := by
  have h1 := hf hs
  unfold Machine.runAttempt
  split
  · rename_i e; rw [e] at h1; exact h1
  · rename_i e; rw [e] at h1; exact h.refuseLate _ _ _ _ _ h1

theorem pastDeploy (h : Whole P) {s} (a : Axis) (k : Nat) (p : Priority) {f : State → Attempt}
    (hf : ∀ {s}, P s → Inner.Keeps P (f s)) (hs : P s) : P (pastDeploy s a k p f) := by
  have h1 := h.closeRun a hs
  unfold Machine.pastDeploy Machine.stepOwner
  split
  · exact h.runAttempt _ _ _ _ hf h1
  · exact h.runAttempt _ _ _ _ hf h1
  · exact h.runAttempt _ _ _ _ hf (h.overrideTake a h1)
  all_goals exact h.refuseFrame _ _ _ h1

theorem gateDeploy (h : Whole P) {s} (a : Axis) (k : Nat) {f : State → State} (hf : ∀ {s}, P s → P (f s)) (hs : P s) :
    P (gateDeploy s a k f) := by
  unfold Machine.gateDeploy
  split
  · exact hf hs
  · exact h.refuseFrame _ _ _ (h.wakeByFrame hs)
  all_goals exact h.refuseFrame _ _ _ hs

theorem consoleMove (h : Whole P) {s} (a : Axis) (f : Option MoveFields) (hs : P s) : P (consoleMove s a f) := by
  cases f with
  | none => exact h.refuseFrame _ _ _ hs
  | some f =>
    exact Quiet.ite (h.refuseFrame _ _ _ hs)
      (h.gateDeploy _ _ (fun hs => h.pastDeploy _ _ _ (fun hs => h.tryMove _ _ _ hs) hs) hs)

theorem consoleSelect (h : Whole P) {s} (a : Axis) (f : Option SelectFields) (hs : P s) : P (consoleSelect s a f) := by
  cases f with
  | none => exact h.refuseFrame _ _ _ hs
  | some f => exact h.gateDeploy _ _ (fun hs => h.pastDeploy _ _ _ (fun hs => h.trySelect _ _ hs) hs) hs

theorem consoleJog (h : Whole P) {s} (a : Axis) (f : Option JogFields) (hs : P s) : P (consoleJog s a f) := by
  cases f with
  | none => exact h.refuseFrame _ _ _ hs
  | some f =>
    exact Quiet.ite (h.refuseFrame _ _ _ hs) (h.gateDeploy _ _ (fun hs => Quiet.ite (h.openRun _ _ hs)
      (h.pastDeploy _ _ _ (fun hs => h.tryJog _ _ _ hs) hs)) hs)

theorem consoleStop (h : Whole P) {s} (a : Axis) (p : Option Priority) (hs : P s) : P (consoleStop s a p) := by
  cases p with
  | none => exact h.refuseFrame _ _ _ hs
  | some p =>
    unfold Machine.consoleStop
    simp only []
    split
    · exact hs
    · exact hs
    · exact hs
    all_goals exact h.stopByOwner _ hs

theorem onConsole (h : Whole P) {s} {f : State → State} (hf : ∀ {s}, P s → P (f s)) (hs : P s) : P (onConsole f s) :=
  h.onPart (fun hs => Quiet.ite (hf hs) hs) hs

theorem accessory (h : Whole P) {s} (n k : Nat) (p : List Byte) (hs : P s) : P (accessory s n k p) := by
  unfold Machine.accessory
  split
  · exact h.sendDrive _ hs
  · exact h.refuseFrame _ _ _ hs

theorem lineRestart (h : Whole P) {s} (hs : P s) : P (lineRestart s) :=
  have h1 := h.done kindLineRestart hs
  Quiet.ite h1 (h.lines _ rfl rfl h1)

/-! ## Requests -/

/-- The checks of the slew change nothing that the checks before them read. -/
theorem acquireRefusal_slewChecks (s : State) (row : Nat) : acquireRefusal (slewChecks s row).2 row = acquireRefusal s row := by
  have key : ∃ zs, (Machine.slewChecks s row).2 = s.withZones zs := by
    unfold Machine.slewChecks
    simp only []
    split
    · split
      · exact ⟨_, rfl⟩
      · exact ⟨s.zones, rfl⟩
    · exact ⟨s.zones, rfl⟩
  obtain ⟨zs, e⟩ := key
  rw [e]; rfl

theorem deployRequest (h : Whole P) {s} (v : Option Int) (hs : P s) : P (deployRequest s v) :=
  Quiet.ite (h.reheight _ hs) (h.deployFromStowed _ hs)

theorem stowRequest (h : Whole P) {s} (hs : P s) : P (stowRequest s) := by
  unfold Machine.stowRequest
  split
  · exact h.refuse _ _ hs
  · exact h.done _ hs
  · exact h.done _ hs
  all_goals exact h.done _ (h.stowEffects _ hs)

theorem parkRequest (h : Whole P) {s} (hs : P s) : P (parkRequest s) :=
  Quiet.ite (h.refuse _ _ hs) (Quiet.ite (h.refuse _ _ hs) (h.done _ (h.parkTaken hs)))

theorem wakeRequest (h : Whole P) {s} (hs : P s) : P (wakeRequest s) :=
  Quiet.ite (h.acqWake (h.done _ (h.wakeUp hs))) (h.refuse _ _ hs)

theorem acquireRequest (h : Whole P) {s} (row : Nat) (hs : P s) : P (acquireRequest s row) := by
  have h1 := h.slewChecks row hs
  unfold Machine.acquireRequest
  split
  · exact h.refuse _ _ hs
  · rename_i hr
    have h2 := acquireRefusal_slewChecks s row
    split
    · rename_i e; rw [e] at h1; exact h.refuse _ _ h1
    · rename_i e
      rw [e] at h1 h2
      exact h.startSlew (h.done _ (h.acquireTaken row (h2.trans hr) h1))

theorem releaseRequest (h : Whole P) {s} (hs : P s) : P (releaseRequest s) := by
  unfold Machine.releaseRequest
  split
  · exact h.refuse _ _ hs
  · rename_i e; exact h.done _ (h.acqRelease _ e hs)

theorem resumeRequest (h : Whole P) {s} (hs : P s) : P (resumeRequest s) := by
  unfold Machine.resumeRequest
  split
  · exact h.refuse _ _ hs
  · rename_i e; exact Quiet.ite (h.refuse _ _ hs) (h.startSlew (h.done _ (h.popTop _ _ e hs)))

theorem dropRequest (h : Whole P) {s} (hs : P s) : P (dropRequest s) := by
  unfold Machine.dropRequest
  split
  · exact h.refuse _ _ hs
  · rename_i e; exact h.done _ (h.dropTop _ _ e hs)

theorem renegotiateRequest (h : Whole P) {s} (hs : P s) : P (renegotiateRequest s) :=
  h.done _ (h.deliver (h.shaRenegotiate hs))

theorem txOnRequest (h : Whole P) {s} (hs : P s) : P (txOnRequest s) :=
  Quiet.ite (h.done _ (h.txOn hs)) (h.refuse _ _ hs)

theorem txOffRequest (h : Whole P) {s} (hs : P s) : P (txOffRequest s) := h.done _ (h.txOff hs)

theorem resetRequest (h : Whole P) {s} (hs : P s) : P (resetRequest s) :=
  have ht := h.restart (h.shaEnd (h.done kindReset hs))
  Quiet.ite ht (h.shaSame _ rfl ht)

/-! ## Commands -/

/-- The property holds in the next state. -/
theorem exec (h : Whole P) {s t : State} (i : Instr) (hs : P s) (e : exec i s = .next t) : P t := by
  cases i <;> cases e
  case powerOnReset c => cases c; exact h.powerUp hs; exact h.inReset hs
  case parkInRelease => exact h.parkInReleased hs
  case parkInAssert => exact h.setParkIn _ hs
  case stowInAssert => exact h.stowInAsserted hs
  case stowInRelease => exact h.setStowIn _ hs
  case frameDiscarded p => exact h.onPart (fun hs => h.huntOn p hs) hs
  case consoleMove a f => exact h.onConsole (fun hs => h.consoleMove a f hs) hs
  case consoleJog a f => exact h.onConsole (fun hs => h.consoleJog a f hs) hs
  case consoleStop a p => exact h.onConsole (fun hs => h.consoleStop a p hs) hs
  case consoleSelect a f => exact h.onConsole (fun hs => h.consoleSelect a f hs) hs
  case consoleChannel a => exact h.onConsole (fun hs => h.refuseFrame _ _ _ hs) hs
  case consoleOtherKind a k => exact h.onConsole (fun hs => h.refuseFrame _ _ _ hs) hs
  case accessoryFrame n k p => exact h.onConsole (fun hs => h.accessory n k p hs) hs
  case position a p m f c => exact h.onPart (fun hs => h.forwardUp _ _ _ (h.axsReport a p m f c hs)) hs
  case wind v => exact h.onPart (fun hs => h.forwardUp _ _ _ (h.wsmWind v hs)) hs
  case slope r p => exact h.onPart (fun hs => h.forwardUp _ _ _ (h.wsmSlope r p hs)) hs
  case driveFrameForward n k p => exact h.onPart (fun hs => h.forwardUp _ _ _ hs) hs
  case ability b p t a => exact h.onPart (fun hs => h.deliver (h.shaAbility _ hs)) hs
  case choiceEcho c t => exact h.onPart (fun hs => h.deliver (h.shaEcho _ _ hs)) hs
  case ident n => exact h.onPart (fun hs => h.deliver (h.shaIdent _ hs)) hs
  case report q l v => exact h.onPart (fun hs => h.deliverReport (h.shaReport _ _ _ hs)) hs
  case inboundNoEffectPage p => exact h.onPart (fun hs => h.shaWake hs) hs
  case malformedPage => exact hs
  case read t r f => exact h.onConsole (fun hs => h.readRequest _ _ _ hs) hs
  case readSiteUp => exact h.onConsole (fun hs => h.readRequest _ _ _ hs) hs
  case readNotice c => exact h.onConsole (fun hs => h.readRequest _ _ _ hs) hs
  case write t r f v => exact h.onConsole (fun hs => h.writeRequest _ _ _ _ hs) hs
  case writeZone r f v => exact h.onConsole (fun hs => h.writeRequest _ _ _ _ hs) hs
  case writeDerateRow r f v => exact h.onConsole (fun hs => h.writeRequest _ _ _ _ hs) hs
  case writeVanAbilityWord v => exact h.onConsole (fun hs => h.writeRequest _ _ _ _ hs) hs
  case writeEntrySetting r f v => exact h.onConsole (fun hs => h.writeRequest _ _ _ _ hs) hs
  case writeEntryState r v => exact h.onConsole (fun hs => h.writeRequest _ _ _ _ hs) hs
  case writeWindSetting w v => exact h.onConsole (fun hs => h.writeRequest _ _ _ _ hs) hs
  case unknownRequest k => exact h.onConsole (fun hs => h.refuse _ _ hs) hs
  case deploy v => exact h.onConsole (fun hs => h.deployRequest v hs) hs
  case stow => exact h.onConsole (fun hs => h.stowRequest hs) hs
  case park => exact h.onConsole (fun hs => h.parkRequest hs) hs
  case wake => exact h.onConsole (fun hs => h.wakeRequest hs) hs
  case clearHold => exact h.onConsole (fun hs => h.clearHold hs) hs
  case acquire row => exact h.onConsole (fun hs => h.acquireRequest row hs) hs
  case release => exact h.onConsole (fun hs => h.releaseRequest hs) hs
  case resume => exact h.onConsole (fun hs => h.resumeRequest hs) hs
  case dropResume => exact h.onConsole (fun hs => h.dropRequest hs) hs
  case renegotiate => exact h.onConsole (fun hs => h.renegotiateRequest hs) hs
  case txOn => exact h.onConsole (fun hs => h.txOnRequest hs) hs
  case txOff => exact h.onConsole (fun hs => h.txOffRequest hs) hs
  case lineRestart => exact h.onConsole (fun hs => h.lineRestart hs) hs
  case reset => exact h.onConsole (fun hs => h.resetRequest hs) hs
  case rateChange => exact h.onPart (fun hs => h.rateChanged hs) hs
  case upstreamFrameSent => exact h.onPart (fun hs => h.sent hs) hs
  case arrivalTimeout a => exact h.onPart (fun hs => h.arrivalTimeout a hs) hs
  case silenceWatchExpiry a => exact h.onPart (fun hs => h.silenceExpiry a hs) hs
  case deadmanExpiry a => exact h.onPart (fun hs => h.deadmanExpiry a hs) hs
  case slotTimerExpiry => exact h.onPart (fun hs => h.dsqSlotTimer hs) hs
  case windSilenceExpiry => exact h.onPart (fun hs => h.wsmWindSilent hs) hs
  case slopeSilenceExpiry => exact h.onPart (fun hs => h.wsmSlopeSilent hs) hs
  case offerTimerExpiry => exact h.onPart (fun hs => h.shaOfferTimer hs) hs
  case echoTimerExpiry => exact h.onPart (fun hs => h.shaEchoTimer hs) hs
  case reportSilenceExpiry => exact h.onPart (fun hs => h.reportSilence hs) hs
  case quietTimeExpiry => exact h.onPart (fun hs => h.shaSame _ rfl hs) hs
  case settleTimerExpiry => exact h.onPart (fun hs => h.acqSettleTimer hs) hs
  case linkWaitExpiry => exact h.onPart (fun hs => h.acqLinkWait hs) hs
  case gapTimerExpiry => exact h.onPart (fun hs => h.acqGapTimer hs) hs
  case rstRelease => exact h.powerUp hs

end Whole

end Sys2Proof.Machine
end

