-- ==== Sys2Proof/Laws/Apart.lean ====
section
/-! SUPPORT. What stands apart from the blocks that act on one another: a value read from the state that none of the axes,
the Deploy Sequencer, the Acquisition Engine, the Site Handshake Agent or the Transmitter Enable Control changes, such as the
fields of the Wind and Slope Monitor, is the same after every operation of those blocks. -/

namespace Sys2Proof.Machine

/-- A value read from the state to which no update of these blocks makes a difference. -/
structure Apart {α : Type} (f : State → α) : Prop where
  axs : ∀ s v, f (s.withAxs v) = f s
  mgt : ∀ s v, f (s.withMgt v) = f s
  zones : ∀ s v, f (s.withZones v) = f s
  dsq : ∀ s v, f (s.withDsq v) = f s
  sites : ∀ s v, f (s.withSites v) = f s
  sha : ∀ s v, f (s.withSha v) = f s
  acq : ∀ s v, f (s.withAcq v) = f s
  txc : ∀ s v, f (s.withTxc v) = f s
  ntu : ∀ s v, f (s.withNtu v) = f s
  lnu : ∀ s v, v.rst = s.lnu.rst → f (s.withLnu v) = f s
  out : ∀ s v, f (s.withOut v) = f s

theorem apart_wsm : Apart State.wsm := by constructor <;> intros <;> rfl
theorem apart_pending : Apart State.pending := by constructor <;> intros <;> rfl
theorem apart_rst : Apart (fun s => s.lnu.rst) := by constructor <;> intros <;> first | rfl | assumption

variable {α : Type} {f : State → α}

theorem quiet_apart (h : Apart f) (x : α) : Quiet (fun s => f s = x) where
  drive _ hs := (h.out _ _).trans hs
  site _ hs := (h.out _ _).trans hs
  mgt _ hs := (h.mgt _ _).trans hs
  ntu _ hs := (h.ntu _ _).trans hs
  lnu _ _ hr _ _ _ hs := (h.lnu _ _ hr).trans hs
  axis _ _ _ _ _ hs := (h.axs _ _).trans hs
  channels _ _ hs := (h.axs _ _).trans hs
  zones _ _ hs := (h.zones _ _).trans hs
  dsq _ _ _ hs := (h.dsq _ _).trans hs
  sites _ _ hs := (h.sites _ _).trans hs
  sha _ _ hs := (h.sha _ _).trans hs
  acq _ _ hs := (h.acq _ _).trans hs

theorem apart_clearAxis (h : Apart f) {x : α} {s : State} (a : Axis) (hs : f s = x) : f (clearAxis s a) = x :=
  Quiet.ite (P := fun s => f s = x) ((h.axs _ _).trans hs) hs

theorem closed_apart (h : Apart f) (x : α) : Closed (fun s => f s = x) where
  toQuiet := quiet_apart h x
  deploy _ _ hs := (h.txc _ _).trans ((h.dsq _ _).trans hs)
  halt a c _ hs :=
    have q := quiet_apart h x
    (h.txc _ _).trans (q.raise (.axis a c) (q.closeRun a (q.sendDrive (.stop a) ((h.axs _ _).trans hs))))
  clear {s} hs :=
    have h1 : f (allAxes.foldl clearAxis s) = x :=
      Quiet.fold (P := fun s => f s = x) (fun a hs => apart_clearAxis h a hs) allAxes hs
    Quiet.ite (P := fun s => f s = x) h1 ((h.txc _ _).trans h1)
  tracked _ hs := (h.txc _ _).trans hs
  txOn hs := (h.txc _ _).trans hs
  txOff hs := (h.txc _ _).trans hs
  lower {s} hs := by
    have q := quiet_apart h x
    have h0 : f (acqEmptyStack (acqWalkAbort s)) = x := by
      refine q.acqEmptyStack ?_
      unfold acqWalkAbort
      split
      · exact hs
      · exact q.endCtx ((h.txc _ _).trans (q.raise _ (q.stbChange _ _ _ _ hs)))
    unfold beforeWalk
    generalize acqEmptyStack (acqWalkAbort s) = u at h0
    have h1 : f (txcStow u) = x := (h.txc _ _).trans h0
    have h2 := q.axsStopAll allAxes (q.axsTakeAll .sequence allAxes (q.shaEnd h1))
    simp only []
    generalize axsStopAll (axsTakeAll (shaEnd (txcStow u)) .sequence allAxes) allAxes = v at h2
    exact (h.txc _ _).trans ((h.dsq _ _).trans ((h.dsq _ _).trans h2))

theorem dsq_clearAxis (s : State) (a : Axis) : (clearAxis s a).dsq = s.dsq := by
  unfold clearAxis
  simp only []
  split
  · rfl
  · rfl

theorem dsq_clearAxes (s : State) : (clearAxes s).dsq = s.dsq := by
  have h1 : ∀ (l : List Axis) (s : State), (l.foldl clearAxis s).dsq = s.dsq := by
    intro l
    induction l with
    | nil => exact fun _ => rfl
    | cons a l ih => exact fun s => (ih _).trans (dsq_clearAxis s a)
  unfold clearAxes
  simp only []
  split
  · exact h1 _ s
  · exact h1 _ s

/-- R66, R68: once the pose has been judged, no operation of these blocks makes the deploy state UNKNOWN again. -/
theorem closed_deployKnown : Closed (fun s => s.dsq.deploy ≠ .unknown) where
  drive _ hs := hs
  site _ hs := hs
  mgt _ hs := hs
  ntu _ hs := hs
  lnu _ _ _ _ _ _ hs := hs
  axis _ _ _ _ _ hs := hs
  channels _ _ hs := hs
  zones _ _ hs := hs
  dsq _ hd _ hs := fun e => hs (hd.symm.trans e)
  sites _ _ hs := hs
  sha _ _ hs := hs
  acq _ _ hs := hs
  deploy _ hd _ := hd
  halt a c _ hs := by
    unfold axsHalt txcHalted txcJudged
    show (raise _ _).dsq.deploy ≠ _
    rw [dsq_raise]; exact hs
  clear {s} hs := by rw [dsq_clearAxes]; exact hs
  tracked _ hs := hs
  txOn hs := hs
  txOff hs := hs
  lower _ := by unfold beforeWalk; exact fun e => by cases e

/-- Every command leaves the waiting commands alone. -/
theorem whole_pending (p : List Instr) : Whole (fun s => s.pending = p) where
  __ := (closed_apart apart_pending p).engine
  placeReply _ _ _ _ hs := by rw [pending_placeReply]; exact hs
  lines _ _ _ hs := hs
  sent hs := by
    unfold frameSent
    split
    · exact hs
    · exact hs
  wsm _ _ _ _ _ hs := hs
  gust _ hs := hs
  handed {s} a v f c hs := by
    have h1 : (takePosition s a v).pending = p := hs
    have h2 : (if f then faultedReport (takePosition s a v) a c else takePosition s a v).pending = p :=
      Quiet.ite (P := fun s : State => s.pending = p) ((closed_apart apart_pending p).engine.faultedReport a c h1) h1
    exact Quiet.ite (P := fun s : State => s.pending = p) h2 h2
  zone _ _ hs := hs
  powerUp hs := hs
  inReset hs := hs
  restart hs := hs

end Sys2Proof.Machine
end

