-- ==== Sys2Proof/Laws/Replies.lean ====
section
/-! SUPPORT. The upstream queue under the operations that place no REPLY: the REPLYs that wait stay, and no NOTICE or
forwarded frame takes the last place (R179). -/

namespace Sys2Proof.Machine

/-- The REPLYs that wait, and a bound on the frames that wait. -/
def Waiting (l : List UpFrame) (n : Nat) (s : State) : Prop :=
  s.lnu.queue.filter UpFrame.isReply = l ∧ s.lnu.queue.length ≤ n

theorem waiting_lnu {l : List UpFrame} {n : Nat} {s t : State} (hs : Waiting l n s) (e : t.lnu = s.lnu) : Waiting l n t := by
  unfold Waiting; rw [e]; exact hs

theorem waiting_withTxc {l : List UpFrame} {n : Nat} {s : State} (v : Txc) (hs : Waiting l n s) : Waiting l n (s.withTxc v) := hs
theorem waiting_withDsq {l : List UpFrame} {n : Nat} {s : State} (v : Dsq) (hs : Waiting l n s) : Waiting l n (s.withDsq v) := hs
theorem waiting_setAxis {l : List UpFrame} {n : Nat} {s : State} (a r) (hs : Waiting l n s) : Waiting l n (s.setAxis a r) := hs

theorem quiet_waiting (l : List UpFrame) {n : Nat} (hn : Config.noticePlaces ≤ n) : Quiet (Waiting l n) where
  drive _ hs := hs
  site _ hs := hs
  mgt _ hs := hs
  ntu _ hs := hs
  lnu {s} v fs _ hq hf hb hs := by
    refine ⟨?_, ?_⟩
    · show v.queue.filter UpFrame.isReply = l
      rw [hq, List.filter_append, hs.1, List.filter_eq_nil_iff.mpr (by simpa using hf), List.append_nil]
    · show v.queue.length ≤ n
      rcases hb with rfl | hb
      · rw [hq, List.append_nil]; exact hs.2
      · exact Nat.le_trans hb hn
  axis _ _ _ _ _ hs := hs
  channels _ _ hs := hs
  zones _ _ hs := hs
  dsq _ _ _ hs := hs
  sites _ _ hs := hs
  sha _ _ hs := hs
  acq _ _ hs := hs

theorem lnu_clearAxis (s : State) (a : Axis) : (clearAxis s a).lnu = s.lnu := by
  unfold clearAxis; simp only []; split <;> rfl

theorem closed_waiting (l : List UpFrame) {n : Nat} (hn : Config.noticePlaces ≤ n) : Closed (Waiting l n) where
  toQuiet := quiet_waiting l hn
  deploy _ _ hs := waiting_withTxc _ (waiting_withDsq _ hs)
  halt {s} a c _ hs :=
    have q := quiet_waiting l hn
    waiting_withTxc _ (q.raise (.axis a c) (q.closeRun a (q.sendDrive (.stop a) (waiting_setAxis _ _ hs))))
  clear {s} hs :=
    have h1 : Waiting l n (allAxes.foldl clearAxis s) := Quiet.fold (fun a hs => waiting_lnu hs (lnu_clearAxis _ a)) allAxes hs
    Quiet.ite (P := Waiting l n) h1 (waiting_withTxc _ h1)
  tracked _ hs := waiting_withTxc _ hs
  txOn hs := waiting_withTxc _ hs
  txOff hs := waiting_withTxc _ hs
  lower {s} hs := by
    have q := quiet_waiting l hn
    have h0 : Waiting l n (acqEmptyStack (acqWalkAbort s)) := by
      refine q.acqEmptyStack ?_
      unfold acqWalkAbort
      split
      · exact hs
      · rename_i c _
        have h1 := q.raise (.searchStowed c.row) (q.stbChange c.row runningStates .loaded (some .stowed) hs)
        exact q.endCtx (waiting_withTxc _ h1)
    unfold beforeWalk
    generalize acqEmptyStack (acqWalkAbort s) = u at h0
    have h1 : Waiting l n (txcStow u) := waiting_withTxc _ h0
    have h2 := q.axsStopAll allAxes (q.axsTakeAll .sequence allAxes (q.shaEnd h1))
    simp only []
    generalize axsStopAll (axsTakeAll (shaEnd (txcStow u)) .sequence allAxes) allAxes = v at h2
    exact waiting_withTxc _ (waiting_withDsq _ (waiting_withDsq _ h2))

theorem inner_waiting (l : List UpFrame) {n : Nat} (hn : Config.noticePlaces ≤ n) : Inner (Waiting l n) where
  __ := (closed_waiting l hn).engine
  lines v _ hq hs := ⟨by rw [← hs.1]; exact congrArg _ hq, by show v.queue.length ≤ n; rw [hq]; exact hs.2⟩
  wsm _ _ _ _ _ hs := hs
  gust _ hs := hs
  handed {s} a v f c hs := by
    have h1 : Waiting l n (takePosition s a v) := hs
    have h2 : Waiting l n (if f then faultedReport (takePosition s a v) a c else takePosition s a v) :=
      Quiet.ite (P := Waiting l n) ((closed_waiting l hn).engine.faultedReport a c h1) h1
    exact Quiet.ite (P := Waiting l n) h2 h2
  zone _ _ hs := hs

/-- A REPLY always finds a place behind frames that leave one. -/
theorem waiting_placeReply {l : List UpFrame} {s : State} (k n : Nat) (w : Option Reason) (d : ReplyData)
    (hs : Waiting l Config.noticePlaces s) :
    Waiting (l ++ [.reply k n w d]) Config.queuePlaces (placeReply s (.reply k n w d)) := by
  have hq : s.lnu.queue.length < Config.queuePlaces := Nat.lt_of_le_of_lt hs.2 (by decide)
  rw [placeReply_room _ hq]
  refine ⟨?_, ?_⟩
  · show (s.lnu.queue ++ [UpFrame.reply k n w d]).filter UpFrame.isReply = _
    rw [List.filter_append, hs.1]; rfl
  · show (s.lnu.queue ++ [UpFrame.reply k n w d]).length ≤ _
    simpa using hq

/-- While the part listens, the queue leaves a place for the REPLY. -/
theorem waiting_listens {s : State} (h : s.listens) :
    Waiting (s.lnu.queue.filter UpFrame.isReply) Config.noticePlaces s := ⟨rfl, Nat.le_of_lt_succ h.2⟩

end Sys2Proof.Machine
end

