-- ==== Sys2Proof/Laws/Exact.lean ====
section
/-! SUPPORT. What operations answer exactly: with room in the upstream queue, on records that are not travelling, and with a
context running. -/

namespace Sys2Proof.Machine

/-! ## Records by axis -/

theorem Axs.set_set (x : Axs) (a) (r q) : (x.set a r).set a q = x.set a q := by cases a <;> rfl

theorem Mgt.set_set (x : Mgt) (a) (r q) : (x.set a r).set a q = x.set a q := by cases a <;> rfl

theorem Axs.set_get (x : Axs) (a) : x.set a (x.get a) = x := by cases a <;> rfl

theorem State.setAxis_def (s : State) (a r) : s.setAxis a r = { s with axs := s.axs.set a r } := rfl

theorem Axs.channels_set_axis (x : Axs) (a) (r) : (x.set a r).channels = x.channels := by cases a <;> rfl

theorem Mgt.set_none {x : Mgt} {a} (h : x.get a = none) : x.set a none = x := by
  cases x; cases a <;> simp_all [Mgt.set, Mgt.get]

/-- What the soft range test tells. -/
theorem inSoft_iff (s : State) (a : Axis) (v : Int) : inSoft s a v = true ↔ (s.axis a).softMin ≤ v ∧ v ≤ (s.axis a).softMax := by
  unfold inSoft; simp

/-! ## From a meaning to the command -/

theorem exec_eq_of_running {c : Instr} {f : State → State} {s t : State} (hr : s.running) (e : exec c s = .next (onPart f s)) (h : f s = t) : exec c s = .next t := by
  rw [e, onPart_running _ hr, h]

theorem exec_eq_of_listens {c : Instr} {f : State → State} {s t : State} (hr : s.listens) (e : exec c s = .next (onConsole f s)) (h : f s = t) : exec c s = .next t := by
  rw [e, onConsole_listens _ hr, h]

theorem completes_of_running {c : Instr} {f : State → State} {s : State} {Q} (hr : s.running) (e : exec c s = .next (onPart f s)) (h : Q (f s)) : completes c s Q := ⟨f s, exec_eq_of_running hr e rfl, h⟩

theorem completes_of_listens {c : Instr} {f : State → State} {s : State} {Q} (hr : s.listens) (e : exec c s = .next (onConsole f s)) (h : Q (f s)) : completes c s Q := ⟨f s, exec_eq_of_listens hr e rfl, h⟩

/-! ## Notices and replies with room in the queue -/

theorem fillNotices_room (q : List UpFrame) (n : Notice) (h : q.length < 63) : fillNotices q [n] = (q ++ [.notice n], []) := by
  unfold fillNotices; rw [if_pos h]; rfl

theorem Ntu.held_nil (x : Ntu) (h : x.held = []) : ({ x with held := [] } : Ntu) = x := by cases x; simp_all

theorem noticeDue_room {s : State} (n : Notice) (h1 : s.ntu.held = []) (h2 : s.lnu.queue.length < 63) : noticeDue s n = s.queues (.notice n) := by
  unfold noticeDue placeHeld
  show ((s.withNtu _).withLnu { s.lnu with queue := (fillNotices s.lnu.queue (s.ntu.held ++ [n])).1 }).withNtu { s.ntu with held := (fillNotices s.lnu.queue (s.ntu.held ++ [n])).2 } = _
  rw [h1, List.nil_append, fillNotices_room _ _ h2, Ntu.held_nil _ h1]; rfl

theorem raise_room {s : State} (n : Notice) (h : s.roomy) : raise s n = s.noticed n := by
  obtain ⟨h1, h2⟩ := h
  unfold raise State.noticed
  simp only []
  split
  · rfl
  · exact noticeDue_room (s := s.withNtu _) n ((Ntu.held_set _ _ _).trans h1) h2

theorem doneWith_listens {s : State} (h : s.listens) (k d) : doneWith s k d = s.queues (.reply k 0 none d) := placeReply_room _ h.2

theorem done_listens {s : State} (h : s.listens) (k) : done s k = s.queues (replyDone k) := placeReply_room _ h.2

theorem refuse_listens {s : State} (h : s.listens) (k w) : refuse s k w = s.queues (replyRefused k w) := placeReply_room _ h.2

theorem listens_of_lnu {s t : State} (h : s.listens) (e : t.lnu = s.lnu) : t.listens := by unfold State.listens; rw [e]; exact h

/-! ## Stops and channels -/

theorem channels_axsStop (s : State) (a : Axis) : (axsStop s a).axs.channels = s.axs.channels := by
  unfold axsStop; split
  · rfl
  · rfl
  all_goals exact Axs.channels_set_axis _ _ _

theorem owner_axsStop (s : State) (a b : Axis) : ((axsStop s a).axis b).owner = (s.axis b).owner := by
  unfold axsStop; split
  · rfl
  · rfl
  all_goals
    show ((s.setAxis a (s.axis a).stopped).axis b).owner = _
    by_cases h : b = a
    · subst h; rw [State.axis_setAxis_self]; rfl
    · rw [State.axis_setAxis_ne _ _ h]

theorem lnu_axsStop (s : State) (a : Axis) : (axsStop s a).lnu = s.lnu := by
  unfold axsStop; split <;> rfl

/-- What one channel change does, to an axis that is not lowered by the wind. -/
structure ChannelSet (s : State) (c : Channel) (st : ChanState) (t : State) : Prop where
  chan : ∀ d, t.chan d = if d = c then st else s.chan d
  own : ∀ b, (s.axis c.axis).owner ≠ .wind → (t.axis b).owner = (s.axis b).owner
  lnu : (s.axis c.axis).owner ≠ .wind → t.lnu = s.lnu

theorem channelSet_axsChannel (s : State) (c : Channel) (st : ChanState) : ChannelSet s c st (axsChannel s c st) := by
  unfold axsChannel
  split
  · rename_i h
    refine ⟨fun d => ?_, fun b _ => rfl, fun _ => rfl⟩
    split
    · rename_i e; rw [e]; exact h
    · rfl
  · have P : ∀ s1 : State, s1.axs.channels = s.axs.channels → (∀ b, (s1.axis b).owner = (s.axis b).owner) → s1.lnu = s.lnu →
      let s2 := sendChannel (closeRunUnlessFull s1 c.axis st) c st
      let s3 := s2.setAxis c.axis { s2.axis c.axis with motion := restMotion c st (s2.axis c.axis).motion }
      (∀ d, s3.chan d = if d = c then st else s.chan d) ∧ (∀ b, (s3.axis b).owner = (s.axis b).owner) ∧ s3.lnu = s.lnu := by
      intro s1 h1 h2 h3 s2 s3
      have e2 : ∀ b, s2.axis b = s1.axis b := by
        intro b
        have : (closeRunUnlessFull s1 c.axis st).axs = s1.axs := by unfold closeRunUnlessFull; split <;> rfl
        show Axs.get { (closeRunUnlessFull s1 c.axis st).axs with channels := _ } b = s1.axs.get b
        rw [this]; cases b <;> rfl
      have e3 : (closeRunUnlessFull s1 c.axis st).axs = s1.axs := by unfold closeRunUnlessFull; split <;> rfl
      have e4 : (closeRunUnlessFull s1 c.axis st).lnu = s1.lnu := by unfold closeRunUnlessFull; split <;> rfl
      refine ⟨fun d => ?_, fun b => ?_, ?_⟩
      · show (s2.axs.set c.axis _).channels.get d = _
        rw [Axs.channels_set_axis]
        show ((closeRunUnlessFull s1 c.axis st).axs.channels.set c st).get d = _
        rw [Channels.get_set, e3, h1]; rfl
      · by_cases hb : b = c.axis
        · subst hb; rw [State.axis_setAxis_self]; show (s2.axis c.axis).owner = _; rw [e2, h2]
        · rw [State.axis_setAxis_ne _ _ hb, e2, h2]
      · show (closeRunUnlessFull s1 c.axis st).lnu = _; rw [e4, h3]
    unfold channelChange
    simp only []
    have Q := P (if endsMove s c st then axsStop s c.axis else s) (by split; exact channels_axsStop _ _; rfl)
      (by intro b; split; exact owner_axsStop _ _ _; rfl) (by split; exact lnu_axsStop _ _; rfl)
    simp only [] at Q
    obtain ⟨q1, q2, q3⟩ := Q
    generalize (sendChannel (closeRunUnlessFull (if endsMove s c st then axsStop s c.axis else s) c.axis st) c st).setAxis c.axis _ = s3 at q1 q2 q3 ⊢
    split
    · rename_i hw
      have ww : (s.axis c.axis).owner = .wind := by
        rw [← q2]; simpa using (by simpa using hw : _ ∧ _).2
      refine ⟨fun d => ?_, fun b h => absurd ww h, fun h => absurd ww h⟩
      rw [← q1]
      unfold endLowering State.chan; rw [axs_raise]
      show (s3.axs.set _ _).channels.get d = _
      rw [Axs.channels_set_axis]
    · exact ⟨q1, fun b _ => q2 b, fun _ => q3⟩

theorem axsChannels_unless_wind (s : State) (want : State → Channel → Option ChanState) (hw : ∀ a, (s.axis a).owner ≠ .wind)
   (ind : ∀ (u t : State) c, u.dsq = t.dsq → u.chan c = t.chan c → want u c = want t c) :
    (∀ d, (axsChannels s want).chan d = (want s d).getD (s.chan d)) ∧ (∀ a, ((axsChannels s want).axis a).owner = (s.axis a).owner) ∧ (axsChannels s want).lnu = s.lnu := by
  have sd : Steady (fun u : State => u.dsq = s.dsq) := ⟨fun _ h => h, fun _ h => h, fun _ h => h, fun _ _ _ _ _ _ h => h, fun _ _ _ _ _ h => h, fun _ _ h => h⟩
  have gen : ∀ (l : List Channel), l.Nodup → ∀ u : State, u.dsq = s.dsq → (∀ a, (u.axis a).owner = (s.axis a).owner) → u.lnu = s.lnu → (∀ d ∈ l, u.chan d = s.chan d) →
      ∀ t, t = l.foldl (fun s c => match want s c with | some st => axsChannel s c st | none => s) u →
      (∀ d, t.chan d = if d ∈ l then (want s d).getD (s.chan d) else u.chan d) ∧ (∀ a, (t.axis a).owner = (s.axis a).owner) ∧ t.lnu = s.lnu := by
    intro l
    induction l with
    | nil => intro _ u h0 h1 h2 h3 t ht; subst ht; exact ⟨fun d => by simp, h1, h2⟩
    | cons c l ih =>
      intro hn u h0 h1 h2 h3 t ht
      have hc : c ∉ l := (List.nodup_cons.mp hn).1
      have wc : want u c = want s c := ind _ _ _ h0 (h3 c (by simp))
      rw [List.foldl_cons] at ht
      cases hw2 : want s c with
      | none =>
        simp only [wc, hw2] at ht
        obtain ⟨a1, a2, a3⟩ := ih (List.nodup_cons.mp hn).2 u h0 h1 h2 (fun d hd => h3 d (by simp [hd])) t ht
        refine ⟨fun d => ?_, a2, a3⟩
        refine (a1 d).trans ?_
        by_cases hd : d = c
        · subst hd; simp [hc, hw2, h3]
        · simp [hd]
      | some st =>
        simp only [wc, hw2] at ht
        obtain ⟨r1, r2, r3⟩ := channelSet_axsChannel u c st
        have hwu : (u.axis c.axis).owner ≠ .wind := by rw [h1]; exact hw _
        obtain ⟨a1, a2, a3⟩ := ih (List.nodup_cons.mp hn).2 (axsChannel u c st) (sd.axsChannel c st h0) (fun a => (r2 a hwu).trans (h1 a)) ((r3 hwu).trans h2)
          (fun d hd => by rw [r1, if_neg (by rintro rfl; exact hc hd)]; exact h3 d (by simp [hd])) t ht
        refine ⟨fun d => ?_, a2, a3⟩
        refine (a1 d).trans ?_
        by_cases hd : d = c
        · subst hd; simp [hc, hw2, r1]
        · simp [hd, r1]
  obtain ⟨a1, a2, a3⟩ := gen allChannels (by decide) s rfl (fun _ => rfl) rfl (fun _ _ => rfl) _ rfl
  refine ⟨fun d => (a1 d).trans ?_, a2, a3⟩
  rw [if_pos]; cases d <;> decide

theorem chan_axsChannels (s : State) (want : State → Channel → Option ChanState)
   (ind : ∀ (u t : State) c, u.dsq = t.dsq → u.chan c = t.chan c → want u c = want t c) :
    (∀ d, (axsChannels s want).chan d = (want s d).getD (s.chan d)) := by
  have sd : Steady (fun u : State => u.dsq = s.dsq) := ⟨fun _ h => h, fun _ h => h, fun _ h => h, fun _ _ _ _ _ _ h => h, fun _ _ _ _ _ h => h, fun _ _ h => h⟩
  have gen : ∀ (l : List Channel), l.Nodup → ∀ u : State, u.dsq = s.dsq → (∀ d ∈ l, u.chan d = s.chan d) →
      ∀ t, t = l.foldl (fun s c => match want s c with | some st => axsChannel s c st | none => s) u →
      (∀ d, t.chan d = if d ∈ l then (want s d).getD (s.chan d) else u.chan d) := by
    intro l
    induction l with
    | nil => intro _ u h0 h3 t ht; subst ht; exact fun d => by simp
    | cons c l ih =>
      intro hn u h0 h3 t ht
      have hc : c ∉ l := (List.nodup_cons.mp hn).1
      have wc : want u c = want s c := ind _ _ _ h0 (h3 c (by simp))
      rw [List.foldl_cons] at ht
      cases hw2 : want s c with
      | none =>
        simp only [wc, hw2] at ht
        have a1 := ih (List.nodup_cons.mp hn).2 u h0 (fun d hd => h3 d (by simp [hd])) t ht
        refine fun d => ?_
        refine (a1 d).trans ?_
        by_cases hd : d = c
        · subst hd; simp [hc, hw2, h3]
        · simp [hd]
      | some st =>
        simp only [wc, hw2] at ht
        obtain ⟨r1, r2, r3⟩ := channelSet_axsChannel u c st
        have a1 := ih (List.nodup_cons.mp hn).2 (axsChannel u c st) (sd.axsChannel c st h0)
          (fun d hd => by rw [r1, if_neg (by rintro rfl; exact hc hd)]; exact h3 d (by simp [hd])) t ht
        refine fun d => ?_
        refine (a1 d).trans ?_
        by_cases hd : d = c
        · subst hd; simp [hc, hw2, r1]
        · simp [hd, r1]
  have a1 := gen allChannels (by decide) s rfl (fun _ _ => rfl) _ rfl
  refine fun d => (a1 d).trans ?_
  rw [if_pos]; cases d <;> decide

/-! ## Move checks -/

theorem moveCheck_allowed {s : State} {a : Axis} {t : Int} (h : (moveCheck s a t).1 = false) : moveCheck s a t = (false, s) := by
  unfold moveCheck at *
  split
  · rfl
  · rename_i ha
    rw [if_neg ha] at h
    have h' : s.zones.any (moveBlocker s a t) = false := h
    unfold countedCheck
    rw [h']
    congr 1
    have : (s.zones.map fun z => if moveBlocker s a t z then z.hit else z) = s.zones := by
      conv => rhs; rw [← List.map_id s.zones]
      refine List.map_congr_left fun z hz => ?_
      have := List.any_eq_false.mp h' z hz
      simp [this]
    rw [this]; rfl

theorem moveCheck_closeRun (s : State) (a b : Axis) (t) : (moveCheck (closeRun s b) a t).1 = (moveCheck s a t).1 := by
  unfold moveCheck; split <;> rfl

/-! ## Operations that only touch the axes -/

theorem axsStop_elsewhere (s : State) (a : Axis) : (axsStop s a).acq = s.acq ∧ (axsStop s a).dsq = s.dsq ∧ (axsStop s a).txc = s.txc ∧ (axsStop s a).sites = s.sites ∧ (axsStop s a).sha = s.sha ∧ (axsStop s a).lnu = s.lnu ∧ (axsStop s a).wsm = s.wsm ∧ (axsStop s a).zones = s.zones ∧ (axsStop s a).ntu = s.ntu ∧ (axsStop s a).out.site = s.out.site := by
  unfold axsStop; split <;> exact ⟨rfl, rfl, rfl, rfl, rfl, rfl, rfl, rfl, rfl, rfl⟩

/-- Nothing but axis records, jog runs and frames to the drives differs. -/
structure OnlyAxes (s t : State) : Prop where
  acq : t.acq = s.acq
  dsq : t.dsq = s.dsq
  txc : t.txc = s.txc
  sites : t.sites = s.sites
  sha : t.sha = s.sha
  lnu : t.lnu = s.lnu
  wsm : t.wsm = s.wsm
  zones : t.zones = s.zones
  ntu : t.ntu = s.ntu
  site : t.out.site = s.out.site
  channels : t.axs.channels = s.axs.channels

theorem OnlyAxes.same (s : State) : OnlyAxes s s := ⟨rfl, rfl, rfl, rfl, rfl, rfl, rfl, rfl, rfl, rfl, rfl⟩

theorem OnlyAxes.trans {s t u : State} (h : OnlyAxes s t) (g : OnlyAxes t u) : OnlyAxes s u :=
  ⟨g.1.trans h.1, g.2.trans h.2, g.3.trans h.3, g.4.trans h.4, g.5.trans h.5, g.6.trans h.6, g.7.trans h.7, g.8.trans h.8, g.9.trans h.9, g.10.trans h.10, g.11.trans h.11⟩

theorem onlyAxes_axsStop (s : State) (a : Axis) : OnlyAxes s (axsStop s a) := by
  obtain ⟨a1, a2, a3, a4, a5, a6, a7, a8, a9, a10⟩ := axsStop_elsewhere s a
  exact ⟨a1, a2, a3, a4, a5, a6, a7, a8, a9, a10, channels_axsStop _ _⟩

theorem onlyAxes_foldl {α} {f : State → α → State} (hf : ∀ s a, OnlyAxes s (f s a)) (l : List α) (s : State) : OnlyAxes s (l.foldl f s) := by
  induction l generalizing s with
  | nil => exact OnlyAxes.same s
  | cons a l ih => exact (hf s a).trans (ih _)

theorem onlyAxes_stopSearch (s : State) (lo) : OnlyAxes s (stopSearch s lo) := onlyAxes_foldl (fun s a => by split; exact onlyAxes_axsStop _ _; exact OnlyAxes.same _) _ _

/-! ## Pushes and failures -/

theorem raise_elsewhere (s : State) (n : Notice) : (raise s n).acq = s.acq ∧ (raise s n).dsq = s.dsq ∧ (raise s n).txc = s.txc ∧ (raise s n).sites = s.sites ∧ (raise s n).sha = s.sha ∧ (raise s n).wsm = s.wsm ∧ (raise s n).zones = s.zones ∧ (raise s n).axs = s.axs ∧ (raise s n).out = s.out ∧ (raise s n).mgt = s.mgt := by simp

theorem makeRoom_does (s : State) : (makeRoom s).acq.ctx = s.acq.ctx ∧ (makeRoom s).dsq = s.dsq ∧ (makeRoom s).txc = s.txc ∧ (s.acq.stack.length < 3 → makeRoom s = s) ∧ (makeRoom s).axs = s.axs ∧ (makeRoom s).sha = s.sha ∧ (makeRoom s).wsm = s.wsm ∧ (makeRoom s).zones = s.zones ∧ (makeRoom s).out = s.out ∧ (makeRoom s).mgt = s.mgt ∧ ∃ e', (makeRoom s).sites = s.sites ∨ (makeRoom s).sites = s.sites.modify e' (fun e => e.change [.suspended] .loaded none) := by
  unfold makeRoom
  split
  · exact ⟨rfl, rfl, rfl, fun _ => rfl, rfl, rfl, rfl, rfl, rfl, rfl, 0, Or.inl rfl⟩
  · rename_i h
    split
    · exact ⟨rfl, rfl, rfl, fun _ => rfl, rfl, rfl, rfl, rfl, rfl, rfl, 0, Or.inl rfl⟩
    · rename_i e _
      obtain ⟨a1, a2, a3, a4, a5, a6, a7, a8, a9, a10⟩ := raise_elsewhere (setStack (stbChange s e.row [.suspended] .loaded none) (s.acq.stack.take (Config.stackPlaces - 1))) (.resumeDropped e.row)
      exact ⟨by rw [a1]; rfl, by rw [a2]; rfl, by rw [a3]; rfl, fun h2 => absurd h2 h, by rw [a8]; rfl, by rw [a5]; rfl, by rw [a6]; rfl, by rw [a7]; rfl, by rw [a9]; rfl, by rw [a10]; rfl, e.row, Or.inr (by rw [a4]; rfl)⟩

theorem judged_keeps (o n : Txc) : (o.judged n).deploy = n.deploy ∧ (o.judged n).gust = n.gust ∧ (o.judged n).axisHalted = n.axisHalted ∧ (o.judged n).latch = n.latch ∧ (o.judged n).mute = n.mute ∧ (o.judged n).tracked = n.tracked := by
  unfold Txc.judged; split <;> exact ⟨rfl, rfl, rfl, rfl, rfl, rfl⟩

theorem acqPush_running {s : State} {c : Ctx} (h : s.acq.ctx = some c) (cause lo) : ∃ s1, s1 = makeRoom (stopSearch s lo) ∧
   acqPush s cause lo = raise (endCtx (txcTracked (releaseSearch (stbChange (setStack s1 (stackEntryOf s c cause :: s1.acq.stack)) c.row runningStates .suspended (some (pushCause cause)))) false)) (.resumeSuspended c.row cause) := by
  refine ⟨_, rfl, ?_⟩
  unfold acqPush; rw [h]

/-- What a push of the running context leaves. -/
structure Pushed (s : State) (c : Ctx) (cause : SuspendCause) (t : State) : Prop where
  ctx : t.acq.ctx = none
  stack : ∃ rest, t.acq.stack = stackEntryOf s c cause :: rest ∧ (s.acq.stack.length < 3 → rest = s.acq.stack)
  dsq : t.dsq = s.dsq
  deploy : t.txc.deploy = s.txc.deploy
  wsm : t.wsm = s.wsm
  zones : t.zones = s.zones
  channels : t.axs.channels = s.axs.channels
  sites : ∃ l : List Entry, (l = s.sites ∨ ∃ r, l = s.sites.modify r (fun e => e.change [.suspended] .loaded none)) ∧ t.sites = l.modify c.row (fun e => e.change runningStates .suspended (some (pushCause cause)))

theorem onlyAxes_releaseSearch (s : State) : OnlyAxes s (releaseSearch s) := onlyAxes_foldl (f := axsRelease) (fun _ _ => ⟨rfl, rfl, rfl, rfl, rfl, rfl, rfl, rfl, rfl, rfl, Axs.channels_set_axis _ _ _⟩) _ _

theorem pushed_acqPush {s : State} {c : Ctx} (h : s.acq.ctx = some c) (cause lo) : Pushed s c cause (acqPush s cause lo) := by
  obtain ⟨s1, h1, h2⟩ := acqPush_running h cause lo
  obtain ⟨r1, r2, r3, r4, r5, r6, r7, r8, r9, r10, e', r11⟩ := makeRoom_does (stopSearch s lo)
  rw [← h1] at r1 r2 r3 r5 r6 r7 r8 r9 r10 r11
  have k := onlyAxes_stopSearch s lo
  rw [h2]
  generalize hv : stbChange (setStack s1 (stackEntryOf s c cause :: s1.acq.stack)) c.row runningStates .suspended (some (pushCause cause)) = v
  obtain ⟨a1, a2, a3, a4, a5, a6, a7, a8, a9, a10⟩ := raise_elsewhere (endCtx (txcTracked (releaseSearch v) false)) (.resumeSuspended c.row cause)
  have q := onlyAxes_releaseSearch v
  generalize releaseSearch v = w at q a1 a2 a3 a4 a5 a6 a7 a8 a9 a10 ⊢
  refine ⟨by rw [a1]; rfl, ⟨s1.acq.stack, ?_, ?_⟩, ?_, ?_, ?_, ?_, ?_, ?_⟩
  · rw [a1]; show w.acq.stack = _; rw [q.acq, ← hv]; rfl
  · intro hl; rw [h1, r4 (by rw [k.acq]; exact hl), k.acq]
  · rw [a2]; show w.dsq = _; rw [q.dsq, ← hv]; show s1.dsq = _; rw [r2, k.dsq]
  · rw [a3]; show (w.txc.judged (w.txc.handTracked false)).deploy = _
    rw [(judged_keeps _ _).1]; show w.txc.deploy = _; rw [q.txc, ← hv]; show s1.txc.deploy = _; rw [r3, k.txc]
  · rw [a6]; show w.wsm = _; rw [q.wsm, ← hv]; show s1.wsm = _; rw [r7, k.wsm]
  · rw [a7]; show w.zones = _; rw [q.zones, ← hv]; show s1.zones = _; rw [r8, k.zones]
  · rw [a8]; show w.axs.channels = _; rw [q.channels, ← hv]; show s1.axs.channels = _; rw [r5, k.channels]
  · refine ⟨s1.sites, ?_, ?_⟩
    · rcases r11 with r | r
      · left; rw [r, k.sites]
      · right; exact ⟨e', by rw [r, k.sites]⟩
    · rw [a4]; show w.sites = _; rw [q.sites, ← hv]; rfl

theorem latest_raise (s : State) (n : Notice) : ((raise s n).ntu.get n.cls).latest = some n := by
  unfold raise; simp only []
  split
  · show ((s.ntu.set n.cls _).get n.cls).latest = _
    cases n.cls <;> rfl
  · show (({ (s.ntu.set n.cls _) with held := _ } : Ntu).get n.cls).latest = _
    cases h : n.cls <;> rfl

theorem Ntu.get_set_other (x : Ntu) (c d : NoticeClass) (h : d ≠ c) (r) : (x.set c r).get d = x.get d := by
  cases c <;> cases d <;> first | rfl | exact absurd rfl h

theorem notices_raise_other (s : State) (n : Notice) (d : NoticeClass) (h : d ≠ n.cls) : (raise s n).ntu.get d = s.ntu.get d := by
  unfold raise; simp only []
  split
  · exact Ntu.get_set_other _ _ _ h _
  · show ({ (s.ntu.set n.cls _) with held := _ } : Ntu).get d = _
    have : ∀ (x : Ntu) l, ({ x with held := l } : Ntu).get d = x.get d := by intro x l; cases d <;> rfl
    rw [this]; exact Ntu.get_set_other _ _ _ h _

theorem stopSearch_leaves_none_moving (s : State) : ∀ a : Axis, a ≠ .mast → ((stopSearch s none).axis a).motion ≠ .moving := by
    intro a ha
    have one : ∀ (u : State) (b : Axis), (((if (u.axis b).motion = .moving ∧ (none : Option Axis) ≠ some b then axsStop u b else u)).axis b).motion ≠ .moving ∧
        ∀ d, d ≠ b → ((if (u.axis b).motion = .moving ∧ (none : Option Axis) ≠ some b then axsStop u b else u)).axis d = u.axis d := by
      intro u b
      split
      · rename_i hm
        unfold axsStop; rw [hm.1]; simp only []
        refine ⟨?_, fun d hd => ?_⟩
        · show ((u.setAxis b (u.axis b).stopped).axis b).motion ≠ _
          rw [State.axis_setAxis_self]; unfold AxisRec.stopped; simp
        · show (u.setAxis b (u.axis b).stopped).axis d = _
          exact State.axis_setAxis_ne _ _ hd
      · rename_i hm
        refine ⟨fun x => hm ⟨x, by simp⟩, fun d _ => rfl⟩
    unfold stopSearch searchAxes
    simp only [List.foldl]
    cases a
    · exact absurd rfl ha
    · rw [(one _ .pol).2 _ (by decide), (one _ .tilt).2 _ (by decide)]; exact (one _ _).1
    · rw [(one _ .pol).2 _ (by decide)]; exact (one _ _).1
    · exact (one _ _).1

theorem acqFail_does (s : State) (c : Ctx) (cause) (h : s.acq.ctx = some c) : (acqFail s cause).acq = { s.acq with ctx := none } ∧ (acqFail s cause).sha = { s.sha with linkReady := false } ∧
   (acqFail s cause).out.site = s.out.site ∧ (∀ d : NoticeClass, d ≠ .search → (acqFail s cause).ntu.get d = s.ntu.get d) ∧
   ((acqFail s cause).ntu.get .search).latest = some (.searchEnded cause c.row c.phase) ∧
   (acqFail s cause).sites = s.sites.modify c.row (fun e => e.change runningStates .lost (some cause)) ∧
   (acqFail s cause).searchReleased ∧ (acqFail s cause).zones = s.zones ∧ (acqFail s cause).wsm = s.wsm := by
  unfold acqFail; rw [h]; simp only []
  have k := onlyAxes_stopSearch s none
  have km : ∀ a : Axis, a ≠ .mast → ((stopSearch s none).axis a).motion ≠ .moving := by
    intro a ha
    have one : ∀ (u : State) (b : Axis), (((if (u.axis b).motion = .moving ∧ (none : Option Axis) ≠ some b then axsStop u b else u)).axis b).motion ≠ .moving ∧
        ∀ d, d ≠ b → ((if (u.axis b).motion = .moving ∧ (none : Option Axis) ≠ some b then axsStop u b else u)).axis d = u.axis d := by
      intro u b
      split
      · rename_i hm
        unfold axsStop; rw [hm.1]; simp only []
        refine ⟨?_, fun d hd => ?_⟩
        · show ((u.setAxis b (u.axis b).stopped).axis b).motion ≠ _
          rw [State.axis_setAxis_self]; unfold AxisRec.stopped; simp
        · show (u.setAxis b (u.axis b).stopped).axis d = _
          exact State.axis_setAxis_ne _ _ hd
      · rename_i hm
        refine ⟨fun x => hm ⟨x, by simp⟩, fun d _ => rfl⟩
    unfold stopSearch searchAxes
    simp only [List.foldl]
    cases a
    · exact absurd rfl ha
    · rw [(one _ .pol).2 _ (by decide), (one _ .tilt).2 _ (by decide)]; exact (one _ _).1
    · rw [(one _ .pol).2 _ (by decide)]; exact (one _ _).1
    · exact (one _ _).1
  generalize stopSearch s none = u at k km
  have m : ∃ v, markFailed u c cause = raise v (.searchEnded cause c.row c.phase) ∧ v.acq = s.acq ∧ v.sha = s.sha ∧ v.out.site = s.out.site ∧ v.ntu = s.ntu ∧
      v.sites = s.sites.modify c.row (fun e => e.change runningStates .lost (some cause)) ∧ v.axs = u.axs ∧ v.zones = s.zones ∧ v.wsm = s.wsm := by
    unfold markFailed
    refine ⟨_, rfl, ?_⟩
    split
    · exact ⟨k.acq, k.sha, k.site, k.ntu, by show u.sites.modify _ _ = _; rw [k.sites], rfl, k.zones, k.wsm⟩
    · exact ⟨k.acq, k.sha, k.site, k.ntu, by show u.sites.modify _ _ = _; rw [k.sites], rfl, k.zones, k.wsm⟩
  obtain ⟨v, hv, v1, v2, v3, v4, v5, v6, v7, v8⟩ := m
  rw [hv]
  obtain ⟨a1, a2, a3, a4, a5, a6, a7, a8, a9, a10⟩ := raise_elsewhere v (.searchEnded cause c.row c.phase)
  have rl := latest_raise v (.searchEnded cause c.row c.phase)
  have ro := notices_raise_other v (.searchEnded cause c.row c.phase)
  generalize raise v (.searchEnded cause c.row c.phase) = w at a1 a2 a3 a4 a5 a6 a7 a8 a9 a10 rl ro
  have q := onlyAxes_releaseSearch w
  have rr : ∀ a : Axis, a ≠ .mast → (releaseSearch w).axis a = { w.axis a with owner := .none } := by
    intro a ha; cases a <;> first | exact absurd rfl ha | rfl
  generalize releaseSearch w = x at q rr
  refine ⟨?_, ?_, ?_, ?_, ?_, ?_, ?_, ?_, ?_⟩
  · show ({ x.acq with ctx := none } : Acq) = _; rw [q.acq, a1, v1]
  · show ({ x.sha with linkReady := false } : Sha) = _; rw [q.sha, a5, v2]
  · show x.out.site = _; rw [q.site, a9, v3]
  · intro d hd; show x.ntu.get d = _; rw [q.ntu, ro d hd, v4]
  · show (x.ntu.get .search).latest = _; rw [q.ntu]; exact rl
  · show x.sites = _; rw [q.sites, a4, v5]
  · intro a ha
    show (x.axis a).owner = _ ∧ (x.axis a).motion ≠ _
    rw [rr a ha]
    refine ⟨rfl, ?_⟩
    show (w.axis a).motion ≠ _
    unfold State.axis; rw [a8, v6]; exact km a ha
  · show x.zones = _; rw [q.zones, a7, v7]
  · show x.wsm = _; rw [q.wsm, a6, v8]

theorem acqWait_does (s : State) (c : Ctx) (h : s.acq.ctx = some c) : (acqWait s).sha = s.sha ∧ (acqWait s).out.site = s.out.site ∧ (acqWait s).ntu = s.ntu ∧ (acqWait s).lnu = s.lnu ∧ (acqWait s).sites = s.sites ∧
   ∃ d, (acqWait s).acq.ctx = some d ∧ d.row = c.row ∧ d.linkIsReady = false ∧ d.linkWait = some 10000 := by
  unfold acqWait; rw [h]; simp only []
  split
  · have k := onlyAxes_axsStop s (phaseAxis c.phase)
    exact ⟨k.sha, k.site, k.ntu, k.lnu, k.sites, _, rfl, rfl, rfl, rfl⟩
  · exact ⟨rfl, rfl, rfl, rfl, rfl, _, rfl, rfl, rfl, rfl⟩

end Sys2Proof.Machine
end

