-- ==== Sys2Proof/Laws/Channels.lean ====
section
/-! SUPPORT. What CHANNEL requests do to axes at rest (R12, R13): one lemma for one channel, one for several. -/

namespace Sys2Proof.Machine

theorem sameBut.refl (bs : List Block) (s : State) : sameBut bs s s := ⟨rfl, fun b _ => by cases b <;> rfl⟩

theorem sameBut.trans {bs : List Block} {s t u : State} (h : sameBut bs s t) (g : sameBut bs t u) : sameBut bs s u :=
  ⟨g.1.trans h.1, fun b hb => by
    have h1 := h.2 b hb
    have h2 := g.2 b hb
    cases b <;> exact h2.trans h1⟩

/-- R12, R13: what a CHANNEL request leaves of a record at rest on the axis of the channel. -/
def AxisRec.onChannel (r : AxisRec) (c : Channel) (old st : ChanState) : AxisRec :=
  { r with motion := if old = st then r.motion else restMotion c st r.motion }

/-- R12, R13: a CHANNEL request that ends no move. -/
theorem axsChannel_at_rest (s : State) (c : Channel) (st : ChanState) (h : (s.axis c.axis).travelling = false) :
    (∀ b, (axsChannel s c st).axis b = if b = c.axis then (s.axis b).onChannel c (s.chan c) st else s.axis b) ∧
    (∀ d, (axsChannel s c st).chan d = if d = c then st else s.chan d) ∧
    (axsChannel s c st).out.drive = s.out.drive ++ [.channel c st] ∧
    (st = .full → (axsChannel s c st).mgt = s.mgt) ∧ sameBut [.axs, .mgt, .drive] s (axsChannel s c st) := by
  unfold axsChannel
  split
  · rename_i e
    refine ⟨fun b => ?_, fun d => ?_, rfl, fun _ => rfl, rfl, fun b hb => ?_⟩
    · show s.axis b = _
      split
      · unfold AxisRec.onChannel; rw [if_pos e]
      · rfl
    · show s.chan d = _
      split
      · rename_i hd; rw [hd, e]
      · rfl
    · cases b <;> first | rfl | exact absurd (by decide) hb
  · rename_i e
    have em : endsMove s c st = false := by unfold endsMove; rw [h]; rfl
    unfold channelChange; simp only []
    rw [em]; simp only [Bool.false_eq_true, if_false, Bool.false_and]
    have ax : ∀ d, (sendChannel (closeRunUnlessFull s c.axis st) c st).axis d = s.axis d := by
      intro d; unfold sendChannel closeRunUnlessFull; split <;> rfl
    have ch : (sendChannel (closeRunUnlessFull s c.axis st) c st).axs.channels = s.axs.channels.set c st := by
      unfold sendChannel closeRunUnlessFull; split <;> rfl
    refine ⟨fun b => ?_, fun d => ?_, ?_, fun hf => ?_, ?_, fun b hb => ?_⟩
    · by_cases hb : b = c.axis
      · subst hb; rw [State.axis_setAxis_self, if_pos rfl, ax]; unfold AxisRec.onChannel; rw [if_neg e]
      · rw [State.axis_setAxis_ne _ _ hb, if_neg hb]; exact ax b
    · show ((sendChannel (closeRunUnlessFull s c.axis st) c st).axs.set c.axis _).channels.get d = _
      rw [Axs.channels_set_axis, ch, Channels.get_set]; rfl
    · unfold sendChannel closeRunUnlessFull; split <;> rfl
    · unfold sendChannel closeRunUnlessFull; rw [if_pos hf]; rfl
    · unfold sendChannel closeRunUnlessFull; split <;> rfl
    · unfold sendChannel closeRunUnlessFull
      split <;> (cases b <;> first | rfl | exact absurd (by decide) hb)

theorem AxisRec.travelling_onChannel (r : AxisRec) (c : Channel) (old st : ChanState) (h : r.travelling = false) :
    (r.onChannel c old st).travelling = false := by
  unfold AxisRec.onChannel AxisRec.travelling at *
  simp only []
  split
  · exact h
  · generalize r.motion = m at h
    unfold restMotion
    cases c <;> cases m <;> cases st <;> first | rfl | exact h

/-- The channel that moves an axis, or one that leaves its record alone (LOCK). -/
theorem AxisRec.onChannel_lock (r : AxisRec) (old st : ChanState) : r.onChannel .lock old st = r := by
  unfold AxisRec.onChannel restMotion; split <;> rfl

/-- R12, R13: several CHANNEL requests with every axis at rest: the states wanted, one frame for each, in the order LIFT, LOCK,
PAN, TILT, POL. -/
theorem axsChannels_at_rest (s : State) (want : State → Channel → Option ChanState)
    (ind : ∀ (u t : State) c, u.dsq = t.dsq → u.chan c = t.chan c → want u c = want t c)
    (h : ∀ b, (s.axis b).travelling = false) :
    let t := axsChannels s want
    (∀ b, t.axis b = match want s (moveChannel b) with
      | some st => (s.axis b).onChannel (moveChannel b) (s.chan (moveChannel b)) st
      | none => s.axis b) ∧
    t.out.drive = s.out.drive ++ allChannels.filterMap (fun c => (want s c).map (DriveFrame.channel c)) ∧
    ((∀ c st, want s c = some st → st = .full) → t.mgt = s.mgt) ∧ sameBut [.axs, .mgt, .drive] s t := by
  have gen : ∀ (l : List Channel), l.Nodup → ∀ u : State, u.dsq = s.dsq → (∀ b, (u.axis b).travelling = false) → (∀ d ∈ l, u.chan d = s.chan d) →
      ∀ t, t = l.foldl (fun s c => match want s c with | some st => axsChannel s c st | none => s) u →
      (∀ b, t.axis b = l.foldl (fun r c => match want s c with
        | some st => if b = c.axis then r.onChannel c (s.chan c) st else r
        | none => r) (u.axis b)) ∧
      t.out.drive = u.out.drive ++ l.filterMap (fun c => (want s c).map (DriveFrame.channel c)) ∧
      ((∀ c st, want s c = some st → st = .full) → t.mgt = u.mgt) ∧ sameBut [.axs, .mgt, .drive] u t := by
    intro l
    induction l with
    | nil =>
      intro _ u _ _ _ t ht; subst ht
      exact ⟨fun b => rfl, by simp, fun _ => rfl, sameBut.refl _ _⟩
    | cons c l ih =>
      intro hn u h0 h1 h3 t ht
      have hc : c ∉ l := (List.nodup_cons.mp hn).1
      have wc : want u c = want s c := ind _ _ _ h0 (h3 c (by simp))
      rw [List.foldl_cons] at ht
      cases hw : want s c with
      | none =>
        simp only [wc, hw] at ht
        obtain ⟨a1, a2, a3, a4⟩ := ih (List.nodup_cons.mp hn).2 u h0 h1 (fun d hd => h3 d (by simp [hd])) t ht
        refine ⟨fun b => ?_, ?_, a3, a4⟩
        · rw [List.foldl_cons, hw]; exact a1 b
        · rw [List.filterMap_cons, hw]; exact a2
      | some st =>
        simp only [wc, hw] at ht
        obtain ⟨r1, r2, r3, r4, r5⟩ := axsChannel_at_rest u c st (h1 _)
        have e0 : (axsChannel u c st).dsq = s.dsq := (r5.2 .dsq (by decide) : _).trans h0
        obtain ⟨a1, a2, a3, a4⟩ := ih (List.nodup_cons.mp hn).2 (axsChannel u c st) e0
          (fun b => by rw [r1]; split; exact AxisRec.travelling_onChannel _ _ _ _ (h1 b); exact h1 b)
          (fun d hd => by rw [r2, if_neg (by rintro rfl; exact hc hd)]; exact h3 d (by simp [hd])) t ht
        refine ⟨fun b => ?_, ?_, fun hf => (a3 hf).trans (r4 (hf c st hw)), r5.trans a4⟩
        · rw [List.foldl_cons, hw, a1 b, r1]
          have : u.chan c = s.chan c := h3 c (by simp)
          simp only [this]
        · rw [List.filterMap_cons, hw, a2, r3, List.append_assoc]; rfl
  intro t
  obtain ⟨a1, a2, a3, a4⟩ := gen allChannels (by decide) s rfl h (fun _ _ => rfl) t rfl
  refine ⟨fun b => (a1 b).trans ?_, a2, a3, a4⟩
  unfold allChannels
  cases b <;> simp only [List.foldl, Channel.axis, moveChannel, reduceCtorEq, if_true, if_false, AxisRec.onChannel_lock]
  · cases want s .lift <;> cases want s .lock <;> cases want s .pan <;> cases want s .tilt <;> cases want s .pol <;> rfl
  · cases want s .lift <;> cases want s .lock <;> cases want s .pan <;> cases want s .tilt <;> cases want s .pol <;> rfl
  · cases want s .lift <;> cases want s .lock <;> cases want s .pan <;> cases want s .tilt <;> cases want s .pol <;> rfl
  · cases want s .lift <;> cases want s .lock <;> cases want s .pan <;> cases want s .tilt <;> cases want s .pol <;> rfl

end Sys2Proof.Machine
end

