-- ==== Sys2Proof/Laws/Codes.lean ====
section
/-! SUPPORT. Reading back the numbers that frames carry (R187). -/

namespace Sys2Proof.Machine

theorem toNat_byteOf {n : Nat} (h : n < 256) : (byteOf n).toNat = n := by
  simp only [byteOf, BitVec.toNat_ofNat]
  omega

/-- The two bytes of a number joined again. -/
theorem join16 (w : BitVec 16) : (w.extractLsb' 8 8 ++ w.extractLsb' 0 8 : BitVec 16) = w := by
  apply BitVec.eq_of_getLsbD_eq
  intro i hi
  simp only [BitVec.getLsbD_append, BitVec.getLsbD_extractLsb']
  by_cases h : i < 8
  · simp [h]
  · have h2 : i - 8 < 8 := by omega
    simp only [h, h2, decide_false, decide_true, Bool.true_and, if_false]
    congr 1; omega

/-- The four bytes of a number joined again. -/
theorem join32 (w : BitVec 32) :
    (w.extractLsb' 24 8 ++ w.extractLsb' 16 8 ++ w.extractLsb' 8 8 ++ w.extractLsb' 0 8 : BitVec 32) = w := by
  apply BitVec.eq_of_getLsbD_eq
  intro i hi
  simp only [BitVec.getLsbD_append, BitVec.getLsbD_extractLsb']
  by_cases h : i < 8
  · simp [h]
  · by_cases h2 : i - 8 < 8
    · simp only [h, h2, decide_false, decide_true, Bool.true_and, if_true]
      simp only [if_false]
      congr 1; omega
    · by_cases h3 : i - 8 - 8 < 8
      · simp only [h, h2, h3, decide_false, decide_true, Bool.true_and, if_true]
        simp only [if_false]
        congr 1; omega
      · have h4 : i - 8 - 8 - 8 < 8 := by omega
        simp only [h, h2, h3, h4, decide_false, decide_true, Bool.true_and]
        simp only [if_false]
        congr 1; omega

theorem s16_be16 {v : Int} (h : fitsS16 v = true) :
    s16 ((BitVec.ofInt 16 v).extractLsb' 8 8) ((BitVec.ofInt 16 v).extractLsb' 0 8) = v := by
  have hv : -32768 ≤ v ∧ v ≤ 32767 := by simpa [fitsS16] using h
  unfold s16
  rw [join16, BitVec.toInt_ofInt]
  simp only [Int.bmod]
  omega

theorem s32_be32 {v : Int} (h : fitsS32 v = true) :
    s32 ((BitVec.ofInt 32 v).extractLsb' 24 8) ((BitVec.ofInt 32 v).extractLsb' 16 8)
      ((BitVec.ofInt 32 v).extractLsb' 8 8) ((BitVec.ofInt 32 v).extractLsb' 0 8) = v := by
  have hv : -2147483648 ≤ v ∧ v ≤ 2147483647 := by simpa [fitsS32] using h
  unfold s32
  rw [join32, BitVec.toInt_ofInt]
  simp only [Int.bmod]
  omega

theorem u16_be16 {v : Int} (h0 : 0 ≤ v) (h1 : v < 65536) :
    (u16 ((BitVec.ofInt 16 v).extractLsb' 8 8) ((BitVec.ofInt 16 v).extractLsb' 0 8) : Int) = v := by
  obtain ⟨n, rfl⟩ := Int.eq_ofNat_of_zero_le h0
  have hn : n < 65536 := by omega
  unfold u16
  simp only [BitVec.extractLsb'_toNat, BitVec.toNat_ofInt]
  simp only [Nat.shiftRight_eq_div_pow]
  omega

theorem u16_be16_nat {n : Nat} (h : n < 65536) :
    u16 ((BitVec.ofInt 16 (n : Int)).extractLsb' 8 8) ((BitVec.ofInt 16 (n : Int)).extractLsb' 0 8) = n := by
  have := u16_be16 (v := (n : Int)) (by omega) (by omega)
  exact_mod_cast this

@[simp] theorem axisOfNode_byte (a : Axis) : axisOfNode (byteOf (axisNode a)).toNat = some a := by cases a <;> rfl
@[simp] theorem priorityOf_code (p : Priority) : priorityOf (byteOf (priorityCode p)) = some p := by cases p <;> rfl
@[simp] theorem dirOf_code (d : Dir) : dirOf (byteOf (dirCode d)) = some d := by cases d <;> rfl
@[simp] theorem selOf_code (x : Sel) : selOf (byteOf (selCode x)) = some x := by cases x <;> rfl
@[simp] theorem bitByte_code (b : Bool) : bitByte (byteOf (boolCode b)) = some b := by cases b <;> rfl
@[simp] theorem bandOf_code (b : Band) : bandOf (byteOf (bandCode b)) = some b := by cases b <;> rfl
@[simp] theorem polOf_code (p : Pol) : polOf (byteOf (polCode p)) = some p := by cases p <;> rfl
@[simp] theorem periodOf_code (p : Period) : periodOf (byteOf (periodCode p)) = some p := by cases p <;> rfl

/-! ## Whole frames -/

/-- A port that finds the bytes of one frame of the lines takes that frame. -/
theorem hunt_frame (f : Frame) (hl : f.payload.length ≤ 24) (ha : f.address.toNat < 32) (n : Nat) :
    hunt (n + 2) f.bytes = [some f] := by
  unfold Frame.bytes
  unfold hunt
  rw [if_pos rfl]
  have : readFrame (f.body ++ checkBytes (crc16 f.body)) = .took f [] := by
    unfold Frame.body
    simp only [List.cons_append]
    unfold readFrame
    have hb : (byteOf f.payload.length).toNat = f.payload.length := toNat_byteOf (by omega)
    simp only [hb]
    have hc : (checkBytes (crc16 (f.address :: f.kind :: byteOf f.payload.length :: f.payload))).length = 2 := rfl
    rw [if_pos (by simp [hc])]
    have e1 : (f.payload ++ checkBytes (crc16 (f.address :: f.kind :: byteOf f.payload.length :: f.payload))).take f.payload.length = f.payload := by simp
    have e2 : (f.payload ++ checkBytes (crc16 (f.address :: f.kind :: byteOf f.payload.length :: f.payload))).drop f.payload.length = checkBytes (crc16 (f.address :: f.kind :: byteOf f.payload.length :: f.payload)) := by simp
    rw [e1, e2, List.drop_eq_nil_of_le (by simp [hc])]
    rw [List.take_of_length_le (by rw [hc])]
    unfold judgeFrame Frame.body
    rw [if_pos ⟨rfl, hl, ha⟩]
  rw [this]
  simp only []
  unfold hunt; rfl

theorem receive_frame (p : Port) (f : Frame) (hl : f.payload.length ≤ 24) (ha : f.address.toNat < 32) : receive p f.bytes = [sortFrame p f] := by
  unfold receive
  have : f.bytes.length = (f.payload.length + 4) + 2 := by
    unfold Frame.bytes Frame.body checkBytes; simp
  rw [this, hunt_frame f hl ha]; rfl

end Sys2Proof.Machine
end

