-- ==== Sys2Proof/Laws/Stops.lean ====
section
/-! SUPPORT. What takes, releases and stops of several axes do, what the entry to HELD does, and when KOU counts no hit. -/

namespace Sys2Proof.Machine

theorem AxisRec.taken_at_rest {r : AxisRec} (hm : r.motion = .idle ∨ r.motion = .moving) (o) : r.taken o = { r with owner := o } := by
  unfold AxisRec.taken; rw [if_neg]; rcases hm with h | h <;> rw [h] <;> decide

/-- A move check depends on the zones and on the positions and present targets of the axes alone. -/
theorem moveCheck_congr {s u : State} (hz : u.zones = s.zones) (hp : ∀ b, (u.axis b).position = (s.axis b).position)
   (ht : ∀ b, (u.axis b).presentTarget = (s.axis b).presentTarget) (a t) : (moveCheck u a t).1 = (moveCheck s a t).1 := by
  have pp : presentPose u = presentPose s := by unfold presentPose; rw [hp, hp, hp]
  have sp : ∀ b, axisSpan u b = axisSpan s b := by intro b; unfold axisSpan; rw [hp, ht]
  have ms : moveSpan u a t = moveSpan s a t := by unfold moveSpan; rw [hp]
  have sb : sweptBox u a t = sweptBox s a t := by unfold sweptBox boxWith; rw [ms, sp, sp, sp]
  have ep : ∀ p, endPose u a t p = endPose s a t p := by intro p; unfold endPose endCoord; rw [ht, ht, ht]
  have mb : moveBlocker u a t = moveBlocker s a t := by
    unfold moveBlocker; rw [pp, sb, hz]; simp only [ep]
  unfold moveCheck countedCheck; rw [mb, hz]; split <;> rfl

theorem AxisRec.presentTarget_owner (r : AxisRec) (o) : ({ r with owner := o } : AxisRec).presentTarget = r.presentTarget := by
  unfold AxisRec.presentTarget; cases r.motion <;> rfl

theorem anyHalted_false_iff (s : State) : anyHalted s = false ↔ ∀ a : Axis, (s.axis a).motion ≠ .halted := by
  unfold anyHalted
  simp only [List.any_eq_false, decide_eq_true_eq]
  constructor
  · intro h a; exact h a (by cases a <;> decide)
  · intro h a _; exact h a

theorem axis_axsReleaseAll (s : State) (b : Axis) : (axsReleaseAll s allAxes).axis b = { s.axis b with owner := .none } := by
  cases b <;> rfl

theorem axis_axsStopTravelling (s : State) (a b : Axis) : (axsStopTravelling s a).axis b = if a = b then (if (s.axis a).travelling then (s.axis a).stopped else s.axis a) else s.axis b := by
  unfold axsStopTravelling axsStop
  split
  · rename_i h
    split
    · rename_i h2; unfold AxisRec.travelling at h; rw [h2] at h; cases h
    · rename_i h2; unfold AxisRec.travelling at h; rw [h2] at h; cases h
    all_goals
      show (s.setAxis a (s.axis a).stopped).axis b = _
      split
      · rename_i e; subst e; exact State.axis_setAxis_self _ _ _
      · rename_i e; exact State.axis_setAxis_ne _ _ (fun h => e h.symm)
  · rename_i h; split
    · rename_i e; subst e; rfl
    · rfl

theorem axis_axsTake (s : State) (o) (a b : Axis) : (axsTake s o a).axis b = if a = b ∧
    (s.axis a).owner ≠ o then (s.axis a).taken o else s.axis b := by
  unfold axsTake
  split
  · rename_i h; rw [if_neg (fun x => x.2 h)]
  · rename_i h
    show (s.setAxis a ((s.axis a).taken o)).axis b = _
    split
    · rename_i e; obtain ⟨e, _⟩ := e; subst e; rw [State.axis_setAxis_self]
    · rename_i e; rw [State.axis_setAxis_ne _ _ (fun hh => e ⟨hh.symm, h⟩)]

/-- R4: every axis taken for an owner. -/
theorem axis_axsTakeAll (s : State) (o) (b : Axis) : (axsTakeAll s o allAxes).axis b = if (s.axis b).owner = o then s.axis b else (s.axis b).taken o := by
  have ne : ∀ (u : State) (a b : Axis), b ≠ a → (axsTake u o a).axis b = u.axis b := by
    intro u a b h; rw [axis_axsTake, if_neg (fun x => h x.1.symm)]
  have se : ∀ (u : State) (a : Axis), (axsTake u o a).axis a = if (u.axis a).owner = o then u.axis a else (u.axis a).taken o := by
    intro u a; rw [axis_axsTake]; by_cases h : (u.axis a).owner = o <;> simp [h]
  show (axsTake (axsTake (axsTake (axsTake s o .mast) o .pan) o .tilt) o .pol).axis b = _
  cases b
  · rw [ne _ _ _ (by decide), ne _ _ _ (by decide), ne _ _ _ (by decide), se]
  · rw [ne _ _ _ (by decide), ne _ _ _ (by decide), se, ne _ _ _ (by decide)]
  · rw [ne _ _ _ (by decide), se, ne _ _ _ (by decide), ne _ _ _ (by decide)]
  · rw [se, ne _ _ _ (by decide), ne _ _ _ (by decide), ne _ _ _ (by decide)]

theorem owner_axsTakeAll (s : State) (o) (b : Axis) : ((axsTakeAll s o allAxes).axis b).owner = o := by
  rw [axis_axsTakeAll]; split
  · assumption
  · exact AxisRec.owner_taken _ _

theorem onlyAxes_axsTake (s : State) (o a) : OnlyAxes s (axsTake s o a) ∧ (axsTake s o a).out = s.out := by
  unfold axsTake; split
  · exact ⟨OnlyAxes.same s, rfl⟩
  · exact ⟨⟨rfl, rfl, rfl, rfl, rfl, rfl, rfl, rfl, rfl, rfl, Axs.channels_set_axis _ _ _⟩, rfl⟩

theorem onlyAxes_axsTakeAll (s : State) (o) (l : List Axis) : OnlyAxes s (axsTakeAll s o l) ∧ (axsTakeAll s o l).out = s.out := by
  induction l generalizing s with
  | nil => exact ⟨OnlyAxes.same s, rfl⟩
  | cons a l ih =>
    obtain ⟨h1, h2⟩ := ih (axsTake s o a)
    obtain ⟨g1, g2⟩ := onlyAxes_axsTake s o a
    exact ⟨g1.trans h1, h2.trans g2⟩

theorem onlyAxes_axsStopTravelling (s : State) (a) : OnlyAxes s (axsStopTravelling s a) ∧
    (axsStopTravelling s a).out.drive = s.out.drive ++ (if (s.axis a).travelling then [.stop a] else []) := by
  unfold axsStopTravelling
  split
  · rename_i h
    refine ⟨onlyAxes_axsStop _ _, ?_⟩
    unfold axsStop
    split
    · rename_i h2; unfold AxisRec.travelling at h; rw [h2] at h; cases h
    all_goals rfl
  · exact ⟨OnlyAxes.same s, by simp⟩

/-- R84, R97: the STOP of every travelling axis, in the order of the nodes (log 39). -/
theorem axsStopAll_does (s : State) : OnlyAxes s (axsStopAll s allAxes) ∧
   (∀ b, (axsStopAll s allAxes).axis b = if (s.axis b).travelling then (s.axis b).stopped else s.axis b) ∧
   (axsStopAll s allAxes).out.drive = s.out.drive ++ (allAxes.filter fun b => (s.axis b).travelling).map DriveFrame.stop := by
  have e : axsStopAll s allAxes = axsStopTravelling (axsStopTravelling (axsStopTravelling (axsStopTravelling s .mast) .pan) .tilt) .pol := rfl
  have ne : ∀ (u : State) (a b : Axis), b ≠ a → (axsStopTravelling u a).axis b = u.axis b := by
    intro u a b h; rw [axis_axsStopTravelling, if_neg (fun x => h x.symm)]
  have se : ∀ (u : State) (a : Axis), (axsStopTravelling u a).axis a = if (u.axis a).travelling then (u.axis a).stopped else u.axis a := by
    intro u a; rw [axis_axsStopTravelling, if_pos rfl]
  rw [e]
  refine ⟨(((onlyAxes_axsStopTravelling _ _).1.trans (onlyAxes_axsStopTravelling _ _).1).trans (onlyAxes_axsStopTravelling _ _).1).trans (onlyAxes_axsStopTravelling _ _).1, fun b => ?_, ?_⟩
  · cases b
    · rw [ne _ _ _ (by decide), ne _ _ _ (by decide), ne _ _ _ (by decide), se]
    · rw [ne _ _ _ (by decide), ne _ _ _ (by decide), se, ne _ _ _ (by decide)]
    · rw [ne _ _ _ (by decide), se, ne _ _ _ (by decide), ne _ _ _ (by decide)]
    · rw [se, ne _ _ _ (by decide), ne _ _ _ (by decide), ne _ _ _ (by decide)]
  · rw [(onlyAxes_axsStopTravelling _ _).2, (onlyAxes_axsStopTravelling _ _).2, (onlyAxes_axsStopTravelling _ _).2,
      (onlyAxes_axsStopTravelling _ _).2]
    simp only [ne _ _ _ (show Axis.pan ≠ .mast by decide), ne _ _ _ (show Axis.tilt ≠ .mast by decide),
      ne _ _ _ (show Axis.tilt ≠ .pan by decide), ne _ _ _ (show Axis.pol ≠ .mast by decide), ne _ _ _ (show Axis.pol ≠ .pan by decide), ne _ _ _ (show Axis.pol ≠ .tilt by decide)]
    simp only [List.append_assoc, allAxes]
    simp only [List.filter]
    cases (s.axis .mast).travelling <;> cases (s.axis .pan).travelling <;> cases (s.axis .tilt).travelling <;> cases (s.axis .pol).travelling <;> rfl

theorem markFailed_does (s : State) (c l) : (markFailed s c l).dsq = s.dsq ∧ (markFailed s c l).out = s.out ∧
    (markFailed s c l).axs = s.axs ∧ (markFailed s c l).wsm = s.wsm ∧ (markFailed s c l).zones = s.zones ∧
    (markFailed s c l).mgt = s.mgt := by
  have : ∃ v, markFailed s c l = raise v (.searchEnded l c.row c.phase) ∧ v.dsq = s.dsq ∧ v.out = s.out ∧ v.axs = s.axs ∧ v.wsm = s.wsm ∧ v.zones = s.zones ∧ v.mgt = s.mgt := by
    unfold markFailed
    refine ⟨_, rfl, ?_⟩
    split <;> exact ⟨rfl, rfl, rfl, rfl, rfl, rfl⟩
  obtain ⟨v, hv, h1, h2, h3, h4, h5, h6⟩ := this
  rw [hv]
  exact ⟨(dsq_raise _ _).trans h1, (out_raise _ _).trans h2, (axs_raise _ _).trans h3, (wsm_raise _ _).trans h4,
    (zones_raise _ _).trans h5, (mgt_raise _ _).trans h6⟩

theorem acqAbort_does (s : State) : (acqAbort s).dsq = s.dsq ∧ (acqAbort s).out = s.out ∧ (acqAbort s).axs = s.axs ∧
    (acqAbort s).wsm = s.wsm ∧ (acqAbort s).zones = s.zones ∧ (acqAbort s).mgt = s.mgt := by
  unfold acqAbort
  split
  · exact ⟨rfl, rfl, rfl, rfl, rfl, rfl⟩
  · rename_i c _
    have h := markFailed_does s c .aborted
    generalize markFailed s c .aborted = u at h
    exact h

theorem abortIfPointing_does (s : State) : (abortIfPointing s).dsq = s.dsq ∧ (abortIfPointing s).out = s.out ∧
    (abortIfPointing s).axs = s.axs ∧ (abortIfPointing s).wsm = s.wsm ∧ (abortIfPointing s).zones = s.zones ∧
    (abortIfPointing s).mgt = s.mgt := by
  have key := acqAbort_does s
  unfold abortIfPointing
  generalize acqAbort s = u at key
  split
  all_goals first | exact key | exact ⟨rfl, rfl, rfl, rfl, rfl, rfl⟩

/-- R84: what the entry to HELD leaves, outside HELD. -/
theorem heldEntry_does (s : State) (cause : HoldCause) (h : s.dsq.deploy ≠ .held) :
   (heldEntry s cause).dsq = { s.dsq with holdCause := cause, slotTimer := none, slot := none, deploy := .held } ∧
   (∀ b, ((heldEntry s cause).axis b).owner = .sequence ∧ ((heldEntry s cause).axis b).travelling = false) ∧
   (∃ fr, (heldEntry s cause).out.drive = s.out.drive ++ fr) ∧ ((heldEntry s cause).ntu.get .deploy).latest = some (.deployHeld cause) ∧ (heldEntry s cause).wsm = s.wsm ∧ (heldEntry s cause).zones = s.zones := by
  unfold heldEntry; rw [if_neg h]; simp only []
  obtain ⟨a1, a2, a3, a4, a5, a6⟩ := abortIfPointing_does (s.withDsq { s.dsq with holdCause := cause, slotTimer := none, slot := none })
  generalize abortIfPointing (s.withDsq { s.dsq with holdCause := cause, slotTimer := none, slot := none }) = u at a1 a2 a3 a4 a5 a6
  obtain ⟨t1, t2⟩ := onlyAxes_axsTakeAll u .sequence allAxes
  have t3 := owner_axsTakeAll u .sequence
  generalize axsTakeAll u .sequence allAxes = v at t1 t2 t3
  obtain ⟨p1, p2, p3⟩ := axsStopAll_does v
  generalize axsStopAll v allAxes = w at p1 p2 p3
  refine ⟨?_, fun b => ?_, ⟨(allAxes.filter fun b => (v.axis b).travelling).map DriveFrame.stop, ?_⟩,
    latest_raise _ (.deployHeld cause), ?_, ?_⟩
  · rw [dsq_raise]; show { w.dsq with deploy := Deploy.held } = _; rw [p1.dsq, t1.dsq, a1]; rfl
  · unfold State.axis; rw [axs_raise]; show (w.axis b).owner = _ ∧ (w.axis b).travelling = _
    rw [p2]; split
    · exact ⟨(show (v.axis b).owner = _ from t3 b), rfl⟩
    · rename_i hh; exact ⟨t3 b, by simpa using hh⟩
  · rw [out_raise]; show w.out.drive = _; rw [p3, t2, a2]; rfl
  · rw [wsm_raise]; show w.wsm = _; rw [p1.wsm, t1.wsm, a4]; rfl
  · rw [zones_raise]; show w.zones = _; rw [p1.zones, t1.zones, a5]; rfl

theorem AxisRec.travelling_taken (r : AxisRec) (o) : (r.taken o).travelling = r.travelling := by
  unfold AxisRec.taken AxisRec.setTarget AxisRec.travelling
  split
  · rename_i h; rw [h]; cases r.sel <;> rfl
  · rfl

/-- R84: the entry to HELD, outside HELD, as the statements say it. -/
theorem holds_heldEntry (s : State) (cause : HoldCause) (h : s.dsq.deploy ≠ .held) : s.holds cause (heldEntry s cause) := by
  unfold heldEntry; rw [if_neg h]; simp only []
  obtain ⟨a1, a2, a3, a4, a5, a6⟩ := abortIfPointing_does (s.withDsq { s.dsq with holdCause := cause, slotTimer := none, slot := none })
  generalize abortIfPointing (s.withDsq { s.dsq with holdCause := cause, slotTimer := none, slot := none }) = u at a1 a2 a3 a4 a5 a6
  obtain ⟨t1, t2⟩ := onlyAxes_axsTakeAll u .sequence allAxes
  have t3 := owner_axsTakeAll u .sequence
  have t4 : ∀ b, ((axsTakeAll u .sequence allAxes).axis b).travelling = (s.axis b).travelling := by
    intro b
    have : (u.axis b) = s.axis b := by unfold State.axis; rw [a3]; rfl
    rw [axis_axsTakeAll, this]; split
    · rfl
    · exact AxisRec.travelling_taken _ _
  generalize axsTakeAll u .sequence allAxes = v at t1 t2 t3 t4
  obtain ⟨p1, p2, p3⟩ := axsStopAll_does v
  generalize axsStopAll v allAxes = w at p1 p2 p3
  refine ⟨?_, fun b => ?_, latest_raise _ (.deployHeld cause), ?_⟩
  · rw [dsq_raise]; show { w.dsq with deploy := Deploy.held } = _; rw [p1.dsq, t1.dsq, a1]; rfl
  · unfold State.axis; rw [axs_raise]; show (w.axis b).owner = _ ∧ (w.axis b).travelling = _
    rw [p2]; split
    · exact ⟨(show (v.axis b).owner = _ from t3 b), rfl⟩
    · rename_i hh; exact ⟨t3 b, by simpa using hh⟩
  · rw [out_raise]; show w.out.drive = _; rw [p3, t2, a2]; simp only [t4]; rfl

theorem State.holds_congr {s u t : State} {cause} (h : u.holds cause t)
    (hd : { u.dsq with deploy := Deploy.held, holdCause := cause, slot := none, slotTimer := none } = ({ s.dsq with deploy := .held, holdCause := cause, slot := none, slotTimer := none } : Dsq)) (ha : u.axs = s.axs) (ho : u.out = s.out) : s.holds cause t := by
  obtain ⟨h1, h2, h3, h4⟩ := h
  refine ⟨h1.trans hd, h2, h3, ?_⟩
  unfold State.axis at h4 ⊢
  rw [h4, ha, ho]

theorem Mgt.get_set (x : Mgt) (a b : Axis) (r) : (x.set a r).get b = if b = a then r else x.get b := by
  cases a <;> cases b <;> rfl

theorem List.modify_eq_set {α} (l : List α) (n : Nat) (f : α → α) (x : α) (h : l[n]? = some x) : l.modify n f = l.set n (f x) := by
  apply List.ext_getElem?
  intro m
  rw [List.getElem?_modify, List.getElem?_set]
  by_cases e : n = m
  · subst e; rw [h]; simp
    exact (List.getElem?_eq_some_iff.mp h).1
  · simp [e]

/-- R11: the STOP of an axis that is IDLE or MOVING, as the statements say it. -/
theorem axsStop_eq_withStop {s : State} {a : Axis} (h : (s.axis a).motion = .idle ∨ (s.axis a).motion = .moving) :
    axsStop s a = s.withStop a := by
  unfold axsStop State.withStop
  rcases h with h | h <;> (rw [h]; simp only []; unfold AxisRec.stopped; rw [h]; rfl)

/-- One STOP of a search: of an axis that is MOVING and is not left out. -/
def stopIf (lo : Option Axis) (s : State) (a : Axis) : State :=
  if (s.axis a).motion = .moving ∧ lo ≠ some a then axsStop s a else s

theorem stopIf_does (lo) (s : State) (a : Axis) : (∀ b, (stopIf lo s a).axis b = if b = a ∧ (s.axis a).motion = .moving ∧ lo ≠ some a then (s.axis a).stopped else s.axis b) ∧
   (stopIf lo s a).out.drive = s.out.drive ++ (if (s.axis a).motion = .moving ∧ lo ≠ some a then [.stop a] else []) ∧
   (∀ b, (stopIf lo s a).jog b = if b = a ∧ (s.axis a).motion = .moving ∧ lo ≠ some a then none else s.jog b) := by
  unfold stopIf
  split
  · rename_i h
    unfold axsStop; rw [h.1]; simp only []
    refine ⟨fun b => ?_, rfl, fun b => ?_⟩
    · show (s.setAxis a (s.axis a).stopped).axis b = _
      by_cases hb : b = a
      · subst hb; rw [State.axis_setAxis_self, if_pos ⟨rfl, trivial, h.2⟩]
      · rw [State.axis_setAxis_ne _ _ hb, if_neg (fun x => hb x.1)]
    · show (s.mgt.set a none).get b = _
      by_cases hb : b = a
      · subst hb; rw [if_pos ⟨rfl, trivial, h.2⟩]; cases b <;> rfl
      · rw [if_neg (fun x => hb x.1)]; cases a <;> cases b <;> first | rfl | exact absurd rfl hb
  · rename_i h
    refine ⟨fun b => ?_, by simp, fun b => ?_⟩ <;> rw [if_neg (fun x => h x.2)]

/-- R164: PAN, TILT and POL stopped where they are MOVING, but for the axis left out. -/
theorem stopSearch_does (s : State) (lo : Option Axis) :
   (∀ b, (stopSearch s lo).axis b = if b ≠ .mast ∧ (s.axis b).motion = .moving ∧ lo ≠ some b then (s.axis b).stopped else s.axis b) ∧
   (stopSearch s lo).out.drive = s.out.drive ++ (([Axis.pan, .tilt, .pol].filter fun b => lo ≠ some b ∧ (s.axis b).motion = .moving).map DriveFrame.stop) ∧
   (∀ b, (stopSearch s lo).jog b = if b ≠ .mast ∧ (s.axis b).motion = .moving ∧ lo ≠ some b then none else s.jog b) := by
  have e : stopSearch s lo = stopIf lo (stopIf lo (stopIf lo s .pan) .tilt) .pol := rfl
  obtain ⟨p1, p2, p3⟩ := stopIf_does lo s .pan
  obtain ⟨t1, t2, t3⟩ := stopIf_does lo (stopIf lo s .pan) .tilt
  obtain ⟨q1, q2, q3⟩ := stopIf_does lo (stopIf lo (stopIf lo s .pan) .tilt) .pol
  rw [e]
  refine ⟨fun b => ?_, ?_, fun b => ?_⟩
  · cases b <;> simp [q1, t1, p1]
  · rw [q2, t2, p2]; simp [t1, p1]
    by_cases h1 : (s.axis .pan).motion = .moving <;> by_cases h2 : (s.axis .tilt).motion = .moving <;> by_cases h3 : (s.axis .pol).motion = .moving <;>
      by_cases g1 : lo = some .pan <;> by_cases g2 : lo = some .tilt <;> by_cases g3 : lo = some .pol <;> simp [h1, h2, h3, g1, g2, g3]
  · cases b <;> simp [q3, t3, p3, t1, p1]

theorem AxisRec.taken_of_owner (r : AxisRec) (o x) : ({ r with owner := x } : AxisRec).taken o = r.taken o := by
  cases r; rename_i sel _ _ _ _ _ _ _ _ _ _ _ _ _; unfold AxisRec.taken AxisRec.setTarget; simp only []; split
  · cases sel <;> rfl
  · rfl

theorem axsStop_of_travelling {s : State} {a : Axis} (h : (s.axis a).travelling = true) : axsStop s a = s.withStop a := by
  have : (s.axis a).motion = .moving ∨ (s.axis a).motion = .jogging := by
    unfold AxisRec.travelling at h; simpa using h
  unfold axsStop State.withStop
  rcases this with h | h <;> (rw [h]; simp only []; unfold AxisRec.stopped; rw [h]; rfl)

theorem sameBut_raise (s : State) (n) : sameBut [.ntu, .lnu] s (raise s n) := by
  refine ⟨by simp, fun b hb => ?_⟩
  cases b <;> first | (unfold Block.same; simp; done) | (simp at hb)

theorem fillNotices_appends (q : List UpFrame) (l : List Notice) : ∃ n : List Notice, (fillNotices q l).1 = q ++ n.map .notice := by
  induction l generalizing q with
  | nil => exact ⟨[], by simp [fillNotices]⟩
  | cons x l ih =>
    unfold fillNotices; split
    · obtain ⟨n, hn⟩ := ih (q ++ [.notice x]); exact ⟨x :: n, by rw [hn]; simp⟩
    · exact ⟨[], by simp⟩

/-- R183: an event adds nothing but NOTICE frames to the upstream queue. -/
theorem lnu_raise_appends (s : State) (n : Notice) : ∃ ns : List Notice,
    (raise s n).lnu = { s.lnu with queue := s.lnu.queue ++ ns.map .notice } := by
  unfold raise; simp only []
  split
  · exact ⟨[], by simp⟩
  · obtain ⟨ns, h⟩ := fillNotices_appends s.lnu.queue ((s.ntu.set n.cls { (s.ntu.get n.cls) with latest := some n, pending := true }).held ++ [n])
    exact ⟨ns, by unfold noticeDue placeHeld; show ({ s.lnu with queue := _ } : Lnu) = _; exact congrArg (fun q => ({ s.lnu with queue := q } : Lnu)) h⟩

end Sys2Proof.Machine
end

