-- ==== Sys2Proof/Laws/Slots.lean ====
section
/-! SUPPORT. What one step of a walk of the Deploy Sequencer does, forward and backward, and the start of a backward walk. -/

namespace Sys2Proof.Machine

theorem steady_dsq_eq (d : Dsq) : Steady (fun u : State => u.dsq = d) :=
  ⟨fun _ h => h, fun _ h => h, fun _ h => h, fun _ _ _ _ _ _ h => h, fun _ _ _ _ _ h => h, fun _ _ h => h⟩

theorem lt_tableLength : ∀ (l : List Slot) (n : Nat) (sl : Slot), l[n]? = some sl → sl.deploy.kind ≠ .none → n < tableLength l := by
  intro l
  induction l with
  | nil => intro n sl h; simp at h
  | cons a l ih =>
    intro n sl h hk
    unfold tableLength
    cases n with
    | zero =>
      have : a = sl := by simpa using h
      subst this
      cases tableLength l with
      | zero => simp only []; rw [if_neg hk]; omega
      | succ m => simp only []; omega
    | succ n =>
      have := ih n sl (by simpa using h) hk
      cases h2 : tableLength l with
      | zero => omega
      | succ m => simp only []; omega

theorem raiseFrom_past_none (len : Nat) : ∀ (left : Nat) (s : State), left ≤ len → (∀ m sm, len - left ≤ m → s.dsq.slots[m]? = some sm → sm.deploy.kind = .none) →
    ∃ o, raiseFrom len left s = forwardEnd (s.withDsq { s.dsq with slot := o }) := by
  intro left
  induction left with
  | zero => intro s _ _; exact ⟨s.dsq.slot, rfl⟩
  | succ left ih =>
    intro s hl hm
    unfold raiseFrom
    simp only []
    have e3 : (slotAction s (len - (left+1)) (·.deploy)).kind = .none := by
      unfold slotAction
      cases h : s.dsq.slots[len - (left+1)]? with
      | none => rfl
      | some sm => exact hm _ sm (by omega) h
    rw [e3]
    obtain ⟨o, ho⟩ := ih (setSlot s (some (len - (left+1)))) (by omega) (fun m sm hmm hs => hm m sm (by omega) hs)
    exact ⟨o, ho⟩

/-- R72: the end of the forward walk. -/
theorem forwardEnd_does (s : State) (hg : s.wsm.gust ≠ .hold) :
   (forwardEnd s).dsq = { s.dsq with deploy := .deployed, slot := none } ∧ (∀ a, (forwardEnd s).axis a = { s.axis a with owner := .none }) ∧
   ((forwardEnd s).ntu.get .deploy).latest = some .deployUp ∧ (forwardEnd s).txc.deploy = .deployed := by
  unfold forwardEnd enterDeploy rejudgeInHold
  have : (setDeploy (axsReleaseAll (setSlot s none) allAxes) .deployed).wsm.gust = s.wsm.gust := rfl
  rw [this, if_neg hg]
  refine ⟨by rw [dsq_raise]; rfl, fun a => ?_, latest_raise _ .deployUp, ?_⟩
  · unfold State.axis; rw [axs_raise]; cases a <;> rfl
  · rw [txc_raise]
    show (Txc.judged _ _).deploy = _
    have : ∀ o n : Txc, (o.judged n).deploy = n.deploy := by intro o n; unfold Txc.judged; split <;> rfl
    rw [this]; unfold Txc.handDeploy; split <;> rfl

theorem actionMove_eq (d : Dsq) (k) : actionMove d k = d.motionOf k := by cases k <;> rfl

/-- R7: a MOVE TO is sent, or refused with nothing changed. -/
theorem axsMoveTo_does (s : State) (o) (a : Axis) (x : Int) (rate : Nat) :
   (s.accepts o a x rate → axsMoveTo s o a x (some rate) = .ok (s.withMove a ((s.axis a).setTarget (s.axis a).sel (some x)) x rate)) ∧
   (¬ s.accepts o a x rate → ∃ w, axsMoveTo s o a x (some rate) = .error w) := by
  constructor
  · rintro ⟨h1, h2, h3, h4, h5, h6, h7⟩
    have : moveRefusal s o a (some x) (some rate) = none := by
      unfold moveRefusal; simp only []
      rw [if_neg (by simp [h1]), if_neg (by simp [h2, h3]), if_neg (by simp [h4]), if_neg (by cases e : (s.axis a).position <;> simp_all), if_neg (by simp [h6]), if_neg (by simp; omega)]
    unfold axsMoveTo; rw [this]; simp only []
    unfold sendMove endJog State.withMove
    split <;> rfl
  · intro h
    have : ∃ w, moveRefusal s o a (some x) (some rate) = some w := by
      by_contra hc
      have hn : moveRefusal s o a (some x) (some rate) = none := by
        cases e : moveRefusal s o a (some x) (some rate) with
        | none => rfl
        | some w => exact absurd ⟨w, e⟩ hc
      apply h
      unfold moveRefusal at hn; simp only [] at hn
      split at hn; cases hn
      split at hn; cases hn
      split at hn; cases hn
      split at hn; cases hn
      split at hn; cases hn
      split at hn; cases hn
      rename_i a1 a2 a3 a4 a5 a6
      refine ⟨by simpa using a1, fun e => a2 (Or.inl e), fun e => a2 (Or.inr e), by simpa using a3, ?_, by simpa using a5, ?_⟩
      · cases e : (s.axis a).position <;> simp_all
      · rcases Nat.eq_zero_or_pos rate with e | e
        · subst e; exact absurd rfl a6
        · exact e
    obtain ⟨w, hw⟩ := this
    exact ⟨w, by unfold axsMoveTo; rw [hw]⟩

theorem State.accepts_congr {s u : State} (ha : u.axs = s.axs) (o a x r) : u.accepts o a x r ↔ s.accepts o a x r := by
  unfold State.accepts channelsFull State.axis State.chan; rw [ha]

theorem raiseFrom_step (len left : Nat) (s : State) (h : (slotAction s (len - (left + 1)) (·.deploy)).kind = .none) :
    raiseFrom len (left + 1) s = raiseFrom len left (setSlot s (some (len - (left + 1)))) := by
  conv => lhs; unfold raiseFrom
  simp only []; rw [h]

theorem lowerFrom_step (n : Nat) (s : State) (h : (slotAction s n (·.stow)).kind = .none) :
    lowerFrom (n + 1) s = lowerFrom n (setSlot s (some n)) := by
  conv => lhs; unfold lowerFrom
  simp only []; rw [h]

theorem slotAction_none (s : State) (k : Nat) (f : Slot → Action) (h : ∀ sk, s.dsq.slots[k]? = some sk →
    (f sk).kind = .none) : (slotAction s k f).kind = .none := by
  unfold slotAction
  cases e : s.dsq.slots[k]? with
  | none => rfl
  | some sm => exact h sm e

/-- R70: the forward walk passes the slots whose action is NONE. -/
theorem raiseFrom_skips (len m : Nat) (hm : m ≤ len) : ∀ (d j : Nat) (s : State), j + d = m → (∀ k sk, j ≤ k → k < m → s.dsq.slots[k]? = some sk → sk.deploy.kind = .none) →
    ∃ o, raiseFrom len (len - j) s = raiseFrom len (len - m) (s.withDsq { s.dsq with slot := o }) := by
  intro d
  induction d with
  | zero => intro j s e _; have : j = m := by omega
            subst this; exact ⟨s.dsq.slot, rfl⟩
  | succ d ih =>
    intro j s e hk
    have : len - j = (len - (j + 1)) + 1 := by omega
    have e2 : len - (len - (j + 1) + 1) = j := by omega
    obtain ⟨o, ho⟩ := ih (j+1) (setSlot s (some j)) (by omega) (fun k sk h1 h2 h3 => hk k sk (by omega) h2 h3)
    refine ⟨o, ?_⟩
    rw [this, raiseFrom_step _ _ _ (by rw [e2]; exact slotAction_none s j _ fun sk h => hk j sk (by omega) (by omega) h), e2, ho]; rfl

/-- R74: the backward walk passes the slots whose action is NONE. -/
theorem lowerFrom_skips (m : Nat) : ∀ (d n : Nat) (s : State), m + d = n → (∀ k sk, m ≤ k → k < n → s.dsq.slots[k]? = some sk → sk.stow.kind = .none) →
    ∃ o, lowerFrom n s = lowerFrom m (s.withDsq { s.dsq with slot := o }) := by
  intro d
  induction d with
  | zero => intro n s e _; have : n = m := by omega
            subst this; exact ⟨s.dsq.slot, rfl⟩
  | succ d ih =>
    intro n s e hk
    obtain ⟨n', rfl⟩ : ∃ n', n = n' + 1 := ⟨m + d, by omega⟩
    obtain ⟨o, ho⟩ := ih n' (setSlot s (some n')) (by omega) (fun k sk h1 h2 h3 => hk k sk h1 (by omega) h3)
    refine ⟨o, ?_⟩
    rw [lowerFrom_step _ _ (slotAction_none s n' _ fun sk h => hk n' sk (by omega) (by omega) h), ho]; rfl

theorem AxisRec.onChannel_eq_switched (r : AxisRec) (a : Axis) (old st : ChanState) (h : r.travelling = false) :
    r.onChannel (moveChannel a) old st = if old ≠ st then r.switched st else r := by
  unfold AxisRec.onChannel
  by_cases e : old = st
  · rw [if_pos e, if_neg (by simpa using e)]
  · rw [if_neg e, if_pos e]
    unfold AxisRec.switched
    congr 1
    unfold AxisRec.travelling at h
    generalize r.motion = m at h
    cases a <;> cases m <;> cases st <;> first | rfl | cases h

/-- R71: a channel action sets its channels and starts the slot timer. -/
theorem setsChannels_channelAction (s : State) (m : Nat) (act : Action) :
    s.setsChannels m act (channelAction { s with dsq := { s.dsq with slot := some m } } act) := by
  generalize hu : ({ s with dsq := { s.dsq with slot := some m } } : State) = u
  have ax : ∀ a, u.axis a = s.axis a := fun a => by rw [← hu]; rfl
  have ch : ∀ c, u.chan c = s.chan c := fun c => by rw [← hu]; rfl
  unfold channelAction; simp only []
  have w1 := chan_axsChannels u (fun _ c => if act.channel.names c then some act.state else none) (fun _ _ _ _ _ => rfl)
  have w2 := axsChannels_at_rest u (fun _ c => if act.channel.names c then some act.state else none) (fun _ _ _ _ _ => rfl)
  have w4 := (steady_dsq_eq u.dsq).axsChannels (fun _ c => if act.channel.names c then some act.state else none) (s := u) rfl
  generalize axsChannels u _ = x at w1 w2 w4
  refine ⟨?_, fun c => ?_, fun hr => ?_⟩
  · show ({ x.dsq with slotTimer := some x.dsq.slotTime } : Dsq) = _; rw [w4, ← hu]
  · show x.chan c = _; rw [w1, ch]; split <;> rfl
  · obtain ⟨r1, r2, -, r4⟩ := w2 fun b => by rw [ax]; exact hr b
    refine ⟨fun a => ?_, ?_, r4.1.trans (by rw [← hu]), fun b hb => ?_⟩
    · show x.axis a = _
      rw [r1]
      by_cases hn : act.channel.names (moveChannel a) = true
      · simp only [hn, if_true, true_and, ch, ax]
        rw [AxisRec.onChannel_eq_switched _ _ _ _ (hr a)]
      · simp only [hn, Bool.false_eq_true, if_false, false_and, ax]
    · show x.out.drive = _
      rw [r2, show u.out.drive = s.out.drive by rw [← hu]]
      congr 1
      unfold allChannels
      generalize act.channel.names = f
      simp only [List.filterMap_cons, List.filterMap_nil, List.filter_cons, List.filter_nil]
      cases f .lift <;> cases f .lock <;> cases f .pan <;> cases f .tilt <;> cases f .pol <;> rfl
    · have hk : b ∉ [Block.axs, .mgt, .drive] := fun k => hb (by cases b <;> simp_all)
      have := r4.2 b hk
      rw [← hu] at this
      cases b <;> first | exact this | exact absurd (by decide) hb

/-- R72: a motion action is sent, or HELD is entered with cause ACTION. -/
theorem actionMoveTo_does (s u : State) (a : Axis) (x : Int) (hd : u.dsq.deploy ≠ .held) (ha : u.axs = s.axs) (hw : u.wsm = s.wsm) (ho : u.out = s.out)
   (hdd : { u.dsq with deploy := Deploy.held, holdCause := HoldCause.action, slot := none, slotTimer := none } = ({ s.dsq with deploy := .held, holdCause := .action, slot := none, slotTimer := none } : Dsq)) :
    let r := s.axis a
    let rate := capped r.rateLimit (rateCap s.wsm a)
    (s.accepts .sequence a x rate → actionMoveTo u a x = u.withMove a (r.setTarget r.sel (some x)) x rate) ∧
    (¬ s.accepts .sequence a x rate → s.holds .action (actionMoveTo u a x)) := by
  intro r rate
  have er : u.axis a = r := by unfold State.axis; rw [ha]; rfl
  have erate : capped (u.axis a).rateLimit (rateCap u.wsm a) = rate := by rw [er, hw]
  obtain ⟨c1, c2⟩ := axsMoveTo_does u .sequence a x rate
  unfold actionMoveTo; rw [erate]
  constructor
  · intro h
    rw [c1 ((State.accepts_congr ha _ _ _ _).mpr h), er]
  · intro h
    obtain ⟨w, hw⟩ := c2 (fun y => h ((State.accepts_congr ha _ _ _ _).mp y))
    rw [hw]; exact State.holds_congr (holds_heldEntry u .action hd) hdd ha ho

/-- R71: the forward walk at one slot. -/
theorem raiseFrom_at (len m : Nat) (hm : m < len) (s : State) : raiseFrom len (len - m) s =
    (match (slotAction s m (·.deploy)).kind, actionMove s.dsq (slotAction s m (·.deploy)).kind with
    | .none, _ => raiseFrom len (len - (m+1)) (setSlot s (some m))
    | _, none => channelAction (setSlot s (some m)) (slotAction s m (·.deploy))
    | _, some (a, target) => raiseMove (setSlot s (some m)) a target) := by
  have e1 : len - m = (len - (m+1)) + 1 := by omega
  have e2 : len - (len - (m + 1) + 1) = m := by omega
  rw [e1]; conv => lhs; unfold raiseFrom
  simp only [e2]
  all_goals
    generalize slotAction s m (·.deploy) = act
    obtain ⟨k, _, _⟩ := act
    cases k <;> rfl

/-- R74: the backward walk at one slot. -/
theorem lowerFrom_at (m : Nat) (s : State) : lowerFrom (m + 1) s =
    (match (slotAction s m (·.stow)).kind, actionMove s.dsq (slotAction s m (·.stow)).kind with
    | .none, _ => lowerFrom m (setSlot s (some m))
    | _, none => channelAction (setSlot s (some m)) (slotAction s m (·.stow))
    | kind, some (a, target) => lowerMove (setSlot s (some m)) kind a target) := by
  conv => lhs; unfold lowerFrom
  all_goals
    simp only []
    generalize slotAction s m (·.stow) = act
    obtain ⟨k, _, _⟩ := act
    cases k <;> rfl

theorem motionOf_kind {d : Dsq} {k} {p} (h : d.motionOf k = some p) : k ≠ .none ∧ k ≠ .channel := by
  constructor <;> (intro e; rw [e] at h; cases h)

theorem out_forwardEnd (s : State) (hg : s.wsm.gust ≠ .hold) : (forwardEnd s).out = s.out := by
  unfold forwardEnd enterDeploy rejudgeInHold
  have : (setDeploy (axsReleaseAll (setSlot s none) allAxes) .deployed).wsm.gust = s.wsm.gust := rfl
  rw [this, if_neg hg, out_raise]; rfl

/-- R70 to R72: the forward walk over the slots from `n` on, as the statements say it. -/
theorem raisesOver_raiseFrom (s : State) (n : Nat) (hd : s.dsq.deploy = .raising) :
    s.raisesOver n (raiseFrom (tableLength s.dsq.slots) (tableLength s.dsq.slots - n) s) := by
  unfold State.raisesOver
  intro d
  let at_ : Nat → State := fun m => { s with dsq := { d with slot := some m } }
  generalize ht : raiseFrom (tableLength s.dsq.slots) (tableLength s.dsq.slots - n) s = t
  replace ht := ht.symm
  refine ⟨fun m sm hm hs hb => ?_, fun hb hg => ?_⟩
  · by_cases hk : sm.deploy.kind = .none
    · refine ⟨fun h => (by rw [hk] at h; cases h), fun a h => absurd hk (motionOf_kind h).1, fun a x h => absurd hk (motionOf_kind h).1⟩
    have hlen : m < tableLength s.dsq.slots := lt_tableLength _ _ _ hs hk
    obtain ⟨o, ho⟩ := raiseFrom_skips (tableLength s.dsq.slots) m (by omega) (m - n) n s (by omega) (fun k sk h1 h2 h3 => hb k sk (by omega) h2 h3)
    rw [ho, raiseFrom_at _ _ hlen] at ht
    have sa : slotAction (s.withDsq { s.dsq with slot := o }) m (·.deploy) = sm.deploy := by unfold slotAction; show (s.dsq.slots[m]?.map _).getD _ = _; rw [show s.dsq.slots[m]? = _ from hs]; rfl
    rw [sa] at ht
    have am : actionMove (s.withDsq { s.dsq with slot := o }).dsq sm.deploy.kind = d.motionOf sm.deploy.kind := by rw [actionMove_eq]; cases sm.deploy.kind <;> rfl
    rw [am] at ht
    have su : setSlot (s.withDsq { s.dsq with slot := o }) (some m) = at_ m := rfl
    rw [su] at ht
    refine ⟨fun h => ?_, fun a h => ?_, fun a x h => ?_⟩
    · rw [h] at ht; simp only [Dsq.motionOf] at ht
      subst ht
      exact setsChannels_channelAction s m sm.deploy
    · obtain ⟨k1, k2⟩ := motionOf_kind h
      have hh : raiseMove (at_ m) a none = heldEntry (at_ m) .action := rfl
      rw [h] at ht
      cases hkk : sm.deploy.kind <;> first | exact absurd hkk k1 | exact absurd hkk k2 | (rw [hkk] at ht; simp only [] at ht; rw [hh] at ht; subst ht; exact State.holds_congr (holds_heldEntry (at_ m) .action (by show d.deploy ≠ _; rw [hd]; decide)) rfl rfl rfl)
    · obtain ⟨k1, k2⟩ := motionOf_kind h
      have key : (match sm.deploy.kind, d.motionOf sm.deploy.kind with
          | .none, _ => raiseFrom (tableLength s.dsq.slots) (tableLength s.dsq.slots - (m+1)) (at_ m)
          | _, none => channelAction (at_ m) sm.deploy
          | _, some (a, target) => raiseMove (at_ m) a target) = raiseMove (at_ m) a (some x) := by
        rw [h]; cases hkk : sm.deploy.kind <;> first | exact absurd hkk k1 | exact absurd hkk k2 | rfl
      rw [key] at ht
      subst ht
      have hne : (at_ m).dsq.deploy ≠ .held := by show d.deploy ≠ _; rw [hd]; decide
      intro within calm blocked
      have hin : inSoft (at_ m) a x = true ↔ ((s.axis a).softMin ≤ x ∧ x ≤ (s.axis a).softMax) := inSoft_iff _ _ _
      have hab : aboveCap (at_ m).wsm x = true ↔ ¬ ∀ row, s.wsm.caps = some row → x ≤ row.heightCap := by
        show aboveCap s.wsm x = true ↔ _
        unfold aboveCap
        cases s.wsm.caps with
        | none => simp
        | some row => simp
      have hh : ∀ cause (z : State), z.dsq = (at_ m).dsq → z.axs = s.axs → z.out = s.out → s.holds cause (heldEntry z cause) := by
        intro cause z e1 e2 e3
        exact State.holds_congr (holds_heldEntry z cause (by rw [e1]; exact hne)) (by rw [e1]) e2 e3
      have hw : within ↔ (inSoft (at_ m) a x = true ∧ (a = .mast → x ≤ s.dsq.maxHeight)) := by
        rw [hin]; exact and_assoc.symm
      refine ⟨fun h1 => ?_, fun h1 h2 => ?_, fun h1 h2 h3 => ?_, fun h1 h2 h3 => ?_⟩
      · unfold raiseMove; simp only []
        by_cases g1 : inSoft (at_ m) a x = true
        · rw [if_neg (by simp [g1])]
          have : a = .mast ∧ s.dsq.maxHeight < x := by
            by_contra hc
            apply h1; rw [hw]; refine ⟨g1, fun e => ?_⟩
            by_contra hc2; exact hc ⟨e, by omega⟩
          rw [if_pos this]; exact hh _ _ rfl rfl rfl
        · rw [if_pos (by simpa using g1)]; exact hh _ _ rfl rfl rfl
      · obtain ⟨g1, g2⟩ := hw.mp h1
        unfold raiseMove; simp only []
        rw [if_neg (by simp [g1]), if_neg (by rintro ⟨e1, e2⟩; have := g2 e1; have e2' : s.dsq.maxHeight < x := e2; omega)]
        have : a = .mast ∧ aboveCap (at_ m).wsm x = true := by
          by_contra hc
          apply h2; intro e
          by_contra hc2; exact hc ⟨e, hab.mpr hc2⟩
        rw [if_pos this]; exact hh _ _ rfl rfl rfl
      · obtain ⟨g1, g2⟩ := hw.mp h1
        unfold raiseMove; simp only []
        rw [if_neg (by simp [g1]), if_neg (by rintro ⟨e1, e2⟩; have := g2 e1; have e2' : s.dsq.maxHeight < x := e2; omega), if_neg (by rintro ⟨e1, e2⟩; exact (hab.mp e2) (h2 e1))]
        have hb1 : (moveCheck (at_ m) a x).1 = true := (moveCheck_congr (s := s) (u := at_ m) rfl (fun _ => rfl) (fun _ => rfl) a x).trans h3
        rw [hb1, if_pos rfl]
        have : (moveCheck (at_ m) a x).2.dsq = (at_ m).dsq ∧ (moveCheck (at_ m) a x).2.axs = s.axs ∧ (moveCheck (at_ m) a x).2.out = s.out := by
          unfold moveCheck countedCheck; split <;> exact ⟨rfl, rfl, rfl⟩
        exact hh _ _ this.1 this.2.1 this.2.2
      · obtain ⟨g1, g2⟩ := hw.mp h1
        have F : raiseMove (at_ m) a (some x) = actionMoveTo (at_ m) a x := by
          unfold raiseMove; simp only []
          rw [if_neg (by simp [g1]), if_neg (by rintro ⟨e1, e2⟩; have := g2 e1; have e2' : s.dsq.maxHeight < x := e2; omega), if_neg (by rintro ⟨e1, e2⟩; exact (hab.mp e2) (h2 e1))]
          rw [moveCheck_allowed (s := at_ m) ((moveCheck_congr (s := s) (u := at_ m) rfl (fun _ => rfl) (fun _ => rfl) a x).trans h3)]; simp only [Bool.false_eq_true, if_false]
        have G := actionMoveTo_does s (at_ m) a x hne rfl rfl rfl rfl
        rw [← F] at G
        exact G
  · obtain ⟨o, ho⟩ := raiseFrom_past_none (tableLength s.dsq.slots) (tableLength s.dsq.slots - n) s (by omega) (fun m sm hmm hs2 => by
      by_cases hc : n ≤ m
      · exact hb m sm hc hs2
      · by_contra hk
        have : m < tableLength s.dsq.slots := lt_tableLength _ _ _ hs2 hk
        omega)
    rw [ho] at ht; subst ht
    obtain ⟨f1, f2, f3, f4⟩ := forwardEnd_does (s.withDsq { s.dsq with slot := o }) hg
    exact ⟨f1, f2, f3, f4, out_forwardEnd _ hg⟩

/-- R70, R71, R74: the backward walk over the slots below `n`, as the statements say it. -/
theorem lowersOver_lowerFrom (s : State) (n : Nat) (hd : s.dsq.deploy = .lowering) : s.lowersOver n (lowerFrom n s) := by
  unfold State.lowersOver
  intro d
  let at_ : Nat → State := fun m => { s with dsq := { d with slot := some m } }
  generalize ht : lowerFrom n s = t
  replace ht := ht.symm
  refine ⟨fun m sm hm hs hb => ?_, fun hb => ?_⟩
  · obtain ⟨o, ho⟩ := lowerFrom_skips (m+1) (n - (m+1)) n s (by omega) (fun k sk h1 h2 h3 => hb k sk (by omega) h2 h3)
    rw [ho, lowerFrom_at] at ht
    have sa : slotAction (s.withDsq { s.dsq with slot := o }) m (·.stow) = sm.stow := by unfold slotAction; show (s.dsq.slots[m]?.map _).getD _ = _; rw [show s.dsq.slots[m]? = _ from hs]; rfl
    rw [sa] at ht
    have am : actionMove (s.withDsq { s.dsq with slot := o }).dsq sm.stow.kind = d.motionOf sm.stow.kind := by rw [actionMove_eq]; cases sm.stow.kind <;> rfl
    rw [am] at ht
    have su : setSlot (s.withDsq { s.dsq with slot := o }) (some m) = at_ m := rfl
    rw [su] at ht
    have hne : (at_ m).dsq.deploy ≠ .held := by show d.deploy ≠ _; rw [hd]; decide
    have hh : s.holds .action (heldEntry (at_ m) .action) := State.holds_congr (holds_heldEntry (at_ m) .action hne) rfl rfl rfl
    refine ⟨fun h => ?_, fun a h => ?_, fun a x h => ?_⟩
    · rw [h] at ht; simp only [Dsq.motionOf] at ht
      subst ht
      exact setsChannels_channelAction s m sm.stow
    · obtain ⟨k1, k2⟩ := motionOf_kind h
      rw [h] at ht
      cases hkk : sm.stow.kind <;> first | exact absurd hkk k1 | exact absurd hkk k2 | (rw [hkk] at ht; subst ht; exact hh)
    · obtain ⟨k1, k2⟩ := motionOf_kind h
      have key : (match sm.stow.kind, d.motionOf sm.stow.kind with
          | .none, _ => lowerFrom m (at_ m)
          | _, none => channelAction (at_ m) sm.stow
          | kind, some (a, target) => lowerMove (at_ m) kind a target) = lowerMove (at_ m) sm.stow.kind a (some x) := by
        rw [h]; cases hkk : sm.stow.kind <;> first | exact absurd hkk k1 | exact absurd hkk k2 | rfl
      rw [key] at ht
      subst ht
      refine ⟨fun h1 h2 => ?_, fun h1 => ?_⟩
      · unfold lowerMove; simp only []; rw [if_pos ⟨h1, h2⟩]; exact hh
      · have F : lowerMove (at_ m) sm.stow.kind a (some x) = actionMoveTo (at_ m) a x := by
          unfold lowerMove; simp only []
          rw [if_neg (by rintro ⟨e1, e2⟩; rcases h1 with h1 | h1; exact h1 e1; exact absurd e2 (Int.not_lt.mpr h1))]
        have G := actionMoveTo_does s (at_ m) a x hne rfl rfl rfl rfl
        rw [← F] at G
        exact G
  · obtain ⟨o, ho⟩ := lowerFrom_skips 0 n n s (by omega) (fun k sk h1 h2 h3 => hb k sk h2 h3)
    rw [ho] at ht
    change t = backwardEnd (s.withDsq { s.dsq with slot := o }) at ht
    unfold backwardEnd at ht; simp only [] at ht
    have st : stowTest (setSlot (s.withDsq { s.dsq with slot := o }) none) = stowTest s := rfl
    rw [st] at ht
    refine ⟨fun h => ?_, fun h => ?_⟩
    · rw [h, if_pos rfl] at ht
      subst ht
      generalize hz : setSlot (s.withDsq { s.dsq with slot := o }) none = z
      have zd : z.dsq = { d with slot := none } := by rw [← hz]; rfl
      unfold goStowed channelsToOff
      have CC := chan_axsChannels z (fun s c => if s.chan c = .off then none else some .off) (fun _ _ c _ h => by simp only [h])
      have w4 := (steady_dsq_eq z.dsq).axsChannels (fun s c => if s.chan c = .off then none else some .off) (s := z) rfl
      generalize axsChannels z (fun s c => if s.chan c = .off then none else some .off) = v at CC w4
      refine ⟨?_, fun a => ?_, fun c => ?_, latest_raise _ .deployDown, ?_⟩
      · rw [dsq_raise]; show ({ v.dsq with deploy := Deploy.stowed } : Dsq) = _; rw [w4, zd]
      · unfold State.axis; rw [axs_raise]; show ((axsReleaseAll v allAxes).axis a).owner = _; rw [axis_axsReleaseAll]
      · unfold State.chan; rw [axs_raise]
        show (axsReleaseAll v allAxes).axs.channels.get c = _
        have e : (axsReleaseAll v allAxes).axs.channels = v.axs.channels := rfl
        rw [e]; refine (CC c).trans ?_
        split
        · rename_i h; exact h
        · rfl
      · rw [txc_raise]
        show (Txc.judged _ _).deploy = _
        rw [(judged_keeps _ _).1]; unfold Txc.handDeploy; split <;> rfl
    · rw [h] at ht; simp only [Bool.false_eq_true, if_false] at ht
      subst ht
      exact State.holds_congr (holds_heldEntry (setSlot (s.withDsq { s.dsq with slot := o }) none) .unsure (by show d.deploy ≠ _; rw [hd]; decide)) rfl rfl rfl

/-- R71: a walk goes on as the statements say it. -/
theorem walksOn_slotDone (s : State) : s.walksOn (slotDone s) := by
  intro n hn
  refine ⟨fun hd => ?_, fun hd => ?_⟩
  · have e : slotDone s = raiseFrom (tableLength s.dsq.slots) (tableLength s.dsq.slots - (n + 1)) s := by
      unfold slotDone; rw [hd, hn]
    rw [e]; exact raisesOver_raiseFrom s (n + 1) hd
  · have e : slotDone s = lowerFrom n s := by unfold slotDone; rw [hd, hn]
    rw [e]; exact lowersOver_lowerFrom s n hd

end Sys2Proof.Machine
end

