-- ==== Sys2Proof/Laws/Stow.lean ====
section
/-! SUPPORT. What the STOW effects leave. -/

namespace Sys2Proof.Machine

variable {w : WalkCause} {h : Sha} {l : List SitePage} {k : List Entry} {b1 b2 : Bool}

structure LoweringFields (d : Dsq) (q : Acq) (x : Txc) : Prop where
  dep : d.deploy = .lowering ∨ d.deploy = .stowed ∨ d.deploy = .held
  ctx : q.ctx = none
  st : q.stack = []
  txen : x.txen = false
  pend : x.pending = false
  latch : x.latch = false
  mute : x.mute = false
  tdep : x.deploy ≠ .deployed

/-- The fields that the STOW effects leave and that a backward walk keeps. -/
def IsLowering (s : State) : Prop := LoweringFields s.dsq s.acq s.txc

/-- What a backward walk keeps after the STOW effects with a cause. -/
def StowedWith (w : WalkCause) (h : Sha) (l : List SitePage) (k : List Entry) (b1 b2 : Bool) (s : State) : Prop :=
  IsLowering s ∧ s.dsq.walkCause = w ∧ s.sha = h ∧ s.out.site = l ∧ s.dsq.parkIn = b1 ∧ s.dsq.stowIn = b2 ∧ s.sites = k

theorem steady_stowedWith : Steady (StowedWith w h l k b1 b2) where
  drive _ hs := hs
  mgt _ hs := hs
  ntu _ hs := hs
  lnu _ _ _ _ _ _ hs := hs
  axis _ _ _ _ _ hs := hs
  channels _ _ hs := hs

theorem stowedWith_dsq {s} (v : Dsq) (e1 : v.deploy = s.dsq.deploy) (e2 : v.walkCause = s.dsq.walkCause) (e3 : v.parkIn = s.dsq.parkIn) (e4 : v.stowIn = s.dsq.stowIn)
    (hs : StowedWith w h l k b1 b2 s) : StowedWith w h l k b1 b2 (s.withDsq v) := by
  obtain ⟨⟨a1, a2, a3, a4, a5, a6, a7, a8⟩, c1, c2, c3, c4, c5, c6⟩ := hs
  exact ⟨⟨by show v.deploy = .lowering ∨ v.deploy = .stowed ∨ v.deploy = .held; rw [e1]; exact a1, a2, a3, a4, a5, a6, a7, a8⟩, e2.trans c1, c2, c3, e3.trans c4, e4.trans c5, c6⟩

theorem stowedWith_setDeploy {s} (d : Deploy) (hd : d = .stowed ∨ d = .held) (hs : StowedWith w h l k b1 b2 s) :
    StowedWith w h l k b1 b2 (setDeploy s d) := by
  obtain ⟨⟨a1, a2, a3, a4, a5, a6, a7, a8⟩, c1, c2, c3, c4, c5, c6⟩ := hs
  have hd1 : d ≠ .deployed := by rcases hd with rfl | rfl <;> decide
  have e : s.txc.judged (s.txc.handDeploy d) = { s.txc with deploy := d } := by
    unfold Txc.handDeploy; rw [if_neg (by simp [a8])]
    have k1 : s.txc.condition = false := by simp [Txc.condition, a8]
    have k2 : ({ s.txc with deploy := d } : Txc).condition = false := by simp [Txc.condition, hd1]
    unfold Txc.judged; rw [k1, k2]
  have e' : (setDeploy s d).txc = { s.txc with deploy := d } := e
  refine ⟨⟨Or.inr hd, a2, a3, ?_, ?_, ?_, ?_, ?_⟩, c1, c2, c3, c4, c5, c6⟩ <;> rw [e'] <;> assumption

theorem stowedWith_heldEntry {s} (c) (hs : StowedWith w h l k b1 b2 s) : StowedWith w h l k b1 b2 (heldEntry s c) := by
  unfold heldEntry
  refine Quiet.ite hs ?_
  have ab : ∀ u : State, StowedWith w h l k b1 b2 u → abortIfPointing u = u := by
    intro u hu; unfold abortIfPointing
    rcases hu.1.dep with h | h | h <;> rw [h]
  have h1 := stowedWith_dsq (s := s) { s.dsq with holdCause := c, slotTimer := none, slot := none } rfl rfl rfl rfl hs
  simp only []
  rw [ab _ h1]
  generalize s.withDsq _ = u at h1
  exact steady_stowedWith.raise _ (stowedWith_setDeploy _ (Or.inr rfl) (steady_stowedWith.axsStopAll _ (steady_stowedWith.axsTakeAll _ _ h1)))

theorem stowedWith_backwardEnd {s} (hs : StowedWith w h l k b1 b2 s) : StowedWith w h l k b1 b2 (backwardEnd s) := by
  unfold backwardEnd
  have h1 : StowedWith w h l k b1 b2 (setSlot s none) := stowedWith_dsq (s := s) _ rfl rfl rfl rfl hs
  generalize setSlot s none = u at h1
  exact Quiet.ite (steady_stowedWith.raise _ (stowedWith_setDeploy _ (Or.inl rfl) (steady_stowedWith.axsReleaseAll _ (steady_stowedWith.axsChannels _ h1)))) (stowedWith_heldEntry _ h1)

theorem stowedWith_lowerMove {s} (i a t) (hs : StowedWith w h l k b1 b2 s) : StowedWith w h l k b1 b2 (lowerMove s i a t) := by
  cases t with
  | none => exact stowedWith_heldEntry _ hs
  | some t =>
    refine Quiet.ite (stowedWith_heldEntry _ hs) ?_
    unfold actionMoveTo
    split
    · exact stowedWith_heldEntry _ hs
    · rename_i e; exact steady_stowedWith.axsMoveTo hs e

theorem stowedWith_channelAction {s} (a) (hs : StowedWith w h l k b1 b2 s) : StowedWith w h l k b1 b2 (channelAction s a) := by
  unfold channelAction
  simp only []
  have h1 := Steady.axsChannels (steady_stowedWith (w := w) (h := h) (l := l) (k := k) (b1 := b1) (b2 := b2)) (fun _ c => if a.channel.names c then some a.state else none) hs
  generalize axsChannels s _ = u at h1
  exact stowedWith_dsq (s := u) _ rfl rfl rfl rfl h1

theorem stowedWith_lowerFrom (n : Nat) {s} (hs : StowedWith w h l k b1 b2 s) : StowedWith w h l k b1 b2 (lowerFrom n s) := by
  induction n generalizing s with
  | zero => exact stowedWith_backwardEnd hs
  | succ n ih =>
    have h1 : StowedWith w h l k b1 b2 (setSlot s (some n)) := stowedWith_dsq (s := s) _ rfl rfl rfl rfl hs
    unfold lowerFrom
    simp only []
    generalize slotAction s n _ = act
    split
    · exact ih h1
    · exact stowedWith_channelAction _ h1
    · exact stowedWith_lowerMove _ _ _ h1

def LinkEndedFields (s : State) (th : Sha) (o : List SitePage) : Prop :=
   th.state = .silent ∧ (s.sha.state = .silent → o = s.out.site) ∧
      (s.sha.state ≠ .silent → th.window = [] ∧ th.agreed = none ∧ th.quietTimer = some 2000 ∧
        o = s.out.site ++ [.leave])

/-- R131: the link has been ended, with one LEAVE unless it was SILENT. -/
def LinkEnded (s t : State) : Prop := LinkEndedFields s t.sha t.out.site

structure BeforeWalkFields (s : State) (ud : Dsq) (uq : Acq) (ux : Txc) (us : Sha) (uo : List SitePage) : Prop where
  ctx : uq.ctx = none
  st : uq.stack = []
  txen : ux.txen = false
  pend : ux.pending = false
  latch : ux.latch = false
  mute : ux.mute = false
  sh : LinkEndedFields s us uo
  pk : ud.parkIn = s.dsq.parkIn
  sw : ud.stowIn = s.dsq.stowIn

/-- R78: what stands before the backward walk starts. -/
def IsBeforeWalk (s u : State) : Prop := BeforeWalkFields s u.dsq u.acq u.txc u.sha u.out.site

theorem steady_isBeforeWalk (s : State) : Steady (IsBeforeWalk s) where
  drive _ hs := hs
  mgt _ hs := hs
  ntu _ hs := hs
  lnu _ _ _ _ _ _ hs := hs
  axis _ _ _ _ _ hs := hs
  channels _ _ hs := hs

/-- nothing but sites, txc, ctx, sha.linkReady moves. -/
theorem acqWalkAbort_does (s : State) : (acqWalkAbort s).sha.state = s.sha.state ∧ (acqWalkAbort s).out = s.out ∧ (acqWalkAbort s).acq.ctx = none ∧
    (acqWalkAbort s).dsq = s.dsq := by
  unfold acqWalkAbort
  split
  · rename_i h; exact ⟨rfl, rfl, h, rfl⟩
  · rename_i c h
    have e1 : ∀ u : State, (endCtx (txcTracked u false)).sha.state = u.sha.state ∧ (endCtx (txcTracked u false)).out = u.out ∧ (endCtx (txcTracked u false)).acq.ctx = none ∧ (endCtx (txcTracked u false)).dsq = u.dsq := fun u => ⟨rfl, rfl, rfl, rfl⟩
    obtain ⟨a, b, c', d⟩ := e1 (raise (stbChange s c.row runningStates .loaded (some .stowed)) (.searchStowed c.row))
    refine ⟨a.trans ?_, b.trans ?_, c', d.trans ?_⟩
    · rw [sha_raise]; rfl
    · rw [out_raise]; rfl
    · rw [dsq_raise]; rfl

theorem acqEmptyStack_does (s : State) : (acqEmptyStack s).sha = s.sha ∧ (acqEmptyStack s).out = s.out ∧ (acqEmptyStack s).acq.ctx = s.acq.ctx ∧ (acqEmptyStack s).acq.stack = [] ∧
    (acqEmptyStack s).dsq = s.dsq := by
  have : ∀ (l : List StackEntry) (u : State), (l.foldl (fun s e => stbChange s e.row [.suspended] .loaded (some .stowed)) u).sha = u.sha ∧
     (l.foldl (fun s e => stbChange s e.row [.suspended] .loaded (some .stowed)) u).out = u.out ∧
     (l.foldl (fun s e => stbChange s e.row [.suspended] .loaded (some .stowed)) u).acq = u.acq ∧ (l.foldl (fun s e => stbChange s e.row [.suspended] .loaded (some .stowed)) u).dsq = u.dsq := by
    intro l
    induction l with
    | nil => exact fun u => ⟨rfl, rfl, rfl, rfl⟩
    | cons e l ih => intro u; exact ih _
  obtain ⟨a, b, c, d⟩ := this s.acq.stack s
  exact ⟨a, b, (congrArg Acq.ctx c : _), rfl, d⟩

/-- R78: what comes before the backward walk. -/
theorem beforeWalk_does (s : State) : IsLowering (beforeWalk s) ∧ LinkEnded s (beforeWalk s) ∧
   (beforeWalk s).dsq.parkIn = s.dsq.parkIn ∧ (beforeWalk s).dsq.stowIn = s.dsq.stowIn := by
  have p0 : IsBeforeWalk s (shaEnd (txcStow (acqEmptyStack (acqWalkAbort s)))) := by
    obtain ⟨a1, a2, a3, a4⟩ := acqWalkAbort_does s
    obtain ⟨c1, c2, c3, c4, c5⟩ := acqEmptyStack_does (acqWalkAbort s)
    generalize acqEmptyStack (acqWalkAbort s) = u at c1 c2 c3 c4 c5
    have s1 : u.sha.state = s.sha.state := by rw [c1]; exact a1
    have o1 : u.out = s.out := by rw [c2, a2]
    have d1 : u.dsq = s.dsq := by rw [c5, a4]
    unfold shaEnd
    split
    · rename_i h
      have h' : s.sha.state = .silent := by rw [← s1]; exact h
      refine ⟨by show u.acq.ctx = none; rw [c3, a3], c4, rfl, rfl, rfl, rfl, ⟨h, fun _ => by show u.out.site = _; rw [o1], fun n => absurd h' n⟩, ?_, ?_⟩
      · show u.dsq.parkIn = _; rw [d1]
      · show u.dsq.stowIn = _; rw [d1]
    · rename_i h
      have h' : s.sha.state ≠ .silent := by rw [← s1]; exact h
      refine ⟨by show u.acq.ctx = none; rw [c3, a3], c4, rfl, rfl, rfl, rfl, ⟨rfl, fun n => absurd n h', fun _ => ⟨rfl, rfl, rfl, ?_⟩⟩, ?_, ?_⟩
      · show u.out.site ++ _ = _; rw [o1]
      · show u.dsq.parkIn = _; rw [d1]
      · show u.dsq.stowIn = _; rw [d1]
  have p1 := (steady_isBeforeWalk s).axsStopAll allAxes ((steady_isBeforeWalk s).axsTakeAll .sequence allAxes p0)
  unfold beforeWalk
  simp only []
  generalize axsStopAll (axsTakeAll (shaEnd (txcStow (acqEmptyStack (acqWalkAbort s)))) .sequence allAxes) allAxes = v at p1
  obtain ⟨q1, q2, q3, q4, q5, q6, q7, q8, q9⟩ := p1
  have e : (setDeploy (v.withDsq { v.dsq with slotTimer := none }) .lowering).txc = v.txc.judged (v.txc.handDeploy .lowering) := rfl
  have tx : let x := v.txc.judged (v.txc.handDeploy .lowering); x.txen = false ∧ x.pending = false ∧ x.latch = false ∧ x.mute = false ∧ x.deploy ≠ .deployed := by
    have f : v.txc.handDeploy .lowering = { v.txc with deploy := .lowering } := by
      unfold Txc.handDeploy
      split
      · generalize v.txc = x at *; cases x; simp_all
      · rfl
    have k2 : ({ v.txc with deploy := .lowering } : Txc).condition = false := by simp [Txc.condition]
    rw [f]; simp only []; unfold Txc.judged; rw [k2]
    cases v.txc.condition
    · exact ⟨q3, q4, q5, q6, by show Deploy.lowering ≠ .deployed; decide⟩
    · exact ⟨rfl, rfl, q5, q6, by show Deploy.lowering ≠ .deployed; decide⟩
  obtain ⟨t1, t2, t3, t4, t5⟩ := tx
  exact ⟨⟨Or.inl rfl, q1, q2, e ▸ t1, e ▸ t2, e ▸ t3, e ▸ t4, e ▸ t5⟩, q7, q8, q9⟩

theorem stowEffects_does (s : State) (c : WalkCause) : ∃ h l, StowedWith c h l (beforeWalk s).sites s.dsq.parkIn s.dsq.stowIn (stowEffects s c) ∧
    LinkEnded s (stowEffects s c) := by
  obtain ⟨b1, b2, b3, b4⟩ := beforeWalk_does s
  have h0 : StowedWith c (beforeWalk s).sha (beforeWalk s).out.site (beforeWalk s).sites s.dsq.parkIn s.dsq.stowIn
      (raise ((beforeWalk s).withDsq { (beforeWalk s).dsq with walkCause := c, holdCause := .none }) (.deployLowering c)) := by
    generalize beforeWalk s = v at b1 b2 b3 b4
    refine steady_stowedWith.raise _ ?_
    exact ⟨⟨b1.dep, b1.ctx, b1.st, b1.txen, b1.pend, b1.latch, b1.mute, b1.tdep⟩, rfl, rfl, rfl, b3, b4, rfl⟩
  have : StowedWith c (beforeWalk s).sha (beforeWalk s).out.site (beforeWalk s).sites s.dsq.parkIn s.dsq.stowIn (stowEffects s c) := by
    unfold stowEffects
    simp only []
    generalize slotsToLower s = n
    generalize beforeWalk s = v at h0 ⊢
    generalize raise _ _ = u at h0 ⊢
    exact Quiet.ite (stowedWith_backwardEnd h0) (stowedWith_lowerFrom _ (Steady.axsChannels steady_stowedWith _ h0))
  refine ⟨_, _, this, ?_⟩
  obtain ⟨_, _, e1, e2, _, _, _⟩ := this
  unfold LinkEnded LinkEndedFields
  rw [e1, e2]; exact b2

/-! ## The rows of the Site Table -/

theorem sites_beforeWalk (s : State) : (beforeWalk s).sites = (acqEmptyStack (acqWalkAbort s)).sites := by
  unfold beforeWalk
  simp only []
  generalize acqEmptyStack (acqWalkAbort s) = x
  have e : (shaEnd (txcStow x)).sites = x.sites := by unfold shaEnd; split <;> rfl
  generalize shaEnd (txcStow x) = y at e
  have h := ((axsStopAll_does (axsTakeAll y .sequence allAxes)).1.sites).trans (onlyAxes_axsTakeAll y .sequence allAxes).1.sites
  generalize axsStopAll (axsTakeAll y .sequence allAxes) allAxes = z at h
  exact h.trans e

theorem sites_emptied : ∀ (l : List StackEntry) (u : State) (row : Nat),
    (l.foldl (fun s e => stbChange s e.row [.suspended] .loaded (some .stowed)) u).sites[row]? =
      (u.sites[row]?).map fun e =>
        if e.state = .suspended ∧ ∃ x ∈ l, x.row = row then e.change [.suspended] .loaded (some .stowed) else e := by
  intro l
  induction l with
  | nil => intro u row; simp
  | cons x l ih =>
    intro u row
    rw [List.foldl_cons, ih]
    show ((u.sites.modify x.row _)[row]?).map _ = _
    rw [List.getElem?_modify]
    cases hr : u.sites[row]? with
    | none => simp
    | some e =>
      simp only [Option.map_eq_map, Option.map_some, Option.some.injEq]
      by_cases hx : x.row = row
      · simp only [hx, if_true, List.mem_cons, exists_eq_or_imp, true_or, and_true]
        by_cases he : e.state = .suspended
        · simp [Entry.change, he]
        · simp [Entry.change, he]
      · simp [hx]

theorem sites_walkAbort (s : State) (row : Nat) : (acqWalkAbort s).sites[row]? =
    (s.sites[row]?).map fun e => match s.acq.ctx with
      | some c => if c.row = row then e.change runningStates .loaded (some .stowed) else e
      | none => e := by
  unfold acqWalkAbort
  cases s.acq.ctx with
  | none => simp
  | some c =>
    show (raise (stbChange s c.row runningStates .loaded (some .stowed)) _).sites[row]? = _
    rw [sites_raise]
    show (s.sites.modify c.row _)[row]? = _
    rw [List.getElem?_modify]
    cases s.sites[row]? <;> simp

/-- R78, R160, R170: the rows after the STOW effects. -/
theorem unloads_beforeWalk (s : State) (t : State) (h : t.sites = (beforeWalk s).sites) : s.unloads t := by
  intro row e he held
  have key : t.sites[row]? = some
      (let e1 := (match s.acq.ctx with
        | some c => if c.row = row then e.change runningStates .loaded (some .stowed) else e
        | none => e)
      if e1.state = .suspended ∧ ∃ x ∈ s.acq.stack, x.row = row then e1.change [.suspended] .loaded (some .stowed) else e1) := by
    have st : (acqWalkAbort s).acq.stack = s.acq.stack := by
      unfold acqWalkAbort
      cases s.acq.ctx with
      | none => rfl
      | some c =>
        show (raise (stbChange s c.row runningStates .loaded (some .stowed)) _).acq.stack = _
        rw [acq_raise]; rfl
    rw [h, sites_beforeWalk]
    show ((acqWalkAbort s).acq.stack.foldl _ (acqWalkAbort s)).sites[row]? = _
    rw [sites_emptied, sites_walkAbort, he, st]; rfl
  rw [key]
  have ch : ∀ froms, e.state ∈ froms → e.change froms .loaded (some .stowed) =
      { e with state := .loaded, learned := { e.learned with cause := .stowed } } := by
    intro froms hm; unfold Entry.change; rw [if_pos (by simpa using hm)]; rfl
  have nc : ∀ froms, e.state ∉ froms → e.change froms .loaded (some .stowed) = e := by
    intro froms hm; unfold Entry.change; rw [if_neg (by simpa using hm)]
  simp only []
  cases hc : s.acq.ctx with
  | none =>
    simp only []
    refine ⟨fun k => ?_, fun k => ?_⟩
    · have : e.state = .suspended ∧ ∃ x ∈ s.acq.stack, x.row = row := by
        rcases k with ⟨c, k, -⟩ | k
        · rw [hc] at k; cases k
        · exact k
      rw [if_pos this, ch _ (by simp [this.1])]
    · rw [if_neg (fun y => k (Or.inr y))]
  | some c =>
    simp only []
    by_cases hr : c.row = row
    · rw [if_pos hr]
      by_cases hs : e.state = .acquiring ∨ e.state = .tracked
      · have hm : e.state ∈ runningStates := by unfold runningStates; rcases hs with h | h <;> simp [h]
        rw [ch _ hm]
        exact ⟨fun _ => by rw [if_neg (by simp)], fun k => absurd (Or.inl ⟨c, hc, hr, hs⟩) k⟩
      · have hm : e.state ∉ runningStates := by unfold runningStates; simpa using hs
        rw [nc _ hm]
        refine ⟨fun k => ?_, fun k => ?_⟩
        · have : e.state = .suspended ∧ ∃ x ∈ s.acq.stack, x.row = row := by
            rcases k with ⟨_, _, _, k⟩ | k
            · exact absurd k hs
            · exact k
          rw [if_pos this, ch _ (by simp [this.1])]
        · rw [if_neg (fun y => k (Or.inr y))]
    · rw [if_neg hr]
      refine ⟨fun k => ?_, fun k => ?_⟩
      · have : e.state = .suspended ∧ ∃ x ∈ s.acq.stack, x.row = row := by
          rcases k with ⟨c', k, k2, _⟩ | k
          · rw [hc] at k; cases k; exact absurd k2 hr
          · exact k
        rw [if_pos this, ch _ (by simp [this.1])]
      · rw [if_neg (fun y => k (Or.inr y))]

/-! ## The axes taken and stopped -/

/-- R5, R11, R78, R84: every axis has been taken for SEQUENCE and each travelling one stopped. -/
structure SeqRest (s u : State) : Prop where
  still : ∀ a, (s.axis a).travelling = false → u.axis a = { s.axis a with owner := .sequence }
  moving : ∀ a, (s.axis a).motion = .moving → u.axis a =
    { s.axis a with
      owner := .sequence, motion := .idle, jogTarget := none, stopping := true, stopMoved := true, arrivalTimer := none }
  jogging : ∀ a, (s.axis a).motion = .jogging → (s.axis a).owner ≠ .sequence → u.axis a =
    { (s.axis a).setTarget (s.axis a).sel (s.axis a).jogTarget with
      owner := .sequence, motion := .idle, jogTarget := none, stopping := true, stopMoved := true, arrivalTimer := none }
  runs : ∀ a, (s.axis a).travelling = true ∨ (s.axis a).owner ≠ .sequence → u.jog a = none
  rest : ∀ a, (u.axis a).owner = .sequence ∧ (u.axis a).travelling = false
  drive : u.out.drive = s.out.drive ++ ([Axis.mast, .pan, .tilt, .pol].filter fun a => (s.axis a).travelling).map DriveFrame.stop

theorem jog_axsTake (s : State) (o : Owner) (a b : Axis) :
    (axsTake s o a).jog b = if a = b ∧ (s.axis a).owner ≠ o then none else s.jog b := by
  unfold axsTake
  split
  · rename_i h; rw [if_neg (fun x => x.2 h)]
  · rename_i h
    show (s.mgt.set a none).get b = _
    rw [Mgt.get_set]
    by_cases e : b = a
    · subst e; simp [h]
    · rw [if_neg e, if_neg (fun x => e x.1.symm)]; rfl

theorem jog_axsStopTravelling (s : State) (a b : Axis) :
    (axsStopTravelling s a).jog b = if a = b ∧ (s.axis a).travelling = true then none else s.jog b := by
  unfold axsStopTravelling
  split
  · rename_i h
    have : (axsStop s a).mgt = s.mgt.set a none := by
      unfold AxisRec.travelling at h
      unfold axsStop
      cases hm : (s.axis a).motion <;> rw [hm] at h <;> first | rfl | cases h
    unfold State.jog
    rw [this, Mgt.get_set]
    by_cases e : b = a
    · subst e; simp [h]
    · rw [if_neg e, if_neg (fun x => e x.1.symm)]
  · rename_i h; rw [if_neg (fun x => h x.2)]

theorem seqRest_stopAll (s : State) : SeqRest s (axsStopAll (axsTakeAll s .sequence allAxes) allAxes) := by
  have t1 := axis_axsTakeAll s .sequence
  have t2 := (onlyAxes_axsTakeAll s .sequence allAxes).2
  have t3 := owner_axsTakeAll s .sequence
  have t4 : ∀ b, (axsTakeAll s .sequence allAxes).jog b = if (s.axis b).owner = .sequence then s.jog b else none := by
    intro b
    show (axsTake (axsTake (axsTake (axsTake s .sequence .mast) .sequence .pan) .sequence .tilt) .sequence .pol).jog b = _
    simp only [jog_axsTake, axis_axsTake]
    cases b <;> simp <;> split <;> simp_all
  generalize axsTakeAll s .sequence allAxes = v at t1 t2 t3 t4
  obtain ⟨p1, p2, p3⟩ := axsStopAll_does v
  have p4 : ∀ b, (axsStopAll v allAxes).jog b = if (v.axis b).travelling = true then none else v.jog b := by
    intro b
    show (axsStopTravelling (axsStopTravelling (axsStopTravelling (axsStopTravelling v .mast) .pan) .tilt) .pol).jog b = _
    simp only [jog_axsStopTravelling, axis_axsStopTravelling]
    cases b <;> simp
  generalize axsStopAll v allAxes = w at p1 p2 p3 p4
  have tv : ∀ a, (v.axis a).travelling = (s.axis a).travelling := by
    intro a; rw [t1]; split
    · rfl
    · exact AxisRec.travelling_taken _ _
  refine ⟨fun a h => ?_, fun a h => ?_, fun a h ho => ?_, fun a h => ?_, fun a => ?_, ?_⟩
  · rw [p2, tv, h]; simp only [Bool.false_eq_true, if_false]; rw [t1]
    split
    · rename_i e; rw [← e]
    · unfold AxisRec.taken; rw [if_neg (by intro k; unfold AxisRec.travelling at h; rw [k] at h; cases h)]
  · have htr : (s.axis a).travelling = true := by unfold AxisRec.travelling; rw [h]; rfl
    rw [p2, tv, htr, if_pos rfl, t1]
    split
    · rename_i e; unfold AxisRec.stopped; rw [h, ← e]; rfl
    · unfold AxisRec.taken; rw [if_neg (by rw [h]; decide)]; unfold AxisRec.stopped; rw [h]; rfl
  · have htr : (s.axis a).travelling = true := by unfold AxisRec.travelling; rw [h]; rfl
    rw [p2, tv, htr, if_pos rfl, t1, if_neg ho]
    unfold AxisRec.taken; rw [if_pos h]; rfl
  · rw [p4, tv, t4]
    rcases h with h | h
    · rw [if_pos h]
    · rw [if_neg h]; simp
  · rw [p2]; split
    · exact ⟨t3 a, rfl⟩
    · rename_i hh; exact ⟨t3 a, by simpa using hh⟩
  · rw [p3, t2]; simp only [tv]; rfl

theorem axsTakeAll_owned (s : State) (o : Owner) (h : ∀ a, (s.axis a).owner = o) (l : List Axis) : axsTakeAll s o l = s := by
  induction l with
  | nil => rfl
  | cons a l ih =>
    show axsTakeAll (axsTake s o a) o l = s
    have : axsTake s o a = s := by unfold axsTake; rw [if_pos (h a)]
    rw [this]; exact ih

theorem axsStopAll_still (s : State) (h : ∀ a, (s.axis a).travelling = false) (l : List Axis) : axsStopAll s l = s := by
  induction l with
  | nil => rfl
  | cons a l ih =>
    show axsStopAll (axsStopTravelling s a) l = s
    have : axsStopTravelling s a = s := by unfold axsStopTravelling; rw [h]; rfl
    rw [this]; exact ih

/-- The state `u` is `s`, or `s` with its axes taken and stopped, as far as the STOW effects read it. -/
structure StowFrom (s u : State) : Prop where
  acq : u.acq = s.acq
  sites : u.sites = s.sites
  sha : u.sha = s.sha
  site : u.out.site = s.out.site
  channels : u.axs.channels = s.axs.channels
  zones : u.zones = s.zones
  wsm : u.wsm = s.wsm
  dsq : ({ u.dsq with deploy := .lowering, slot := none, slotTimer := none, holdCause := .none } : Dsq) =
    { s.dsq with deploy := .lowering, slot := none, slotTimer := none, holdCause := .none }
  start : ∀ n, s.walksBackFrom n → slotsToLower u = n
  axes : ∀ x : State, x.axs = u.axs → x.mgt = u.mgt → x.out.drive = u.out.drive →
    SeqRest s (axsStopAll (axsTakeAll x .sequence allAxes) allAxes)

theorem last_of_tableLength : ∀ l : List Slot, tableLength l ≠ 0 →
    ∃ sl, l[tableLength l - 1]? = some sl ∧ sl.deploy.kind ≠ .none := by
  intro l
  induction l with
  | nil => intro h; exact absurd rfl h
  | cons a l ih =>
    intro h
    unfold tableLength at h ⊢
    cases e : tableLength l with
    | zero =>
      rw [e] at h
      simp only [] at h ⊢
      split at h
      · exact absurd rfl h
      · rename_i k; rw [if_neg k]; exact ⟨a, rfl, k⟩
    | succ m =>
      obtain ⟨sl, h1, h2⟩ := ih (by omega)
      rw [e] at h1
      exact ⟨sl, by simpa using h1, h2⟩

theorem slotsToLower_eq {s : State} {n : Nat} (h : s.walksBackFrom n) : slotsToLower s = n := by
  obtain ⟨h1, h2⟩ := h
  unfold slotsToLower
  split
  · rename_i hd
    rw [h1 hd]
    by_cases e : n = 0
    · rw [if_pos e, e]
    · rw [if_neg e]; show n - 1 + 1 = n; omega
  · rename_i hd
    obtain ⟨h3, h4⟩ := h2 hd
    rcases Nat.lt_trichotomy (tableLength s.dsq.slots) n with e | e | e
    · obtain ⟨sl, k1, k2⟩ := h4 (by omega)
      have := lt_tableLength _ _ _ k1 k2
      omega
    · exact e
    · obtain ⟨sl, k1, k2⟩ := last_of_tableLength s.dsq.slots (by omega)
      exact absurd (h3 _ _ (by omega) k1) k2

theorem SeqRest.congr {s x u : State} (h : SeqRest x u) (ha : x.axs = s.axs) (hd : x.out.drive = s.out.drive) : SeqRest s u := by
  have e : ∀ a, x.axis a = s.axis a := fun a => by unfold State.axis; rw [ha]
  obtain ⟨h1, h2, h3, h4, h5, h6⟩ := h
  simp only [e, hd] at h1 h2 h3 h4 h6
  exact ⟨h1, h2, h3, h4, h5, h6⟩

theorem stowFrom_self (s : State) : StowFrom s s where
  acq := rfl
  sites := rfl
  sha := rfl
  site := rfl
  channels := rfl
  zones := rfl
  wsm := rfl
  dsq := rfl
  start _ h := slotsToLower_eq h
  axes x h1 _ h3 := (seqRest_stopAll x).congr h1 h3

/-- R81: in HELD, entered from UNKNOWN. -/
theorem stowFrom_heldEntry (s : State) (cause : HoldCause) (h : s.dsq.deploy = .unknown) : StowFrom s (heldEntry s cause) := by
  have ab : abortIfPointing (s.withDsq { s.dsq with holdCause := cause, slotTimer := none, slot := none }) =
      s.withDsq { s.dsq with holdCause := cause, slotTimer := none, slot := none } := by
    unfold abortIfPointing
    rw [show (s.withDsq { s.dsq with holdCause := cause, slotTimer := none, slot := none }).dsq.deploy = .unknown from h]
  unfold heldEntry; rw [if_neg (by rw [h]; decide)]; simp only []; rw [ab]
  have R := (seqRest_stopAll (s.withDsq { s.dsq with holdCause := cause, slotTimer := none, slot := none })).congr (s := s) rfl rfl
  have T := (onlyAxes_axsTakeAll (s.withDsq { s.dsq with holdCause := cause, slotTimer := none, slot := none }) .sequence allAxes).1.trans
    (axsStopAll_does _).1
  generalize axsStopAll (axsTakeAll (s.withDsq { s.dsq with holdCause := cause, slotTimer := none, slot := none }) .sequence allAxes) allAxes = v at R T
  have vd : v.dsq = { s.dsq with holdCause := cause, slotTimer := none, slot := none } := T.dsq
  have ud : (raise (setDeploy v .held) (.deployHeld cause)).dsq = { s.dsq with deploy := .held, holdCause := cause, slotTimer := none, slot := none } := by
    rw [dsq_raise]; show ({ v.dsq with deploy := Deploy.held } : Dsq) = _; rw [vd]
  refine ⟨(acq_raise _ _).trans T.acq, (sites_raise _ _).trans T.sites, (sha_raise _ _).trans T.sha, ?_, ?_,
    (zones_raise _ _).trans T.zones, (wsm_raise _ _).trans T.wsm, by rw [ud], fun n hn => ?_, fun x h1 h2 h3 => ?_⟩
  · rw [out_raise]; exact T.site
  · rw [axs_raise]; exact T.channels
  · have : slotsToLower (raise (setDeploy v .held) (.deployHeld cause)) = slotsToLower s := by
      unfold slotsToLower; rw [ud, h]; rfl
    rw [this]; exact slotsToLower_eq hn
  · have xa : ∀ a, x.axis a = v.axis a := fun a => by unfold State.axis; rw [h1, axs_raise]; rfl
    rw [axsTakeAll_owned x _ (fun a => by rw [xa]; exact (R.rest a).1), axsStopAll_still x (fun a => by rw [xa]; exact (R.rest a).2)]
    have xj : ∀ a, x.jog a = v.jog a := fun a => by unfold State.jog; rw [h2, mgt_raise]; rfl
    have xd : x.out.drive = v.out.drive := by rw [h3, out_raise]; rfl
    exact ⟨fun a k => (xa a).trans (R.still a k), fun a k => (xa a).trans (R.moving a k), fun a k l => (xa a).trans (R.jogging a k l),
      fun a k => (xj a).trans (R.runs a k), fun a => by rw [xa]; exact R.rest a, xd.trans R.drive⟩

/-! ## The start of the backward walk -/

/-- R78: the axes, the deploy state and what else the backward walk starts from. -/
theorem beforeWalk_from {s u : State} (F : StowFrom s u) : SeqRest s (beforeWalk u) ∧
    (beforeWalk u).dsq = { u.dsq with deploy := .lowering, slotTimer := none } ∧
    (beforeWalk u).axs.channels = u.axs.channels ∧ (beforeWalk u).zones = u.zones ∧ (beforeWalk u).wsm = u.wsm ∧
    (∀ c, u.acq.ctx = some c → ((beforeWalk u).ntu.get .search).latest = some (.searchStowed c.row)) := by
  have W : (acqWalkAbort u).axs = u.axs ∧ (acqWalkAbort u).mgt = u.mgt ∧ (acqWalkAbort u).out = u.out ∧ (acqWalkAbort u).dsq = u.dsq ∧
      (acqWalkAbort u).zones = u.zones ∧ (acqWalkAbort u).wsm = u.wsm ∧
      (∀ c, u.acq.ctx = some c → ((acqWalkAbort u).ntu.get .search).latest = some (.searchStowed c.row)) := by
    unfold acqWalkAbort
    cases hc : u.acq.ctx with
    | none => exact ⟨rfl, rfl, rfl, rfl, rfl, rfl, fun c h => by cases h⟩
    | some c =>
      obtain ⟨a1, a2, a3, a4, a5, a6, a7, a8, a9, a10⟩ := raise_elsewhere (stbChange u c.row runningStates .loaded (some .stowed)) (.searchStowed c.row)
      have rl := latest_raise (stbChange u c.row runningStates .loaded (some .stowed)) (.searchStowed c.row)
      simp only []
      generalize raise (stbChange u c.row runningStates .loaded (some .stowed)) (.searchStowed c.row) = x at *
      exact ⟨a8, a10, a9, a2, a7, a6, fun c' h => by cases h; exact rl⟩
  have E : ∀ (l : List StackEntry) (x : State),
      let y := l.foldl (fun s e => stbChange s e.row [.suspended] .loaded (some .stowed)) x
      y.axs = x.axs ∧ y.mgt = x.mgt ∧ y.out = x.out ∧ y.dsq = x.dsq ∧ y.zones = x.zones ∧ y.wsm = x.wsm ∧ y.ntu = x.ntu := by
    intro l
    induction l with
    | nil => intro x; exact ⟨rfl, rfl, rfl, rfl, rfl, rfl, rfl⟩
    | cons e l ih => intro x; exact ih _
  have X : ∃ x, shaEnd (txcStow (acqEmptyStack (acqWalkAbort u))) = x ∧ x.axs = u.axs ∧ x.mgt = u.mgt ∧ x.out.drive = u.out.drive ∧
      x.dsq = u.dsq ∧ x.zones = u.zones ∧ x.wsm = u.wsm ∧
      (∀ c, u.acq.ctx = some c → (x.ntu.get .search).latest = some (.searchStowed c.row)) := by
    refine ⟨_, rfl, ?_⟩
    obtain ⟨w1, w2, w3, w4, w5, w6, w7⟩ := W
    obtain ⟨e1, e2, e3, e4, e5, e6, e7⟩ := E (acqWalkAbort u).acq.stack (acqWalkAbort u)
    unfold acqEmptyStack
    generalize (acqWalkAbort u).acq.stack.foldl _ (acqWalkAbort u) = y at *
    unfold shaEnd
    split
    · exact ⟨e1.trans w1, e2.trans w2, congrArg Out.drive (e3.trans w3), e4.trans w4, e5.trans w5, e6.trans w6, fun c h => by
        show (y.ntu.get .search).latest = _; rw [e7]; exact w7 c h⟩
    · exact ⟨e1.trans w1, e2.trans w2, (by show y.out.drive = u.out.drive; exact congrArg Out.drive (e3.trans w3)), e4.trans w4, e5.trans w5, e6.trans w6, fun c h => by
        show (y.ntu.get .search).latest = _; rw [e7]; exact w7 c h⟩
  obtain ⟨x, hx, x1, x2, x3, x4, x5, x6, x7⟩ := X
  unfold beforeWalk; rw [hx]; simp only []
  have R := F.axes x x1 x2 x3
  have T := (onlyAxes_axsTakeAll x .sequence allAxes).1.trans (axsStopAll_does _).1
  generalize axsStopAll (axsTakeAll x .sequence allAxes) allAxes = v at R T
  refine ⟨⟨R.still, R.moving, R.jogging, R.runs, R.rest, R.drive⟩, ?_, T.channels.trans (by rw [x1]), T.zones.trans x5,
    T.wsm.trans x6, fun c h => ?_⟩
  · show ({ v.dsq with slotTimer := none, deploy := Deploy.lowering } : Dsq) = _; rw [T.dsq, x4]
  · show (v.ntu.get .search).latest = _; rw [T.ntu]; exact x7 c h

theorem AxisRec.switched_full (r : AxisRec) (old : ChanState) (h : r.travelling = false) (ho : old ≠ .full) :
    r.switched .full = r.opened old := by
  unfold AxisRec.switched AxisRec.opened
  unfold AxisRec.travelling at h
  obtain ⟨m⟩ := r
  cases m <;> simp_all

/-- R74, R77, R79: the start of the backward walk, as the statements say it. -/
theorem lowers_stowEffects {s u : State} (F : StowFrom s u) (c : WalkCause) (n : Nat) (hn : s.walksBackFrom n) :
    ∃ w, s.lowers c n w ∧ stowEffects u c = lowerFrom n w := by
  obtain ⟨R, bd, bc, bz, bw, bn⟩ := beforeWalk_from F
  unfold stowEffects; simp only []; rw [F.start n hn]
  generalize beforeWalk u = v at R bd bc bz bw bn
  have q1 : ∃ x, x = raise (v.withDsq { v.dsq with walkCause := c, holdCause := .none }) (.deployLowering c) ∧
      x.dsq = { u.dsq with deploy := .lowering, slotTimer := none, walkCause := c, holdCause := .none } ∧ x.axs = v.axs ∧ x.mgt = v.mgt ∧
      x.out = v.out ∧ (x.ntu.get .deploy).latest = some (.deployLowering c) ∧
      (∀ k, u.acq.ctx = some k → (x.ntu.get .search).latest = some (.searchStowed k.row)) ∧ x.zones = s.zones ∧ x.wsm = s.wsm := by
    refine ⟨_, rfl, ?_, axs_raise _ _, mgt_raise _ _, out_raise _ _, latest_raise _ (.deployLowering c), fun k h => ?_,
      (zones_raise _ _).trans (bz.trans F.zones), (wsm_raise _ _).trans (bw.trans F.wsm)⟩
    · rw [dsq_raise]; show ({ v.dsq with walkCause := c, holdCause := .none } : Dsq) = _; rw [bd]
    · rw [notices_raise_other _ _ _ (show NoticeClass.search ≠ .deploy by decide)]; exact bn k h
  obtain ⟨x, hx, x1, x2, x3, x4, x5, x6, x7, x8⟩ := q1
  rw [← hx]
  have xa : ∀ a, x.axis a = v.axis a := fun a => by unfold State.axis; rw [x2]
  have xj : ∀ a, x.jog a = v.jog a := fun a => by unfold State.jog; rw [x3]
  have xc : ∀ d, x.chan d = s.chan d := fun d => by unfold State.chan; rw [x2, bc, F.channels]
  have dq : ({ x.dsq with slot := none } : Dsq) =
      { s.dsq with deploy := .lowering, slot := none, slotTimer := none, walkCause := c, holdCause := .none } := by
    rw [x1]
    exact congrArg (fun d : Dsq => ({ d with walkCause := c } : Dsq)) F.dsq
  by_cases h0 : n = 0
  · subst h0
    refine ⟨x, ⟨dq, fun a => ⟨fun k => ?_, fun k => ?_, fun k l => ?_, fun k => ?_⟩, fun d => ?_, ?_, x5, fun k hk => x6 k (by rw [F.acq]; exact hk), x7, x8⟩, by simp [lowerFrom]⟩
    · rw [xa, if_pos rfl]; exact R.still a k
    · rw [xa]; exact R.moving a k
    · rw [xa]; exact R.jogging a k l
    · rw [xj]; exact R.runs a k
    · rw [if_pos rfl]; exact xc d
    · rw [x4, R.drive]; simp
  · rw [if_neg h0]
    have ri : ∀ b, (x.axis b).travelling = false := fun b => by rw [xa]; exact (R.rest b).2
    have A := axsChannels_at_rest x (fun s c => if s.chan c = .full then none else some .full) (fun _ _ c _ h => by simp only [h]) ri
    have CH := chan_axsChannels x (fun s c => if s.chan c = .full then none else some .full) (fun _ _ c _ h => by simp only [h])
    refine ⟨channelsToFull x, ?_, rfl⟩
    unfold channelsToFull
    generalize axsChannels x (fun s c => if s.chan c = .full then none else some .full) = y at A CH
    obtain ⟨a1, a2, a3, a4⟩ := A
    have yd : y.dsq = x.dsq := a4.2 .dsq (by decide)
    have yn : y.ntu = x.ntu := a4.2 .ntu (by decide)
    have yz : y.zones = x.zones := a4.2 .zones (by decide)
    have yw : y.wsm = x.wsm := a4.2 .wsm (by decide)
    have ym : y.mgt = x.mgt := a3 (fun d st h => by
      split at h
      · cases h
      · cases h; rfl)
    have ya : ∀ a, y.axis a = (x.axis a).opened (s.chan (moveChannel a)) := by
      intro a
      rw [a1]
      simp only [xc]
      by_cases hf : s.chan (moveChannel a) = .full
      · simp [hf, AxisRec.opened]
      · simp only [hf, if_false]
        rw [AxisRec.onChannel_eq_switched _ _ _ _ (ri a), if_pos (by simpa using hf)]
        exact AxisRec.switched_full _ _ (ri a) hf
    have op : ∀ (r : AxisRec) ch, r.motion = .idle → r.opened ch = r := by
      intro r ch h; unfold AxisRec.opened; rw [if_neg (by rw [h]; simp)]
    refine ⟨by rw [yd]; exact dq, fun a => ⟨fun k => ?_, fun k => ?_, fun k l => ?_, fun k => ?_⟩, fun d => ?_, ?_, by rw [yn]; exact x5,
      fun k hk => by rw [yn]; exact x6 k (by rw [F.acq]; exact hk), yz.trans x7, yw.trans x8⟩
    · rw [ya, xa, R.still a k, if_neg h0]
      unfold AxisRec.opened; split <;> rfl
    · rw [ya, xa, R.moving a k]; exact op _ _ rfl
    · rw [ya, xa, R.jogging a k l]; exact op _ _ rfl
    · unfold State.jog; rw [ym]; exact (xj a).trans (R.runs a k)
    · rw [CH, if_neg h0, xc]; split
      · assumption
      · rfl
    · rw [a2, x4, R.drive, if_neg h0]
      congr 1
      unfold allChannels
      simp only [xc]
      generalize s.chan = f
      simp only [List.filterMap_cons, List.filterMap_nil, List.filter_cons, List.filter_nil]
      cases f .lift <;> cases f .lock <;> cases f .pan <;> cases f .tilt <;> cases f .pol <;> rfl

/-- R77 to R79: the STOW effects, as the statements say them. -/
theorem stows_stowEffects {s u : State} (F : StowFrom s u) (c : WalkCause) :
    s.stows c (stowEffects u c) ∧ (stowEffects u c).dsq.parkIn = u.dsq.parkIn ∧ (stowEffects u c).dsq.stowIn = u.dsq.stowIn := by
  obtain ⟨h, l, q, o⟩ := stowEffects_does u c
  obtain ⟨a, w, _, _, p1, p2, si⟩ := q
  unfold LinkEnded LinkEndedFields at o
  rw [F.sha, F.site] at o
  have un : s.unloads (stowEffects u c) := by
    have := unloads_beforeWalk u (stowEffects u c) si
    unfold State.unloads at this ⊢
    rw [F.sites, F.acq] at this
    exact this
  refine ⟨⟨w, a.dep, a.ctx, a.st, un, a.txen, a.pend, a.latch, a.mute, o.1, o.2.1, o.2.2, fun n hn => ?_⟩, p1, p2⟩
  obtain ⟨x, hx, hl⟩ := lowers_stowEffects F c n hn
  have hd : x.dsq.deploy = .lowering := congrArg Dsq.deploy hx.1
  exact ⟨x, _, hx, lowersOver_lowerFrom x n hd, hl ▸ sameBut.refl _ _⟩

/-- A state that differs in the NTU and LNU alone after the STOW effects. -/
theorem State.stows.after {s t v : State} {c : WalkCause} (h : s.stows c t) (e : sameBut [.ntu, .lnu] t v) : s.stows c v := by
  obtain ⟨h1, h2, h3, h4, h5, h6, h7, h8, h9, h10, h11, h12, h13⟩ := h
  have ed : v.dsq = t.dsq := e.2 .dsq (by decide)
  have ea : v.acq = t.acq := e.2 .acq (by decide)
  have es : v.sites = t.sites := e.2 .sites (by decide)
  have ex : v.txc = t.txc := e.2 .txc (by decide)
  have eh : v.sha = t.sha := e.2 .sha (by decide)
  have eo : v.out.site = t.out.site := e.2 .site (by decide)
  unfold State.stows State.unloads
  rw [ed, ea, es, ex, eh, eo]
  refine ⟨h1, h2, h3, h4, h5, h6, h7, h8, h9, h10, h11, h12, fun n hn => ?_⟩
  obtain ⟨x, y, k1, k2, k3⟩ := h13 n hn
  exact ⟨x, y, k1, k2, k3.trans e⟩

/-! ## First reports -/

/-- R68, R80, R81: what DSQ does with a report taken in UNKNOWN, as the statements say it. -/
theorem firstReport_dsqReport {s : State} (a : Axis) (hd : s.dsq.deploy = .unknown) (hx : s.txc.deploy = .unknown) :
    s.firstReport a (dsqReport s a) := by
  unfold State.firstReport
  intro first all u halted
  have hu : u.dsq.deploy = .unknown := hd
  have dr : dsqReport s a = if all then judgeFirst u else u := by
    have : s.dsq.record a = first := by cases a <;> simp [Dsq.record, first]
    unfold dsqReport; rw [if_pos hd]; simp only []
    rw [show s.withDsq (s.dsq.record a) = u by rw [this]; rfl]; rfl
  rw [dr]
  have hal : ([Axis.mast, .pan, .tilt].all fun a => (u.axis a).motion ≠ .halted) = decide (¬ halted) := by
    rw [Bool.eq_iff_iff, List.all_eq_true, decide_eq_true_eq]
    simp only [decide_eq_true_eq]
    exact ⟨fun h ⟨b, x, y⟩ => h b x y, fun h b x y => h ⟨b, x, y⟩⟩
  refine ⟨fun h => by rw [h]; exact if_neg (by decide), fun h h1 h2 => ?_, fun h h1 => ?_⟩
  · rw [h, if_pos rfl]
    unfold judgeFirst; rw [h1, hal, if_pos (by simpa using h2)]
    have e : u.txc.judged (u.txc.handDeploy .stowed) = { s.txc with deploy := .stowed } := by
      show s.txc.judged (s.txc.handDeploy .stowed) = _
      unfold Txc.handDeploy; rw [if_neg (by simp [hx])]
      unfold Txc.judged
      rw [show s.txc.condition = false by simp [Txc.condition, hx],
        show ({ s.txc with deploy := .stowed } : Txc).condition = false by simp [Txc.condition]]
    show ({ u with dsq := _, txc := u.txc.judged (u.txc.handDeploy .stowed) } : State) = _
    rw [e]; rfl
  · rw [h, if_pos rfl]
    have c : ¬ ((stowTest u && [Axis.mast, .pan, .tilt].all fun a => (u.axis a).motion ≠ .halted) = true) := by
      rw [hal]; rcases h1 with h1 | h1 <;> simp [h1]
    unfold judgeFirst; rw [if_neg c]
    have H := holds_heldEntry u .unsure (by rw [hu]; decide)
    have F := stowFrom_heldEntry u .unsure hu
    have e1 : (heldEntry u .unsure).dsq.stowIn = s.dsq.stowIn := by rw [H.1]
    have e2 : (heldEntry u .unsure).dsq.parkIn = s.dsq.parkIn := by rw [H.1]
    have e3 : (heldEntry u .unsure).dsq.deploy = .held := by rw [H.1]
    have up : ∀ c, stowIfUp (heldEntry u .unsure) c = stowEffects (heldEntry u .unsure) c := by
      intro c; unfold stowIfUp; rw [e3]; rfl
    simp only [e1, e2, up]
    refine ⟨fun h => ?_, fun h h' => ?_, fun h h' => ?_⟩
    · rw [h, if_pos rfl]; exact (stows_stowEffects F .button).1
    · rw [h, h', if_neg (by decide), if_pos (by decide)]; exact (stows_stowEffects F .interlock).1
    · rw [h, h', if_neg (by decide), if_neg (by decide)]; exact H

end Sys2Proof.Machine
end

