-- ==== Sys2Proof/Laws/Hold.lean ====
section
/-! SUPPORT. What a push does to the axes, the wind value and the row in force, and what an entry to HOLD and a re-judgement do. -/

namespace Sys2Proof.Machine

/-- R163, R164: what a push does to the axes. -/
theorem acqPush_axes {s : State} {c : Ctx} (h : s.acq.ctx = some c) (cause lo) :
   (∀ b, (acqPush s cause lo).axis b = if b = .mast then s.axis b else { (stopSearch s lo).axis b with owner := .none }) ∧
   (acqPush s cause lo).out.drive = (stopSearch s lo).out.drive ∧ (∀ b, (acqPush s cause lo).jog b = (stopSearch s lo).jog b) ∧
   ((acqPush s cause lo).txc.tracked = false) := by
  obtain ⟨s1, h1, h2⟩ := acqPush_running h cause lo
  obtain ⟨r1, r2, r3, r4, r5, r6, r7, r8, r9, r10, e', r11⟩ := makeRoom_does (stopSearch s lo)
  rw [← h1] at r1 r2 r3 r5 r6 r7 r8 r9 r10 r11
  rw [h2]
  generalize hv : stbChange (setStack s1 (stackEntryOf s c cause :: s1.acq.stack)) c.row runningStates .suspended (some (pushCause cause)) = v
  obtain ⟨a1, a2, a3, a4, a5, a6, a7, a8, a9, a10⟩ := raise_elsewhere (endCtx (txcTracked (releaseSearch v) false)) (.resumeSuspended c.row cause)
  have vx : v.axs = (stopSearch s lo).axs := by rw [← hv]; exact r5
  have vo : v.out = (stopSearch s lo).out := by rw [← hv]; exact r9
  have vm : v.mgt = (stopSearch s lo).mgt := by rw [← hv]; exact r10
  have sm := (stopSearch_does s lo).1 .mast
  refine ⟨fun b => ?_, ?_, fun b => ?_, ?_⟩
  · unfold State.axis; rw [a8]
    show (releaseSearch v).axs.get b = _
    have : (releaseSearch v).axis b = if b = .mast then v.axis b else { v.axis b with owner := .none } := by cases b <;> rfl
    show (releaseSearch v).axis b = _
    rw [this]
    have e : v.axis b = (stopSearch s lo).axis b := by unfold State.axis; rw [vx]
    rw [e]; split
    · rename_i hb; subst hb; rw [sm]; simp; rfl
    · rfl
  · rw [a9]; show v.out.drive = _; rw [vo]
  · unfold State.jog; rw [a10]; show v.mgt.get b = _; rw [vm]
  · rw [a3]; show (Txc.judged _ (Txc.handTracked _ false)).tracked = false
    rw [(judged_keeps _ _).2.2.2.2.2]; rfl

/-- R46, R55: what an override of an axis of SEARCH does. -/
theorem overrideSearch_does {s : State} {c : Ctx} (a : Axis) (h : s.acq.ctx = some c) (ho : (s.axis a).owner = .search) :
   (overrideTake s a).suspended c .override ∧ (∀ b : Axis, b ≠ .mast → b ≠ a → ((overrideTake s a).axis b).owner = .none ∧ ((overrideTake s a).axis b).motion ≠ .moving) ∧
   ((overrideTake s a).axis a).owner = .console ∧ (overrideTake s a).jog a = none ∧
   (overrideTake s a).out.drive = s.out.drive ++ (([Axis.pan, .tilt, .pol].filter fun b => b ≠ a ∧ (s.axis b).motion = .moving).map DriveFrame.stop) ∧
   (overrideTake s a).axis a = (s.axis a).taken .console ∧ (overrideTake s a).axs.channels = s.axs.channels ∧ (overrideTake s a).dsq = s.dsq ∧ (overrideTake s a).wsm = s.wsm ∧ (overrideTake s a).zones = s.zones := by
  obtain ⟨p1, p2, p3, p4⟩ := acqPush_axes h .override (some a)
  obtain ⟨q1, q2, q3⟩ := stopSearch_does s (some a)
  have P := pushed_acqPush h .override (some a)
  unfold overrideTake
  generalize acqPush s .override (some a) = u at p1 p2 p3 p4 P
  have ua : (u.axis a).owner ≠ .console := by
    rw [p1]; split
    · rw [ho]; decide
    · simp
  have ut : (u.axis a).taken .console = (s.axis a).taken .console := by
    rw [p1]; split
    · rfl
    · rw [q1, if_neg (by simp)]; exact AxisRec.taken_of_owner _ _ _
  have e : axsTake u .console a = closeRun (u.setAxis a ((u.axis a).taken .console)) a := by unfold axsTake; rw [if_neg ua]
  rw [e, ut]
  obtain ⟨rest, hr, _⟩ := P.stack
  refine ⟨⟨P.ctx, ⟨_, rest, hr, ?_, ?_⟩, p4⟩, fun b h1 h2 => ?_, ?_, ?_, ?_, ?_, ?_, P.dsq, P.wsm, P.zones⟩
  · unfold stackEntryOf; cases c.phase <;> rfl
  · unfold stackEntryOf; cases c.phase <;> rfl
  · show ((u.setAxis a _).axis b).owner = _ ∧ ((u.setAxis a _).axis b).motion ≠ _
    rw [State.axis_setAxis_ne _ _ h2, p1, if_neg h1]
    refine ⟨rfl, ?_⟩
    show ((stopSearch s (some a)).axis b).motion ≠ _
    rw [q1]; split
    · unfold AxisRec.stopped; simp
    · rename_i hh; intro hm; exact hh ⟨h1, hm, by simpa using fun x => h2 x.symm⟩
  · show ((u.setAxis a _).axis a).owner = _; rw [State.axis_setAxis_self]; exact AxisRec.owner_taken _ _
  · show (u.mgt.set a none).get a = none; cases a <;> rfl
  · show u.out.drive = _
    rw [p2, q2]; congr 3; funext b; simp [eq_comm]
  · show (u.setAxis a _).axis a = _; rw [State.axis_setAxis_self]
  · show (u.axs.set a _).channels = _; rw [Axs.channels_set_axis]; exact P.channels

/-- R96: when the wind calls for the stow. -/
theorem windStows_iff (s : State) : windStows s = true ↔ s.windCallsStow := by
  have hc : stowCondition s = true ↔ ((∃ g, s.wsm.gustValue = some g ∧ s.wsm.stowWind ≤ g) ∨ ∃ row, s.wsm.caps = some row ∧ row.heightCap < s.dsq.minHeight) := by
    unfold stowCondition
    simp [Option.any_eq_true]
  have ha : ∀ h : Option Int, h.any (aboveCap s.wsm) = true ↔ ∃ x row, h = some x ∧ s.wsm.caps = some row ∧ row.heightCap < x := by
    intro h
    cases h with
    | none => simp
    | some x => unfold aboveCap; simp [Option.any_eq_true]
  unfold windStows State.windCallsStow
  cases s.dsq.deploy <;> simp only [hc, ha, Bool.or_eq_true, Bool.and_eq_true, decide_eq_true_eq, Bool.false_eq_true]

theorem loweringCap_iff (s : State) (cap) (hm : (s.axis .mast).owner ≠ .sequence) : loweringCap s = some cap ↔ s.lowersTo cap := by
  unfold loweringCap State.lowersTo
  split
  · rename_i row h e1 e2
    rw [e1, e2]
    constructor
    · intro h1; split at h1
      · injection h1 with h1; subst h1; exact ⟨hm, row, h, rfl, rfl, rfl, by assumption⟩
      · cases h1
    · rintro ⟨_, r, h', e3, e4, e5, e6⟩
      injection e3 with e3; injection e5 with e5; subst e3 e5 e4
      rw [if_pos e6]
  · rename_i hn
    constructor
    · intro h; cases h
    · rintro ⟨_, r, h', e3, e4, e5, e6⟩; exact absurd e5 (hn _ _ e3)

theorem loweringUnderWay_iff (s : State) (cap) : loweringUnderWay s cap = true ↔ s.loweringTo cap := by
  unfold loweringUnderWay State.loweringTo
  simp [Option.any_eq_true, and_assoc]

theorem mastMovable_iff (s : State) : mastMovable s = true ↔ s.mastFree := by
  unfold mastMovable State.mastFree channelsFull
  simp [and_assoc, moveChannel, State.chan]
  intros; exact Iff.and decide_eq_true_iff (Iff.and decide_eq_true_iff Iff.rfl)

theorem axsTake_wind (s : State) (a : Axis) : (axsTake s .wind a).axis a = (if (s.axis a).owner = .wind then s.axis a else (s.axis a).taken .wind) ∧ (∀ b, b ≠ a → (axsTake s .wind a).axis b = s.axis b) ∧
   (∀ b, b ≠ a → (axsTake s .wind a).jog b = s.jog b) := by
  refine ⟨?_, fun b hb => ?_, fun b hb => ?_⟩
  · rw [axis_axsTake]; by_cases h : (s.axis a).owner = .wind <;> simp [h]
  · rw [axis_axsTake, if_neg (fun x => hb x.1.symm)]
  · unfold axsTake; split
    · rfl
    · show (s.mgt.set a none).get b = _
      cases a <;> cases b <;> first | rfl | exact absurd rfl hb

theorem AxisRec.taken_keeps (r : AxisRec) (o) : (r.taken o).position = r.position ∧ (r.taken o).rateLimit = r.rateLimit ∧ (r.taken o).arrivalLimit = r.arrivalLimit ∧
   (r.taken o).owner = o ∧ (r.motion ≠ .off → (r.taken o).motion ≠ .off) ∧ (r.motion ≠ .halted → (r.taken o).motion ≠ .halted) ∧ (r.taken o).motion ≠ .jogging := by
  unfold AxisRec.taken AxisRec.setTarget
  split
  · cases r.sel <;> exact ⟨rfl, rfl, rfl, rfl, fun _ => by simp, fun _ => by simp, by simp⟩
  · rename_i h; exact ⟨rfl, rfl, rfl, rfl, id, id, h⟩

theorem AxisRec.selected_setTarget_sel (r : AxisRec) (x) : (r.setTarget r.sel x).selected = x := by
  unfold AxisRec.setTarget AxisRec.selected; cases r.sel <;> simp

/-- R98: a wind lowering is sent, or its notice BLOCKED is raised. -/
theorem startLowering_cases (s : State) (cap : Int) : (s.mastFree ∧ inFull .mast cap = true ∧ ∃ u, u = axsTake s .wind .mast ∧
     (u.axis .mast).owner = .wind ∧ (u.axis .mast).rateLimit = (s.axis .mast).rateLimit ∧
     startLowering s cap = raise (sendMove u .mast ((u.axis .mast).setTarget (u.axis .mast).sel (some cap)).moveSent cap none) (.windLowering cap)) ∨
    (¬ (s.mastFree ∧ inFull .mast cap = true) ∧ startLowering s cap = raise s .windBlocked) := by
  by_cases hf : s.mastFree
  · have hm := (mastMovable_iff s).mpr hf
    obtain ⟨w1, w2, w3⟩ := axsTake_wind s .mast
    have hch : (axsTake s .wind .mast).axs.channels = s.axs.channels := (onlyAxes_axsTake s .wind .mast).1.channels
    obtain ⟨f1, f2, f3, f4⟩ := hf
    obtain ⟨t1, t2, t3, t4, t5, t6, t7⟩ := AxisRec.taken_keeps (s.axis .mast) .wind
    have ow : ((axsTake s .wind .mast).axis .mast).owner = .wind := by rw [w1]; split <;> assumption
    have ps : ((axsTake s .wind .mast).axis .mast).position = (s.axis .mast).position := by rw [w1]; split <;> simp [t1]
    have rl : ((axsTake s .wind .mast).axis .mast).rateLimit = (s.axis .mast).rateLimit := by rw [w1]; split <;> simp [t2]
    have m1 : ((axsTake s .wind .mast).axis .mast).motion ≠ .off := by rw [w1]; split; exact f2; exact t5 f2
    have m2 : ((axsTake s .wind .mast).axis .mast).motion ≠ .halted := by rw [w1]; split; exact f1; exact t6 f1
    have cf : channelsFull (axsTake s .wind .mast) .mast = true := by
      unfold mastMovable at hm; simp only [Bool.and_eq_true] at hm
      have := hm.1.2
      unfold channelsFull State.chan at *; rw [hch]; exact this
    by_cases hin : inFull .mast cap = true
    · left
      refine ⟨⟨f1, f2, f3, f4⟩, hin, _, rfl, ow, rl, ?_⟩
      unfold startLowering; rw [if_pos hm]
      have : moveRefusal (axsTake s .wind .mast) .wind .mast (some cap) none = none := by
        unfold moveRefusal; simp only []
        have p4 : (s.axis .mast).position.isSome = true := f4.2
        rw [if_neg (by rw [ow]; simp), if_neg (by simp [m1, m2]), if_neg (by rw [cf]; simp), if_neg (by rw [ps]; cases e : (s.axis .mast).position <;> simp_all), if_neg (by simp [hin]), if_neg (by simp)]
      unfold axsMoveTo; rw [this]
    · right
      refine ⟨fun x => hin x.2, ?_⟩
      unfold startLowering; rw [if_pos hm]
      have : ∃ w, moveRefusal (axsTake s .wind .mast) .wind .mast (some cap) none = some w := by
        have hin' : inFull .mast cap = false := by simpa using hin
        unfold moveRefusal; simp only []
        split; exact ⟨_, rfl⟩
        split; exact ⟨_, rfl⟩
        split; exact ⟨_, rfl⟩
        split; exact ⟨_, rfl⟩
        rw [if_pos (by simp [hin'])]; exact ⟨_, rfl⟩
      obtain ⟨w, hw⟩ := this
      unfold axsMoveTo; rw [hw]
  · right
    refine ⟨fun x => hf x.1, ?_⟩
    unfold startLowering; rw [if_neg (fun h => hf ((mastMovable_iff s).mp h))]

theorem sendMove_elsewhere (u : State) (a : Axis) (r t rate) : (sendMove u a r t rate).acq = u.acq ∧ (sendMove u a r t rate).dsq = u.dsq ∧ (sendMove u a r t rate).txc = u.txc ∧
   (sendMove u a r t rate).axis a = r ∧ (∀ b, b ≠ a → (sendMove u a r t rate).axis b = u.axis b ∧ (sendMove u a r t rate).jog b = u.jog b) ∧
   ((u.axis a).motion = .jogging ∨ u.jog a = none → (sendMove u a r t rate).jog a = none) ∧ (sendMove u a r t rate).out.drive = u.out.drive ++ [.move a t (r.rateFor rate)] := by
  have e : ∃ v, v = endJog u a ∧ v.acq = u.acq ∧ v.dsq = u.dsq ∧ v.txc = u.txc ∧ v.axs = u.axs ∧ v.out = u.out ∧ (∀ b, b ≠ a → v.jog b = u.jog b) ∧
      ((u.axis a).motion = .jogging ∨ u.jog a = none → v.jog a = none) := by
    refine ⟨_, rfl, ?_⟩
    unfold endJog; split
    · refine ⟨rfl, rfl, rfl, rfl, rfl, fun b hb => ?_, fun _ => ?_⟩
      · show (u.mgt.set a none).get b = _
        cases a <;> cases b <;> first | rfl | exact absurd rfl hb
      · show (u.mgt.set a none).get a = _; cases a <;> rfl
    · rename_i h
      refine ⟨rfl, rfl, rfl, rfl, rfl, fun _ _ => rfl, fun h2 => ?_⟩
      rcases h2 with h2 | h2
      · exact absurd h2 h
      · exact h2
  obtain ⟨v, hv, v1, v2, v3, v4, v5, v6, v7⟩ := e
  unfold sendMove
  rw [← hv]
  refine ⟨v1, v2, v3, State.axis_setAxis_self v a r, fun b hb => ⟨?_, v6 b hb⟩, v7, ?_⟩
  · refine (State.axis_setAxis_ne v r hb).trans ?_; unfold State.axis; rw [v4]
  · show v.out.drive ++ _ = _; rw [v5]

theorem startLowering_sends (s : State) (cap : Int) (hf : s.mastFree) (hin : inFull .mast cap = true) :
    let t := startLowering s cap
    (t.axis .mast).owner = .wind ∧ (t.axis .mast).motion = .moving ∧ (t.axis .mast).selected = some cap ∧
    ((s.axis .mast).owner ≠ .wind ∨ s.jog .mast = none → t.jog .mast = none) ∧
    (t.ntu.get .wind).latest = some (.windLowering cap) ∧ t.out.drive = s.out.drive ++ [.move .mast cap (s.axis .mast).rateLimit] := by
  intro t
  rcases startLowering_cases s cap with ⟨_, _, u, hu, o, rl, e⟩ | ⟨h, _⟩
  · have ut : u.out = s.out := by rw [hu]; exact (onlyAxes_axsTake s .wind .mast).2
    have uj : (s.axis .mast).owner ≠ .wind ∨ s.jog .mast = none → u.jog .mast = none := by
      intro h; rw [hu]; unfold axsTake; split
      · rename_i h2; rcases h with h | h
        · exact absurd h2 h
        · exact h
      · rfl
    clear hu
    show (((startLowering s cap)).axis .mast).owner = _ ∧ _
    have te : t = _ := e
    have sm := AxisRec.selected_setTarget_sel (u.axis .mast) (some cap)
    have so : ((u.axis .mast).setTarget (u.axis .mast).sel (some cap)).owner = .wind := by unfold AxisRec.setTarget; split <;> exact o
    have sr : ((u.axis .mast).setTarget (u.axis .mast).sel (some cap)).rateLimit = (s.axis .mast).rateLimit := by unfold AxisRec.setTarget; split <;> exact rl
    generalize (u.axis .mast).setTarget (u.axis .mast).sel (some cap) = q at te sm so sr
    obtain ⟨z1, z2, z3, z4, z5, z6, z7⟩ := sendMove_elsewhere u .mast q.moveSent cap none
    have ax : t.axis .mast = q.moveSent := by rw [te]; unfold State.axis; rw [axs_raise]; exact z4
    refine ⟨?_, ?_, ?_, fun hj => ?_, ?_, ?_⟩
    · show (t.axis .mast).owner = _; rw [ax]; exact so
    · show (t.axis .mast).motion = _; rw [ax]; rfl
    · show (t.axis .mast).selected = _; rw [ax]; exact sm
    · rw [te]; unfold State.jog; rw [mgt_raise]; exact z6 (Or.inr (uj hj))
    · rw [te]; exact latest_raise _ (.windLowering cap)
    · rw [te, out_raise, z7, ut]
      congr 3
      show min (q.rateLimit) q.rateLimit = _
      rw [Nat.min_self, sr]
  · exact absurd ⟨hf, hin⟩ h

theorem startLowering_keeps (s : State) (cap : Int) :
    let t := startLowering s cap
    t.acq = s.acq ∧ t.dsq = s.dsq ∧ t.txc = s.txc ∧ (∀ b : Axis, b ≠ .mast ∨ ¬ s.mastFree → t.axis b = s.axis b ∧ t.jog b = s.jog b) := by
  intro t
  rcases startLowering_cases s cap with ⟨hf, _, u, hu, o, rl, e⟩ | ⟨h, e⟩
  · obtain ⟨w1, w2, w3⟩ := axsTake_wind s .mast
    obtain ⟨r1, _⟩ := onlyAxes_axsTake s .wind .mast
    rw [← hu] at w1 w2 w3 r1
    have te : t = _ := e
    obtain ⟨z1, z2, z3, z4, z5, z6, z7⟩ := sendMove_elsewhere u .mast ((u.axis .mast).setTarget (u.axis .mast).sel (some cap)).moveSent cap none
    refine ⟨?_, ?_, ?_, fun b hb => ?_⟩
    · rw [te, acq_raise, z1, r1.acq]
    · rw [te, dsq_raise, z2, r1.dsq]
    · rw [te, txc_raise, z3, r1.txc]
    · have hb' : b ≠ .mast := by rcases hb with hb | hb; exact hb; exact absurd hf hb
      rw [te]; unfold State.axis State.jog; rw [axs_raise, mgt_raise]
      exact ⟨(z5 b hb').1.trans (w2 b hb'), (z5 b hb').2.trans (w3 b hb')⟩
  · have te : t = _ := e
    rw [te, acq_raise, dsq_raise, txc_raise]
    refine ⟨rfl, rfl, rfl, fun b _ => ?_⟩
    unfold State.axis State.jog; rw [axs_raise, mgt_raise]; exact ⟨rfl, rfl⟩

/-- R97: an axis is sent a STOP at an entry to HOLD. -/
def stopsForHold (s : State) (a : Axis) : Bool :=
  (s.axis a).travelling && (s.axis a).owner ≠ .sequence && (s.axis a).owner ≠ .wind

/-- One STOP of an entry to HOLD. -/
def stopOneForHold (s : State) (a : Axis) : State :=
  if (s.axis a).owner = .sequence ∨ (s.axis a).owner = .wind then s else axsStopTravelling s a

theorem stopOneForHold_eq (s : State) (a) : stopOneForHold s a = if stopsForHold s a then axsStop s a else s := by
  unfold stopOneForHold stopsForHold axsStopTravelling
  by_cases h1 : (s.axis a).owner = .sequence
  · simp [h1]
  · by_cases h2 : (s.axis a).owner = .wind
    · simp [h2]
    · simp [h1, h2]

theorem stopOneForHold_does (s : State) (a : Axis) : OnlyAxes s (stopOneForHold s a) ∧ (∀ b, b ≠ a → (stopOneForHold s a).axis b = s.axis b ∧ (stopOneForHold s a).jog b = s.jog b ∧ stopsForHold (stopOneForHold s a) b = stopsForHold s b) ∧
   ((stopOneForHold s a).axis a = if stopsForHold s a then (s.axis a).stopped else s.axis a) ∧ ((stopOneForHold s a).jog a = if stopsForHold s a then none else s.jog a) ∧
   (stopOneForHold s a).out.drive = s.out.drive ++ (if stopsForHold s a then [.stop a] else []) ∧ (stopsForHold s a = false → stopOneForHold s a = s) := by
  rw [stopOneForHold_eq]
  by_cases h : stopsForHold s a = true
  · simp only [h, if_true]
    have ht : (s.axis a).travelling = true := by unfold stopsForHold at h; simp only [Bool.and_eq_true] at h; exact h.1.1
    have hm : (s.axis a).motion = .moving ∨ (s.axis a).motion = .jogging := by simpa [AxisRec.travelling] using ht
    have e : axsStop s a = closeRun (sendDrive (s.setAxis a (s.axis a).stopped) (.stop a)) a := by
      unfold axsStop; rcases hm with hm | hm <;> rw [hm]
    have ax : ∀ b, b ≠ a → (axsStop s a).axis b = s.axis b := fun b hb => by rw [e]; exact State.axis_setAxis_ne s _ hb
    refine ⟨onlyAxes_axsStop _ _, fun b hb => ⟨ax b hb, ?_, ?_⟩, ?_, ?_, ?_, fun x => by cases x⟩
    · rw [e]; show (s.mgt.set a none).get b = _; cases a <;> cases b <;> first | rfl | exact absurd rfl hb
    · unfold stopsForHold; rw [ax b hb]
    · rw [e]; exact State.axis_setAxis_self s a _
    · rw [e]; show (s.mgt.set a none).get a = _; cases a <;> rfl
    · rw [e]; rfl
  · have h' : stopsForHold s a = false := by simpa using h
    simp only [h', Bool.false_eq_true, if_false]
    exact ⟨OnlyAxes.same s, fun _ _ => ⟨trivial, trivial, trivial⟩, trivial, trivial, by simp, fun _ => trivial⟩

/-- R97: the STOP frames of an entry to HOLD. -/
theorem stopForHold_does (s : State) : OnlyAxes s (stopForHold s) ∧
   (∀ b, (stopForHold s).axis b = if stopsForHold s b then (s.axis b).stopped else s.axis b) ∧
   (∀ b, (stopForHold s).jog b = if stopsForHold s b then none else s.jog b) ∧
   (stopForHold s).out.drive = s.out.drive ++ ([Axis.mast, .pan, .tilt, .pol].filter (stopsForHold s)).map DriveFrame.stop ∧
   ((∀ b, stopsForHold s b = false) → stopForHold s = s) := by
  have e : stopForHold s = stopOneForHold (stopOneForHold (stopOneForHold (stopOneForHold s .mast) .pan) .tilt) .pol := rfl
  obtain ⟨a1, a2, a3, a4, a5, a6⟩ := stopOneForHold_does s .mast
  obtain ⟨b1, b2, b3, b4, b5, b6⟩ := stopOneForHold_does (stopOneForHold s .mast) .pan
  obtain ⟨c1, c2, c3, c4, c5, c6⟩ := stopOneForHold_does (stopOneForHold (stopOneForHold s .mast) .pan) .tilt
  obtain ⟨d1, d2, d3, d4, d5, d6⟩ := stopOneForHold_does (stopOneForHold (stopOneForHold (stopOneForHold s .mast) .pan) .tilt) .pol
  have sp := (a2 .pan (by decide)).2.2
  have st := ((b2 .tilt (by decide)).2.2).trans (a2 .tilt (by decide)).2.2
  have sl := ((c2 .pol (by decide)).2.2).trans (((b2 .pol (by decide)).2.2).trans (a2 .pol (by decide)).2.2)
  rw [e]
  refine ⟨((a1.trans b1).trans c1).trans d1, fun b => ?_, fun b => ?_, ?_, fun h => ?_⟩
  · cases b
    · rw [(d2 .mast (by decide)).1, (c2 .mast (by decide)).1, (b2 .mast (by decide)).1, a3]
    · rw [(d2 .pan (by decide)).1, (c2 .pan (by decide)).1, b3, sp, (a2 .pan (by decide)).1]
    · rw [(d2 .tilt (by decide)).1, c3, st, (b2 .tilt (by decide)).1, (a2 .tilt (by decide)).1]
    · rw [d3, sl, (c2 .pol (by decide)).1, (b2 .pol (by decide)).1, (a2 .pol (by decide)).1]
  · cases b
    · rw [(d2 .mast (by decide)).2.1, (c2 .mast (by decide)).2.1, (b2 .mast (by decide)).2.1, a4]
    · rw [(d2 .pan (by decide)).2.1, (c2 .pan (by decide)).2.1, b4, sp, (a2 .pan (by decide)).2.1]
    · rw [(d2 .tilt (by decide)).2.1, c4, st, (b2 .tilt (by decide)).2.1, (a2 .tilt (by decide)).2.1]
    · rw [d4, sl, (c2 .pol (by decide)).2.1, (b2 .pol (by decide)).2.1, (a2 .pol (by decide)).2.1]
  · rw [d5, c5, b5, a5, sp, st, sl]
    simp only [List.filter, List.append_assoc]
    cases stopsForHold s .mast <;> cases stopsForHold s .pan <;> cases stopsForHold s .tilt <;> cases stopsForHold s .pol <;> rfl
  · rw [d6 (by rw [sl]; exact h _), c6 (by rw [st]; exact h _), b6 (by rw [sp]; exact h _), a6 (h _)]

theorem stows_windStow (s : State) : s.stows .wind (windStow s) ∧ ∀ g : Nat, s.wsm.gustValue = some g →
    ((windStow s).ntu.get .wind).latest = some (.windStow g) := by
  obtain ⟨k, -, -⟩ := stows_stowEffects (stowFrom_self s) .wind
  refine ⟨?_, fun g hg => ?_⟩
  · unfold windStow; exact k.after (sameBut_raise _ _)
  · have : gustCarried s = (g : Int) := by unfold gustCarried; rw [hg]; rfl
    unfold windStow; rw [this]; exact latest_raise _ (.windStow g)

theorem startLowering_blocked (s : State) (cap : Int) (hf : ¬ s.mastFree) : startLowering s cap = raise s .windBlocked := by
  unfold startLowering; rw [if_neg (fun h => hf ((mastMovable_iff s).mp h))]

/-- R97, R98: the lowering test at an entry to HOLD (`entry`) and at a re-judgement. -/
def lowerInHold (entry : Bool) (q : State) : State :=
  if (q.axis .mast).owner = .sequence then q
  else match loweringCap q with
    | some cap => if entry = false ∧ loweringUnderWay q cap = true then q else startLowering q cap
    | none => q

theorem lowerAtEntry_eq (q) : lowerAtEntry q = lowerInHold true q := by
  unfold lowerAtEntry lowerInHold; split
  · rfl
  · cases loweringCap q <;> simp

theorem lowerAgain_eq (q) : lowerAgain q = lowerInHold false q := by
  unfold lowerAgain lowerInHold; split
  · rfl
  · cases loweringCap q <;> simp

/-- R97: the state `q` before the lowering test, after a push and the STOP frames from the state `s`. -/
structure HoldReady (s : State) (entry : Bool) (q : State) : Prop where
  dsq : q.dsq = s.dsq
  wsm : q.wsm = s.wsm
  chans : q.axs.channels = s.axs.channels
  own : (q.axis .mast).owner = (s.axis .mast).owner
  pos : (q.axis .mast).position = (s.axis .mast).position
  rl : (q.axis .mast).rateLimit = (s.axis .mast).rateLimit
  mot : (q.axis .mast).motion = (s.axis .mast).motion ∨ ((q.axis .mast).motion = .idle ∧ (s.axis .mast).travelling = true)
  stay : entry = false → q.axis .mast = s.axis .mast
  acq : s.acq.ctx = none → q.acq = s.acq
  sus : ∀ c, s.acq.ctx = some c → q.suspended c .gust
  stop : ∀ a, (entry && stopsForHold s a) = true → (q.axis a).motion = .idle ∧ (q.axis a).stopping = true ∧ q.jog a = none
  keep : s.acq.ctx = none → ∀ a, (entry && stopsForHold s a) = false → q.axis a = s.axis a ∧ q.jog a = s.jog a
  drive : s.acq.ctx = none → q.out.drive = s.out.drive ++ ([Axis.mast, .pan, .tilt, .pol].filter (fun a => entry && stopsForHold s a)).map DriveFrame.stop
  same : s.acq.ctx = none → ([Axis.mast, .pan, .tilt, .pol].filter (fun a => entry && stopsForHold s a)).map DriveFrame.stop = [] → q = s
  mj : (s.axis .mast).owner = .wind → q.jog .mast = s.jog .mast

theorem holdReady_stops (s : State) (entry : Bool) : HoldReady s entry (if entry then stopForHold (acqPush s .gust none) else acqPush s .gust none) := by
  have pf : ∃ p, p = acqPush s .gust none ∧ p.dsq = s.dsq ∧ p.wsm = s.wsm ∧ p.axs.channels = s.axs.channels ∧ p.axis .mast = s.axis .mast ∧ p.jog .mast = s.jog .mast ∧
      (s.acq.ctx = none → p = s) ∧ (∀ c, s.acq.ctx = some c → p.suspended c .gust) ∧
      (∀ a, stopsForHold s a = true → stopsForHold p a = true ∨ ((p.axis a).motion = .idle ∧ (p.axis a).stopping = true ∧ p.jog a = none)) := by
    refine ⟨_, rfl, ?_⟩
    cases hc : s.acq.ctx with
    | none =>
      have e : acqPush s .gust none = s := by unfold acqPush; rw [hc]
      rw [e]
      exact ⟨rfl, rfl, rfl, rfl, rfl, fun _ => rfl, fun c h => (by cases h), fun a h => Or.inl h⟩
    | some c =>
      obtain ⟨a1, a2, a3, a4⟩ := acqPush_axes hc .gust none
      have R := pushed_acqPush hc .gust none
      obtain ⟨z1, z2, z3⟩ := stopSearch_does s none
      obtain ⟨rest, hr, _⟩ := R.stack
      refine ⟨R.dsq, R.wsm, R.channels, by rw [a1]; rfl, ?_, fun h => (by cases h), fun c' h => ?_, fun a ha => ?_⟩
      · rw [a3, z3]; simp
      · injection h with h; subst h
        refine ⟨R.ctx, ⟨_, rest, hr, ?_, ?_⟩, a4⟩ <;> (unfold stackEntryOf; split <;> rfl)
      · unfold stopsForHold at ha; simp only [Bool.and_eq_true, decide_eq_true_eq] at ha
        obtain ⟨⟨h1, h2⟩, h3⟩ := ha
        unfold AxisRec.travelling at h1
        by_cases hm : a = .mast
        · left; unfold stopsForHold; rw [a1, if_pos hm]; subst hm; unfold AxisRec.travelling; simp_all
        · by_cases hv : (s.axis a).motion = .moving
          · right; rw [a1, if_neg hm, z1, if_pos ⟨hm, hv, by simp⟩, a3, z3, if_pos ⟨hm, hv, by simp⟩]
            exact ⟨rfl, rfl, rfl⟩
          · left; unfold stopsForHold; rw [a1, if_neg hm, z1, if_neg (fun x => hv x.2.1)]
            unfold AxisRec.travelling; simp_all
  obtain ⟨p, hp, p1, p2, p3, p4, p5, p6, p7, p8⟩ := pf
  rw [← hp]
  cases entry with
  | false =>
    simp only [Bool.false_eq_true, if_false]
    refine ⟨p1, p2, p3, by rw [p4], by rw [p4], by rw [p4], Or.inl (by rw [p4]), fun _ => p4, fun h => by rw [p6 h], p7, fun a h => by simp at h, fun h a _ => by rw [p6 h]; exact ⟨rfl, rfl⟩, fun h => by rw [p6 h]; simp, fun h _ => p6 h, fun _ => p5⟩
  | true =>
    simp only [if_true]
    obtain ⟨o, x1, x2, x3, x4⟩ := stopForHold_does p
    have mast : (stopForHold p).axis .mast = if stopsForHold s .mast then (s.axis .mast).stopped else s.axis .mast := by
      rw [x1]; unfold stopsForHold; rw [p4]
    refine ⟨o.dsq.trans p1, o.wsm.trans p2, o.channels.trans p3, ?_, ?_, ?_, ?_, fun h => (by cases h),
      fun h => o.acq.trans (by rw [p6 h]), fun c h => ?_, fun a h => ?_, fun h a ha => ?_, fun h => ?_, fun h e => ?_, fun hw => ?_⟩
    · rw [mast]; split <;> rfl
    · rw [mast]; split <;> rfl
    · rw [mast]; split <;> rfl
    · rw [mast]; split
      · rename_i h; right
        unfold stopsForHold at h; simp only [Bool.and_eq_true] at h
        exact ⟨rfl, h.1.1⟩
      · exact Or.inl rfl
    · have := p7 c h
      unfold State.suspended at *; rw [o.acq, o.txc]; exact this
    · rcases p8 a h with h2 | ⟨h1, h2, h3⟩
      · rw [x1, x2, h2, if_pos rfl, if_pos rfl]; exact ⟨rfl, rfl, rfl⟩
      · have : stopsForHold p a = false := by unfold stopsForHold AxisRec.travelling; rw [h1]; simp
        rw [x1, x2, this]; simp only [Bool.false_eq_true, if_false]; exact ⟨h1, h2, h3⟩
    · have ha' : stopsForHold s a = false := ha
      rw [x1, x2, p6 h, ha']; exact ⟨rfl, rfl⟩
    · rw [x3, p6 h]; rfl
    · rw [p6 h] at x4 ⊢
      refine x4 fun b => ?_
      rw [List.map_eq_nil_iff, List.filter_eq_nil_iff] at e
      have := e b (by cases b <;> simp)
      simpa using this
    · rw [x2, p5]
      have : stopsForHold p .mast = false := by unfold stopsForHold; rw [p4, hw]; simp
      rw [this]; rfl

theorem mastFree_of_holdReady {s q : State} {entry} (h : HoldReady s entry q) : q.mastFree ↔ s.mastFree := by
  unfold State.mastFree
  have e : ∀ c, q.chan c = s.chan c := fun c => by unfold State.chan; rw [h.chans]
  rw [e, e, h.pos]
  rcases h.mot with m | ⟨m, m2⟩
  · rw [m]
  · unfold AxisRec.travelling at m2
    rw [m]
    have : (s.axis .mast).motion ≠ .halted ∧ (s.axis .mast).motion ≠ .off := by
      constructor <;> (intro e; rw [e] at m2; exact absurd m2 (by decide))
    simp [this.1, this.2]

theorem lowersTo_of_holdReady {s q : State} {entry} (h : HoldReady s entry q) (cap) : q.lowersTo cap ↔ s.lowersTo cap := by
  unfold State.lowersTo; rw [h.own, h.wsm, h.pos]

theorem lowersTo_unique {s : State} {x y : Int} (h : s.lowersTo x) (g : s.lowersTo y) : x = y := by
  obtain ⟨_, r, _, h1, h2, _⟩ := h
  obtain ⟨_, r', _, g1, g2, _⟩ := g
  rw [h1] at g1; injection g1 with g1; subst g1; rw [← h2, g2]

theorem windHolds_lowerInHold {s q : State} {entry : Bool} (h : HoldReady s entry q) (hn : ¬ s.windCallsStow)
    (hd : s.dsq.deploy = .deployed) : s.windHolds entry (lowerInHold entry q) := by
  refine ⟨fun x => absurd x hn, fun _ x => absurd hd x, fun _ _ => ?_⟩
  have st : ∀ a, (entry && (s.axis a).travelling && (s.axis a).owner ≠ .sequence && (s.axis a).owner ≠ .wind) = (entry && stopsForHold s a) := by
    intro a; unfold stopsForHold; simp [Bool.and_assoc]
  simp only [st]
  have cases' : (∃ cap, s.lowersTo cap ∧ (entry = true ∨ ¬ s.loweringTo cap) ∧ lowerInHold entry q = startLowering q cap) ∨
      ((∀ cap, ¬ (s.lowersTo cap ∧ (entry = true ∨ ¬ s.loweringTo cap))) ∧ lowerInHold entry q = q) := by
    by_cases ho : (q.axis .mast).owner = .sequence
    · right
      refine ⟨fun cap x => x.1.1 (by rw [← h.own]; exact ho), ?_⟩
      unfold lowerInHold; rw [if_pos ho]
    · unfold lowerInHold; rw [if_neg ho]
      cases hc : loweringCap q with
      | none =>
        right
        refine ⟨fun cap x => ?_, rfl⟩
        have := (loweringCap_iff q cap ho).mpr ((lowersTo_of_holdReady h cap).mpr x.1)
        rw [hc] at this; cases this
      | some cap =>
        have lt := (lowersTo_of_holdReady h cap).mp ((loweringCap_iff q cap ho).mp hc)
        simp only []
        by_cases hu : entry = false ∧ loweringUnderWay q cap = true
        · right
          rw [if_pos hu]
          refine ⟨fun c x => ?_, rfl⟩
          have : c = cap := lowersTo_unique x.1 lt
          subst this
          have lu : s.loweringTo c := by
            have := (loweringUnderWay_iff q c).mp hu.2
            unfold State.loweringTo at *; rw [h.stay hu.1] at this; exact this
          rcases x.2 with x2 | x2
          · rw [hu.1] at x2; cases x2
          · exact x2 lu
        · left
          refine ⟨cap, lt, ?_, by rw [if_neg hu]⟩
          cases he : entry with
          | true => exact Or.inl rfl
          | false =>
            right; intro x
            refine hu ⟨he, (loweringUnderWay_iff q cap).mpr ?_⟩
            unfold State.loweringTo at *; rw [h.stay he]; exact x
  rcases cases' with ⟨cap, l1, l2, e⟩ | ⟨l1, e⟩
  · rw [e]
    obtain ⟨k1, k2, k3, k4⟩ := startLowering_keeps q cap
    have uniq : ∀ c, s.lowersTo c ∧ (entry = true ∨ ¬ s.loweringTo c) → c = cap := fun c x => lowersTo_unique x.1 l1
    have stays : ∀ a, (a ≠ .mast ∨ ¬ s.mastFree ∨ ∀ cap, ¬ (s.lowersTo cap ∧ (entry = true ∨ ¬ s.loweringTo cap))) → (startLowering q cap).axis a = q.axis a ∧ (startLowering q cap).jog a = q.jog a := by
      intro a x
      refine k4 a ?_
      rcases x with x | x | x
      · exact Or.inl x
      · exact Or.inr (fun y => x ((mastFree_of_holdReady h).mp y))
      · exact absurd ⟨l1, l2⟩ (x cap)
    refine ⟨k2.trans h.dsq, fun c hc => ?_, fun hc => k1.trans (h.acq hc), fun a ha hs => ?_, fun hc a ha hs => ?_,
      fun c x hf hin => ?_, fun c x hf => ?_, fun x => absurd ⟨l1, l2⟩ (x cap)⟩
    · have := h.sus c hc
      unfold State.suspended at *; rw [k1, k3]; exact this
    · rw [(stays a hs).1, (stays a hs).2]; exact h.stop a ha
    · rw [(stays a hs).1, (stays a hs).2]; exact h.keep hc a ha
    · have := uniq c x; subst this
      obtain ⟨y1, y2, y3, y4, y5, y6⟩ := startLowering_sends q c ((mastFree_of_holdReady h).mpr hf) hin
      refine ⟨y1, y2, y3, fun hw => y4 (Or.inl (by rw [h.own]; exact hw)), y5, fun hc => ?_⟩
      rw [y6, h.drive hc, h.rl]
    · have := uniq c x; subst this
      rw [startLowering_blocked q c (fun y => hf ((mastFree_of_holdReady h).mp y))]
      refine ⟨latest_raise _ .windBlocked, fun hc => ?_⟩
      rw [out_raise]; exact h.drive hc
  · rw [e]
    refine ⟨h.dsq, h.sus, h.acq, fun a ha _ => h.stop a ha, fun hc a ha _ => h.keep hc a ha, fun c x => absurd x (l1 c),
      fun c x => absurd x (l1 c), fun _ hc => ⟨h.drive hc, h.same hc⟩⟩

/-- R96, R97: the entry to HOLD, as the statements say it. -/
theorem windHolds_holdEntry (s : State) : s.windHolds true (holdEntry s) := by
  unfold holdEntry
  split
  · rename_i h
    have hw := (windStows_iff s).mp h
    exact ⟨fun _ => stows_windStow s, fun x => absurd hw x, fun x => absurd hw x⟩
  · rename_i h
    have hw : ¬ s.windCallsStow := fun x => h ((windStows_iff s).mpr x)
    split
    · rename_i hd; rw [lowerAtEntry_eq]; exact windHolds_lowerInHold (holdReady_stops s true) hw hd
    · rename_i hd; exact ⟨fun x => absurd x hw, fun _ _ => rfl, fun _ x => absurd x hd⟩

/-- R98: a re-judgement, as the statements say it. -/
theorem windHolds_rejudge (s : State) : s.windHolds false (rejudge s) := by
  unfold rejudge
  split
  · rename_i h
    have hw := (windStows_iff s).mp h
    exact ⟨fun _ => stows_windStow s, fun x => absurd hw x, fun x => absurd hw x⟩
  · rename_i h
    have hw : ¬ s.windCallsStow := fun x => h ((windStows_iff s).mpr x)
    split
    · rename_i hd; rw [lowerAgain_eq]; exact windHolds_lowerInHold (holdReady_stops s false) hw hd
    · rename_i hd; exact ⟨fun x => absurd x hw, fun _ _ => rfl, fun _ x => absurd x hd⟩

theorem foldl_max_spec (l : List Nat) (v : Nat) : (l.foldl max v ∈ v :: l) ∧ ∀ y ∈ v :: l, y ≤ l.foldl max v := by
  induction l generalizing v with
  | nil => simp
  | cons a l ih =>
    obtain ⟨h1, h2⟩ := ih (max v a)
    simp only [List.foldl, List.mem_cons] at *
    refine ⟨?_, fun y hy => ?_⟩
    · rcases h1 with h | h
      · rcases Nat.le_total v a with h3 | h3
        · right; left; rw [h]; exact Nat.max_eq_right h3
        · left; rw [h]; exact Nat.max_eq_left h3
      · right; right; exact h
    · have h0 := h2 (max v a) (Or.inl rfl)
      rcases hy with h | h | h
      · omega
      · omega
      · exact h2 y (Or.inr h)

/-- R90: the gust value is the highest speed of the report memory. -/
theorem gustValue_iff (w : Wsm) (g) : w.gustValue = some g ↔ g ∈ w.memory ∧ ∀ y ∈ w.memory, y ≤ g := by
  unfold Wsm.gustValue
  cases h : w.memory with
  | nil => simp
  | cons v vs =>
    obtain ⟨h1, h2⟩ := foldl_max_spec vs v
    simp only [Option.some.injEq]
    constructor
    · intro e; subst e; exact ⟨h1, h2⟩
    · rintro ⟨e1, e2⟩; have a := h2 g e1; have b := e2 _ h1; omega

/-- R93: the row in force is the highest-numbered valid row whose floor the gust value reaches. -/
theorem rowIn_spec (g : Nat) (rows : List DerateRow) (n r) : rowIn g rows = some (n, r) ↔ rows[n]? = some r ∧ r.valid = true ∧ r.floor ≤ g ∧
      ∀ m q, n < m → rows[m]? = some q → q.valid = true → g < q.floor := by
  unfold rowIn
  have key : (rows.zipIdx.reverse.find? fun ri => ri.1.valid && ri.1.floor ≤ g) = some (r, n) ↔ rows[n]? = some r ∧ r.valid = true ∧ r.floor ≤ g ∧
      ∀ m q, n < m → rows[m]? = some q → q.valid = true → g < q.floor := by
    rw [List.find?_eq_some_iff_getElem]
    constructor
    · rintro ⟨h1, i, hi, h2, h3⟩
      simp only [List.length_reverse, List.length_zipIdx] at hi
      rw [List.getElem_reverse, List.getElem_zipIdx] at h2
      simp only [List.length_zipIdx, Nat.zero_add, Prod.mk.injEq] at h2
      obtain ⟨h4, h5⟩ := h2
      simp only [Bool.and_eq_true, decide_eq_true_eq] at h1
      refine ⟨?_, h1.1, h1.2, fun m q hm hq hv => ?_⟩
      · rw [← h5, ← h4]; exact List.getElem?_eq_getElem _
      · obtain ⟨hm2, hq2⟩ := List.getElem?_eq_some_iff.mp hq
        have h6 := h3 (rows.length - 1 - m) (by omega)
        rw [List.getElem_reverse, List.getElem_zipIdx] at h6
        simp only [List.length_zipIdx] at h6
        have e : rows.length - 1 - (rows.length - 1 - m) = m := by omega
        simp only [e, hq2, hv, Bool.true_and] at h6
        simpa using h6
    · rintro ⟨h1, h2, h3, h4⟩
      obtain ⟨hn, hr⟩ := List.getElem?_eq_some_iff.mp h1
      have e : rows.length - 1 - (rows.length - 1 - n) = n := by omega
      refine ⟨by simp [h2, h3], rows.length - 1 - n, by simp; omega, ?_, fun j hj => ?_⟩
      · rw [List.getElem_reverse, List.getElem_zipIdx]; simp only [List.length_zipIdx, e, hr, Nat.zero_add]
      · rw [List.getElem_reverse, List.getElem_zipIdx]
        simp only [List.length_zipIdx]
        have hb : rows.length - 1 - j < rows.length := by omega
        cases hv : (rows[rows.length - 1 - j]'hb).valid
        · simp
        · have := h4 (rows.length - 1 - j) _ (by omega) (List.getElem?_eq_getElem hb) hv
          simp [this]
  constructor
  · intro h
    cases hf : (rows.zipIdx.reverse.find? fun ri => ri.1.valid && ri.1.floor ≤ g) with
    | none => rw [hf] at h; simp at h
    | some p =>
      rw [hf] at h; simp at h
      obtain ⟨a, b⟩ := p
      simp only [] at h
      obtain ⟨h1, h2⟩ := h; subst h1 h2
      exact key.mp hf
  · intro h; rw [key.mpr h]; rfl

/-- R92: the check of the floors. -/
theorem floorsRise_iff (rows : List DerateRow) : floorsRise rows = true ↔
    ((rows.filter (·.valid)).map (·.floor)).Pairwise (· < ·) := by
  unfold floorsRise
  simp only []
  generalize (rows.filter (·.valid)).map (·.floor) = l
  rw [← List.isChain_iff_pairwise]
  induction l with
  | nil => simp
  | cons a l ih =>
    cases l with
    | nil => simp
    | cons b l =>
      simp only [List.isChain_cons_cons, ← ih]
      simp

end Sys2Proof.Machine
end

