-- ==== Sys2Proof/Laws/Park.lean ====
section
/-! SUPPORT. What a PARK does (R12, R13, R63, R82): one lemma for a channel that leaves FULL, one for the whole. -/

namespace Sys2Proof.Machine

/-- What an axis shows of its motion. -/
def AxisRec.shows (r : AxisRec) : Motion × Bool × Option Int := (r.motion, r.stopping, r.position)

/-- R12, R13, R63: a channel has been asked for a state that is not FULL. -/
structure Shut (s : State) (c : Channel) (st : ChanState) (t : State) : Prop where
  others : ∀ b, b ≠ c.axis → (t.axis b).shows = (s.axis b).shows ∧ t.jog b = s.jog b
  motion : (t.axis c.axis).motion =
    if s.chan c = st then (s.axis c.axis).motion
    else restMotion c st (if (s.axis c.axis).travelling then .idle else (s.axis c.axis).motion)
  stopping : (t.axis c.axis).stopping = ((s.axis c.axis).travelling || (s.axis c.axis).stopping)
  position : (t.axis c.axis).position = (s.axis c.axis).position
  jog : t.jog c.axis = if s.chan c = st then s.jog c.axis else none
  chan : ∀ d, t.chan d = if d = c then st else s.chan d
  drive : t.out.drive = s.out.drive ++ ((if (s.axis c.axis).travelling then [.stop c.axis] else []) ++ [.channel c st])
  rest : sameBut [.axs, .mgt, .ntu, .lnu, .drive] s t

theorem State.jog_closeRun (s : State) (a b : Axis) : (closeRun s a).jog b = if b = a then none else s.jog b := by
  cases a <;> cases b <;> rfl

/-- A channel that has changed, before the end of a wind lowering. -/
theorem shut_change (s : State) (c : Channel) (st : ChanState) (hst : st ≠ .full) (h : s.chan c ≠ st) :
    let s1 := if endsMove s c st then axsStop s c.axis else s
    let s2 := sendChannel (closeRunUnlessFull s1 c.axis st) c st
    Shut s c st (s2.setAxis c.axis { s2.axis c.axis with motion := restMotion c st (s2.axis c.axis).motion }) := by
  intro s1 s2
  have em : endsMove s c st = (s.axis c.axis).travelling := by unfold endsMove; simp [h, hst]
  have e2 : s2 = sendChannel (closeRun s1 c.axis) c st := by
    show sendChannel (closeRunUnlessFull s1 c.axis st) c st = _
    unfold closeRunUnlessFull; rw [if_neg hst]
  have e1 : s1 = if (s.axis c.axis).travelling then s.withStop c.axis else s := by
    show (if endsMove s c st = true then _ else _) = _
    rw [em]; split
    · rename_i ht; exact axsStop_of_travelling ht
    · rfl
  have a2 : ∀ b, s2.axis b = s1.axis b := fun b => by rw [e2]; rfl
  have j2 : ∀ b, s2.jog b = if b = c.axis then none else s1.jog b := fun b => by
    rw [e2]; exact State.jog_closeRun s1 c.axis b
  have c2 : s2.axs.channels = s1.axs.channels.set c st := by rw [e2]; rfl
  have o2 : s2.out.drive = s1.out.drive ++ [.channel c st] := by rw [e2]; rfl
  have r2 : sameBut [.axs, .mgt, .ntu, .lnu, .drive] s1 s2 := by
    rw [e2]; exact ⟨rfl, fun b hb => by cases b <;> first | rfl | exact absurd (by decide) hb⟩
  have r1 : sameBut [.axs, .mgt, .ntu, .lnu, .drive] s s1 := by
    rw [e1]; split
    · exact ⟨rfl, fun b hb => by cases b <;> first | rfl | exact absurd (by decide) hb⟩
    · exact sameBut.refl _ _
  have a1 : ∀ b, b ≠ c.axis → s1.axis b = s.axis b ∧ s1.jog b = s.jog b := by
    intro b hb; rw [e1]; split
    · exact ⟨State.axis_setAxis_ne _ _ hb, by
        show (s.mgt.set c.axis none).get b = _
        cases b <;> cases hc : c.axis <;> first | rfl | exact absurd hc.symm hb⟩
    · exact ⟨rfl, rfl⟩
  have m1 : (s1.axis c.axis).motion = (if (s.axis c.axis).travelling then .idle else (s.axis c.axis).motion) ∧
      (s1.axis c.axis).stopping = ((s.axis c.axis).travelling || (s.axis c.axis).stopping) ∧
      (s1.axis c.axis).position = (s.axis c.axis).position := by
    rw [e1]; split
    · rename_i ht
      have : (s.withStop c.axis).axis c.axis = _ := Axs.get_set_self _ _ _
      rw [this, ht]; exact ⟨rfl, rfl, rfl⟩
    · rename_i ht
      rw [Bool.not_eq_true] at ht
      rw [ht]; exact ⟨rfl, rfl, rfl⟩
  have d1 : s1.out.drive = s.out.drive ++ (if (s.axis c.axis).travelling then [.stop c.axis] else []) := by
    rw [e1]; split
    · rfl
    · simp
  have k1 : s1.axs.channels = s.axs.channels := by
    rw [e1]; split
    · exact Axs.channels_set_axis _ _ _
    · rfl
  clear_value s2 s1
  refine ⟨fun b hb => ?_, ?_, ?_, ?_, ?_, fun d => ?_, ?_, ?_⟩
  · rw [State.axis_setAxis_ne _ _ hb, a2, (a1 b hb).1]
    refine ⟨rfl, ?_⟩
    show s2.jog b = _
    rw [j2, if_neg hb, (a1 b hb).2]
  · rw [State.axis_setAxis_self, if_neg h, a2]; exact congrArg (restMotion c st) m1.1
  · rw [State.axis_setAxis_self, a2]; exact m1.2.1
  · rw [State.axis_setAxis_self, a2]; exact m1.2.2
  · show s2.jog _ = _; rw [j2, if_pos rfl, if_neg h]
  · show (s2.axs.set c.axis _).channels.get d = _
    rw [Axs.channels_set_axis, c2, k1, Channels.get_set]; rfl
  · show s2.out.drive = _; rw [o2, d1, List.append_assoc]
  · refine (r1.trans r2).trans ⟨rfl, fun b hb => ?_⟩
    cases b <;> first | rfl | exact absurd (by decide) hb

/-- R12, R13, R63, R99: a CHANNEL request for a state that is not FULL, where the channel of a travelling axis changes. -/
theorem shut_axsChannel (s : State) (c : Channel) (st : ChanState) (hst : st ≠ .full)
    (ht : (s.axis c.axis).travelling = true → s.chan c ≠ st) : Shut s c st (axsChannel s c st) := by
  unfold axsChannel
  split
  · rename_i h
    have t0 : (s.axis c.axis).travelling = false := by
      cases e : (s.axis c.axis).travelling
      · rfl
      · exact absurd h (ht e)
    refine ⟨fun b _ => ⟨rfl, rfl⟩, ?_, ?_, rfl, ?_, fun d => ?_, ?_, rfl, fun b hb => ?_⟩
    · rw [if_pos h]; rfl
    · rw [t0]; rfl
    · rw [if_pos h]; rfl
    · show s.chan d = _
      split
      · rename_i hd; rw [hd, h]
      · rfl
    · rw [t0]; rfl
    · cases b <;> first | rfl | exact absurd (by decide) hb
  · rename_i h
    have S := shut_change s c st hst h
    unfold channelChange
    simp only [] at S ⊢
    generalize State.setAxis _ _ _ = u at S ⊢
    split
    · obtain ⟨o, m, k, p, j, ch, d, r⟩ := S
      unfold endLowering
      have ax : ∀ b, ((raise (axsRelease u .mast) .windStopped).axis b).shows = (u.axis b).shows := by
        intro b; unfold State.axis; rw [axs_raise]; cases b <;> rfl
      have jg : ∀ b, (raise (axsRelease u .mast) .windStopped).jog b = u.jog b := by
        intro b; unfold State.jog; rw [mgt_raise]; rfl
      have mm : ∀ b, ((raise (axsRelease u .mast) .windStopped).axis b).motion = (u.axis b).motion := fun b => congrArg (·.1) (ax b)
      have ss : ∀ b, ((raise (axsRelease u .mast) .windStopped).axis b).stopping = (u.axis b).stopping := fun b => congrArg (·.2.1) (ax b)
      have pp : ∀ b, ((raise (axsRelease u .mast) .windStopped).axis b).position = (u.axis b).position := fun b => congrArg (·.2.2) (ax b)
      refine ⟨fun b hb => ?_, by rw [mm]; exact m, by rw [ss]; exact k, by rw [pp]; exact p, by rw [jg]; exact j, fun e => ?_, ?_, ?_⟩
      · rw [ax, jg]; exact o b hb
      · refine Eq.trans ?_ (ch e)
        unfold State.chan; rw [axs_raise]; exact congrArg (·.get e) (Axs.channels_set_axis _ _ _)
      · rw [out_raise]; exact d
      · have q : sameBut [.axs, .mgt, .ntu, .lnu, .drive] u (raise (axsRelease u .mast) .windStopped) := by
          refine ⟨by rw [pending_raise]; rfl, fun b hb => ?_⟩
          cases b <;> first | (exact absurd (by decide) hb) | (unfold Block.same; simp; done) | (unfold Block.same; simp; rfl)
        exact r.trans q
    · exact S

/-- R82: the state of a channel of a parked part. -/
def parkedState (s : State) (c : Channel) : ChanState := if keptOn s.dsq.keepOn c then .low else .off

/-- R82: one channel of a PARK. -/
def parkStep (s : State) (c : Channel) : State := axsChannel s c (parkedState s c)

theorem parkedState_ne_full (s : State) (c : Channel) : parkedState s c ≠ .full := by unfold parkedState; split <;> decide

theorem parkedState_congr {s t : State} (h : t.dsq = s.dsq) (c : Channel) : parkedState t c = parkedState s c := by
  unfold parkedState; rw [h]

/-- A motion that a channel in another state than FULL leaves is not one of travel. -/
theorem restMotion_at_rest (c : Channel) (st : ChanState) (m : Motion) (h : m ≠ .moving ∧ m ≠ .jogging) :
    restMotion c st m ≠ .moving ∧ restMotion c st m ≠ .jogging := by
  obtain ⟨h1, h2⟩ := h
  cases c <;> cases st <;> cases m <;> first | exact absurd rfl h1 | exact absurd rfl h2 | decide

theorem AxisRec.travelling_iff (r : AxisRec) : r.travelling = true ↔ r.motion = .moving ∨ r.motion = .jogging := by
  unfold AxisRec.travelling; simp

theorem AxisRec.travelling_eq_of_motion {r q : AxisRec} (h : r.motion = q.motion) : r.travelling = q.travelling := by
  unfold AxisRec.travelling; rw [h]

/-- What is left of the motion of an axis by the channel that moves it. -/
def AxisRec.parked (r : AxisRec) (old st : ChanState) : Motion :=
  if old = st then r.motion else if r.motion = .halted then .halted else if st = .off then .off else .idle

theorem parked_of_shut {s t : State} {a : Axis} {st : ChanState} (S : Shut s (moveChannel a) st t) (hst : st ≠ .full) :
    (t.axis a).motion = (s.axis a).parked (s.chan (moveChannel a)) st := by
  have ca : (moveChannel a).axis = a := by cases a <;> rfl
  have h := S.motion
  rw [ca] at h; rw [h]
  unfold AxisRec.parked
  split
  · rfl
  · unfold AxisRec.travelling
    generalize (s.axis a).motion = m
    cases a <;> cases m <;> cases st <;> first | exact absurd rfl hst | rfl

/-- R12, R13, R63, R82: what the channels of a PARK do to the axes. -/
structure ChannelsParked (s t : State) : Prop where
  motion : ∀ a, (t.axis a).motion = (s.axis a).parked (s.chan (moveChannel a)) (parkedState s (moveChannel a))
  stopping : ∀ a, (t.axis a).stopping = ((s.axis a).travelling || (s.axis a).stopping)
  jog : ∀ a, s.chan (moveChannel a) ≠ parkedState s (moveChannel a) → t.jog a = none
  drive : t.out.drive = s.out.drive ++ allChannels.flatMap fun c =>
    (if c ≠ .lock ∧ (s.axis c.axis).travelling = true then [.stop c.axis] else []) ++ [.channel c (parkedState s c)]

theorem channelsParked (s : State) (h : ∀ a, (s.axis a).travelling = true → s.chan (moveChannel a) = .full) :
    ChannelsParked s (channelsToPark s) := by
  have nf := parkedState_ne_full s
  -- one channel after the other
  have go : ∀ (u : State) (c : Channel), u.dsq = s.dsq → ((u.axis c.axis).travelling = true → u.chan c ≠ parkedState s c) →
      Shut u c (parkedState s c) (parkStep u c) := by
    intro u c hd ht
    unfold parkStep; rw [parkedState_congr hd]
    exact shut_axsChannel u c _ (nf c) ht
  have un : channelsToPark s = parkStep (parkStep (parkStep (parkStep (parkStep s .lift) .lock) .pan) .tilt) .pol := by
    have f : channelsToPark s = allChannels.foldl parkStep s := rfl
    rw [f]; simp only [allChannels, List.foldl]
  have S1 := go s .lift rfl (fun ht => by
    have := h .mast ht
    rw [show s.chan .lift = .full from this]; exact (nf .lift).symm)
  rw [un]
  generalize parkStep s .lift = u1 at S1 ⊢
  have d1 : u1.dsq = s.dsq := S1.rest.2 .dsq (by decide)
  have m1 : (u1.axis .mast).motion = (s.axis .mast).parked (s.chan .lift) (parkedState s .lift) :=
    parked_of_shut (a := .mast) S1 (nf .lift)
  have t1 : (u1.axis .mast).travelling = false := by
    rw [Bool.eq_false_iff]; intro k
    have k := (AxisRec.travelling_iff _).mp k
    rw [m1] at k
    unfold AxisRec.parked at k
    split at k
    · rename_i e
      exact nf .lift (e.symm.trans (h .mast ((AxisRec.travelling_iff _).mpr k)))
    · split at k
      · simp at k
      · split at k <;> simp at k
  have S2 := go u1 .lock d1 (fun ht => by rw [show (u1.axis Channel.lock.axis) = u1.axis .mast from rfl, t1] at ht; cases ht)
  generalize parkStep u1 .lock = u2 at S2 ⊢
  have d2 : u2.dsq = s.dsq := (S2.rest.2 .dsq (by decide) : u2.dsq = u1.dsq).trans d1
  -- the records that the first channels leave alone
  have k2 : ∀ b, b ≠ .mast → (u2.axis b).shows = (s.axis b).shows ∧ u2.jog b = s.jog b := fun b hb =>
    ⟨(S2.others b hb).1.trans (S1.others b hb).1, (S2.others b hb).2.trans (S1.others b hb).2⟩
  have mot : ∀ {r q : AxisRec}, r.shows = q.shows → r.motion = q.motion ∧ r.stopping = q.stopping ∧ r.travelling = q.travelling :=
    fun e => ⟨congrArg (·.1) e, congrArg (·.2.1) e, AxisRec.travelling_eq_of_motion (congrArg (·.1) e)⟩
  have ch2 : ∀ c, c ≠ .lift → c ≠ .lock → u2.chan c = s.chan c := fun c h1 h2 => by rw [S2.chan, if_neg h2, S1.chan, if_neg h1]
  have S3 := go u2 .pan d2 (fun ht => by
    rw [ch2 _ (by decide) (by decide)]
    have := h .pan ((mot (k2 .pan (by decide)).1).2.2.symm.trans ht)
    rw [show s.chan .pan = .full from this]; exact (nf .pan).symm)
  generalize parkStep u2 .pan = u3 at S3 ⊢
  have d3 : u3.dsq = s.dsq := (S3.rest.2 .dsq (by decide) : u3.dsq = u2.dsq).trans d2
  have k3 : ∀ b, b ≠ .mast → b ≠ .pan → (u3.axis b).shows = (s.axis b).shows ∧ u3.jog b = s.jog b := fun b hb hc =>
    ⟨(S3.others b hc).1.trans (k2 b hb).1, (S3.others b hc).2.trans (k2 b hb).2⟩
  have ch3 : ∀ c, c ≠ .lift → c ≠ .lock → c ≠ .pan → u3.chan c = s.chan c := fun c h1 h2 h3 => by
    rw [S3.chan, if_neg h3, ch2 c h1 h2]
  have S4 := go u3 .tilt d3 (fun ht => by
    rw [ch3 _ (by decide) (by decide) (by decide)]
    have := h .tilt ((mot (k3 .tilt (by decide) (by decide)).1).2.2.symm.trans ht)
    rw [show s.chan .tilt = .full from this]; exact (nf .tilt).symm)
  generalize parkStep u3 .tilt = u4 at S4 ⊢
  have d4 : u4.dsq = s.dsq := (S4.rest.2 .dsq (by decide) : u4.dsq = u3.dsq).trans d3
  have k4 : (u4.axis .pol).shows = (s.axis .pol).shows ∧ u4.jog .pol = s.jog .pol :=
    ⟨(S4.others .pol (by decide)).1.trans (k3 .pol (by decide) (by decide)).1,
      (S4.others .pol (by decide)).2.trans (k3 .pol (by decide) (by decide)).2⟩
  have ch4 : u4.chan .pol = s.chan .pol := by rw [S4.chan, if_neg (by decide), ch3 .pol (by decide) (by decide) (by decide)]
  have S5 := go u4 .pol d4 (fun ht => by
    rw [ch4]
    have := h .pol ((mot k4.1).2.2.symm.trans ht)
    rw [show s.chan .pol = .full from this]; exact (nf .pol).symm)
  generalize parkStep u4 .pol = u5 at S5 ⊢
  have m2 : (u2.axis .mast).motion = (u1.axis .mast).motion := by
    have := S2.motion
    rw [show Channel.lock.axis = .mast from rfl, t1] at this
    rw [this]; split <;> rfl
  have par : ∀ {u : State} {a : Axis} {st}, (u.axis a).shows = (s.axis a).shows → u.chan (moveChannel a) = s.chan (moveChannel a) →
      (u.axis a).parked (u.chan (moveChannel a)) st = (s.axis a).parked (s.chan (moveChannel a)) st := by
    intro u a st e1 e2; unfold AxisRec.parked; rw [e2, (mot e1).1]
  have mast5 : (u5.axis .mast).shows = (u2.axis .mast).shows ∧ u5.jog .mast = u2.jog .mast :=
    ⟨(S5.others .mast (by decide)).1.trans ((S4.others .mast (by decide)).1.trans (S3.others .mast (by decide)).1),
      (S5.others .mast (by decide)).2.trans ((S4.others .mast (by decide)).2.trans (S3.others .mast (by decide)).2)⟩
  have pan5 : (u5.axis .pan).shows = (u3.axis .pan).shows ∧ u5.jog .pan = u3.jog .pan :=
    ⟨(S5.others .pan (by decide)).1.trans (S4.others .pan (by decide)).1,
      (S5.others .pan (by decide)).2.trans (S4.others .pan (by decide)).2⟩
  have tilt5 := S5.others .tilt (by decide)
  have k3t := k3 .tilt (by decide) (by decide)
  have k2p := k2 .pan (by decide)
  refine ⟨fun a => ?_, fun a => ?_, fun a hc => ?_, ?_⟩
  · cases a
    · rw [(mot mast5.1).1, m2]; exact m1
    · rw [(mot pan5.1).1, parked_of_shut (a := .pan) S3 (nf .pan)]
      exact par k2p.1 (ch2 .pan (by decide) (by decide))
    · rw [(mot tilt5.1).1, parked_of_shut (a := .tilt) S4 (nf .tilt)]
      exact par k3t.1 (ch3 .tilt (by decide) (by decide) (by decide))
    · rw [parked_of_shut (a := .pol) S5 (nf .pol)]
      exact par k4.1 ch4
  · cases a
    · rw [(mot mast5.1).2.1]
      have := S2.stopping
      rw [show Channel.lock.axis = .mast from rfl, t1] at this
      rw [this]; exact S1.stopping
    · rw [(mot pan5.1).2.1]
      have := S3.stopping
      rw [show Channel.pan.axis = .pan from rfl] at this
      rw [this, (mot k2p.1).2.1, (mot k2p.1).2.2]
    · rw [(mot tilt5.1).2.1]
      have := S4.stopping
      rw [show Channel.tilt.axis = .tilt from rfl] at this
      rw [this, (mot k3t.1).2.1, (mot k3t.1).2.2]
    · have := S5.stopping
      rw [show Channel.pol.axis = .pol from rfl] at this
      rw [this, (mot k4.1).2.1, (mot k4.1).2.2]
  · cases a
    · rw [mast5.2]
      have j := S2.jog
      rw [show Channel.lock.axis = .mast from rfl] at j
      rw [j]; split
      · exact S1.jog.trans (if_neg hc)
      · rfl
    · rw [pan5.2]
      exact S3.jog.trans (if_neg (by rw [ch2 .pan (by decide) (by decide)]; exact hc))
    · rw [tilt5.2]
      exact S4.jog.trans (if_neg (by rw [ch3 .tilt (by decide) (by decide) (by decide)]; exact hc))
    · exact S5.jog.trans (if_neg (by rw [ch4]; exact hc))
  · rw [S5.drive, S4.drive, S3.drive, S2.drive, S1.drive]
    rw [show Channel.lock.axis = .mast from rfl, show Channel.lift.axis = .mast from rfl, show Channel.pan.axis = .pan from rfl,
      show Channel.tilt.axis = .tilt from rfl, show Channel.pol.axis = .pol from rfl, t1, (mot k2p.1).2.2, (mot k3t.1).2.2,
      (mot k4.1).2.2]
    simp [allChannels, Channel.axis, List.append_assoc]

/-- What the channels of a PARK leave alone. -/
theorem channelsToPark_rest (s : State) :
    (channelsToPark s).acq = s.acq ∧ (channelsToPark s).dsq = s.dsq ∧ (channelsToPark s).txc = s.txc ∧
    (channelsToPark s).wsm = s.wsm ∧ (channelsToPark s).sites = s.sites ∧
    (∀ c, (channelsToPark s).chan c = parkedState s c) ∧
    ∀ a, ((channelsToPark s).axis a).position = (s.axis a).position := by
  let P : State → Prop := fun t => t.acq = s.acq ∧ t.dsq = s.dsq ∧ t.txc = s.txc ∧ t.wsm = s.wsm ∧ t.sites = s.sites ∧
    ∀ a, (t.axis a).position = (s.axis a).position
  have h : Steady P := ⟨fun _ h => h, fun _ h => h, fun _ h => h, fun _ _ _ _ _ _ h => h, fun {u} a r hp _ _ h =>
      ⟨h.1, h.2.1, h.2.2.1, h.2.2.2.1, h.2.2.2.2.1, fun b => by
        by_cases e : b = a
        · subst e; rw [State.axis_setAxis_self]; exact hp.trans (h.2.2.2.2.2 b)
        · rw [State.axis_setAxis_ne _ _ e]; exact h.2.2.2.2.2 b⟩,
    fun _ _ h => h⟩
  have k : P (channelsToPark s) :=
    h.axsChannels (fun s c => some (if keptOn s.dsq.keepOn c then .low else .off)) (s := s) ⟨rfl, rfl, rfl, rfl, rfl, fun _ => rfl⟩
  have ch := chan_axsChannels s (fun s c => some (if keptOn s.dsq.keepOn c then .low else .off))
    (fun _ _ _ h1 _ => by simp only [h1])
  obtain ⟨k1, k2, k3, k4, k5, k6⟩ := k
  exact ⟨k1, k2, k3, k4, k5, fun c => ch c, k6⟩

/-- What the push at a PARK leaves, a context running or not. -/
structure ParkPushed (s u : State) : Prop where
  ctx : u.acq.ctx = none
  idle : s.acq.ctx = none → u.acq = s.acq ∧ u.sites = s.sites
  stack : ∀ c, s.acq.ctx = some c → ∃ e rest, u.acq.stack = e :: rest ∧ e.row = c.row ∧ e.cause = .park ∧
    (s.acq.stack.length < 3 → rest = s.acq.stack)
  row : ∀ c, s.acq.ctx = some c → ∀ e, s.sites[c.row]? = some e → (e.state = .acquiring ∨ e.state = .tracked) →
    u.sites[c.row]? = some { e with state := .suspended, learned := { e.learned with cause := .none } }
  dsq : u.dsq = s.dsq
  deploy : u.txc.deploy = s.txc.deploy
  wsm : u.wsm = s.wsm
  channels : ∀ c, u.chan c = s.chan c
  shows : ∀ a, (u.axis a).shows = if s.acq.ctx.isSome && a ≠ .mast && (s.axis a).motion = .moving then
    (.idle, true, (s.axis a).position) else (s.axis a).shows
  jog : ∀ a, u.jog a = if s.acq.ctx.isSome && a ≠ .mast && (s.axis a).motion = .moving then none else s.jog a
  drive : u.out.drive = s.out.drive ++ ([Axis.pan, .tilt, .pol].filter fun a =>
    s.acq.ctx.isSome && a ≠ .mast && (s.axis a).motion = .moving).map DriveFrame.stop

theorem parkPushed_acqPush (s : State) : ParkPushed s (acqPush s .park none) := by
  cases hc : s.acq.ctx with
  | none =>
    have e : acqPush s .park none = s := by unfold acqPush; rw [hc]
    rw [e]
    refine ⟨hc, fun _ => ⟨rfl, rfl⟩, fun c h => ?_, fun c h => ?_, rfl, rfl, rfl, fun _ => rfl, fun a => ?_, fun a => ?_, ?_⟩
    · rw [hc] at h; cases h
    · rw [hc] at h; cases h
    all_goals simp [hc]
  | some c =>
    have P := pushed_acqPush hc .park none
    obtain ⟨a1, a2, a3, -⟩ := acqPush_axes hc .park none
    obtain ⟨z1, z2, z3⟩ := stopSearch_does s none
    obtain ⟨rest, hr, hr2⟩ := P.stack
    refine ⟨P.ctx, fun h => ?_, fun c' h => ?_, fun c' h e he hst => ?_, P.dsq, P.deploy, P.wsm, fun d => ?_, fun a => ?_, fun a => ?_, ?_⟩
    · rw [hc] at h; cases h
    · rw [hc] at h; cases h
      refine ⟨_, rest, hr, ?_, ?_, hr2⟩ <;> (unfold stackEntryOf; split <;> rfl)
    · rw [hc] at h; cases h
      obtain ⟨l, hl, hs⟩ := P.sites
      have l1 : l[c.row]? = some e := by
        rcases hl with rfl | ⟨r, rfl⟩
        · exact he
        · rw [List.getElem?_modify, he]
          have : e.change [.suspended] .loaded none = e := by
            unfold Entry.change; rcases hst with h | h <;> simp [h]
          split <;> first | exact congrArg some this | rfl
      rw [hs, List.getElem?_modify_eq, l1]
      unfold Entry.change runningStates pushCause
      rcases hst with h | h <;> simp [h]
    · unfold State.chan; rw [P.channels]
    · rw [a1]
      by_cases hm : a = .mast
      · simp [hm]
      · rw [if_neg hm]
        show ((stopSearch s none).axis a).shows = _
        rw [z1]
        by_cases hv : (s.axis a).motion = .moving
        · simp [hm, hv, hc, AxisRec.shows, AxisRec.stopped]
        · simp [hm, hv]
    · rw [a3, z3]; simp [hc]
    · rw [a2, z2]
      simp [hc, List.filter]

theorem moveChannel_full {s : State} {a : Axis} (h : channelsFull s a = true) : s.chan (moveChannel a) = .full := by
  unfold channelsFull at h
  simp only [Bool.and_eq_true, decide_eq_true_eq] at h
  exact h.1

/-- R13, R63, R82, R163, R164: a PARK that is taken, as the statements say it, up to the re-judgement. -/
theorem parks_parkTaken (s : State) (ha : s.agrees) (hd : s.dsq.deploy = .deployed) :
    ∃ u, parkTaken s = rejudgeInHold u ∧ s.parks u := by
  have P := parkPushed_acqPush s
  refine ⟨setDeploy (channelsToPark (acqPush s .park none)) .parked, rfl, ?_⟩
  generalize acqPush s .park none = p at P
  obtain ⟨r1, r2, r3, r4, r5, r6, r7⟩ := channelsToPark_rest p
  have C := channelsParked p
  generalize channelsToPark p = v at r1 r2 r3 r4 r5 r6 r7 C
  have vt : v.txc.deploy = .deployed := by rw [r3, P.deploy, ha.1, hd]
  obtain ⟨j1, j2, j3, j4, j5, j6⟩ := judged_keeps v.txc (v.txc.handDeploy .parked)
  have dd : v.dsq = s.dsq := r2.trans P.dsq
  have ps : ∀ c, parkedState p c = if keptOn s.dsq.keepOn c then .low else .off := by
    intro c; unfold parkedState; rw [P.dsq]
  have sh : ∀ a, (p.axis a).position = (s.axis a).position := by
    intro a
    have := congrArg (·.2.2) (P.shows a)
    refine Eq.trans this ?_
    split <;> rfl
  unfold State.parks
  intro state early channel
  refine ⟨?_, ?_, fun hc => ?_, fun c hc => ⟨?_, fun e he hst => ?_⟩, fun c => ?_, ?_, ?_, ?_, ?_, fun a => ?_, fun hfull => ?_⟩
  · show ({ v.dsq with deploy := .parked } : Dsq) = _; rw [dd]
  · show v.acq.ctx = none; rw [r1]; exact P.ctx
  · show v.acq = s.acq ∧ v.sites = s.sites
    rw [r1, r5]; exact P.idle hc
  · show ∃ e rest, v.acq.stack = e :: rest ∧ _
    rw [r1]; exact P.stack c hc
  · show v.sites[c.row]? = _; rw [r5]; exact P.row c hc e he hst
  · show v.chan c = _; rw [r6, ps]
  · show (v.txc.judged (v.txc.handDeploy .parked)).deploy = _
    rw [j1]; unfold Txc.handDeploy; split <;> rfl
  · show (v.txc.judged (v.txc.handDeploy .parked)).latch = _
    rw [j4]; unfold Txc.handDeploy; rw [if_pos ⟨vt, by decide⟩]
  · show (v.txc.judged (v.txc.handDeploy .parked)).mute = _
    rw [j5]; unfold Txc.handDeploy; rw [if_pos ⟨vt, by decide⟩]
  · show v.wsm = s.wsm; rw [r4, P.wsm]
  · exact (r7 a).trans (sh a)
  · have hfull : ∀ a, (s.axis a).travelling = true → s.chan (moveChannel a) = .full := fun a ht =>
      moveChannel_full (hfull a ht)
    have mp : ∀ a, (p.axis a).motion = if early a then .idle else (s.axis a).motion := by
      intro a
      refine Eq.trans (congrArg (·.1) (P.shows a)) ?_
      show (if early a = true then _ else _ : Motion × Bool × Option Int).1 = _
      split <;> rfl
    have sp : ∀ a, (p.axis a).stopping = (early a || (s.axis a).stopping) := by
      intro a
      refine Eq.trans (congrArg (·.2.1) (P.shows a)) ?_
      show (if early a = true then _ else _ : Motion × Bool × Option Int).2.1 = _
      cases early a <;> rfl
    have em : ∀ a, early a = true → (s.axis a).motion = .moving := by
      intro a h; simp only [early, Bool.and_eq_true, decide_eq_true_eq] at h; exact h.2
    have tp : ∀ a, (p.axis a).travelling = ((s.axis a).travelling && !early a) := by
      intro a
      unfold AxisRec.travelling; rw [mp]
      cases h : early a
      · simp
      · simp
    have C := C fun a h => by
      rw [P.channels]; apply hfull
      rw [tp] at h; simp only [Bool.and_eq_true] at h; exact h.1
    have nf : ∀ c, state c ≠ .full := by intro c; simp only [state]; split <;> decide
    have cf : ∀ c, p.chan c = s.chan c := P.channels
    have et : ∀ a, early a = true → (s.axis a).travelling = true := fun a h => (AxisRec.travelling_iff _).mpr (Or.inl (em a h))
    refine ⟨fun a => ?_, ?_⟩
    · intro r changes
      have mv : (v.axis a).motion = (p.axis a).parked (s.chan (moveChannel a)) (state (moveChannel a)) := by
        rw [C.motion, cf, ps]
      refine ⟨fun h => ?_, fun h => ?_, fun h => ?_, fun h => ?_⟩
      · show (v.axis a).motion = _
        rw [mv]; unfold AxisRec.parked; rw [if_neg h, mp]
        cases he : early a
        · rfl
        · show _ = if (s.axis a).motion = .halted then _ else _
          rw [em a he]; rfl
      · have ne : early a = false := by
          cases he : early a
          · rfl
          · exact absurd (show s.chan (moveChannel a) ≠ state (moveChannel a) by rw [hfull a (et a he)]; exact (nf _).symm) h
        show (v.axis a).motion = _
        rw [mv]; unfold AxisRec.parked; rw [if_pos (not_not.mp h), mp, ne]; rfl
      · show (v.axis a).stopping = true
        rw [C.stopping, sp, tp, show (s.axis a).travelling = true from h]
        cases early a <;> rfl
      · show v.jog a = none
        exact C.jog a (by rw [cf, ps]; exact h)
    · show v.out.drive = _
      rw [C.drive, P.drive]
      have fl : ∀ c, ((if c ≠ .lock ∧ (p.axis c.axis).travelling = true then [DriveFrame.stop c.axis] else []) ++ [DriveFrame.channel c (parkedState p c)]) = channel c := by
        intro c
        show _ = (if c ≠ .lock ∧ (s.axis c.axis).travelling = true ∧ early c.axis = false then [DriveFrame.stop c.axis] else []) ++
          [DriveFrame.channel c (state c)]
        rw [ps, tp]
        simp only [Bool.and_eq_true, Bool.not_eq_true']
        rfl
      simp only [fl]; rfl

end Sys2Proof.Machine
end

