-- ==== Sys2Proof/Laws/PerInstr.lean ====
section
/-! SUPPORT. Statements made of every command, one lemma for each constructor. `Form`: the frame that carries a well-formed
command fits the envelope, and sorting it gives the command back. -/

namespace Sys2Proof.Laws.Form

open Sys2Proof Sys2Proof.Machine

/-- The frame that carries a command is the command's own. -/
def Statement (i : Instr) : Prop :=
  i.wf = true → ∀ p f, frameOf i = some (p, f) →
    sortFrame p f = i ∧ f.payload.length ≤ 24 ∧ f.address.toNat < 32

/-- A command that is no frame. -/
theorem of_none {i : Instr} (h : frameOf i = none) : Statement i := by
  intro _ p f e
  rw [h] at e
  cases e

/-- A command carried by one frame. -/
theorem of_some {i : Instr} {p : Port} {f : Frame} (h : frameOf i = some (p, f))
    (k : i.wf = true → sortFrame p f = i ∧ f.payload.length ≤ 24 ∧ f.address.toNat < 32) : Statement i := by
  intro w q g e
  rw [h] at e
  cases e
  exact k w

/-- A frame to a drive. -/
theorem ofDrive {i : Instr} {a : Axis} {k : Nat} {y : List Byte} (h : frameOf i = toDrive a k y) (hk : k < 256)
    (w : i.wf = true → sortMotion a k y = i) (hy : y.length ≤ 24) : Statement i := by
  refine of_some h fun hw => ⟨?_, hy, ?_⟩
  · simp only [sortFrame, sortUpstream, axisOfNode_byte, toNat_byteOf hk]
    exact w hw
  · show (byteOf (axisNode a)).toNat < 32
    cases a <;> decide

/-- A request to the part. -/
theorem ofPart {i : Instr} {k : Nat} {y : List Byte} (h : frameOf i = toPart k y) (hk : k < 256)
    (w : i.wf = true → sortRequest k y = i) (hy : y.length ≤ 24) : Statement i := by
  refine of_some h fun hw => ⟨?_, hy, by show (0#8).toNat < 32; decide⟩
  simp only [sortFrame, sortUpstream, toNat_byteOf hk]
  exact w hw

theorem sort_read (t r f : Byte) : sortRequest kindRead [t, r, f] = sortRead t.toNat r.toNat f.toNat := rfl
theorem sort_write (t r f a b c d : Byte) :
    sortRequest kindWrite [t, r, f, a, b, c, d] = sortWrite t.toNat r.toNat f.toNat (s32 a b c d) := rfl
theorem sort_deploy (h l : Byte) : sortRequest kindDeploy [h, l] = .deploy (some (u16 h l : Nat)) := rfl
theorem sort_acquire (r : Byte) : sortRequest kindAcquire [r] = .acquire r.toNat := rfl

/-- A READ. -/
theorem ofRead {i : Instr} {t r f : Nat} (h : frameOf i = readFrameOf t r f)
    (w : i.wf = true → t < 256 ∧ r < 256 ∧ f < 256 ∧ sortRead t r f = i) : Statement i := by
  refine ofPart h (by decide) (fun hw => ?_) (by simp)
  obtain ⟨ht, hr, hf, e⟩ := w hw
  rw [sort_read, toNat_byteOf ht, toNat_byteOf hr, toNat_byteOf hf]
  exact e

/-- A WRITE. -/
theorem ofWrite {i : Instr} {t r f : Nat} {v : Int} (h : frameOf i = writeFrameOf t r f v)
    (w : i.wf = true → t < 256 ∧ r < 256 ∧ f < 256 ∧ fitsS32 v = true ∧ sortWrite t r f v = i) : Statement i := by
  refine ofPart h (by decide) (fun hw => ?_) (by simp [be32])
  obtain ⟨ht, hr, hf, hv, e⟩ := w hw
  simp only [be32, List.cons_append, List.nil_append]
  rw [sort_write, toNat_byteOf ht, toNat_byteOf hr, toNat_byteOf hf, s32_be32 hv]
  exact e

/-- A page of the site. -/
theorem ofPage {i : Instr} {k : Nat} {y : List Byte} (h : frameOf i = pageOf k y) (hk : 0x50 ≤ k ∧ k ≤ 0x55)
    (w : i.wf = true → (pageFields k y).getD .malformedPage = i) (hy : y.length ≤ 24) : Statement i := by
  refine of_some h fun hw => ⟨?_, hy, by show (0#8).toNat < 32; decide⟩
  simp only [sortFrame, sortSite, toNat_byteOf (show k < 256 by omega)]
  rw [if_pos ⟨by decide, hk⟩]
  exact w hw

/-- A frame of the drive line. -/
theorem ofDriveLine {i : Instr} {n k : Nat} {y : List Byte} (h : frameOf i = fromDrive n k y)
    (w : i.wf = true → 1 ≤ n ∧ n ≤ 31 ∧ k < 256 ∧ y.length ≤ 24 ∧ (driveReport n k y).getD (.driveFrameForward n k y) = i) :
    Statement i := by
  refine of_some h fun hw => ?_
  obtain ⟨h1, h2, hk, hy, e⟩ := w hw
  have hn : n < 256 := by omega
  refine ⟨?_, hy, ?_⟩
  · simp only [sortFrame, sortDrive, toNat_byteOf hn, toNat_byteOf hk]
    rw [if_neg (by omega)]
    exact e
  · show (byteOf n).toNat < 32
    rw [toNat_byteOf hn]; omega


/-- A drive frame that has no row of its own is no report that the part takes. -/
theorem driveReport_none {n k : Nat} {y : List Byte} (h : isDriveReport n k y = false) : driveReport n k y = none := by
  have hb : ∀ b : Byte, bitByte b ≠ none → b.toNat ≤ 1 := by
    intro b hb
    unfold bitByte boolOf at hb
    split at hb
    · omega
    · omega
    · exact absurd rfl hb
  unfold driveReport
  split
  · rename_i hk
    cases ha : axisOfNode n with
    | none => rfl
    | some a =>
      have h3 : 1 ≤ n ∧ n ≤ 4 := by
        unfold axisOfNode at ha
        split at ha <;> first | omega | cases ha
      simp only [Option.bind_some]
      unfold positionFields
      split
      · rename_i x1 x2 m x c
        split
        · rename_i m1 f1 em ef
          have h1 := hb m (by rw [em]; simp)
          have h2 := hb x (by rw [ef]; simp)
          simp [isDriveReport, h1, h2, h3, hk, kindPosition] at h
        · rfl
      · rfl
  · split
    · split
      · rename_i hn
        simp [isDriveReport, hn, kindWind] at h
      · rfl
    · split
      · rename_i hn
        simp [isDriveReport, hn, kindSlope] at h
      · rfl
    · rfl

theorem powerOnReset (cause) : Statement (.powerOnReset cause) := of_none rfl

theorem parkInRelease : Statement .parkInRelease := of_none rfl

theorem parkInAssert : Statement .parkInAssert := of_none rfl

theorem stowInAssert : Statement .stowInAssert := of_none rfl

theorem stowInRelease : Statement .stowInRelease := of_none rfl

theorem frameDiscarded (port) : Statement (.frameDiscarded port) := of_none rfl

theorem consoleMove (axis) (fields) : Statement (.consoleMove axis fields) := by
  refine ofDrive rfl (by decide) (fun hw => ?_) ?_
  · match fields with
    | none => rfl
    | some ⟨t, p, none⟩ =>
      simp only [Instr.wf, Option.all_none, Bool.and_true] at hw
      simp only [kindMove, sortMotion, movePayload, be16, List.cons_append, List.nil_append, moveFields, priorityOf_code,
        Option.map_some, s16_be16 hw]
    | some ⟨t, p, some r⟩ =>
      simp only [Instr.wf, Option.all_some, Bool.and_eq_true] at hw
      have hr : r < 65536 := by simpa [fitsU16] using hw.2
      simp only [kindMove, sortMotion, movePayload, be16, List.cons_append, List.nil_append, moveFields, priorityOf_code,
        Option.map_some, s16_be16 hw.1, u16_be16_nat hr]
  · match fields with
    | none => decide
    | some ⟨t, p, none⟩ => simp [movePayload, be16]
    | some ⟨t, p, some r⟩ => simp [movePayload, be16]

theorem consoleJog (axis) (fields) : Statement (.consoleJog axis fields) := by
  refine ofDrive rfl (by decide) (fun hw => ?_) ?_
  · match fields with
    | none => rfl
    | some ⟨d, p, r⟩ =>
      have hr : r < 65536 := by simpa [Instr.wf, fitsU16] using hw
      simp only [kindJog, sortMotion, jogPayload, be16, List.cons_append, List.nil_append, jogFields, priorityOf_code,
        dirOf_code, u16_be16_nat hr]
  · match fields with
    | none => decide
    | some ⟨d, p, r⟩ => simp [jogPayload, be16]

theorem consoleStop (axis) (priority) : Statement (.consoleStop axis priority) := by
  refine ofDrive rfl (by decide) (fun _ => ?_) ?_
  · cases priority with
    | none => rfl
    | some p => simp only [kindStop, sortMotion, stopPayload, stopFields, priorityOf_code]
  · match priority with
    | none => decide
    | some p => simp [stopPayload]

theorem consoleSelect (axis) (fields) : Statement (.consoleSelect axis fields) := by
  refine ofDrive rfl (by decide) (fun _ => ?_) ?_
  · match fields with
    | none => rfl
    | some ⟨x, p⟩ => simp only [kindSelect, sortMotion, selectPayload, selectFields, priorityOf_code, selOf_code]
  · match fields with
    | none => decide
    | some ⟨x, p⟩ => simp [selectPayload]

theorem consoleChannel (axis) : Statement (.consoleChannel axis) := by
  exact ofDrive rfl (by decide) (fun _ => rfl) (by decide)

theorem consoleOtherKind (axis) (kind) : Statement (.consoleOtherKind axis kind) := by
  intro hw
  have h : kind < 256 ∧ (kind = 0 ∨ 5 < kind) := by simpa [Instr.wf, fitsU8, isMotionKind] using hw
  refine ofDrive rfl h.1 (fun _ => ?_) (by decide) hw
  unfold sortMotion
  split <;> first | omega | rfl

theorem accessoryFrame (node) (kind) (payload) : Statement (.accessoryFrame node kind payload) := by
  refine of_some rfl fun hw => ?_
  have h : ((5 ≤ node ∧ node ≤ 31) ∧ kind < 256) ∧ payload.length ≤ 24 := by simpa [Instr.wf, fitsU8] using hw
  obtain ⟨⟨⟨h1, h2⟩, h3⟩, h4⟩ := h
  have hn : node < 256 := by omega
  refine ⟨?_, h4, ?_⟩
  · have ha : axisOfNode node = none := by
      unfold axisOfNode
      split <;> first | omega | rfl
    simp only [sortFrame, sortUpstream, toNat_byteOf hn, toNat_byteOf h3, ha]
    rw [if_neg (by omega)]
  · show (byteOf node).toNat < 32
    rw [toNat_byteOf hn]; omega

theorem position (axis) (pos) (moving) (fault) (code) : Statement (.position axis pos moving fault code) := by
  refine ofDriveLine rfl fun hw => ?_
  have h : fitsS16 pos = true ∧ code < 256 := by simpa [Instr.wf, fitsU8] using hw
  refine ⟨by cases axis <;> decide, by cases axis <;> decide, by decide, by simp [positionPayload, be16], ?_⟩
  have ha : axisOfNode (axisNode axis) = some axis := by cases axis <;> rfl
  simp only [driveReport, if_true, positionPayload, be16, List.cons_append, List.nil_append, ha, Option.bind_some,
    positionFields, bitByte_code, s16_be16 h.1, toNat_byteOf h.2, Option.getD_some]

theorem wind (speed) : Statement (.wind speed) := by
  refine ofDriveLine rfl fun hw => ?_
  refine ⟨by decide, by decide, by decide, by simp [be16], ?_⟩
  simp only [driveReport, be16, s16_be16 (show fitsS16 speed = true from hw)]
  rfl

theorem slope (roll) (pitch) : Statement (.slope roll pitch) := by
  refine ofDriveLine rfl fun hw => ?_
  have h : fitsS16 roll = true ∧ fitsS16 pitch = true := by simpa [Instr.wf] using hw
  refine ⟨by decide, by decide, by decide, by simp [be16], ?_⟩
  simp only [driveReport, be16, List.cons_append, List.nil_append, s16_be16 h.1, s16_be16 h.2]
  rfl

theorem driveFrameForward (node) (kind) (payload) : Statement (.driveFrameForward node kind payload) := by
  refine ofDriveLine rfl fun hw => ?_
  have h : (((1 ≤ node ∧ node ≤ 31) ∧ kind < 256) ∧ payload.length ≤ 24) ∧ isDriveReport node kind payload = false := by
    simpa [Instr.wf, fitsU8] using hw
  obtain ⟨⟨⟨⟨h1, h2⟩, h3⟩, h4⟩, h5⟩ := h
  refine ⟨h1, h2, h3, h4, ?_⟩
  rw [driveReport_none h5, Option.getD_none]

theorem ability (bands) (pols) (periods) (ack) : Statement (.ability bands pols periods ack) := by
  refine ofPage rfl (by decide) (fun _ => ?_) (by simp)
  have hb : (bands.setWidth 8).toNat < 16 := by have := bands.isLt; simp; omega
  have hp : (pols.setWidth 8).toNat < 4 := by have := pols.isLt; simp; omega
  have ht : (periods.setWidth 8).toNat < 8 := by have := periods.isLt; simp; omega
  simp only [pageFields, if_true, abilityFields, bitByte_code, Option.map_some]
  rw [if_pos ⟨hb, hp, ht⟩]
  simp

theorem choiceEcho (choice) (toggle) : Statement (.choiceEcho choice toggle) := by
  refine ofPage rfl (by decide) (fun _ => ?_) (by simp [choicePayload])
  simp only [pageFields, choicePayload, choiceFields, bandOf_code, polOf_code, periodOf_code, bitByte_code]
  rfl

theorem ident (code) : Statement (.ident code) := by
  refine ofPage rfl (by decide) (fun hw => ?_) (by simp [be16])
  have h : 1 ≤ code ∧ code < 65536 := by simpa [Instr.wf, fitsU16] using hw
  show (identFields (be16 code)).getD .malformedPage = _
  simp only [identFields, be16, u16_be16_nat h.2]
  rw [if_neg (by omega)]
  rfl

theorem report (seq) (level) (valid) : Statement (.report seq level valid) := by
  refine ofPage rfl (by decide) (fun hw => ?_) (by simp [be16])
  have h : (seq < 256 ∧ fitsS16 level = true) ∧ (valid = false ∨ (-1300 ≤ level ∧ level ≤ -100)) := by
    simpa [Instr.wf, fitsU8] using hw
  show (reportFields ([byteOf seq] ++ be16 level ++ [byteOf (boolCode (!valid))])).getD .malformedPage = _
  simp only [be16, List.cons_append, List.nil_append, reportFields, bitByte_code, s16_be16 h.1.2, toNat_byteOf h.1.1]
  rw [if_pos (by cases valid <;> simp_all)]
  simp

theorem inboundNoEffectPage (page) : Statement (.inboundNoEffectPage page) := by
  cases page
  · exact ofPage rfl (by decide) (fun _ => rfl) (by decide)
  · exact ofPage rfl (by decide) (fun _ => rfl) (by decide)

theorem malformedPage : Statement .malformedPage := by
  exact ofPage rfl (by decide) (fun _ => by simp [pageFields, identFields, u16]) (by decide)

theorem read (table) (row) (field) : Statement (.read table row field) := by
  refine ofRead rfl fun hw => ?_
  have h : ((table < 256 ∧ row < 256) ∧ field < 256) ∧ ¬ ((table = 10 ∧ row = 0 ∧ field = 1) ∨ (table = 9 ∧ row < 8 ∧ field = 0)) := by
    simpa [Instr.wf, fitsU8, isSpecialRead, imp_iff_not_or] using hw
  refine ⟨h.1.1.1, h.1.1.2, h.1.2, ?_⟩
  unfold sortRead
  rw [if_neg (fun c => h.2 (Or.inl c)), if_neg (fun c => h.2 (Or.inr c))]

theorem readSiteUp : Statement .readSiteUp := by
  exact ofRead (t := 10) (r := 0) (f := 1) rfl fun _ => ⟨by decide, by decide, by decide, by unfold sortRead; rw [if_pos ⟨rfl, rfl, rfl⟩]⟩

theorem readNotice (cls) : Statement (.readNotice cls) := by
  refine ofRead rfl fun hw => ?_
  have h : cls < 8 := by simpa [Instr.wf] using hw
  refine ⟨by decide, by omega, by decide, ?_⟩
  unfold sortRead
  rw [if_neg (by omega), if_pos ⟨rfl, h, rfl⟩]

theorem write (table) (row) (field) (value) : Statement (.write table row field value) := by
  refine ofWrite rfl fun hw => ?_
  simp only [Instr.wf, Bool.and_eq_true, fitsU8, decide_eq_true_eq, Bool.not_eq_true', isSpecialWrite,
    decide_eq_false_iff_not] at hw
  obtain ⟨⟨⟨⟨h1, h2⟩, h3⟩, h4⟩, h5⟩ := hw
  refine ⟨h1, h2, h3, decide_eq_true h4, ?_⟩
  unfold sortWrite
  rw [if_neg (by omega), if_neg (by omega)]
  split
  · rename_i ht
    subst ht
    unfold sortEntryWrite
    rw [if_pos (by omega)]
  · split
    · rename_i ht hs
      obtain ⟨rfl, rfl⟩ := hs
      unfold sortSettingsWrite
      split <;> first | omega | rfl
    · rfl

theorem writeZone (row) (field) (value) : Statement (.writeZone row field value) := by
  refine ofWrite rfl fun hw => ?_
  have h : (row < 24 ∧ field < 8) ∧ fitsS32 value = true := by simpa [Instr.wf] using hw
  refine ⟨by decide, by omega, by omega, h.2, ?_⟩
  unfold sortWrite
  rw [if_pos ⟨rfl, h.1⟩]

theorem writeDerateRow (row) (field) (value) : Statement (.writeDerateRow row field value) := by
  refine ofWrite rfl fun hw => ?_
  have h : (row < 8 ∧ field < 5) ∧ fitsS32 value = true := by simpa [Instr.wf] using hw
  refine ⟨by decide, by omega, by omega, h.2, ?_⟩
  unfold sortWrite
  rw [if_neg (by omega), if_pos ⟨rfl, h.1⟩]

theorem writeVanAbilityWord (value) : Statement (.writeVanAbilityWord value) := by
  exact ofWrite (t := 6) (r := 0) (f := 36) rfl fun hw => ⟨by decide, by decide, by decide, hw, by simp [sortWrite, sortSettingsWrite]⟩

theorem writeEntrySetting (row) (field) (value) : Statement (.writeEntrySetting row field value) := by
  refine ofWrite rfl fun hw => ?_
  have h : ((row < 8 ∧ 1 ≤ field) ∧ field ≤ 16) ∧ fitsS32 value = true := by simpa [Instr.wf] using hw
  refine ⟨by decide, by omega, by omega, h.2, ?_⟩
  unfold sortWrite sortEntryWrite
  rw [if_neg (by omega), if_neg (by omega), if_pos rfl, if_neg (by omega), if_neg (by omega)]

theorem writeEntryState (row) (value) : Statement (.writeEntryState row value) := by
  refine ofWrite rfl fun hw => ?_
  have h : row < 8 ∧ fitsS32 value = true := by simpa [Instr.wf] using hw
  refine ⟨by decide, by omega, by decide, h.2, ?_⟩
  unfold sortWrite sortEntryWrite
  rw [if_neg (by omega), if_neg (by omega), if_pos rfl, if_neg (by omega), if_pos rfl]

theorem writeWindSetting (which) (value) : Statement (.writeWindSetting which value) := by
  cases which
  · exact ofWrite (t := 6) (r := 0) (f := 28) rfl fun hw =>
      ⟨by decide, by decide, by decide, hw, by simp [sortWrite, sortSettingsWrite]⟩
  · exact ofWrite (t := 6) (r := 0) (f := 29) rfl fun hw =>
      ⟨by decide, by decide, by decide, hw, by simp [sortWrite, sortSettingsWrite]⟩
  · exact ofWrite (t := 6) (r := 0) (f := 30) rfl fun hw =>
      ⟨by decide, by decide, by decide, hw, by simp [sortWrite, sortSettingsWrite]⟩

theorem unknownRequest (kind) : Statement (.unknownRequest kind) := by
  intro hw
  refine ofPart rfl (show kind < 256 by simpa [Instr.wf, fitsU8] using hw) (fun _ => ?_) (by decide) hw
  rfl

theorem deploy (height) : Statement (.deploy height) := by
  cases height with
  | none => exact ofPart rfl (by decide) (fun _ => rfl) (by decide)
  | some v =>
    refine ofPart rfl (by decide) (fun hw => ?_) (by simp [be16])
    have h : 0 ≤ v ∧ v ≤ 65535 := by simpa [Instr.wf] using hw
    simp only [be16]
    rw [sort_deploy, u16_be16 h.1 (show v < 65536 by omega)]

theorem stow : Statement .stow := by
  exact ofPart rfl (by decide) (fun _ => rfl) (by decide)

theorem park : Statement .park := by
  exact ofPart rfl (by decide) (fun _ => rfl) (by decide)

theorem wake : Statement .wake := by
  exact ofPart rfl (by decide) (fun _ => rfl) (by decide)

theorem clearHold : Statement .clearHold := by
  exact ofPart rfl (by decide) (fun _ => rfl) (by decide)

theorem acquire (row) : Statement (.acquire row) := by
  refine ofPart rfl (by decide) (fun hw => ?_) (by simp)
  have h : row < 256 := by simpa [Instr.wf, fitsU8] using hw
  rw [sort_acquire, toNat_byteOf h]

theorem release : Statement .release := by
  exact ofPart rfl (by decide) (fun _ => rfl) (by decide)

theorem resume : Statement .resume := by
  exact ofPart rfl (by decide) (fun _ => rfl) (by decide)

theorem dropResume : Statement .dropResume := by
  exact ofPart rfl (by decide) (fun _ => rfl) (by decide)

theorem renegotiate : Statement .renegotiate := by
  exact ofPart rfl (by decide) (fun _ => rfl) (by decide)

theorem txOn : Statement .txOn := by
  exact ofPart rfl (by decide) (fun _ => rfl) (by decide)

theorem txOff : Statement .txOff := by
  exact ofPart rfl (by decide) (fun _ => rfl) (by decide)

theorem lineRestart : Statement .lineRestart := by
  exact ofPart rfl (by decide) (fun _ => rfl) (by decide)

theorem reset : Statement .reset := by
  exact ofPart rfl (by decide) (fun _ => rfl) (by decide)

theorem rateChange : Statement .rateChange := of_none rfl

theorem upstreamFrameSent : Statement .upstreamFrameSent := of_none rfl

theorem arrivalTimeout (axis) : Statement (.arrivalTimeout axis) := of_none rfl

theorem silenceWatchExpiry (axis) : Statement (.silenceWatchExpiry axis) := of_none rfl

theorem deadmanExpiry (axis) : Statement (.deadmanExpiry axis) := of_none rfl

theorem slotTimerExpiry : Statement .slotTimerExpiry := of_none rfl

theorem windSilenceExpiry : Statement .windSilenceExpiry := of_none rfl

theorem slopeSilenceExpiry : Statement .slopeSilenceExpiry := of_none rfl

theorem offerTimerExpiry : Statement .offerTimerExpiry := of_none rfl

theorem echoTimerExpiry : Statement .echoTimerExpiry := of_none rfl

theorem reportSilenceExpiry : Statement .reportSilenceExpiry := of_none rfl

theorem quietTimeExpiry : Statement .quietTimeExpiry := of_none rfl

theorem settleTimerExpiry : Statement .settleTimerExpiry := of_none rfl

theorem linkWaitExpiry : Statement .linkWaitExpiry := of_none rfl

theorem gapTimerExpiry : Statement .gapTimerExpiry := of_none rfl

theorem rstRelease : Statement .rstRelease := of_none rfl

end Sys2Proof.Laws.Form
end

