-- ==== Sys2Proof/Laws/Rows.lean ====
section
/-! SUPPORT. The running context, the Resume Stack and the Site Table move together (R110, R162): every operation of the
Acquisition Engine keeps them in step. `Fit` says it of the rows alone, `Rows` of a state, with room for the row of a context
that an operation is about to create. -/

namespace Sys2Proof.Machine

/-! ## The rows alone -/

/-- The rows run, each with whether it is tracked, the rows stacked, and the state of each row, in step. -/
def Fit (run : List (Nat × Bool)) (st : List Nat) (f : Nat → Option EntryState) : Prop :=
  (∀ r, f r = some .suspended ↔ r ∈ st) ∧ (∀ r, f r = some .acquiring ↔ (r, false) ∈ run) ∧
  (∀ r, f r = some .tracked ↔ (r, true) ∈ run) ∧ st.Nodup ∧ (run.map (·.1)).Nodup

/-- The states of which R110 says which rows have them. -/
def EntryState.held (q : EntryState) : Bool := q = .suspended || q = .acquiring || q = .tracked

/-- A change of one row from the named states (Table 6-5). -/
def moved (f : Nat → Option EntryState) (row : Nat) (source : List EntryState) (target : EntryState) (r : Nat) :
    Option EntryState :=
  if r = row then (f r).map fun q => if source.contains q then target else q else f r

namespace Fit

variable {run run' : List (Nat × Bool)} {st st' : List Nat} {f : Nat → Option EntryState} {row : Nat} {b : Bool}

/-- A change of one row, made, with the lists that name it after. -/
theorem move {q t : EntryState} {src : List EntryState} (h : Fit run st f) (hq : f row = some q) (hs : src.contains q = true)
    (hst : ∀ x, x ∈ st' ↔ if x = row then t = .suspended else x ∈ st)
    (hrun : ∀ x c, (x, c) ∈ run' ↔ if x = row then t = (if c then .tracked else .acquiring) else (x, c) ∈ run)
    (hn : st'.Nodup) (hm : (run'.map (·.1)).Nodup) : Fit run' st' (moved f row src t) := by
  have e : ∀ x, moved f row src t x = if x = row then some t else f x := by
    intro x
    unfold moved
    split
    · rename_i hx; subst hx; rw [hq, Option.map_some, if_pos hs]
    · rfl
  obtain ⟨h1, h2, h3, -, -⟩ := h
  refine ⟨fun x => ?_, fun x => ?_, fun x => ?_, hn, hm⟩
  · rw [e, hst]; split <;> simp [h1]
  · rw [e, hrun]; split <;> simp [h2]
  · rw [e, hrun]; split <;> simp [h3]

/-- The row of a context has the state of its phase. -/
theorem state (h : Fit ((row, b) :: run) st f) : f row = some (if b then .tracked else .acquiring) := by
  cases b
  · exact (h.2.1 row).mpr (by simp)
  · exact (h.2.2.1 row).mpr (by simp)

theorem fresh (h : Fit ((row, b) :: run) st f) (c : Bool) : (row, c) ∉ run := by
  have := h.2.2.2.2
  simp only [List.map_cons, List.nodup_cons, List.mem_map, not_exists, not_and] at this
  exact fun x => this.1 _ x rfl

theorem unstacked (h : Fit ((row, b) :: run) st f) : row ∉ st := fun x => by
  have := (h.1 row).mpr x
  rw [h.state] at this
  cases b <;> cases this

theorem run_nodup (h : Fit ((row, b) :: run) st f) : (run.map (·.1)).Nodup := (List.nodup_cons.mp h.2.2.2.2).2

/-- The rows without one of them. -/
theorem rest_iff (h : Fit ((row, b) :: run) st f) (x : Nat) (c : Bool) :
    (x, c) ∈ run ↔ if x = row then False else (x, c) ∈ (row, b) :: run := by
  split
  · rename_i e; subst e; simp [h.fresh c]
  · rename_i e; simp [e]

/-- A context ends: its row is no row of R110's. -/
theorem ended {src : List EntryState} {t : EntryState} (h : Fit ((row, b) :: run) st f)
    (hs : src.contains (if b then EntryState.tracked else .acquiring) = true) (ht : t.held = false) :
    Fit run st (moved f row src t) := by
  refine h.move h.state hs (fun x => ?_) (fun x c => ?_) h.2.2.2.1 h.run_nodup
  · split
    · rename_i e; subst e
      refine iff_of_false h.unstacked (fun e => ?_); subst e; cases ht
    · rfl
  · rw [h.rest_iff]; split
    · refine iff_of_false id (fun e => ?_); subst e; cases c <;> cases ht
    · rfl

/-- A context goes to the Resume Stack. -/
theorem stacked {src : List EntryState} (h : Fit ((row, b) :: run) st f)
    (hs : src.contains (if b then EntryState.tracked else .acquiring) = true) : Fit run (row :: st) (moved f row src .suspended) := by
  refine h.move h.state hs (fun x => ?_) (fun x c => ?_) (List.nodup_cons.mpr ⟨h.unstacked, h.2.2.2.1⟩) h.run_nodup
  · split <;> simp_all
  · rw [h.rest_iff]; split
    · exact iff_of_false id (fun e => by cases c <;> cases e)
    · rfl

/-- A row that no context names starts to be acquired. -/
theorem started {src : List EntryState} {q : EntryState} (h : Fit run st f) (hq : f row = some q) (hs : src.contains q = true)
    (hh : q.held = false) : Fit ((row, false) :: run) st (moved f row src .acquiring) := by
  have n : ∀ c, (row, c) ∉ run := fun c x => by
    cases c
    · rw [(h.2.1 row).mpr x] at hq; cases hq; cases hh
    · rw [(h.2.2.1 row).mpr x] at hq; cases hq; cases hh
  refine h.move hq hs (fun x => ?_) (fun x c => ?_) h.2.2.2.1 (List.nodup_cons.mpr ⟨?_, h.2.2.2.2⟩)
  · split
    · rename_i e; subst e
      exact iff_of_false (fun x => by rw [(h.1 _).mpr x] at hq; cases hq; cases hh) (by simp)
    · rfl
  · split
    · rename_i e; subst e; cases c <;> simp [n]
    · rename_i e; simp [e]
  · simp only [List.mem_map, Prod.exists, exists_and_right, exists_eq_right, not_exists]; exact n

/-- The row of a context enters the track. -/
theorem tracked (h : Fit ((row, b) :: run) st f) : Fit ((row, true) :: run) st (moved f row [.acquiring] .tracked) := by
  cases b
  · refine h.move h.state (by decide) (fun x => ?_) (fun x c => ?_) h.2.2.2.1 (by simpa using h.2.2.2.2)
    · split
      · rename_i e; subst e; simp [h.unstacked]
      · rfl
    · split
      · rename_i e; subst e; cases c <;> simp [h.fresh]
      · rename_i e; simp [e]
  · have e : moved f row [.acquiring] .tracked = f := by
      funext x
      unfold moved
      split
      · rename_i hx; subst hx; rw [h.state]; rfl
      · rfl
    rw [e]; exact h

/-- A row leaves the Resume Stack for a state that R110 does not name. -/
theorem dropped {t : EntryState} (h : Fit run st f) (hr : row ∈ st) (hn : st'.Nodup) (hst : ∀ x, x ∈ st' ↔ x ∈ st ∧ x ≠ row)
    (ht : t.held = false) : Fit run st' (moved f row [.suspended] t) := by
  have hq := (h.1 row).mpr hr
  refine h.move hq (by decide) (fun x => ?_) (fun x c => ?_) hn h.2.2.2.2
  · rw [hst]; split
    · rename_i e; subst e; exact iff_of_false (by simp) (fun e => by subst e; cases ht)
    · rename_i e; simp [e]
  · split
    · rename_i e; subst e
      refine iff_of_false (fun x => ?_) (fun e => by subst e; cases c <;> cases ht)
      cases c
      · rw [(h.2.1 _).mpr x] at hq; cases hq
      · rw [(h.2.2.1 _).mpr x] at hq; cases hq
    · rfl

/-- A row leaves the Resume Stack to be acquired. -/
theorem taken (h : Fit run st f) (hr : row ∈ st) (hn : st'.Nodup) (hst : ∀ x, x ∈ st' ↔ x ∈ st ∧ x ≠ row) :
    Fit ((row, false) :: run) st' (moved f row [.suspended] .acquiring) := by
  have hq := (h.1 row).mpr hr
  have n : ∀ c, (row, c) ∉ run := fun c x => by
    cases c
    · rw [(h.2.1 row).mpr x] at hq; cases hq
    · rw [(h.2.2.1 row).mpr x] at hq; cases hq
  refine h.move hq (by decide) (fun x => ?_) (fun x c => ?_) hn (List.nodup_cons.mpr ⟨?_, h.2.2.2.2⟩)
  · rw [hst]; split
    · rename_i e; subst e; simp
    · rename_i e; simp [e]
  · split
    · rename_i e; subst e; cases c <;> simp [n]
    · rename_i e; simp [e]
  · simp only [List.mem_map, Prod.exists, exists_and_right, exists_eq_right, not_exists]; exact n

theorem swap {p q : Nat × Bool} (h : Fit (p :: q :: run) st f) : Fit (q :: p :: run) st f := by
  obtain ⟨h1, h2, h3, h4, h5⟩ := h
  refine ⟨h1, fun r => (h2 r).trans ?_, fun r => (h3 r).trans ?_, h4, ?_⟩
  · simp only [List.mem_cons]; exact or_left_comm
  · simp only [List.mem_cons]; exact or_left_comm
  · simp only [List.map_cons] at h5 ⊢
    exact (List.Perm.swap _ _ _).nodup_iff.mp h5

end Fit

/-! ## In a state -/

/-- The row of the running context, and whether it is tracked. -/
def Acq.run (x : Acq) : List (Nat × Bool) :=
  match x.ctx with
  | none => []
  | some c => [(c.row, c.phase.tracks)]

/-- R167: the phases after settle. -/
def Phase.follows (p : Phase) : Prop := p = .azSweep ∨ p = .elSweep ∨ p = .track

/-- The Acquisition Engine and the Site Table are in step, with `extra` the rows of contexts that are about to be created. -/
def Rows (extra : List (Nat × Bool)) (s : State) : Prop :=
  Fit (s.acq.run ++ extra) (s.acq.stack.map (·.row)) s.rowState ∧ s.acq.stack.length ≤ Config.stackPlaces ∧
    ∀ c, s.acq.ctx = some c → c.afterSettle.follows

theorem rows_iff (s : State) : s.acq.stack.length ≤ Config.stackPlaces ∧ s.rowsAgree ↔ Rows [] s := by
  have e : ∀ (r : Nat) (b : Bool), (∃ c, s.acq.ctx = some c ∧ c.row = r ∧ c.phase.tracks = b) ↔ (r, b) ∈ s.acq.run ++ [] := by
    intro r b
    unfold Acq.run
    cases s.acq.ctx with
    | none => simp
    | some c => simp [eq_comm]
  have n : ((s.acq.run ++ []).map Prod.fst).Nodup := by
    unfold Acq.run
    cases s.acq.ctx <;> simp
  unfold State.rowsAgree Rows Fit
  simp only [e, List.mem_map, n, and_true]
  constructor
  · rintro ⟨h0, h1, h2, h3, h4, h5⟩; exact ⟨⟨h1, h2, h3, h4⟩, h0, h5⟩
  · rintro ⟨⟨h1, h2, h3, h4⟩, h0, h5⟩; exact ⟨h0, h1, h2, h3, h4, h5⟩

variable {x : List (Nat × Bool)}

/-- What reads the Acquisition Engine and the Site Table alone. -/
theorem calm_of (f : Acq → List Entry → Prop) : Calm (fun s => f s.acq s.sites) where
  drive _ hs := hs
  site _ hs := hs
  mgt _ hs := hs
  ntu _ hs := hs
  lnu _ _ _ _ _ _ hs := hs
  axis _ _ _ _ _ hs := hs
  channels _ _ hs := hs
  zones _ _ hs := hs
  dsq _ _ _ hs := hs
  sha _ _ hs := hs

theorem calm_rows : Calm (Rows x) :=
  calm_of fun a v => Fit (a.run ++ x) (a.stack.map StackEntry.row) (fun row => v[row]?.map Entry.state) ∧
    a.stack.length ≤ Config.stackPlaces ∧ ∀ c, a.ctx = some c → c.afterSettle.follows

/-- A calm operation leaves the Acquisition Engine and the Site Table alone. -/
theorem kept {f : State → State} (hf : ∀ {P : State → Prop}, Calm P → ∀ {s}, P s → P (f s)) (s : State) :
    (f s).acq = s.acq ∧ (f s).sites = s.sites :=
  hf (calm_of fun a v => a = s.acq ∧ v = s.sites) ⟨rfl, rfl⟩

theorem rows_of {s t : State} (h : Rows x s) (e1 : t.acq = s.acq) (e2 : t.sites = s.sites) : Rows x t := by
  unfold Rows State.rowState at *
  rw [e1, e2]; exact h

theorem rowState_modify (l : List Entry) (row : Nat) (src : List EntryState) (t : EntryState) (c : Option LastCause) :
    (fun r => (l.modify row fun e => e.change src t c)[r]?.map (·.state)) = moved (fun r => l[r]?.map (·.state)) row src t := by
  have e : ∀ y : Entry, (y.change src t c).state = if src.contains y.state then t else y.state := by
    intro y; unfold Entry.change; split <;> rfl
  funext r
  unfold moved
  rw [List.getElem?_modify]
  dsimp only
  generalize l[r]? = o
  by_cases hr : r = row
  · subst hr
    rw [if_pos rfl]
    cases o with
    | none => rfl
    | some y => simp only [if_true, Option.map_eq_map, Option.map_some, e]
  · rw [if_neg hr]
    cases o with
    | none => rfl
    | some y => simp only [Ne.symm hr, if_false, Option.map_eq_map, Option.map_some]

theorem rowState_modify_at (l : List Entry) (row r : Nat) (src : List EntryState) (t : EntryState) (c : Option LastCause) :
    (l.modify row fun e => e.change src t c)[r]?.map (·.state) = moved (fun r => l[r]?.map (·.state)) row src t r :=
  congrFun (rowState_modify l row src t c) r

/-! ## The Acquisition Engine and the Site Table after some operations -/

@[simp] theorem acq_endCtx (s : State) : (endCtx s).acq = { s.acq with ctx := none } := rfl
@[simp] theorem sites_endCtx (s : State) : (endCtx s).sites = s.sites := rfl
@[simp] theorem acq_txcTracked (s : State) (b : Bool) : (txcTracked s b).acq = s.acq := rfl
@[simp] theorem sites_txcTracked (s : State) (b : Bool) : (txcTracked s b).sites = s.sites := rfl
@[simp] theorem acq_stbChange (s : State) (r l t c) : (stbChange s r l t c).acq = s.acq := rfl
@[simp] theorem sites_stbChange (s : State) (r l t c) :
    (stbChange s r l t c).sites = s.sites.modify r fun e => e.change l t c := rfl
@[simp] theorem acq_setStack (s : State) (l) : (setStack s l).acq = { s.acq with stack := l } := rfl
@[simp] theorem sites_setStack (s : State) (l) : (setStack s l).sites = s.sites := rfl
@[simp] theorem acq_setCtx (s : State) (c) : (setCtx s c).acq = { s.acq with ctx := some c } := rfl
@[simp] theorem sites_setCtx (s : State) (c) : (setCtx s c).sites = s.sites := rfl
@[simp] theorem acq_releaseSearch (s : State) : (releaseSearch s).acq = s.acq := (onlyAxes_releaseSearch s).acq
@[simp] theorem sites_releaseSearch (s : State) : (releaseSearch s).sites = s.sites := (onlyAxes_releaseSearch s).sites
@[simp] theorem acq_stopSearch (s : State) (o) : (stopSearch s o).acq = s.acq := (onlyAxes_stopSearch s o).acq
@[simp] theorem sites_stopSearch (s : State) (o) : (stopSearch s o).sites = s.sites := (onlyAxes_stopSearch s o).sites

/-! ## Ends and pushes -/

theorem rows_ended {s t : State} {c : Ctx} {src : List EntryState} {q : EntryState} {l : Option LastCause} (h : Rows x s)
    (hc : s.acq.ctx = some c) (hs : src.contains (if c.phase.tracks then EntryState.tracked else .acquiring) = true)
    (hq : q.held = false) (e1 : t.acq = { s.acq with ctx := none })
    (e2 : t.sites = s.sites.modify c.row fun e => e.change src q l) : Rows x t := by
  obtain ⟨h1, h2, h3⟩ := h
  refine ⟨?_, by rw [e1]; exact h2, fun d hd => by rw [e1] at hd; cases hd⟩
  unfold State.rowState
  rw [e1, e2, rowState_modify]
  unfold Acq.run at h1
  rw [hc] at h1
  exact h1.ended hs hq

theorem covers_running (b : Bool) : runningStates.contains (if b then EntryState.tracked else .acquiring) = true := by
  cases b <;> decide

theorem rows_acqFail {s : State} (l : LastCause) (h : Rows x s) : Rows x (acqFail s l) := by
  cases hc : s.acq.ctx with
  | none => unfold acqFail; rw [hc]; exact h
  | some c =>
    obtain ⟨e1, -, -, -, -, e2, -⟩ := acqFail_does s c l hc
    exact rows_ended h hc (covers_running _) rfl e1 e2

theorem markFailed_rows (s : State) (c : Ctx) (l : LastCause) :
    (markFailed s c l).acq = s.acq ∧ (markFailed s c l).sites = s.sites.modify c.row fun e => e.change runningStates .lost (some l) := by
  unfold markFailed
  simp only [acq_raise, sites_raise]
  split <;> exact ⟨rfl, rfl⟩

theorem rows_acqAbort {s : State} (h : Rows x s) : Rows x (acqAbort s) := by
  cases hc : s.acq.ctx with
  | none => unfold acqAbort; rw [hc]; exact h
  | some c =>
    obtain ⟨e1, e2⟩ := markFailed_rows s c .aborted
    refine rows_ended h hc (covers_running _) (q := .lost) rfl ?_ (l := some .aborted) ?_
    · unfold acqAbort; rw [hc]; simp [e1]
    · unfold acqAbort; rw [hc]; simp [e2]

theorem rows_acqWalkAbort {s : State} (h : Rows x s) : Rows x (acqWalkAbort s) := by
  cases hc : s.acq.ctx with
  | none => unfold acqWalkAbort; rw [hc]; exact h
  | some c =>
    refine rows_ended h hc (covers_running _) (q := .loaded) rfl ?_ (l := some .stowed) ?_
    · unfold acqWalkAbort; rw [hc]; simp
    · unfold acqWalkAbort; rw [hc]; simp

theorem rows_acqRelease {s : State} (c : Ctx) (hc : s.acq.ctx = some c) (h : Rows x s) : Rows x (acqRelease s c) := by
  refine calm_rows.shaEnd (rows_ended h hc (covers_running _) (q := .loaded) rfl ?_ (l := some .none) ?_)
  · simp
  · simp

/-- A row leaves the Resume Stack, to be LOADED. -/
theorem rows_dropped {s t : State} {row : Nat} {st : List StackEntry} {l : Option LastCause} {q : EntryState} (h : Rows x s)
    (hr : row ∈ s.acq.stack.map (·.row)) (hn : (st.map (·.row)).Nodup)
    (hst : ∀ y, y ∈ st.map (·.row) ↔ y ∈ s.acq.stack.map (·.row) ∧ y ≠ row) (hl : st.length ≤ s.acq.stack.length) (hq : q.held = false)
    (e1 : t.acq = { s.acq with stack := st }) (e2 : t.sites = s.sites.modify row fun e => e.change [.suspended] q l) :
    Rows x t := by
  obtain ⟨h1, h2, h3⟩ := h
  refine ⟨?_, by rw [e1]; exact Nat.le_trans hl h2, by rw [e1]; exact h3⟩
  unfold State.rowState
  rw [e1, e2, rowState_modify]
  exact h1.dropped hr hn hst hq

theorem top_rows {st rest : List StackEntry} {e : StackEntry} (hs : st = e :: rest) (hn : (st.map (·.row)).Nodup) :
    (rest.map (·.row)).Nodup ∧ ∀ y, y ∈ rest.map (·.row) ↔ y ∈ st.map (·.row) ∧ y ≠ e.row := by
  subst hs
  rw [List.map_cons, List.nodup_cons] at hn
  refine ⟨hn.2, fun y => ⟨fun hy => ⟨List.mem_cons_of_mem _ hy, fun e => hn.1 (e ▸ hy)⟩, fun hy => ?_⟩⟩
  rcases List.mem_cons.mp hy.1 with h | h
  · exact absurd h hy.2
  · exact h

theorem rows_acqDrop {s : State} (e : StackEntry) (rest : List StackEntry) (hs : s.acq.stack = e :: rest) (h : Rows x s) :
    Rows x (acqDrop s e) := by
  obtain ⟨k1, k2⟩ := top_rows hs h.1.2.2.2.1
  refine rows_dropped h (row := e.row) (by rw [hs]; simp) k1 k2 (by rw [hs]; simp) (q := .loaded) rfl ?_ (l := none) rfl
  show ({ s.acq with stack := s.acq.stack.tail } : Acq) = _
  rw [hs]; rfl

theorem bottom_rows {st : List StackEntry} {e : StackEntry} (hl : st.length = 3) (hs : st.getLast? = some e)
    (hn : (st.map (·.row)).Nodup) :
    ((st.take 2).map (·.row)).Nodup ∧ ∀ y, y ∈ (st.take 2).map (·.row) ↔ y ∈ st.map (·.row) ∧ y ≠ e.row := by
  obtain ⟨a, b, c, rfl⟩ : ∃ a b c, st = [a, b, c] := by
    rcases st with _ | ⟨a, _ | ⟨b, _ | ⟨c, _ | ⟨d, l⟩⟩⟩⟩ <;> simp at hl
    exact ⟨a, b, c, rfl⟩
  simp only [List.getLast?_cons_cons, List.getLast?_singleton, Option.some.injEq] at hs
  subst hs
  simp only [List.map_cons, List.map_nil, List.nodup_cons, List.mem_cons, List.not_mem_nil, or_false, not_or, List.nodup_nil,
    not_false_eq_true, and_true, List.take_succ_cons, List.take_zero] at hn ⊢
  obtain ⟨⟨n1, n2⟩, n3⟩ := hn
  refine ⟨n1, fun y => ⟨fun hy => ?_, fun hy => ?_⟩⟩
  · rcases hy with rfl | rfl
    · exact ⟨.inl rfl, n2⟩
    · exact ⟨.inr (.inl rfl), n3⟩
  · obtain ⟨rfl | rfl | rfl, hy⟩ := hy
    · exact .inl rfl
    · exact .inr rfl
    · exact absurd rfl hy

theorem rows_makeRoom {s : State} (h : Rows x s) : Rows x (makeRoom s) ∧ (makeRoom s).acq.ctx = s.acq.ctx ∧
    (makeRoom s).acq.stack.length < Config.stackPlaces := by
  refine ⟨?_, (makeRoom_does s).1, Closed.makeRoom_length s⟩
  unfold makeRoom
  split
  · exact h
  · rename_i hl
    split
    · exact h
    · rename_i e he
      have hl3 : s.acq.stack.length = 3 := Nat.le_antisymm h.2.1 (Nat.le_of_not_lt hl)
      obtain ⟨k1, k2⟩ := bottom_rows hl3 he h.1.2.2.2.1
      refine rows_dropped h (row := e.row) (List.mem_map_of_mem (List.mem_of_getLast? he)) k1 k2 (by simp) (q := .loaded) rfl ?_
        (l := none) ?_
      · rw [acq_raise]; rfl
      · rw [sites_raise]; rfl

theorem rows_acqPush {s : State} (u : SuspendCause) (o : Option Axis) (h : Rows x s) : Rows x (acqPush s u o) := by
  cases hc : s.acq.ctx with
  | none => unfold acqPush; rw [hc]; exact h
  | some c =>
    obtain ⟨s1, h1, h2⟩ := acqPush_running hc u o
    have k := onlyAxes_stopSearch s o
    obtain ⟨r1, r2, r3⟩ := rows_makeRoom (calm_rows.stopSearch o h)
    rw [← h1] at r1 r2 r3
    rw [k.acq, hc] at r2
    rw [h2]
    refine calm_rows.raise _ ?_
    obtain ⟨f1, f2, f3⟩ := r1
    refine ⟨?_, by simpa using r3, fun d hd => by simp at hd⟩
    unfold State.rowState
    simp only [acq_endCtx, acq_txcTracked, acq_releaseSearch, acq_stbChange, acq_setStack, sites_endCtx, sites_txcTracked,
      sites_releaseSearch, sites_stbChange, sites_setStack]
    rw [rowState_modify]
    unfold Acq.run at f1
    rw [r2] at f1
    have er : (stackEntryOf s c u).row = c.row := by unfold stackEntryOf; split <;> rfl
    show Fit ([] ++ x) ((stackEntryOf s c u).row :: _) _
    rw [er]
    exact f1.stacked (covers_running _)

theorem ctx_acqPush (s : State) (u : SuspendCause) (o : Option Axis) : (acqPush s u o).acq.ctx = none := by
  cases hc : s.acq.ctx with
  | none => unfold acqPush; rw [hc]; exact hc
  | some c => exact (pushed_acqPush hc u o).ctx

/-! ## Changes of the running context -/

/-- Two contexts of one row, tracked alike, with one phase after settle. -/
def Ctx.alike (c d : Ctx) : Prop := d.row = c.row ∧ d.phase.tracks = c.phase.tracks ∧ d.afterSettle = c.afterSettle

/-- In step, and a context like `c` is running. -/
def RowsOf (c : Ctx) (s : State) : Prop := Rows [] s ∧ ∃ d, s.acq.ctx = some d ∧ c.alike d

theorem calm_rowsOf (c : Ctx) : Calm (RowsOf c) :=
  calm_of fun a v => (Fit (a.run ++ []) (a.stack.map StackEntry.row) (fun row => v[row]?.map Entry.state) ∧
    a.stack.length ≤ Config.stackPlaces ∧ ∀ c, a.ctx = some c → c.afterSettle.follows) ∧ ∃ d, a.ctx = some d ∧ c.alike d

theorem rowsOf {s : State} {c : Ctx} (h : Rows [] s) (hc : s.acq.ctx = some c) : RowsOf c s := ⟨h, c, hc, rfl, rfl, rfl⟩

/-- The context is replaced by one like it. -/
theorem RowsOf.set {s : State} {c : Ctx} (d : Ctx) (h : RowsOf c s) (hd : c.alike d) : RowsOf d (setCtx s d) := by
  obtain ⟨⟨h1, h2, h3⟩, e, he, a1, a2, a3⟩ := h
  obtain ⟨b1, b2, b3⟩ := hd
  refine ⟨⟨?_, h2, ?_⟩, d, rfl, rfl, rfl, rfl⟩
  · unfold Acq.run at h1 ⊢
    rw [he] at h1
    show Fit ([(d.row, d.phase.tracks)] ++ []) _ _
    rw [b1, b2, ← a1, ← a2]; exact h1
  · intro k hk
    cases hk
    rw [b3, ← a3]; exact h3 e he

theorem rows_set {s : State} {c d : Ctx} (h : RowsOf c s) (h1 : d.row = c.row) (h2 : d.phase.tracks = c.phase.tracks)
    (h3 : d.afterSettle = c.afterSettle) : Rows [] (setCtx s d) := (h.set d ⟨h1, h2, h3⟩).1

/-- R139, R166: a context is created for a row that has been moved to ACQUIRING. -/
theorem rows_createCtx {s : State} (c : Ctx) (h : Rows [(c.row, false)] s) (hn : s.acq.ctx = none) (hp : c.phase.tracks = false)
    (ha : c.afterSettle.follows) : Rows [] (createCtx s c) := by
  have h1 : RowsOf c (setCtx s c) := by
    obtain ⟨h1, h2, -⟩ := h
    refine ⟨⟨?_, h2, fun d hd => by cases hd; exact ha⟩, c, rfl, rfl, rfl, rfl⟩
    unfold Acq.run at h1
    rw [hn] at h1
    show Fit ([(c.row, c.phase.tracks)] ++ []) _ _
    rw [hp]; exact h1
  have h2 := (calm_rowsOf c).shaName h1
  unfold createCtx
  split
  · rename_i e; rw [e] at h2; exact h2.1
  · rename_i t e
    rw [e] at h2
    exact (h2.set (c.told t) (by cases t <;> exact ⟨rfl, rfl, rfl⟩)).1

theorem rows_setStepAxis {s : State} (a : Option Axis) (h : Rows [] s) : Rows [] (setStepAxis s a) := by
  unfold setStepAxis
  split
  · exact h
  · rename_i c hc
    exact (rows_set (rowsOf h hc) rfl rfl rfl)

theorem rows_searchSelect {s : State} (a : Axis) (w : Sel) (t : Int) (h : Rows [] s) : Rows [] (searchSelect s a w t) := by
  unfold searchSelect
  split
  · exact rows_acqFail _ h
  · rename_i e1
    have h1 := calm_rows.axsSetTarget h e1
    split
    · exact rows_acqFail _ h1
    · rename_i e2
      exact rows_setStepAxis _ (calm_rows.axsSelect h1 e2)

theorem rows_searchMove {s : State} (a : Axis) (w : Sel) (t : Int) (h : Rows [] s) : Rows [] (searchMove s a w t) :=
  have h1 := calm_rows.moveCheck a t h
  Quiet.ite (rows_acqFail _ h1) (rows_searchSelect a w t h1)

theorem rows_slewMove {s : State} (c : Ctx) (a : Axis) (h : Rows [] s) : Rows [] (slewMove s c a) :=
  Quiet.ite (rows_searchMove a _ _ h) (rows_acqFail _ h)

theorem rows_startSlew {s : State} (h : Rows [] s) : Rows [] (startSlew s) := by
  unfold startSlew
  split
  · exact h
  · rename_i c hc
    exact rows_slewMove _ _ (rows_set (rowsOf h hc) rfl rfl rfl)

theorem rows_reacquire {s : State} (row : Nat) (h : Rows [] s) (hn : s.acq.ctx = none) (hl : s.rowState row = some .lost) :
    Rows [] (reacquire s row) := by
  refine rows_startSlew (calm_rows.raise _ (rows_createCtx _ ?_ hn rfl (.inl rfl)))
  refine ⟨?_, h.2.1, h.2.2⟩
  have h1 := h.1
  unfold Acq.run at h1 ⊢
  rw [hn] at h1
  unfold State.rowState at hl ⊢
  simp only [acq_stbChange, sites_stbChange, hn]
  rw [rowState_modify]
  exact h1.started hl (by decide) rfl

theorem kept_slewChecks (s : State) (row : Nat) : (slewChecks s row).2.acq = s.acq ∧ (slewChecks s row).2.sites = s.sites :=
  kept (f := fun s => (slewChecks s row).2) (fun h _ hs => h.slewChecks row hs) s

theorem rowState_of_entryOf {s : State} {row : Nat} (h : (entryOf s row).state = .lost) : s.rowState row = some .lost := by
  unfold entryOf State.entry at h
  unfold State.rowState
  cases e : s.sites[row]? with
  | none => rw [e] at h; cases h
  | some y => rw [e] at h; exact congrArg some h

theorem rows_judgeReacquire {s : State} (row : Nat) (h : Rows [] s) (hn : s.acq.ctx = none) : Rows [] (judgeReacquire s row) := by
  obtain ⟨k1, k2⟩ := kept_slewChecks s row
  have h3 := rows_of h k1 k2
  unfold judgeReacquire
  split
  · rename_i hj
    simp only [Bool.and_eq_true, decide_eq_true_eq] at hj
    have hl := rowState_of_entryOf hj.1.1
    have k4 : (slewChecks s row).2.rowState row = some .lost := by unfold State.rowState at *; rw [k2]; exact hl
    have k3 : (slewChecks s row).2.acq.ctx = none := by rw [k1, hn]
    split
    · rename_i e; rw [e] at h3 k3 k4; exact rows_reacquire _ h3 k3 k4
    · rename_i e; rw [e] at h3; exact calm_rows.releaseSearch h3
  · exact calm_rows.releaseSearch h

theorem rows_acqLose {s : State} {c : Ctx} (l : LastCause) (hc : s.acq.ctx = some c) (ht : c.phase.tracks = true) (h : Rows [] s) :
    Rows [] (acqLose s l) := by
  unfold acqLose
  rw [hc]
  simp only []
  have h2 : Rows [] (endCtx (raise (txcTracked (stbChange (stopSearch s none) c.row [.tracked] .lost (some l)) false)
      (.searchEnded l c.row c.phase))) :=
    rows_ended h hc (src := [.tracked]) (by rw [ht]; decide) (q := .lost) rfl (by simp) (l := some l) (by simp)
  exact Quiet.ite (rows_judgeReacquire _ h2 rfl) (calm_rows.releaseSearch h2)

theorem rows_linkFailed {s : State} (h : Rows [] s) : Rows [] (linkFailed s) := by
  unfold linkFailed
  split
  · exact h
  · rename_i c hc
    split
    · rename_i ht; exact rows_acqLose _ hc ht h
    · exact rows_acqFail _ h

/-! ## Sweeps and the track -/

theorem rows_toStart {s : State} (h : Rows [] s) : Rows [] (toStart s) := by
  unfold toStart
  split
  · exact h
  · rename_i c hc
    exact Quiet.ite (rows_acqFail _ h) (rows_searchMove _ _ _ (rows_set (rowsOf h hc) rfl rfl rfl))

theorem rows_startSweep {s : State} {c : Ctx} (p : Phase) (h : RowsOf c s) (hp : p.tracks = c.phase.tracks) :
    Rows [] (startSweep s p) := by
  obtain ⟨h1, d, hd, a1, a2, a3⟩ := h
  unfold startSweep
  rw [hd]
  exact rows_toStart (rows_set (rowsOf h1 hd) rfl (hp.trans a2.symm) rfl)

/-- A change of an entry that keeps its state. -/
theorem rowsOf_modify {s : State} {c : Ctx} (row : Nat) (f : Entry → Entry) (hf : ∀ e, (f e).state = e.state) (h : RowsOf c s) :
    RowsOf c (modifyEntry s row f) := by
  obtain ⟨⟨h1, h2, h3⟩, h4⟩ := h
  refine ⟨⟨?_, h2, h3⟩, h4⟩
  have e : (modifyEntry s row f).rowState = s.rowState := by
    funext r
    unfold State.rowState modifyEntry
    rw [State.sites_withSites, List.getElem?_modify]
    generalize s.sites[r]? = o
    cases o with
    | none => rfl
    | some y => simp only [Option.map_eq_map, Option.map_some]; split <;> simp [hf]
  rw [e]; exact h1

theorem rows_enterTrack {s : State} (h : Rows [] s) : Rows [] (enterTrack s) ∧
    ∀ c, s.acq.ctx = some c → ∃ d, (enterTrack s).acq.ctx = some d ∧ d.phase = .track := by
  unfold enterTrack
  cases hc : s.acq.ctx with
  | none => exact ⟨h, fun _ e => by cases e⟩
  | some c =>
    refine ⟨calm_rows.raise _ ?_, fun d hd => ⟨_, by rw [acq_raise]; rfl, rfl⟩⟩
    obtain ⟨h1, h2, h3⟩ := h
    unfold Acq.run at h1
    rw [hc] at h1
    have h4 : Fit ([(c.row, true)] ++ []) (s.acq.stack.map (·.row)) (stbChange s c.row [.acquiring] .tracked none).rowState := by
      unfold State.rowState at *
      rw [sites_stbChange, rowState_modify]
      exact h1.tracked
    have e : (writeLearned (stbChange s c.row [.acquiring] .tracked none) c.row).rowState =
        (stbChange s c.row [.acquiring] .tracked none).rowState := by
      funext r
      unfold writeLearned State.rowState modifyEntry
      rw [State.sites_withSites, List.getElem?_modify]
      generalize (stbChange s c.row [.acquiring] .tracked none).sites[r]? = o
      cases o with
      | none => rfl
      | some y => simp only [Option.map_eq_map, Option.map_some]; split <;> rfl
    rw [← e] at h4
    exact ⟨h4, h2, fun d hd => by cases hd; exact h3 c hc⟩

theorem tracks_false {p : Phase} (h : p.follows) (hn : p ≠ .track) : p.tracks = false := by
  rcases h with rfl | rfl | rfl
  · rfl
  · rfl
  · exact absurd rfl hn

theorem rows_afterSettle {s : State} {c : Ctx} (hc : s.acq.ctx = some c) (hp : c.phase.tracks = false) (h : Rows [] s) :
    Rows [] (afterSettle s) := by
  unfold afterSettle
  rw [hc]
  dsimp only
  split
  · have h1 := ((rowsOf h hc).set (Ctx.readRetrim { c with settleTimer := none } (entryOf s c.row)) ⟨rfl, rfl, rfl⟩).1
    obtain ⟨h2, h3⟩ := rows_enterTrack h1
    obtain ⟨d, hd, hd2⟩ := h3 _ rfl
    exact rows_startSweep _ (rowsOf h2 hd) (by rw [hd2]; rfl)
  · rename_i hn
    refine rows_startSweep _ ((rowsOf h hc).set { c with settleTimer := none } ⟨rfl, rfl, rfl⟩) ?_
    rw [tracks_false (h.2.2 c hc) hn]; exact hp.symm

theorem rows_enterSettle {s : State} {c : Ctx} (hc : s.acq.ctx = some c) (hp : c.phase.tracks = false) (h : Rows [] s) :
    Rows [] (enterSettle s) := by
  unfold enterSettle
  rw [hc]
  have h1 := (rowsOf h hc).set { c with phase := .settle, stepAxis := none, settleTimer := some s.acq.settleTime }
    ⟨rfl, hp.symm, rfl⟩
  exact Quiet.ite (rows_afterSettle (s := setCtx s _) rfl rfl h1.1) h1.1

theorem rows_beginSweeping {s : State} (h : Rows [] s) : Rows [] (beginSweeping s) := by
  unfold beginSweeping
  split
  · exact h
  · rename_i c hc
    have h0 := ((calm_rowsOf c).emptyWindow (rowsOf h hc)).set
      { c with step := some .sweeping, rest := none, partialBegin := none, partialEnd := none, partialOpen := false } ⟨rfl, rfl, rfl⟩
    have h1 := (calm_rowsOf _).moveCheck (phaseAxis c.phase) (c.sweepEnd.getD 0) h0
    refine Quiet.ite (rows_acqFail _ h0.1) (Quiet.ite (rows_acqFail _ h1.1) ?_)
    split
    · exact rows_acqFail _ h1.1
    · rename_i e
      exact rows_set ((calm_rowsOf _).axsMoveTo h1 e) rfl rfl rfl

theorem rows_stopSweep {s : State} {c : Ctx} (d : Ctx) (st : SweepStep) (n : RestThen) (h : RowsOf c s) (hd : c.alike d) :
    Rows [] (stopSweep s d st n) :=
  rows_set ((calm_rowsOf c).axsStop _ h) hd.1 hd.2.1 hd.2.2

theorem rows_noBeginEdge {s : State} {c : Ctx} (h : RowsOf c s) (hc : s.acq.ctx = some c) : Rows [] (noBeginEdge s c) := by
  unfold noBeginEdge
  split
  · rename_i ht; exact rows_acqLose _ hc ht h.1
  · exact Quiet.ite (rows_acqFail _ h.1) (rows_toStart (rows_set h rfl rfl rfl))

theorem rows_centre {s : State} (h : Rows [] s) : Rows [] (centre s) := by
  unfold centre
  split
  · exact h
  · rename_i c hc
    have h1 := fun p => (calm_rowsOf _).poseCheck p ((rowsOf h hc).set
      (Ctx.readRetrim { c with step := some .centring, rest := none, gapTimer := none } (entryOf s c.row)) ⟨rfl, rfl, rfl⟩)
    exact Quiet.ite (rows_acqFail _ (h1 _).1) (rows_searchMove _ _ _ (h1 _).1)

theorem rows_centred {s : State} {c : Ctx} (hc : s.acq.ctx = some c) (h : Rows [] s) : Rows [] (centred s c) := by
  have h1 : RowsOf c (writeEdges s c) := rowsOf_modify _ _ (fun e => by dsimp only; split <;> rfl) (rowsOf h hc)
  unfold centred
  simp only []
  split
  · rename_i e; exact rows_startSweep _ h1 (by rw [e]; rfl)
  · rename_i e; exact rows_startSweep _ h1 (by rw [e]; rfl)
  all_goals exact (rows_enterTrack h1.1).1

/-! ## What the Acquisition Engine is told -/

theorem rows_acqArrival {s : State} (a : Axis) (h : Rows [] s) : Rows [] (acqArrival s a) := by
  unfold acqArrival
  split
  · exact h
  · rename_i c hc
    split
    · exact h
    · split
      · exact Quiet.ite (rows_beginSweeping h) (rows_set (rowsOf h hc) rfl rfl rfl)
      · unfold sweepEnded
        split
        · exact rows_centre (rows_set (rowsOf h hc) rfl rfl rfl)
        · exact rows_noBeginEdge (s := setCtx s _) (rowsOf (rows_set (rowsOf h hc) rfl rfl rfl) rfl) rfl
      · exact rows_centred hc h
      · split
        · rename_i hp
          unfold slewArrived
          split
          · exact rows_slewMove _ _ h
          · exact rows_enterSettle hc (by rw [hp]; rfl) h
        · exact h

theorem rows_acqRest {s : State} (a : Axis) (p : Int) (h : Rows [] s) : Rows [] (acqRest s a p) := by
  unfold acqRest
  split
  · exact h
  · rename_i c hc
    split
    · exact h
    · split
      · exact h
      · exact rows_toStart h
      · exact rows_centre h
      · exact rows_centre (rows_set (rowsOf h hc) rfl rfl rfl)
      · exact rows_noBeginEdge (s := setCtx s _) (rowsOf (rows_set (rowsOf h hc) rfl rfl rfl) rfl) rfl

theorem rows_acqZoneStop {s : State} (a : Axis) (h : Rows [] s) : Rows [] (acqZoneStop s a) := by
  unfold acqZoneStop
  split
  · exact h
  · rename_i c hc
    have h1 := rowsOf h hc
    exact Quiet.ite (Quiet.ite (rows_set h1 rfl rfl rfl) (rows_set h1 rfl rfl rfl)) (rows_acqFail _ h)

theorem rows_countReport {s : State} {c d : Ctx} (h : RowsOf c s) (hd : c.alike d) (hp : d.phase.tracks = true) :
    Rows [] (countReport s d) := by
  have h1 : RowsOf c (drawPast255 s d.reportCount) := by
    unfold drawPast255
    split <;> exact h
  have h2 := h1.set { d with reportCount := countUp s.acq.drawn d.reportCount } hd
  unfold countReport
  exact Quiet.ite (rows_startSweep _ h2 hp.symm) h2.1

theorem rows_trackReport {s : State} {c : Ctx} (m : Int) (hc : s.acq.ctx = some c) (hp : c.phase.tracks = true) (h : Rows [] s) :
    Rows [] (trackReport s c m) := by
  have h1 := rowsOf h hc
  unfold trackReport
  simp only []
  generalize (if m < (entryOf s c.row).set.lostLevel then c.lostRun + 1 else 0) = n
  have h2 := h1.set { c with lostRun := n } ⟨rfl, rfl, rfl⟩
  split
  · exact rows_acqLose (c := { c with lostRun := n }) _ rfl hp h2.1
  · exact rows_countReport (d := { c with lostRun := n }) h1 ⟨rfl, rfl, rfl⟩ hp

theorem rows_acqReport {s : State} (r : WinRec) (h : Rows [] s) : Rows [] (acqReport s r) := by
  unfold acqReport
  split
  · exact h
  · rename_i c hc
    have h1 := rowsOf h hc
    split
    · exact h
    · split
      · rename_i hp
        exact rows_trackReport _ hc (by rw [hp]; rfl) h
      · split
        · split
          · unfold judgeEdges
            simp only []
            split
            · exact Quiet.ite (rows_set h1 rfl rfl rfl) h
            · exact Quiet.ite (rows_stopSweep _ _ _ h1 ⟨rfl, rfl, rfl⟩) h
          · exact h
        · exact h

theorem rows_acqReady {s : State} (h : Rows [] s) : Rows [] (acqReady s) := by
  unfold acqReady
  split
  · exact h
  · rename_i c hc
    have h1 := ((rowsOf h hc).set c.ready ⟨rfl, rfl, rfl⟩).1
    exact Quiet.ite h (Quiet.ite (rows_beginSweeping h1) h1)

theorem rows_acqWait {s : State} (h : Rows [] s) : Rows [] (acqWait s) := by
  unfold acqWait
  split
  · exact h
  · rename_i c hc
    exact Quiet.ite (rows_stopSweep _ _ _ (rowsOf h hc) ⟨rfl, rfl, rfl⟩) (rows_set (rowsOf h hc) rfl rfl rfl)

theorem rows_acqLink {s : State} (h : Rows [] s) : Rows [] (acqLink s) := by
  unfold acqLink
  split
  · exact h
  · exact Quiet.ite (rows_linkFailed h) (rows_acqWait h)

theorem rows_acqLinkWait {s : State} (h : Rows [] s) : Rows [] (acqLinkWait s) := by
  unfold acqLinkWait
  split
  · exact h
  · exact Quiet.ite (rows_linkFailed h) h

theorem rows_acqGapTimer {s : State} (h : Rows [] s) : Rows [] (acqGapTimer s) := by
  unfold acqGapTimer
  split
  · exact h
  · rename_i c hc
    exact Quiet.ite h (Quiet.ite (rows_acqFail _ h) (rows_stopSweep _ _ _ (rowsOf h hc) ⟨rfl, rfl, rfl⟩))

/-! ## Bringing a context back, and a taken ACQUIRE -/

/-- R166: the top entry is taken from the stack, and the context of its row is created once the running one has been pushed. -/
theorem rows_popTo {s : State} {e : StackEntry} {rest : List StackEntry} {c : State → Ctx} (hs : s.acq.stack = e :: rest)
    (hr : ∀ t, (c t).row = e.row) (hp : ∀ t, (c t).phase.tracks = false) (ha : ∀ t, (c t).afterSettle.follows) (h : Rows [] s) :
    Rows [] (popTo s e c) := by
  unfold popTo
  refine calm_rows.raise _ ?_
  obtain ⟨k1, k2⟩ := top_rows hs h.1.2.2.2.1
  have h1 : Rows [(e.row, false)] (stbChange (setStack s s.acq.stack.tail) e.row [.suspended] .acquiring none) := by
    obtain ⟨f1, f2, f3⟩ := h
    refine ⟨?_, ?_, f3⟩
    · unfold State.rowState at *
      simp only [acq_stbChange, acq_setStack, sites_stbChange, sites_setStack]
      rw [rowState_modify]
      have g := f1.taken (row := e.row) (st' := rest.map (·.row)) (by rw [hs]; simp) k1 k2
      unfold Acq.run at g ⊢
      rw [hs]
      cases hc : s.acq.ctx with
      | none => rw [hc] at g; exact g
      | some d => rw [hc] at g; exact g.swap
    · simp only [acq_stbChange, acq_setStack, hs, List.tail_cons]
      rw [hs] at f2; exact Nat.le_of_succ_le f2
  have h2 := rows_acqPush .switch none h1
  have hn := ctx_acqPush (stbChange (setStack s s.acq.stack.tail) e.row [.suspended] .acquiring none) .switch none
  generalize acqPush (stbChange (setStack s s.acq.stack.tail) e.row [.suspended] .acquiring none) .switch none = u at h2 hn
  have h3 := calm_rows.axsTakeAll .search searchAxes h2
  have hk := (kept (f := fun s => axsTakeAll s .search searchAxes) (fun h _ hs => h.axsTakeAll _ _ hs) u).1
  exact rows_createCtx _ (by rw [hr]; exact h3) (by rw [hk]; exact hn) (hp _) (ha _)

theorem after_follows (p : ResumePhase) : p.after.follows := by
  cases p
  · exact .inl rfl
  · exact .inl rfl
  · exact .inr (.inl rfl)
  · exact .inr (.inr rfl)

theorem rows_popSaved {s : State} (e : StackEntry) (rest : List StackEntry) (hs : s.acq.stack = e :: rest) (h : Rows [] s) :
    Rows [] (popSaved s e) := rows_popTo hs (fun _ => rfl) (fun _ => rfl) (fun _ => after_follows _) h

theorem rows_acqWake {s : State} (h : Rows [] s) : Rows [] (acqWake s) := by
  unfold acqWake
  split
  · exact h
  · rename_i e rest hs
    refine Quiet.ite h (Quiet.ite (calm_rows.raise _ h) ?_)
    split
    · exact rows_startSlew (rows_popTo hs (fun _ => rfl) (fun _ => rfl) (fun _ => after_follows _) h)
    · exact rows_startSlew (rows_popTo hs (fun _ => rfl) (fun _ => rfl) (fun _ => .inl rfl) h)

theorem rows_acqHoldCleared {s : State} (h : Rows [] s) : Rows [] (acqHoldCleared s) := by
  unfold acqHoldCleared
  split
  · exact h
  · rename_i e rest hs
    exact Quiet.ite h (Quiet.ite (rows_startSlew (rows_popSaved _ _ hs h)) (calm_rows.raise _ h))

theorem filter_rows (st : List StackEntry) (row : Nat) (hn : (st.map (·.row)).Nodup) :
    ((st.filter fun e => e.row ≠ row).map (·.row)).Nodup ∧
    ∀ y, y ∈ (st.filter fun e => e.row ≠ row).map (·.row) ↔ y ∈ st.map (·.row) ∧ y ≠ row := by
  refine ⟨hn.sublist ((List.filter_sublist).map _), fun y => ?_⟩
  simp only [List.mem_map, List.mem_filter, decide_eq_true_eq]
  constructor
  · rintro ⟨e, ⟨h1, h2⟩, rfl⟩; exact ⟨⟨e, h1, rfl⟩, h2⟩
  · rintro ⟨⟨e, h1, rfl⟩, h2⟩; exact ⟨e, ⟨h1, h2⟩, rfl⟩

/-- R138, R139: what the checks of a taken ACQUIRE say of its row. -/
theorem acquireRefusal_none {s : State} {row : Nat} (h : acquireRefusal s row = none) :
    (∀ c, s.acq.ctx = some c → c.row ≠ row) ∧ (entryOf s row).state ≠ .empty := by
  unfold acquireRefusal at h
  repeat' split at h
  all_goals try cases h
  rename_i h1 h2 h3 h4 h5 h6
  refine ⟨fun c hc e => h3 ?_, h4⟩
  unfold runningRow
  rw [hc, ← e]; rfl

theorem kept_axsTakeAll (s : State) (o : Owner) (l : List Axis) :
    (axsTakeAll s o l).acq = s.acq ∧ (axsTakeAll s o l).sites = s.sites :=
  kept (f := fun s => axsTakeAll s o l) (fun h _ hs => h.axsTakeAll _ _ hs) s

theorem rows_acquireTaken {s : State} (row : Nat) (hr : acquireRefusal s row = none) (h : Rows [] s) :
    Rows [] (acquireTaken s row) := by
  obtain ⟨r1, r2⟩ := acquireRefusal_none hr
  have hrow : ∃ q, s.rowState row = some q ∧ q ≠ .empty := by
    unfold entryOf State.entry at r2
    unfold State.rowState
    cases e : s.sites[row]? with
    | none => rw [e] at r2; exact absurd rfl r2
    | some y => rw [e] at r2; exact ⟨y.state, rfl, r2⟩
  obtain ⟨q, hq, hne⟩ := hrow
  have notrun : ∀ b, (row, b) ∉ s.acq.run ++ [] := by
    intro b hb
    unfold Acq.run at hb
    cases hc : s.acq.ctx with
    | none => rw [hc] at hb; simp at hb
    | some c => rw [hc] at hb; simp only [List.append_nil, List.mem_singleton, Prod.mk.injEq] at hb; exact r1 c hc hb.1.symm
  have hheld : q = .suspended ∨ q = .loaded ∨ q = .lost := by
    cases q
    · exact absurd rfl hne
    · exact .inr (.inl rfl)
    · exact absurd ((h.1.2.1 row).mp hq) (notrun _)
    · exact absurd ((h.1.2.2.1 row).mp hq) (notrun _)
    · exact .inl rfl
    · exact .inr (.inr rfl)
  unfold acquireTaken
  -- the row once the stack has been looked through, the running context pushed and the axes taken
  have key : ∀ u : State, ((∃ p, u.rowState row = some p ∧ (p = .loaded ∨ p = .lost)) ∧ Rows [] u) ∨
      (Rows [(row, false)] u) →
      Rows [(row, false)] (stbChange (axsTakeAll (acqPush u .switch none) .search searchAxes) row [.loaded, .lost] .acquiring none) ∧
      (stbChange (axsTakeAll (acqPush u .switch none) .search searchAxes) row [.loaded, .lost] .acquiring none).acq.ctx = none := by
    intro u hu
    have hn := ctx_acqPush u .switch none
    obtain ⟨k1, k2⟩ := kept_axsTakeAll (acqPush u .switch none) .search searchAxes
    refine ⟨?_, by rw [acq_stbChange, k1]; exact hn⟩
    rcases hu with ⟨⟨p, hp, hl⟩, hR⟩ | hR
    · have h1 := rows_of (rows_acqPush .switch none hR) k1 k2
      have hp2 : (axsTakeAll (acqPush u .switch none) .search searchAxes).rowState row = some p := by
        have g := h1.1
        have g0 := hR.1
        unfold State.rowState at hp ⊢
        rw [k2]
        cases hc : u.acq.ctx with
        | none =>
          have : acqPush u .switch none = u := by unfold acqPush; rw [hc]
          rw [this]; exact hp
        | some c =>
          obtain ⟨l, hl1, hl2⟩ := (pushed_acqPush hc .switch none).sites
          have hcr : row ≠ c.row := by
            intro e
            subst e
            unfold Acq.run at g0
            rw [hc] at g0
            have := g0.state
            unfold State.rowState at this
            rw [hp] at this
            rcases hl with rfl | rfl <;> cases hb : c.phase.tracks <;> rw [hb] at this <;> cases this
          rw [hl2, rowState_modify_at]
          unfold moved
          rw [if_neg hcr]
          rcases hl1 with rfl | ⟨r, rfl⟩
          · exact hp
          · dsimp only
            rw [rowState_modify_at]
            unfold moved
            split
            · dsimp only; rw [hp]; rcases hl with rfl | rfl <;> rfl
            · exact hp
      obtain ⟨f1, f2, f3⟩ := h1
      refine ⟨?_, f2, f3⟩
      unfold State.rowState at *
      simp only [acq_stbChange, sites_stbChange]
      rw [rowState_modify]
      have g := f1.started (src := [.loaded, .lost]) hp2 (by rcases hl with rfl | rfl <;> rfl) (by rcases hl with rfl | rfl <;> rfl)
      unfold Acq.run at g ⊢
      rw [k1, hn] at g ⊢
      exact g
    · have h1 := rows_of (rows_acqPush .switch none hR) k1 k2
      have hst : (axsTakeAll (acqPush u .switch none) .search searchAxes).rowState row = some .acquiring :=
        (h1.1.2.1 row).mpr (by simp)
      obtain ⟨f1, f2, f3⟩ := h1
      refine ⟨?_, f2, f3⟩
      have e : (stbChange (axsTakeAll (acqPush u .switch none) .search searchAxes) row [.loaded, .lost] .acquiring none).rowState =
          (axsTakeAll (acqPush u .switch none) .search searchAxes).rowState := by
        have e1 := rowState_modify (axsTakeAll (acqPush u .switch none) .search searchAxes).sites row [.loaded, .lost] .acquiring none
        unfold State.rowState at hst ⊢
        rw [sites_stbChange, e1]
        funext r
        unfold moved
        split
        · rename_i hr; subst hr; dsimp only; rw [hst]; rfl
        · rfl
      rw [e]; exact f1
  have hrem : ((∃ p, (removeStacked s row).rowState row = some p ∧ (p = .loaded ∨ p = .lost)) ∧ Rows [] (removeStacked s row)) ∨
      Rows [(row, false)] (removeStacked s row) := by
    unfold removeStacked
    split
    · rename_i hin
      right
      have hin' : row ∈ s.acq.stack.map (·.row) := by
        simp only [List.any_eq_true, decide_eq_true_eq] at hin
        exact List.mem_map.mpr hin
      obtain ⟨k1, k2⟩ := filter_rows s.acq.stack row h.1.2.2.2.1
      obtain ⟨f1, f2, f3⟩ := h
      refine ⟨?_, Nat.le_trans (List.length_filter_le _ _) f2, f3⟩
      unfold State.rowState at *
      simp only [acq_stbChange, acq_setStack, sites_stbChange, sites_setStack]
      rw [rowState_modify]
      have g := f1.taken hin' k1 k2
      unfold Acq.run at g ⊢
      cases hc : s.acq.ctx with
      | none => rw [hc] at g; exact g
      | some d => rw [hc] at g; exact g.swap
    · rename_i hin
      left
      refine ⟨⟨q, hq, ?_⟩, h⟩
      rcases hheld with e | e
      · subst e
        refine absurd ?_ hin
        have := (h.1.1 row).mp hq
        simp only [List.any_eq_true, decide_eq_true_eq]
        exact List.mem_map.mp this
      · exact e
  obtain ⟨g1, g2⟩ := key _ hrem
  exact rows_createCtx _ g1 g2 rfl (.inl rfl)

/-! ## Backward walk, writes and resets -/

theorem rows_emptied (st : List StackEntry) (s : State) :
    (st.foldl (fun s e => stbChange s e.row [.suspended] .loaded (some .stowed)) s).acq = s.acq ∧
    ∀ r, (st.foldl (fun s e => stbChange s e.row [.suspended] .loaded (some .stowed)) s).rowState r =
      if r ∈ st.map (·.row) then (s.rowState r).map fun q => if q = .suspended then .loaded else q else s.rowState r := by
  induction st generalizing s with
  | nil => exact ⟨rfl, fun r => by simp⟩
  | cons e st ih =>
    obtain ⟨h1, h2⟩ := ih (stbChange s e.row [.suspended] .loaded (some .stowed))
    refine ⟨h1, fun r => ?_⟩
    rw [List.foldl_cons, h2]
    have e2 : (stbChange s e.row [.suspended] .loaded (some .stowed)).rowState r = moved s.rowState e.row [.suspended] .loaded r :=
      rowState_modify_at _ _ _ _ _ _
    rw [e2]
    unfold moved
    rw [List.map_cons]
    by_cases hr : r = e.row
    · subst hr
      simp only [List.mem_cons, true_or, if_true]
      generalize s.rowState e.row = o
      split
      · cases o with
        | none => rfl
        | some q => cases q <;> rfl
      · cases o with
        | none => rfl
        | some q => cases q <;> rfl
    · simp [hr]

theorem rows_acqEmptyStack {s : State} (h : Rows x s) : Rows x (acqEmptyStack s) := by
  obtain ⟨h1, h2⟩ := rows_emptied s.acq.stack s
  obtain ⟨⟨f1, f2, f3, f4, f5⟩, f6, f7⟩ := h
  unfold acqEmptyStack
  generalize s.acq.stack.foldl (fun s e => stbChange s e.row [.suspended] .loaded (some .stowed)) s = u at h1 h2
  have e : ∀ r, (setStack u []).rowState r = (s.rowState r).map fun q => if q = .suspended then EntryState.loaded else q := by
    intro r
    have : (setStack u []).rowState r = u.rowState r := rfl
    rw [this, h2]
    split
    · rfl
    · rename_i hr
      cases hq : s.rowState r with
      | none => rfl
      | some q =>
        have : q ≠ .suspended := fun hs => hr ((f1 r).mp (by rw [hq, hs]))
        simp [this]
  have e0 : (setStack u []).acq = { s.acq with stack := [] } := by rw [acq_setStack, h1]
  refine ⟨⟨fun r => ?_, fun r => ?_, fun r => ?_, ?_, ?_⟩, ?_, ?_⟩
  · rw [e, e0]
    generalize s.rowState r = o
    cases o with
    | none => simp
    | some q => cases q <;> simp
  · rw [e, e0]
    refine Iff.trans ?_ (f2 r)
    generalize s.rowState r = o
    cases o with
    | none => simp
    | some q => cases q <;> simp
  · rw [e, e0]
    refine Iff.trans ?_ (f3 r)
    generalize s.rowState r = o
    cases o with
    | none => simp
    | some q => cases q <;> simp
  · rw [e0]; exact List.nodup_nil
  · rw [e0]; exact f5
  · rw [e0]; exact Nat.zero_le _
  · rw [e0]; exact f7

theorem rows_beforeWalk {s : State} (h : Rows [] s) : Rows [] (beforeWalk s) := by
  have h1 := rows_acqEmptyStack (rows_acqWalkAbort h)
  unfold beforeWalk
  generalize acqEmptyStack (acqWalkAbort s) = u at h1
  have h2 : Rows [] (txcStow u) := rows_of h1 rfl rfl
  have h3 := calm_rows.axsStopAll allAxes (calm_rows.axsTakeAll .sequence allAxes (calm_rows.shaEnd h2))
  simp only []
  generalize axsStopAll (axsTakeAll (shaEnd (txcStow u)) .sequence allAxes) allAxes = v at h3
  exact rows_of h3 rfl rfl

/-- A write of an entry leaves a row that R110 names in its state, and makes none one that it names. -/
theorem entryWrite_state {e e1 : Entry} {x : Sha} {f : Nat} {v : Int} (h : e.write x f v = .ok e1) :
    e1.state = e.state ∨ (e.state.held = false ∧ e1.state.held = false) := by
  unfold Entry.write at h
  split at h
  · unfold Entry.writeState at h
    split at h
    · cases h
    · split at h
      · cases h; exact .inl rfl
      all_goals first
        | (rename_i hs; cases h; exact .inr ⟨by rw [hs]; rfl, rfl⟩)
        | cases h
  · split at h
    · unfold Entry.writeSetting at h
      simp only [] at h
      split at h
      · cases h
      · split at h
        all_goals first
          | (rename_i hs; cases h; exact .inr ⟨by rw [hs]; rfl, rfl⟩)
          | cases h
    · obtain ⟨y, -, rfl⟩ := Inner.map_ok h
      exact .inl rfl

theorem Fit.same {run : List (Nat × Bool)} {st : List Nat} {f g : Nat → Option EntryState} (h : Fit run st f)
    (hg : ∀ r, g r = f r ∨ ∃ p q, f r = some p ∧ g r = some q ∧ p.held = false ∧ q.held = false) : Fit run st g := by
  obtain ⟨h1, h2, h3, h4, h5⟩ := h
  have key : ∀ r q, q.held = true → (g r = some q ↔ f r = some q) := by
    intro r q hq
    rcases hg r with e | ⟨a, b, e1, e2, ha, hb⟩
    · rw [e]
    · rw [e1, e2]
      refine iff_of_false (fun e => ?_) (fun e => ?_)
      · cases e; rw [hb] at hq; cases hq
      · cases e; rw [ha] at hq; cases hq
  exact ⟨fun r => (key r _ rfl).trans (h1 r), fun r => (key r _ rfl).trans (h2 r), fun r => (key r _ rfl).trans (h3 r), h4, h5⟩

theorem rows_entry {s : State} (row : Nat) (e e1 : Entry) (f : Nat) (v : Int) (he : s.entry row = some e)
    (hw : e.write s.sha f v = .ok e1) (h : Rows [] s) : Rows [] (s.withSites (s.sites.set row e1)) := by
  refine ⟨h.1.same fun r => ?_, h.2⟩
  unfold State.rowState
  rw [State.sites_withSites, List.getElem?_set]
  unfold State.entry at he
  split
  · rename_i hr
    subst hr
    rw [he]
    have hl : row < s.sites.length := (List.getElem?_eq_some_iff.mp he).1
    rw [if_pos hl]
    rcases entryWrite_state hw with h1 | ⟨h1, h2⟩
    · exact .inl (by simp [h1])
    · exact .inr ⟨_, _, rfl, rfl, h1, h2⟩
  · exact .inl rfl

theorem rows_vanWritten {s : State} (n : Nat) (h : Rows [] s) : Rows [] (vanWritten s n) := by
  refine ⟨h.1.same fun r => .inl ?_, h.2⟩
  unfold State.rowState vanWritten
  simp only [State.sites_withSites, List.getElem?_map, Option.map_map]
  refine congrArg (fun f => Option.map f s.sites[r]?) (funext fun e => ?_)
  show (e.narrow _ _).state = e.state
  unfold Entry.narrow
  split <;> rfl

/-- With no context, nothing stacked and no row that R110 names, all is in step: so it is after every reset. -/
theorem rows_idle {s : State} (h1 : s.acq.ctx = none) (h2 : s.acq.stack = []) (h3 : ∀ e ∈ s.sites, e.state.held = false) :
    Rows [] s := by
  have n : ∀ r q, q.held = true → s.rowState r ≠ some q := by
    intro r q hq e
    unfold State.rowState at e
    cases hs : s.sites[r]? with
    | none => rw [hs] at e; cases e
    | some y =>
      rw [hs] at e
      cases e
      rw [h3 y (List.mem_of_getElem? hs)] at hq
      cases hq
  unfold Rows Fit Acq.run
  rw [h1, h2]
  refine ⟨⟨fun r => ?_, fun r => ?_, fun r => ?_, List.nodup_nil, List.nodup_nil⟩, Nat.zero_le _, fun c hc => by cases hc⟩
  · exact iff_of_false (n r _ rfl) (by simp)
  · exact iff_of_false (n r _ rfl) (by simp)
  · exact iff_of_false (n r _ rfl) (by simp)

/-- The Acquisition Engine keeps the running context, the Resume Stack and the Site Table in step. -/
theorem engine_rows : Engine (Rows []) where
  __ := calm_rows
  deploy _ _ hs := rows_of hs rfl rfl
  halt {s} a c _ hs :=
    have h1 : Rows [] (s.setAxis a ((s.axis a).halt c)) := rows_of hs rfl rfl
    rows_of (calm_rows.raise (.axis a c) (calm_rows.closeRun a (calm_rows.sendDrive (.stop a) h1))) rfl rfl
  clear {s} hs := by
    have h1 : Rows [] (allAxes.foldl clearAxis s) := by
      refine Quiet.fold (fun {s} a hs => ?_) allAxes hs
      unfold clearAxis
      simp only []
      split
      · exact rows_of hs rfl rfl
      · exact hs
    unfold clearAxes
    generalize allAxes.foldl clearAxis s = u at h1
    exact Quiet.ite h1 (rows_of h1 rfl rfl)
  txOn hs := rows_of hs rfl rfl
  txOff hs := rows_of hs rfl rfl
  lower hs := rows_beforeWalk hs
  acqFail l hs := rows_acqFail l hs
  acqAbort hs := rows_acqAbort hs
  acqPush u o hs := rows_acqPush u o hs
  acqRelease c hc hs := rows_acqRelease c hc hs
  acqArrival a hs := rows_acqArrival a hs
  acqRest a p hs := rows_acqRest a p hs
  acqZoneStop a hs := rows_acqZoneStop a hs
  acqReady hs := rows_acqReady hs
  acqWait hs := rows_acqWait hs
  acqLink hs := rows_acqLink hs
  acqReport r hs := rows_acqReport r hs
  acqSettleTimer {s} hs := by
    unfold Machine.acqSettleTimer
    split
    · exact hs
    · rename_i c hc
      split
      · rename_i ht
        simp only [Bool.and_eq_true, decide_eq_true_eq] at ht
        exact rows_afterSettle hc (by rw [ht.2]; rfl) hs
      · exact hs
  acqLinkWait hs := rows_acqLinkWait hs
  acqGapTimer hs := rows_acqGapTimer hs
  startSlew hs := rows_startSlew hs
  popTop e rest h hs := rows_popSaved e rest h hs
  acqWake hs := rows_acqWake hs
  acqHoldCleared hs := rows_acqHoldCleared hs
  acquireTaken row h hs := rows_acquireTaken row h hs
  dropTop e rest h hs := rows_acqDrop e rest h hs
  entry row e e1 f v he hw hs := rows_entry row e e1 f v he hw hs
  van n hs := rows_vanWritten n hs
  acqSetting v e1 e2 hs := by
    obtain ⟨h1, h2, h3⟩ := hs
    unfold Acq.run at h1
    refine ⟨?_, by show v.stack.length ≤ _; rw [e2]; exact h2, fun c hc => h3 c (e1 ▸ hc)⟩
    unfold Acq.run
    show Fit ((match v.ctx with | none => [] | some c => [(c.row, c.phase.tracks)]) ++ []) (v.stack.map (·.row)) _
    rw [e1, e2]; exact h1

end Sys2Proof.Machine
end

