-- ==== Sys2Proof/Laws/Slew.lean ====
section
/-! SUPPORT. What the naming of a row, the creation of a context, the slew it starts and the resume of an entry do. -/

namespace Sys2Proof.Machine

theorem offerBands_eq (s : State) : offerBands s = ((s.acq.ctx.bind fun c => s.sites[c.row]?).map (·.set.bandMask)).getD s.sha.vanBands := by
  unfold offerBands offerRow State.entry
  cases s.acq.ctx with
  | none => rfl
  | some c => simp only [Option.bind_some]; cases s.sites[c.row]? <;> rfl

theorem offerPols_eq (s : State) : offerPols s = ((s.acq.ctx.bind fun c => s.sites[c.row]?).map (·.set.polMask)).getD s.sha.vanPols := by
  unfold offerPols offerRow State.entry
  cases s.acq.ctx with
  | none => rfl
  | some c => simp only [Option.bind_some]; cases s.sites[c.row]? <;> rfl

/-- A state in which PAN, TILT and POL have been taken for SEARCH and nothing else of the motion has changed. -/
structure SlewReady (s u : State) : Prop where
  zones : u.zones = s.zones
  wsm : u.wsm = s.wsm
  chans : u.axs.channels = s.axs.channels
  ax : ∀ b : Axis, b ≠ .mast → u.axis b = { s.axis b with owner := .search }
  mast : u.axis .mast = s.axis .mast
  jog : ∀ b : Axis, b ≠ .mast → u.jog b = none
  drive : u.out.drive = s.out.drive

/-- R140: the first MOVE of a slew. -/
theorem startSlew_sends {s u : State} (R : SlewReady s u) (hf : s.slewFree) {c : Ctx} (hc : u.acq.ctx = some c) (hal : s.slewAllowed c.slewPan c.slewTilt)
   (h1 : c.phase = .slew) (h2 : c.step = none) :
   s.slewing c.row c.slewPan c.slewTilt c.slewPol c.afterSettle c.reacquire (startSlew u) ∧ (startSlew u).acq.stack = u.acq.stack ∧ (startSlew u).sites = u.sites ∧
   (startSlew u).ntu = u.ntu ∧ (startSlew u).lnu = u.lnu ∧ (startSlew u).txc = u.txc ∧ (startSlew u).dsq = u.dsq ∧
   (startSlew u).axs.channels = u.axs.channels := by
  have upE : ((u.axis .tilt).position.any fun p => p < c.slewTilt) = ((s.axis .tilt).position.any fun p => p < c.slewTilt) := by
    rw [R.ax _ (by decide)]
  have hsl : startSlew u = slewMove (setCtx u { c with tiltFirst := (s.axis .tilt).position.any fun p => p < c.slewTilt }) { c with tiltFirst := (s.axis .tilt).position.any fun p => p < c.slewTilt } (firstSlewAxis ((s.axis .tilt).position.any fun p => p < c.slewTilt)) := by
    unfold startSlew; rw [hc]; simp only []; rw [upE]
  generalize hup : ((s.axis .tilt).position.any fun p => p < c.slewTilt) = up at hsl
  obtain ⟨a, target, hat, ham, hfa, htg⟩ : ∃ a target, slewFirst s c.slewPan c.slewTilt = (a,
    target) ∧ a ≠ .mast ∧ firstSlewAxis up = a ∧ ({ c with tiltFirst := up } : Ctx).slewTarget a = target := by
    unfold slewFirst; rw [hup]
    cases up
    · exact ⟨.pan, c.slewPan, rfl, by decide, rfl, rfl⟩
    · exact ⟨.tilt, c.slewTilt, rfl, by decide, rfl, rfl⟩
  rw [hfa] at hsl
  unfold State.slewAllowed at hal
  unfold State.slewing
  rw [hat] at hal ⊢
  simp only [] at hal ⊢
  obtain ⟨b1, b2, b3, b4, b5⟩ := hal
  obtain ⟨g1, g2, g3, g4⟩ := hf a ham
  have ua := R.ax a ham
  generalize hc' : ({ c with tiltFirst := up } : Ctx) = c' at hsl htg
  have hmc : moveCheck (setCtx u c') a target = (false, setCtx u c') := by
    apply moveCheck_allowed
    rw [← b4]
    apply moveCheck_congr
    · exact R.zones
    · intro b; show (u.axis b).position = _
      by_cases hb : b = .mast
      · subst hb; rw [R.mast]
      · rw [R.ax b hb]
    · intro b; show (u.axis b).presentTarget = _
      by_cases hb : b = .mast
      · subst hb; rw [R.mast]
      · rw [R.ax b hb, AxisRec.presentTarget_owner]
  have rate : ∀ x : State, x.wsm = s.wsm → ∀ n, searchRateFor x a n = capped n (rateCap s.wsm a) := by
    intro x hx n; unfold searchRateFor; rw [hx]
  have sel : searchSelect (setCtx u c') a .work target = setStepAxis (sendDrive (((setCtx u c').setAxis a ((u.axis a).setTarget .work (some target))).setAxis a
      { (u.axis a).setTarget .work (some target) with sel := .work }.moveSent) (.move a target (min (capped (s.axis a).rateLimit (rateCap s.wsm a)) (s.axis a).rateLimit))) (some a) := by
    unfold searchSelect axsSetTarget
    simp only []
    have e0 : (setCtx u c').axis a = u.axis a := rfl
    rw [e0, ua]
    rw [if_neg (by simp), if_neg (by show ¬ (s.axis a).motion = _; rw [g1]; decide), b3]
    simp only [Bool.not_true, Bool.false_eq_true, if_false]
    unfold axsSelect
    simp only []
    rw [State.axis_setAxis_self]
    have ch : ∀ r, channelsFull ((setCtx u c').setAxis a r) a = true := by
      intro r
      have : ∀ k, ((setCtx u c').setAxis a r).chan k = s.chan k := by
        intro k; unfold State.chan; show (u.axs.set a r).channels.get k = _; rw [Axs.channels_set_axis, R.chans]
      unfold channelsFull; rw [this, g3]; simp [ham]
    have tt : (AxisRec.setTarget { s.axis a with owner := .search } .work (some target)).target .work = some target := rfl
    rw [rate _ (by exact R.wsm), tt]
    have mr : moveRefusal ((setCtx u c').setAxis a (AxisRec.setTarget { s.axis a with owner := .search } .work (some target))) .search a (some target)
        (some (capped (s.axis a).rateLimit (rateCap s.wsm a))) = none := by
      unfold moveRefusal; simp only []; rw [State.axis_setAxis_self, ch]
      have m1 : (s.axis a).motion ≠ .off := by rw [g1]; decide
      have m2 : (s.axis a).motion ≠ .halted := by rw [g1]; decide
      obtain ⟨p, hp⟩ := Option.isSome_iff_exists.mp g4
      have : capped (s.axis a).rateLimit (rateCap s.wsm a) ≠ 0 := by omega
      simp [AxisRec.setTarget, m1, m2, hp, b3, this]
    have rl : (AxisRec.setTarget { s.axis a with owner := .search } .work (some target)).rateLimit = (s.axis a).rateLimit := rfl
    rw [rl, mr]
    simp only []
    unfold sendMove endJog
    rw [State.axis_setAxis_self, if_neg (show ¬ (AxisRec.setTarget { s.axis a with owner := .search } .work (some target)).motion = .jogging by show ¬ (s.axis a).motion = _; rw [g1]; decide)]
    rfl
  have fin : startSlew u = setStepAxis (sendDrive (((setCtx u c').setAxis a ((u.axis a).setTarget .work (some target))).setAxis a
      { (u.axis a).setTarget .work (some target) with sel := .work }.moveSent) (.move a target (min (capped (s.axis a).rateLimit (rateCap s.wsm a)) (s.axis a).rateLimit))) (some a) := by
    rw [hsl]
    unfold slewMove
    have hin : inSoft (setCtx u c') a (c'.slewTarget a) = true := by
      unfold inSoft; rw [htg]
      show ((u.axis a).softMin ≤ target && target ≤ (u.axis a).softMax : Bool) = true
      rw [ua]; simp; exact ⟨b1, b2⟩
    rw [if_pos hin, htg]
    unfold searchMove
    rw [hmc]; simp only [Bool.false_eq_true, if_false]
    exact sel
  rw [fin]
  have axd : ∀ b, (setStepAxis (sendDrive (((setCtx u c').setAxis a ((u.axis a).setTarget .work (some target))).setAxis a
      { (u.axis a).setTarget .work (some target) with sel := .work }.moveSent) (.move a target (min (capped (s.axis a).rateLimit (rateCap s.wsm a)) (s.axis a).rateLimit))) (some a)).axis b =
      if b = a then { (u.axis a).setTarget .work (some target) with sel := .work }.moveSent else u.axis b := by
    intro b
    show ((((setCtx u c').setAxis a ((u.axis a).setTarget .work (some target))).setAxis a
      { (u.axis a).setTarget .work (some target) with sel := .work }.moveSent)).axis b = _
    split
    · rename_i h; subst h; exact State.axis_setAxis_self _ _ _
    · rename_i h; rw [State.axis_setAxis_ne _ _ h, State.axis_setAxis_ne _ _ h]; rfl
  refine ⟨⟨⟨{ c' with stepAxis := some a }, rfl, ?_⟩, fun b hb => ⟨?_, ?_⟩, ?_, ?_, ?_, ?_⟩, rfl, rfl, rfl, rfl, rfl, rfl, ?_⟩
  · subst hc'; exact ⟨rfl, h1, h2, rfl, rfl, rfl, rfl, rfl, rfl⟩
  · rw [axd]; split
    · rw [ua]; rfl
    · rw [R.ax b hb]
  · show u.jog b = none; exact R.jog b hb
  · rw [axd, if_pos rfl]; rfl
  · rw [axd, if_pos rfl]; rfl
  · rw [axd, if_pos rfl]; rfl
  · show u.out.drive ++ _ = _; rw [R.drive]
  · show ((u.axs.set a _).set a _).channels = _; rw [Axs.channels_set_axis, Axs.channels_set_axis]

/-- Two contexts that slew alike. -/
structure SlewsLike (c d : Ctx) : Prop where
  row : d.row = c.row
  phase : d.phase = c.phase
  step : d.step = c.step
  pan : d.slewPan = c.slewPan
  tilt : d.slewTilt = c.slewTilt
  pol : d.slewPol = c.slewPol
  after : d.afterSettle = c.afterSettle
  re : d.reacquire = c.reacquire

theorem slewsLike_told (c : Ctx) (t) : SlewsLike c (c.told t) := by cases t <;> exact ⟨rfl, rfl, rfl, rfl, rfl, rfl, rfl, rfl⟩

/-- R128: the naming of a row changes the handshake and the site line alone. -/
structure Named (s t : State) : Prop where
  acq : t.acq = s.acq
  axs : t.axs = s.axs
  mgt : t.mgt = s.mgt
  zones : t.zones = s.zones
  wsm : t.wsm = s.wsm
  sites : t.sites = s.sites
  ntu : t.ntu = s.ntu
  lnu : t.lnu = s.lnu
  drive : t.out.drive = s.out.drive
  dsq : t.dsq = s.dsq
  txc : t.txc = s.txc

theorem named_shaName (s : State) : Named s (shaName s).1 := by
  unfold shaName judgeReady enterOffering sendAbility
  simp only []
  split
  · split
    · by_cases h : identityFits s <;> simp only [h] <;> exact ⟨rfl, rfl, rfl, rfl, rfl, rfl, rfl, rfl, rfl, rfl, rfl⟩
    · exact ⟨rfl, rfl, rfl, rfl, rfl, rfl, rfl, rfl, rfl, rfl, rfl⟩
  · exact ⟨rfl, rfl, rfl, rfl, rfl, rfl, rfl, rfl, rfl, rfl, rfl⟩

/-- R139: a created context, with nothing else changed but the handshake and the site line. -/
structure Created (s : State) (c : Ctx) (t : State) : Prop where
  ctx : ∃ d, t.acq = { s.acq with ctx := some d } ∧ SlewsLike c d
  axs : t.axs = s.axs
  mgt : t.mgt = s.mgt
  zones : t.zones = s.zones
  wsm : t.wsm = s.wsm
  sites : t.sites = s.sites
  ntu : t.ntu = s.ntu
  lnu : t.lnu = s.lnu
  drive : t.out.drive = s.out.drive
  dsq : t.dsq = s.dsq
  txc : t.txc = s.txc

theorem created_createCtx (s : State) (c : Ctx) : Created s c (createCtx s c) := by
  have n := named_shaName (setCtx s c)
  unfold createCtx
  generalize shaName (setCtx s c) = r at n
  obtain ⟨s1, t⟩ := r
  cases t with
  | none => exact ⟨⟨c, n.acq, ⟨rfl, rfl, rfl, rfl, rfl, rfl, rfl, rfl⟩⟩, n.axs, n.mgt, n.zones, n.wsm, n.sites, n.ntu, n.lnu, n.drive, n.dsq, n.txc⟩
  | some t => exact ⟨⟨c.told t, by show ({ s1.acq with ctx := some (c.told t) } : Acq) = _; rw [n.acq]; rfl, slewsLike_told c t⟩, n.axs, n.mgt, n.zones, n.wsm, n.sites, n.ntu, n.lnu, n.drive, n.dsq, n.txc⟩

/-- R139: PAN, TILT and POL taken for SEARCH. -/
structure SearchTaken (s t : State) : Prop where
  ax : ∀ b : Axis, b ≠ .mast → t.axis b = { s.axis b with owner := .search }
  mast : t.axis .mast = s.axis .mast
  chans : t.axs.channels = s.axs.channels
  jog : ∀ b : Axis, b ≠ .mast → t.jog b = none

theorem axsTake_search (s : State) (a : Axis) (hm : (s.axis a).motion = .idle) (ho : (s.axis a).owner = .none ∨ (s.axis a).owner = .console) :
   axsTake s .search a = closeRun (s.setAxis a { s.axis a with owner := .search }) a := by
  unfold axsTake; rw [if_neg (by rcases ho with h | h <;> rw [h] <;> decide), AxisRec.taken_at_rest (Or.inl hm)]

theorem searchTaken_axsTakeAll (s : State) (hf : s.slewFree) : SearchTaken s (axsTakeAll s .search searchAxes) := by
  obtain ⟨p1, p2, _⟩ := hf .pan (by decide)
  obtain ⟨t1, t2, _⟩ := hf .tilt (by decide)
  obtain ⟨l1, l2, _⟩ := hf .pol (by decide)
  unfold axsTakeAll searchAxes
  simp only [List.foldl]
  rw [axsTake_search s .pan p1 p2]
  have e1 : ∀ b, b ≠ .pan → ((closeRun (s.setAxis .pan { s.axis .pan with owner := .search }) .pan).axis b) = s.axis b := fun b h => State.axis_setAxis_ne s _ h
  rw [axsTake_search _ .tilt (by rw [e1 _ (by decide)]; exact t1) (by rw [e1 _ (by decide)]; exact t2)]
  rw [e1 _ (by decide)]
  generalize hu : closeRun (s.setAxis .pan { s.axis .pan with owner := .search }) .pan = u at e1
  have up : u.axis .pan = { s.axis .pan with owner := .search } := by rw [← hu]; exact State.axis_setAxis_self s .pan _
  have e2 : ∀ b, b ≠ .tilt → ((closeRun (u.setAxis .tilt { s.axis .tilt with owner := .search }) .tilt).axis b) = u.axis b := fun b h => State.axis_setAxis_ne u _ h
  rw [axsTake_search _ .pol (by rw [e2 _ (by decide), e1 _ (by decide)]; exact l1) (by rw [e2 _ (by decide), e1 _ (by decide)]; exact l2)]
  rw [e2 _ (by decide), e1 _ (by decide)]
  generalize hv : closeRun (u.setAxis .tilt { s.axis .tilt with owner := .search }) .tilt = v at e2
  have vt : v.axis .tilt = { s.axis .tilt with owner := .search } := by rw [← hv]; exact State.axis_setAxis_self u .tilt _
  have e3 : ∀ b, b ≠ .pol → ((closeRun (v.setAxis .pol { s.axis .pol with owner := .search }) .pol).axis b) = v.axis b := fun b h => State.axis_setAxis_ne v _ h
  refine ⟨fun b hb => ?_, ?_, ?_, fun b hb => ?_⟩
  · cases b
    · exact absurd rfl hb
    · rw [e3 _ (by decide), e2 _ (by decide), up]
    · rw [e3 _ (by decide), vt]
    · exact State.axis_setAxis_self v .pol _
  · rw [e3 _ (by decide), e2 _ (by decide), e1 _ (by decide)]
  · show (v.axs.set _ _).channels = _; rw [Axs.channels_set_axis, ← hv]; show (u.axs.set _ _).channels = _; rw [Axs.channels_set_axis, ← hu]; exact Axs.channels_set_axis _ _ _
  · show (v.mgt.set .pol none).get b = none
    rw [Mgt.get_set, ← hv]; show (if b = .pol then none else (u.mgt.set .tilt none).get b) = none
    rw [Mgt.get_set, ← hu]; show (if b = .pol then none else if b = .tilt then none else (s.mgt.set .pan none).get b) = none
    rw [Mgt.get_set]; cases b <;> first | rfl | exact absurd rfl hb

theorem axsTakeAll_elsewhere (s : State) (o) (l) : (axsTakeAll s o l).acq = s.acq ∧ (axsTakeAll s o l).zones = s.zones ∧ (axsTakeAll s o l).wsm = s.wsm ∧ (axsTakeAll s o l).sites = s.sites ∧
   (axsTakeAll s o l).ntu = s.ntu ∧ (axsTakeAll s o l).lnu = s.lnu ∧ (axsTakeAll s o l).out = s.out ∧ (axsTakeAll s o l).sha = s.sha ∧ (axsTakeAll s o l).dsq = s.dsq := by
  induction l generalizing s with
  | nil => exact ⟨rfl, rfl, rfl, rfl, rfl, rfl, rfl, rfl, rfl⟩
  | cons a l ih =>
    show (axsTakeAll (axsTake s o a) o l).acq = _ ∧ (axsTakeAll (axsTake s o a) o l).zones = _ ∧ (axsTakeAll (axsTake s o a) o l).wsm = _ ∧ (axsTakeAll (axsTake s o a) o l).sites = _ ∧ (axsTakeAll (axsTake s o a) o l).ntu = _ ∧ (axsTakeAll (axsTake s o a) o l).lnu = _ ∧ (axsTakeAll (axsTake s o a) o l).out = _ ∧ (axsTakeAll (axsTake s o a) o l).sha = _ ∧ (axsTakeAll (axsTake s o a) o l).dsq = _
    obtain ⟨h1, h2, h3, h4, h5, h6, h7, h8, h9⟩ := ih (axsTake s o a)
    rw [h1, h2, h3, h4, h5, h6, h7, h8, h9]
    unfold axsTake; split <;> exact ⟨rfl, rfl, rfl, rfl, rfl, rfl, rfl, rfl, rfl⟩

theorem txc_axsTakeAll (s : State) (o) (l) : (axsTakeAll s o l).txc = s.txc := by
  induction l generalizing s with
  | nil => rfl
  | cons a l ih => refine (ih (axsTake s o a)).trans ?_; unfold axsTake; split <;> rfl

/-- R138: steps 7 to 9 of Table 8-4 that pass change nothing. -/
theorem slewChecks_passed {s : State} {row} (h : (slewChecks s row).1 = none) : slewChecks s row = (none, s) := by
  unfold slewChecks at *
  simp only [] at *
  split at h
  · rename_i hh ht hp
    split at h
    · rename_i hs
      rw [if_pos hs]
      simp only [] at h
      have pc : (poseCheck s ⟨(entryOf s row).set.presetPan, (entryOf s row).set.presetTilt, hh⟩).1 = false := by
        cases e : (poseCheck s ⟨(entryOf s row).set.presetPan, (entryOf s row).set.presetTilt, hh⟩).1
        · rfl
        · rw [e] at h; cases h
      have : poseCheck s ⟨(entryOf s row).set.presetPan, (entryOf s row).set.presetTilt, hh⟩ = (false, s) := by
        have h' : s.zones.any (fun z => zoneHolds z ⟨(entryOf s row).set.presetPan, (entryOf s row).set.presetTilt, hh⟩) = false := pc
        unfold poseCheck countedCheck
        rw [h']
        congr 1
        have : (s.zones.map fun z => if zoneHolds z ⟨(entryOf s row).set.presetPan, (entryOf s row).set.presetTilt, hh⟩ then z.hit else z) = s.zones := by
          conv => rhs; rw [← List.map_id s.zones]
          refine List.map_congr_left fun z hz => ?_
          have := List.any_eq_false.mp h' z hz
          simp [this]
        rw [this]; rfl
      rw [this]; rfl
    · cases h
  · cases h

/-- R166: the pop of a top entry whose row is SUSPENDED, with no context running. `d` is the context the pop creates, whatever
the taking of the axes has made of their owners. -/
theorem popTo_slews {s : State} {e : StackEntry} {rest : List StackEntry} {x : Entry} {k : State → Ctx} {d : Ctx}
    (h : s.acq.stack = e :: rest) (hc : s.acq.ctx = none) (hx : s.sites[e.row]? = some x) (hxs : x.state = .suspended)
    (hk : ∀ u : State, entryOf u e.row = { x with state := .acquiring } →
      (∀ b : Axis, b ≠ .mast → u.axis b = { s.axis b with owner := .search }) → k u = d)
    (hr : d.row = e.row) (hp : d.phase = .slew) (hst : d.step = none) (hf : s.slewFree)
    (hal : s.slewAllowed d.slewPan d.slewTilt) :
    let t := startSlew (popTo s e k)
    s.slewing e.row d.slewPan d.slewTilt d.slewPol d.afterSettle d.reacquire t ∧ t.acq.stack = rest ∧
      t.sites = s.sites.set e.row { x with state := .acquiring } ∧
      (t.ntu.get .resume).latest = some (.resumeResumed e.row e.cause) ∧ t.dsq = s.dsq ∧ t.txc = s.txc ∧
      t.axs.channels = s.axs.channels ∧ ∀ k : NoticeClass, k ≠ .resume → t.ntu.get k = s.ntu.get k := by
  have s1sites : (stbChange (setStack s s.acq.stack.tail) e.row [.suspended] .acquiring none).sites = s.sites.set e.row { x with state := .acquiring } := by
    show s.sites.modify _ _ = _; rw [List.modify_eq_set _ _ _ _ hx]; congr 1; unfold Entry.change; rw [hxs]; rfl
  have push : acqPush (stbChange (setStack s s.acq.stack.tail) e.row [.suspended] .acquiring none) .switch none = stbChange (setStack s s.acq.stack.tail) e.row [.suspended] .acquiring none := by
    unfold acqPush; rw [show (stbChange (setStack s s.acq.stack.tail) e.row [.suspended] .acquiring none).acq.ctx = none from hc]
  have pd : popTo s e k = (fun u : State => raise (createCtx u (k u)) (.resumeResumed e.row e.cause)) (axsTakeAll (stbChange (setStack s s.acq.stack.tail) e.row [.suspended] .acquiring none) .search searchAxes) := by
    unfold popTo; simp only []; rw [push]
  have T := searchTaken_axsTakeAll (stbChange (setStack s s.acq.stack.tail) e.row [.suspended] .acquiring none) hf
  obtain ⟨t1, t2, t3, t4, t5, t6, t7, t8, t9⟩ := axsTakeAll_elsewhere (stbChange (setStack s s.acq.stack.tail) e.row [.suspended] .acquiring none) .search searchAxes
  have t10 := txc_axsTakeAll (stbChange (setStack s s.acq.stack.tail) e.row [.suspended] .acquiring none) .search searchAxes
  generalize axsTakeAll (stbChange (setStack s s.acq.stack.tail) e.row [.suspended] .acquiring none) .search searchAxes = u at T t1 t2 t3 t4 t5 t6 t7 t8 t9 t10 pd
  simp only [] at pd
  have en : entryOf u e.row = { x with state := .acquiring } := by
    unfold entryOf State.entry; rw [t4, s1sites, List.getElem?_set]; simp [(List.getElem?_eq_some_iff.mp hx).1]
  rw [hk u en (fun b hb => T.ax b hb)] at pd
  have C := created_createCtx u d
  generalize createCtx u d = v at C pd
  obtain ⟨q1, q2, q3, q4, q5, q6, q7, q8, q9, q10⟩ := raise_elsewhere v (.resumeResumed e.row e.cause)
  have rl := latest_raise v (.resumeResumed e.row e.cause)
  have ro := fun (k : NoticeClass) (hk : k ≠ .resume) => notices_raise_other v (.resumeResumed e.row e.cause) k hk
  rw [← pd] at q1 q2 q3 q4 q5 q6 q7 q8 q9 q10 rl ro
  generalize popTo s e k = z at q1 q2 q3 q4 q5 q6 q7 q8 q9 q10 rl ro
  obtain ⟨c, hcd, L⟩ := C.ctx
  have R : SlewReady s z := by
    refine ⟨?_, ?_, ?_, fun b hb => ?_, ?_, fun b hb => ?_, ?_⟩
    · rw [q7, C.zones, t2]; rfl
    · rw [q6, C.wsm, t3]; rfl
    · rw [q8, C.axs, T.chans]; rfl
    · unfold State.axis; rw [q8, C.axs]; exact T.ax b hb
    · unfold State.axis; rw [q8, C.axs]; exact T.mast
    · unfold State.jog; rw [q10, C.mgt]; exact T.jog b hb
    · rw [q9, C.drive, t7]; rfl
  have G := startSlew_sends R hf (c := c) (by rw [q1, hcd]) (by rw [L.pan, L.tilt]; exact hal) (by rw [L.phase]; exact hp) (by rw [L.step]; exact hst)
  rw [L.row, L.pan, L.tilt, L.pol, L.after, L.re, hr] at G
  obtain ⟨g1, g2, g3, g4, g5, g6, g7, g8⟩ := G
  refine ⟨g1, ?_, ?_, ?_, ?_, ?_, ?_, fun k hk => ?_⟩
  · rw [g2, q1, hcd]; show u.acq.stack = _; rw [t1]; show s.acq.stack.tail = _; rw [h]; rfl
  · rw [g3, q4, C.sites, t4, s1sites]
  · rw [g4]; exact rl
  · rw [g7, q2, C.dsq, t9]; rfl
  · rw [g6, q3, C.txc, t10]; rfl
  · rw [g8, R.chans]
  · rw [g4, ro k hk, C.ntu, t5]; rfl

/-- R167: the context of a resume is the same after the taking of the axes. -/
theorem resumedCtx_eq {s u : State} {e : StackEntry} {x : Entry} (p : ResumePhase) (hx : s.sites[e.row]? = some x)
    (hu : entryOf u e.row = { x with state := .acquiring })
    (ha : ∀ b : Axis, b ≠ .mast → u.axis b = { s.axis b with owner := .search }) :
    resumedCtx u e p =
      newCtx e.row (resumePose s e p).1 (resumePose s e p).2 x.set.presetPol p.after e.reacquire := by
  have en : entryOf s e.row = x := by unfold entryOf State.entry; rw [hx]; rfl
  have pos : resumePose u e p = resumePose s e p := by unfold resumePose; rw [hu, en, ha .pan (by decide)]; rfl
  unfold resumedCtx; rw [pos, hu]

/-- R166, R168: the pop of a top entry by its saved phase. -/
theorem acqResume_pops {s : State} {e : StackEntry} {rest : List StackEntry} {x : Entry} {pan tilt : Int} (h : s.acq.stack = e :: rest) (hc : s.acq.ctx = none) (hx : s.sites[e.row]? = some x)
   (hxs : x.state = .suspended) (hpose : resumePose s e e.phase = (pan, tilt)) (hf : s.slewFree) (hal : s.slewAllowed pan tilt) :
   let t := startSlew (popSaved s e)
   s.slewing e.row pan tilt x.set.presetPol e.phase.after e.reacquire t ∧ t.acq.stack = rest ∧
          t.sites = s.sites.set e.row { x with state := .acquiring } ∧
          (t.ntu.get .resume).latest = some (.resumeResumed e.row e.cause) := by
  obtain ⟨a1, a2, a3, a4, -⟩ := popTo_slews (k := fun u => resumedCtx u e e.phase) (d := newCtx e.row pan tilt x.set.presetPol e.phase.after e.reacquire) h hc hx hxs
    (fun u hu ha => by rw [resumedCtx_eq e.phase hx hu ha, hpose]) rfl rfl rfl hf hal
  exact ⟨a1, a2, a3, a4⟩

end Sys2Proof.Machine
end

