-- ==== Sys2Proof/Laws/Search.lean ====
section
/-! SUPPORT. What the phases of an acquisition do: moves, sweeps, edges, centring, track, loss, and what SHA tells the running context. -/

namespace Sys2Proof.Machine

theorem acqFail_running {s u : State} {c d : Ctx} {e : Entry} {w : LastCause} (hd : u.acq = { s.acq with ctx := some d }) (hr : d.row = c.row) 
   (he : s.sites[c.row]? = some e) (hs : u.sites = s.sites) (hst : e.state = .acquiring ∨ e.state = .tracked) :
   (acqFail u w).acq = { s.acq with ctx := none } ∧ (acqFail u w).searchReleased ∧ (acqFail u w).sha.linkReady = false ∧
   (acqFail u w).sites = s.sites.set c.row { e with state := .lost, learned := { e.learned with cause := w } } ∧
   ((acqFail u w).ntu.get .search).latest = some (.searchEnded w c.row d.phase) := by
  obtain ⟨f1, f2, f3, f4, f5, f6, f7, f8, f9⟩ := acqFail_does u d w (by rw [hd])
  refine ⟨?_, f7, ?_, ?_, ?_⟩
  · rw [f1, hd]
  · rw [f2]
  · rw [f6, hs, hr, List.modify_eq_set _ _ _ _ he]; congr 1
    unfold Entry.change runningStates; rcases hst with h | h <;> simp [h]
  · rw [f5, hr]

theorem sweepLow_eq (s : State) (a : Axis) (centre : Int) (n : Nat) : (sweepLow s a centre n).1 =
   (match extentQuery s a centre .down with
        | some b => max (max (centre - n) (s.axis a).softMin) (b + (s.axis a).margin)
        | none => max (centre - n) (s.axis a).softMin) := by
  unfold sweepLow; simp only []
  cases extentQuery s a centre .down with
  | none => rfl
  | some b => simp only []; split <;> (simp only []; omega)

theorem sweepHigh_eq (s : State) (a : Axis) (centre : Int) (n : Nat) : (sweepHigh s a centre n).1 =
   (match extentQuery s a centre .up with
        | some b => min (min (centre + n) (s.axis a).softMax) (b - (s.axis a).margin)
        | none => min (centre + n) (s.axis a).softMax) := by
  unfold sweepHigh; simp only []
  cases extentQuery s a centre .up with
  | none => rfl
  | some b => simp only []; split <;> (simp only []; omega)

/-- One STOP of a search that leaves no axis out. -/
theorem stopSearch_one (u : State) (b : Axis) :
   (∀ d, ((if (u.axis b).motion = .moving ∧ (none : Option Axis) ≠ some b then axsStop u b else u)).axis d = if d = b then (if (u.axis b).motion = .moving then (u.axis b).stopped else u.axis b) else u.axis d) ∧
   ((if (u.axis b).motion = .moving ∧ (none : Option Axis) ≠ some b then axsStop u b else u)).out.drive = u.out.drive ++ (if (u.axis b).motion = .moving then [.stop b] else []) := by
  by_cases hm : (u.axis b).motion = .moving
  · rw [if_pos ⟨hm, by simp⟩]
    unfold axsStop; rw [hm]; simp only [if_true]
    refine ⟨fun d => ?_, rfl⟩
    show (u.setAxis b (u.axis b).stopped).axis d = _
    by_cases hd : d = b
    · subst hd; rw [State.axis_setAxis_self, if_pos rfl]
    · rw [State.axis_setAxis_ne _ _ hd, if_neg hd]
  · rw [if_neg (fun x => hm x.1)]
    simp only [hm, if_false]
    refine ⟨fun d => ?_, by simp⟩
    split
    · rename_i h; rw [h]
    · rfl

theorem drive_stopSearch (s : State) : (stopSearch s none).out.drive =
      s.out.drive ++ ([Axis.pan, .tilt, .pol].filter fun a => (s.axis a).motion = .moving).map DriveFrame.stop := by
  unfold stopSearch searchAxes
  simp only [List.foldl]
  have p := stopSearch_one s .pan
  generalize (if (s.axis .pan).motion = .moving ∧ (none : Option Axis) ≠ some .pan then axsStop s .pan else s) = u at p
  have q := stopSearch_one u .tilt
  generalize (if (u.axis .tilt).motion = .moving ∧ (none : Option Axis) ≠ some .tilt then axsStop u .tilt else u) = v at q
  have r := stopSearch_one v .pol
  generalize (if (v.axis .pol).motion = .moving ∧ (none : Option Axis) ≠ some .pol then axsStop v .pol else v) = w at r
  have e1 : (u.axis .tilt).motion = (s.axis .tilt).motion := by rw [p.1, if_neg (by decide)]
  have e2 : (v.axis .pol).motion = (s.axis .pol).motion := by rw [q.1, if_neg (by decide), p.1, if_neg (by decide)]
  rw [r.2, q.2, p.2, e1, e2]
  simp only [List.filter]
  cases (s.axis .pan).motion <;> cases (s.axis .tilt).motion <;> cases (s.axis .pol).motion <;> simp

theorem drive_acqFail (u : State) (d : Ctx) (cause) (h : u.acq.ctx = some d) : (acqFail u cause).out.drive =
      u.out.drive ++ ([Axis.pan, .tilt, .pol].filter fun a => (u.axis a).motion = .moving).map DriveFrame.stop := by
  unfold acqFail; rw [h]; simp only []
  rw [← drive_stopSearch]
  have : ∀ x : State, (endCtx (releaseSearch x)).out = x.out := fun x => rfl
  rw [this]
  unfold markFailed; simp only []; rw [out_raise]
  split <;> rfl

theorem tracked_acqFail (u : State) (d : Ctx) (cause) (h : u.acq.ctx = some d) (ht : (entryOf u d.row).state = .tracked) :
    (acqFail u cause).txc.tracked = false := by
  unfold acqFail; rw [h]; simp only []
  have : ∀ x : State, (endCtx (releaseSearch x)).txc = x.txc := fun x => rfl
  rw [this]
  unfold markFailed; simp only []
  have e : (entryOf (stopSearch u none) d.row) = entryOf u d.row := by unfold entryOf State.entry; rw [(onlyAxes_stopSearch u none).sites]
  rw [e, if_pos (by simpa using ht)]
  rw [txc_raise]
  show (Txc.judged _ _).tracked = _
  rw [(judged_keeps _ _).2.2.2.2.2]; rfl

/-- R158: a failure, as the statements say it. -/
theorem endsSearch_acqFail {s u : State} {c d : Ctx} {w : LastCause} (hd : u.acq = { s.acq with ctx := some d }) (hr : d.row = c.row) (hp : d.phase = c.phase)
   (hs : u.sites = s.sites) (hh : u.sha = s.sha) (ha : u.axs = s.axs) (ho : u.out = s.out) : s.endsSearch c w (acqFail u w) := by
  intro e he hst
  obtain ⟨g1, g2, g3, g4, g5⟩ := acqFail_running (w := w) hd hr he hs hst
  have hc : u.acq.ctx = some d := by rw [hd]
  obtain ⟨f1, f2, f3, f4, f5, f6, f7, f8, f9⟩ := acqFail_does u d w hc
  refine ⟨g1, g2, ?_, g4, fun ht => ?_, ?_, ?_⟩
  · rw [f2, hh]
  · apply tracked_acqFail u d w hc
    unfold entryOf State.entry; rw [hs, hr, he]; exact ht
  · rw [drive_acqFail u d w hc, ho]; unfold State.axis; rw [ha]
  · rw [g5, hp]

theorem State.endsSearch_congr {s u t : State} {c d : Ctx} {w} (h : u.endsSearch d w t) (ha : { u.acq with ctx := none } = ({ s.acq with ctx := none } : Acq)) (hr : d.row = c.row) (hp : d.phase = c.phase)
   (hs : u.sites = s.sites) (hh : u.sha = s.sha) (hx : u.axs = s.axs) (ho : u.out = s.out) : s.endsSearch c w t := by
  intro e he hst
  obtain ⟨a1, a2, a3, a4, a5, a6, a7⟩ := h e (by rw [hs, hr]; exact he) hst
  refine ⟨a1.trans ha, a2, by rw [a3, hh], by rw [a4, hs, hr], a5, ?_, by rw [a7, hr, hp]⟩
  rw [a6, ho]; unfold State.axis; rw [hx]

/-- R140, R145: a SET TARGET with a SELECT is sent, or the acquisition fails with ABORTED. -/
theorem searchSelect_does (s : State) (c : Ctx) (hc : s.acq.ctx = some c) (a : Axis) (which : Sel) (x : Int) :
   (s.accepts .search a x (capped (s.axis a).rateLimit (rateCap s.wsm a)) → searchSelect s a which x =
      (s.withMove a { (s.axis a).setTarget which (some x) with sel := which } x (capped (s.axis a).rateLimit (rateCap s.wsm a))).withCtx { c with stepAxis := some a }) ∧
   (¬ s.accepts .search a x (capped (s.axis a).rateLimit (rateCap s.wsm a)) → s.endsSearch c .aborted (searchSelect s a which x)) := by
  have sf : ∀ r : AxisRec, ∀ o : Owner, r.owner = o → r.motion ≠ .halted → inFull a x = true → s.axis a = r → axsSetTarget s o a which x = .ok (s.setAxis a (r.setTarget which (some x))) := by
    intro r o h1 h2 h3 h4
    unfold axsSetTarget; simp only []; rw [h4, if_neg (by simp [h1]), if_neg h2, if_neg (by simp [h3])]
  have rf : ∀ which (r : AxisRec), (r.setTarget which (some x)).owner = r.owner ∧ (r.setTarget which (some x)).motion = r.motion ∧ (r.setTarget which (some x)).position = r.position ∧
     (r.setTarget which (some x)).rateLimit = r.rateLimit ∧ (r.setTarget which (some x)).target which = some x := by
    intro w r; cases w <;> exact ⟨rfl, rfl, rfl, rfl, rfl⟩
  have key : ∀ (h1 : (s.axis a).owner = .search) (h2 : (s.axis a).motion ≠ .halted) (h3 : inFull a x = true),
     searchSelect s a which x = (match moveRefusal (s.setAxis a ((s.axis a).setTarget which (some x))) .search a (some x) (some (capped (s.axis a).rateLimit (rateCap s.wsm a))) with
       | some _ => acqFail (s.setAxis a ((s.axis a).setTarget which (some x))) .aborted
       | none => setStepAxis (sendMove (s.setAxis a ((s.axis a).setTarget which (some x))) a { (s.axis a).setTarget which (some x) with sel := which }.moveSent x (some (capped (s.axis a).rateLimit (rateCap s.wsm a)))) (some a)) := by
    intro h1 h2 h3
    unfold searchSelect; rw [sf _ .search h1 h2 h3 rfl]; simp only []
    unfold axsSelect; simp only []
    rw [State.axis_setAxis_self, (rf which _).2.2.2.2, (rf which _).2.2.2.1]
    have : ∀ n, searchRateFor (s.setAxis a ((s.axis a).setTarget which (some x))) a n = capped n (rateCap s.wsm a) := fun _ => rfl
    rw [this]
    cases moveRefusal (s.setAxis a ((s.axis a).setTarget which (some x))) .search a (some x) (some (capped (s.axis a).rateLimit (rateCap s.wsm a))) <;> rfl
  have ch : ∀ r, channelsFull (s.setAxis a r) a = channelsFull s a := by
    intro r
    have : ∀ k, (s.setAxis a r).chan k = s.chan k := by
      intro k; unfold State.chan; show (s.axs.set a r).channels.get k = _; rw [Axs.channels_set_axis]
    unfold channelsFull; rw [this, this]
  constructor
  · rintro ⟨h1, h2, h3, h4, h5, h6, h7⟩
    rw [key h1 h3 h6]
    have : moveRefusal (s.setAxis a ((s.axis a).setTarget which (some x))) .search a (some x) (some (capped (s.axis a).rateLimit (rateCap s.wsm a))) = none := by
      unfold moveRefusal; simp only []
      rw [State.axis_setAxis_self, ch, (rf which _).1, (rf which _).2.1, (rf which _).2.2.1]
      rw [if_neg (by simp [h1]), if_neg (by simp [h2, h3]), if_neg (by simp [h4]), if_neg (by cases e : (s.axis a).position <;> simp_all), if_neg (by simp [h6]), if_neg (by simp; omega)]
    rw [this]; simp only []
    unfold setStepAxis
    have e1 : (sendMove (s.setAxis a ((s.axis a).setTarget which (some x))) a { (s.axis a).setTarget which (some x) with sel := which }.moveSent x (some (capped (s.axis a).rateLimit (rateCap s.wsm a)))) =
       s.withMove a { (s.axis a).setTarget which (some x) with sel := which } x (capped (s.axis a).rateLimit (rateCap s.wsm a)) := by
      unfold sendMove endJog State.withMove
      rw [State.axis_setAxis_self, (rf which _).2.1]
      unfold sendDrive State.setAxis State.withAxs
      split
      · unfold closeRun State.withMgt; simp only [Axs.set_set]; rfl
      · simp only [Axs.set_set]; rfl
    rw [e1]
    show (match s.acq.ctx with | none => _ | some c => _) = _
    rw [hc]; rfl
  · intro hn
    by_cases h1 : (s.axis a).owner = .search
    · by_cases h2 : (s.axis a).motion = .halted
      · have : searchSelect s a which x = acqFail s .aborted := by
          unfold searchSelect axsSetTarget; simp only []; rw [if_neg (by simp [h1]), if_pos h2]
        rw [this]; exact endsSearch_acqFail (d := c) (by rw [← hc]) rfl rfl rfl rfl rfl rfl
      · by_cases h3 : inFull a x = true
        · rw [key h1 h2 h3]
          have : ∃ w, moveRefusal (s.setAxis a ((s.axis a).setTarget which (some x))) .search a (some x) (some (capped (s.axis a).rateLimit (rateCap s.wsm a))) = some w := by
            by_contra hcc
            have hn' : moveRefusal (s.setAxis a ((s.axis a).setTarget which (some x))) .search a (some x) (some (capped (s.axis a).rateLimit (rateCap s.wsm a))) = none := by
              cases e : moveRefusal (s.setAxis a ((s.axis a).setTarget which (some x))) .search a (some x) (some (capped (s.axis a).rateLimit (rateCap s.wsm a))) with
              | none => rfl
              | some w => exact absurd ⟨w, e⟩ hcc
            apply hn
            unfold moveRefusal at hn'; simp only [] at hn'
            rw [State.axis_setAxis_self, ch, (rf which _).1, (rf which _).2.1, (rf which _).2.2.1] at hn'
            split at hn'; cases hn'
            split at hn'; cases hn'
            split at hn'; cases hn'
            split at hn'; cases hn'
            split at hn'; cases hn'
            split at hn'; cases hn'
            rename_i a1 a2 a3 a4 a5 a6
            refine ⟨h1, fun e => a2 (Or.inl e), fun e => a2 (Or.inr e), by simpa using a3, ?_, h3, ?_⟩
            · cases e : (s.axis a).position <;> simp_all
            · rcases Nat.eq_zero_or_pos (capped (s.axis a).rateLimit (rateCap s.wsm a)) with e | e
              · rw [e] at a6; exact absurd rfl a6
              · exact e
          obtain ⟨w, hw⟩ := this
          rw [hw]; simp only []
          have mv : ∀ b, ((s.setAxis a ((s.axis a).setTarget which (some x))).axis b).motion = (s.axis b).motion := by
            intro b; by_cases hb : b = a
            · subst hb; rw [State.axis_setAxis_self]; exact (rf which _).2.1
            · rw [State.axis_setAxis_ne _ _ hb]
          intro e he hst
          obtain ⟨a1, a2, a3, a4, a5, a6, a7⟩ := endsSearch_acqFail (s := s.setAxis a ((s.axis a).setTarget which (some x))) (w := .aborted) (c := c) (d := c) (by show s.acq = _; rw [← hc]; rfl) rfl rfl rfl rfl rfl rfl e he hst
          refine ⟨a1, a2, a3, a4, a5, ?_, a7⟩
          rw [a6]; simp only [mv]; rfl
        · have : searchSelect s a which x = acqFail s .aborted := by
            unfold searchSelect axsSetTarget; simp only []; rw [if_neg (by simp [h1]), if_neg h2, if_pos (by simpa using h3)]
          rw [this]; exact endsSearch_acqFail (d := c) (by rw [← hc]) rfl rfl rfl rfl rfl rfl
    · have : searchSelect s a which x = acqFail s .aborted := by
        unfold searchSelect axsSetTarget; simp only []; rw [if_pos h1]
      rw [this]; exact endsSearch_acqFail (d := c) (by rw [← hc]) rfl rfl rfl rfl rfl rfl

/-- R140, R145, R152: a move of a search, as the statements say it. -/
theorem searches_searchMove (s : State) (c : Ctx) (hc : s.acq.ctx = some c) (a : Axis) (which : Sel)
    (x : Int) : s.searches c a which x (searchMove s a which x) := by
  unfold searchMove; simp only []
  refine ⟨fun h => ?_, fun h hn => ?_, fun h hn => ?_⟩
  · rw [h, if_pos rfl]
    have z : ∃ zs, (moveCheck s a x).2 = s.withZones zs := by
      unfold moveCheck; split
      · exact ⟨s.zones, rfl⟩
      · exact ⟨_, rfl⟩
    obtain ⟨zs, hz⟩ := z
    rw [hz]; exact endsSearch_acqFail (d := c) (by show s.acq = _; rw [← hc]) rfl rfl rfl rfl rfl rfl
  · rw [moveCheck_allowed h]; simp only [Bool.false_eq_true, if_false]
    exact (searchSelect_does s c hc a which x).2 hn
  · rw [moveCheck_allowed h]; simp only [Bool.false_eq_true, if_false]
    exact (searchSelect_does s c hc a which x).1 hn

theorem State.searches_congr {s u t : State} {c a w x} (h : u.searches c a w x t) (hx : u.axs = s.axs) (hz : u.zones = s.zones) (hw : u.wsm = s.wsm)
   (hs : u.sites = s.sites) (hh : u.sha = s.sha) (ho : u.out = s.out) (ha : { u.acq with ctx := none } = ({ s.acq with ctx := none } : Acq))
   (he : ∀ q k d, (u.withMove a q x k).withCtx d = (s.withMove a q x k).withCtx d) : s.searches c a w x t := by
  obtain ⟨h1, h2, h3⟩ := h
  have ax : ∀ b, u.axis b = s.axis b := fun b => by unfold State.axis; rw [hx]
  have mc : (moveCheck u a x).1 = (moveCheck s a x).1 := moveCheck_congr hz (fun b => by rw [ax]) (fun b => by rw [ax]) a x
  simp only [ax, hw, mc] at h1 h2 h3
  refine ⟨fun b => State.endsSearch_congr (h1 b) ha rfl rfl hs hh hx ho,
    fun b n => State.endsSearch_congr (h2 b (fun k => n ((State.accepts_congr hx _ _ _ _).mp k))) ha rfl rfl hs hh hx ho, fun b n => ?_⟩
  rw [h3 b ((State.accepts_congr hx _ _ _ _).mpr n), he]

theorem State.searches_of_withCtx {s t : State} {c d a w x} (h : (s.withCtx d).searches c a w x t) : s.searches c a w x t :=
  State.searches_congr h rfl rfl rfl rfl rfl rfl rfl (fun _ _ _ => rfl)

/-- R145: the sweep interval, as the statements say it. -/
theorem formsSweep_toStart (s : State) (c : Ctx) : s.formsSweep c (toStart (s.withCtx c)) := by
  unfold State.formsSweep
  intro a r centre extent here hc he hp margin low high start
  have elow : (sweepLow (s.withCtx c) a centre extent).1 = low := by
    rw [sweepLow_eq]; show _ = s.sweepLow a centre extent; unfold State.sweepLow; rfl
  have ehigh : (sweepHigh (s.withCtx c) a centre extent).1 = high := by
    rw [sweepHigh_eq]; show _ = s.sweepHigh a centre extent; unfold State.sweepHigh; rfl
  have cl : (sweepLow (s.withCtx c) a centre extent).2 = clippedBy ((extentQuery s a centre .down).map (· + margin) = some low) (low = r.softMin) := by
    have : low = _ := elow.symm
    rw [this]
    have q : extentQuery (s.withCtx c) a centre .down = extentQuery s a centre .down := rfl
    unfold sweepLow clippedBy; simp only [q]
    have mm : ((s.withCtx c).axis a).margin = margin := rfl
    have rr : ((s.withCtx c).axis a).softMin = r.softMin := rfl
    rw [mm, rr]
    cases extentQuery s a centre .down with
    | none =>
      simp only [Option.map_none, reduceCtorEq, if_false]
      by_cases h : centre - extent ≤ r.softMin
      · rw [if_pos h, if_pos (by omega)]
      · rw [if_neg h, if_neg (by omega)]
    | some b =>
      simp only [Option.map_some]
      by_cases hz : max (centre - extent) r.softMin ≤ b + margin
      · simp only [if_pos hz, if_true]
      · simp only [if_neg hz]
        by_cases h : centre - extent ≤ r.softMin
        · rw [if_pos h, if_neg (fun k => by have := Option.some.inj k; omega), if_pos (by omega)]
        · rw [if_neg h, if_neg (fun k => by have := Option.some.inj k; omega), if_neg (by omega)]
  have ch : (sweepHigh (s.withCtx c) a centre extent).2 = clippedBy ((extentQuery s a centre .up).map (· - margin) = some high) (high = r.softMax) := by
    have : high = _ := ehigh.symm
    rw [this]
    have q : extentQuery (s.withCtx c) a centre .up = extentQuery s a centre .up := rfl
    unfold sweepHigh clippedBy; simp only [q]
    have mm : ((s.withCtx c).axis a).margin = margin := rfl
    have rr : ((s.withCtx c).axis a).softMax = r.softMax := rfl
    rw [mm, rr]
    cases extentQuery s a centre .up with
    | none =>
      simp only [Option.map_none, reduceCtorEq, if_false]
      by_cases h : r.softMax ≤ centre + extent
      · rw [if_pos h, if_pos (by omega)]
      · rw [if_neg h, if_neg (by omega)]
    | some b =>
      simp only [Option.map_some]
      by_cases hz : b - margin ≤ min (centre + extent) r.softMax
      · simp only [if_pos hz, if_true]
      · simp only [if_neg hz]
        by_cases h : r.softMax ≤ centre + extent
        · rw [if_pos h, if_neg (fun k => by have := Option.some.inj k; omega), if_pos (by omega)]
        · rw [if_neg h, if_neg (fun k => by have := Option.some.inj k; omega), if_neg (by omega)]
  have ua : phaseAxis c.phase = a := rfl
  have e1 : toStart (s.withCtx c) = if high < low then acqFail (s.withCtx c) .zone else
       searchMove (setCtx (s.withCtx c)
        { c with
          step := some .toStart, rest := none, clipLow := clippedBy ((extentQuery s a centre .down).map (· + margin) = some low) (low = r.softMin)
          clipHigh := clippedBy ((extentQuery s a centre .up).map (· - margin) = some high) (high = r.softMax)
          sweepStart := some start, sweepEnd := some (if start = low then high else low) }) a .alt start := by
    have hsd : (if lowIsStart here low high = true then high else low) = if start = low then high else low := by
      unfold lowIsStart; simp only [start, decide_eq_true_eq]
      by_cases hh : (here - low).natAbs ≤ (high - here).natAbs
      · simp [hh]
      · simp only [hh, if_false]; split <;> simp_all
    have hst : (if lowIsStart here low high = true then low else high) = start := by
      unfold lowIsStart; simp only [start, decide_eq_true_eq]
    clear_value low high start
    unfold toStart
    have : (s.withCtx c).acq.ctx = some c := rfl
    rw [this]; simp only []
    have hq : ((s.withCtx c).axis a).position = some here := hp
    rw [show c.centre.getD 0 = centre by rw [hc]; rfl, show c.extent.getD 0 = extent by rw [he]; rfl]
    simp only [ua]
    rw [show (((s.withCtx c).axis a).position.getD 0) = here by rw [hq]; rfl]
    simp only [elow, ehigh, cl, ch, hsd, hst]
  clear_value low high start
  refine ⟨fun h => ?_, fun h => ?_⟩
  · rw [e1, if_pos h]; exact endsSearch_acqFail (d := c) rfl rfl rfl rfl rfl rfl rfl
  · rw [if_neg (show ¬ high < low by omega)] at e1
    rw [e1]
    generalize hk : ({ c with
          step := some .toStart, rest := none, clipLow := clippedBy ((extentQuery s a centre .down).map (· + margin) = some low) (low = r.softMin)
          clipHigh := clippedBy ((extentQuery s a centre .up).map (· - margin) = some high) (high = r.softMax)
          sweepStart := some start, sweepEnd := some (if start = low then high else low) } : Ctx) = k
    have := searches_searchMove (s.withCtx k) k rfl a .alt start
    exact State.searches_of_withCtx this

/-- R144: the start of a sweep phase, as the statements say it. -/
theorem startsSweep_startSweep (s : State) (c : Ctx) (hc : s.acq.ctx = some c) (p : Phase)
    (hp : p = .azSweep ∨ p = .elSweep ∨ p = .retrimAz ∨ p = .retrimEl) : s.startsSweep c p (startSweep s p) := by
  intro e he extent
  have en : entryOf s c.row = e := by unfold entryOf State.entry; rw [he]; rfl
  have ex : extent = some (phaseExtent e.set p) := by rcases hp with h | h | h | h <;> subst h <;> rfl
  rw [ex]
  unfold startSweep; rw [hc]; simp only []; rw [en]
  exact formsSweep_toStart s _

theorem State.formsSweep_congr {s u t : State} {c : Ctx} (h : u.formsSweep c t) (hx : u.axs = s.axs) (hz : u.zones = s.zones) (hw : u.wsm = s.wsm)
   (hs : u.sites = s.sites) (hh : u.sha = s.sha) (ho : u.out = s.out) (ha : { u.acq with ctx := none } = ({ s.acq with ctx := none } : Acq))
   (he : ∀ a q x k d, (u.withMove a q x k).withCtx d = (s.withMove a q x k).withCtx d) : s.formsSweep c t := by
  unfold State.formsSweep
  intro a r centre extent here hc hex hp margin low high start
  have ax : ∀ b, u.axis b = s.axis b := fun b => by unfold State.axis; rw [hx]
  have eq : ∀ b d, extentQuery u a b d = extentQuery s a b d := by
    intro b d; unfold extentQuery zoneBounds axisSpan; simp only [ax, hz]
  have lo : u.sweepLow a centre extent = s.sweepLow a centre extent := by unfold State.sweepLow; simp only [ax, eq]
  have hi : u.sweepHigh a centre extent = s.sweepHigh a centre extent := by unfold State.sweepHigh; simp only [ax, eq]
  unfold State.formsSweep at h
  have H := h centre extent here hc hex (by rw [ax]; exact hp)
  have ua : phaseAxis c.phase = a := rfl
  rw [ua] at H
  simp only [ax, lo, hi, eq] at H
  exact ⟨fun k => State.endsSearch_congr (H.1 k) ha rfl rfl hs hh hx ho,
    fun k => State.searches_congr (H.2 k) hx hz hw hs hh ho ha (fun q k d => he a q _ k d)⟩

/-- R146: the beginning of SWEEPING, as the statements say it. -/
theorem beginsSweep_beginSweeping (s : State) (c : Ctx) (hc : s.acq.ctx = some c) : s.beginsSweep c (beginSweeping s) := by
  unfold State.beginsSweep
  intro a r e x he hx u d rate within blocked
  have en : entryOf s c.row = e := by unfold entryOf State.entry; rw [he]; rfl
  have ua : phaseAxis c.phase = a := rfl
  have B : beginSweeping s = (let rr := moveCheck (u.withCtx d) a x
      if !inSoft (u.withCtx d) a x then acqFail (u.withCtx d) .zone else if rr.1 then acqFail rr.2 .zone else
      match axsMoveTo rr.2 .search a x (some (capped e.set.searchRate (rateCap rr.2.wsm a))) with
      | .error _ => acqFail rr.2 .aborted
      | .ok s2 => setCtx s2 { d with stepAxis := some a, gapTimer := s.sha.agreedPeriod.map (2 * ·) }) := by
    unfold beginSweeping; rw [hc]; simp only []; rw [en, show c.sweepEnd.getD 0 = x by rw [hx]; rfl]; simp only [ua]; rfl
  have bl : (moveCheck (u.withCtx d) a x).1 = blocked := by
    show (moveCheck (u.withCtx d) a x).1 = (moveCheck s a x).1
    exact moveCheck_congr (s := s) (u := u.withCtx d) rfl (fun _ => rfl) (fun _ => rfl) a x
  have inside : inSoft (u.withCtx d) a x = true ↔ within := inSoft_iff _ _ _
  refine ⟨fun hb => ?_, fun hw hb hn => ?_, fun hw hb hn => ?_⟩
  · by_cases hw : within
    case neg =>
      rw [B, if_pos (by simpa using fun k => hw (inside.mp k))]; exact endsSearch_acqFail (d := d) rfl rfl rfl rfl rfl rfl rfl
    rw [B, if_neg (by simp [inside.mpr hw])]; rw [bl, hb.resolve_left (fun k => k hw), if_pos rfl]
    have z : ∃ zs, (moveCheck (u.withCtx d) a x).2 = (u.withCtx d).withZones zs := by
      unfold moveCheck; split
      · exact ⟨s.zones, rfl⟩
      · exact ⟨_, rfl⟩
    obtain ⟨zs, hz⟩ := z
    rw [hz]; exact endsSearch_acqFail (d := d) rfl rfl rfl rfl rfl rfl rfl
  · rw [B, if_neg (by simp [inside.mpr hw])]; rw [moveCheck_allowed (bl.trans hb)]; simp only [Bool.false_eq_true, if_false]
    obtain ⟨w, hw⟩ := (axsMoveTo_does (u.withCtx d) .search a x rate).2 (fun k => hn ((State.accepts_congr (s := s) (u := u.withCtx d) rfl _ _ _ _).mp k))
    have : axsMoveTo (u.withCtx d) .search a x (some (capped e.set.searchRate (rateCap (u.withCtx d).wsm a))) = .error w := hw
    rw [this]; exact endsSearch_acqFail (d := d) rfl rfl rfl rfl rfl rfl rfl
  · rw [B, if_neg (by simp [inside.mpr hw])]; rw [moveCheck_allowed (bl.trans hb)]; simp only [Bool.false_eq_true, if_false]
    have hw := (axsMoveTo_does (u.withCtx d) .search a x rate).1 ((State.accepts_congr (s := s) (u := u.withCtx d) rfl _ _ _ _).mpr hn)
    have : axsMoveTo (u.withCtx d) .search a x (some (capped e.set.searchRate (rateCap (u.withCtx d).wsm a))) = .ok _ := hw
    rw [this]; simp only []
    have ap : s.sha.agreedPeriod.map (2 * ·) = s.sha.agreed.map fun k => 2 * periodMs k.period := by
      unfold Sha.agreedPeriod; rw [Option.map_map]; rfl
    rw [ap]; rfl

theorem poseCheck_allowed {s : State} {p : Pose} (h : (poseCheck s p).1 = false) : poseCheck s p = (false, s) := by
  have h' : s.zones.any (fun z => zoneHolds z p) = false := h
  unfold poseCheck countedCheck
  rw [h']
  congr 1
  have : (s.zones.map fun z => if zoneHolds z p then z.hit else z) = s.zones := by
    conv => rhs; rw [← List.map_id s.zones]
    refine List.map_congr_left fun z hz => ?_
    have := List.any_eq_false.mp h' z hz
    simp [this]
  rw [this]; rfl

/-- R107, R152: the centring move, as the statements say it. -/
theorem centres_centre (s : State) (c : Ctx) : s.centres c (centre (s.withCtx c)) := by
  unfold State.centres
  intro a r e b f pan tilt height he hb hf h1 h2 h3 offset x d forbidden
  have en : entryOf (s.withCtx c) c.row = e := by unfold entryOf State.entry; rw [show (s.withCtx c).sites = s.sites from rfl, he]; rfl
  have ua : phaseAxis c.phase = a := rfl
  have B : centre (s.withCtx c) = (let rr := poseCheck (s.withCtx d) ⟨if a = .pan then x else pan, if a = .tilt then x else tilt, height⟩
       if rr.1 then acqFail rr.2 .zone else searchMove rr.2 a .work x) := by
    unfold centre; rw [show (s.withCtx c).acq.ctx = some c from rfl]; simp only []
    rw [en, show c.partialBegin.getD 0 = b by rw [hb]; rfl, show c.partialEnd.getD 0 = f by rw [hf]; rfl]; simp only [ua]
    have px : holdSoft ((s.withCtx c).axis a) (midpoint b f + phaseOffset e.adjust c.phase) = x := rfl
    rw [px]
    have pp : centringPose (s.withCtx c) a x = ⟨if a = .pan then x else pan, if a = .tilt then x else tilt, height⟩ := by
      unfold centringPose
      have q1 : ((s.withCtx c).axis .pan).position = some pan := h1
      have q2 : ((s.withCtx c).axis .tilt).position = some tilt := h2
      have q3 : ((s.withCtx c).axis .mast).position = some height := h3
      rw [q1, q2, q3]; rfl
    rw [pp]; rfl
  rw [B]; simp only []
  have fb : (poseCheck (s.withCtx d) ⟨if a = .pan then x else pan, if a = .tilt then x else tilt, height⟩).1 = forbidden := rfl
  refine ⟨fun h => ?_, fun h => ?_⟩
  · rw [fb, h, if_pos rfl]
    exact endsSearch_acqFail (d := d) rfl rfl rfl rfl rfl rfl rfl
  · rw [poseCheck_allowed (fb.trans h)]; simp only [Bool.false_eq_true, if_false]
    exact State.searches_of_withCtx (searches_searchMove (s.withCtx d) d rfl a .work x)

/-- R109, R154: the entry to TRACK, as the statements say it. -/
theorem tracks_enterTrack (s : State) (c : Ctx) (hc : s.acq.ctx = some c) : s.tracks c (enterTrack s) := by
  intro e he hst
  unfold enterTrack; rw [hc]; simp only []
  obtain ⟨a1, a2, a3, a4, a5, a6, a7, a8, a9, a10⟩ := raise_elsewhere (txcTracked (setCtx (writeLearned (stbChange s c.row [.acquiring] .tracked none) c.row)
      { c with
        phase := .track, step := none, rest := none, stepAxis := none, retrimInUse := c.retrimRead
        reportCount := 0, lostRun := 0 }) true) (.searchTracked c.row)
  have rl := latest_raise (txcTracked (setCtx (writeLearned (stbChange s c.row [.acquiring] .tracked none) c.row)
      { c with
        phase := .track, step := none, rest := none, stepAxis := none, retrimInUse := c.retrimRead
        reportCount := 0, lostRun := 0 }) true) (.searchTracked c.row)
  refine ⟨a1, a4.trans ?_, ?_, rl, a8, a5, a9⟩
  · show (s.sites.modify c.row _).modify c.row _ = _
    rw [List.modify_eq_set _ _ _ _ he, List.modify_eq_set _ _ _ (e.change [.acquiring] .tracked none) (by rw [List.getElem?_set]; simp; exact (List.getElem?_eq_some_iff.mp he).1), List.set_set]
    congr 1
    unfold Entry.change
    rcases hst with h | h
    · simp [h]; exact ⟨rfl, rfl⟩
    · simp [h]; cases e; simp_all; exact ⟨rfl, rfl⟩
  · rw [a3]; show (Txc.judged _ _).tracked = _; rw [(judged_keeps _ _).2.2.2.2.2]; rfl

/-- R156: a loss after its row is LOST and its context has ended, before the re-acquisition is judged. -/
structure LostMidway (s : State) (c : Ctx) (e : Entry) (cause : LastCause) (v : State) : Prop where
  acq : v.acq = { s.acq with ctx := none }
  sha : v.sha = { s.sha with linkReady := false }
  sites : v.sites = s.sites.set c.row { e with state := .lost, learned := { e.learned with cause := cause } }
  axs : v.axs = (stopSearch s none).axs
  mgt : v.mgt = (stopSearch s none).mgt
  out : v.out = (stopSearch s none).out
  tr : v.txc.tracked = false
  note : (v.ntu.get .search).latest = some (.searchEnded cause c.row c.phase)
  dsq : v.dsq = s.dsq
  wsm : v.wsm = s.wsm
  zones : v.zones = s.zones

theorem lostMidway_acqLose {s : State} {c : Ctx} {e : Entry} (he : s.sites[c.row]? = some e) (hst : e.state = .tracked) (w) :
    LostMidway s c e w (endCtx (raise (txcTracked (stbChange (stopSearch s none) c.row [.tracked] .lost (some w)) false) (.searchEnded w c.row c.phase))) := by
  have k := onlyAxes_stopSearch s none
  obtain ⟨u, hu⟩ : ∃ u, u = stopSearch s none := ⟨_, rfl⟩
  rw [← hu] at k ⊢
  have m : ∃ v, txcTracked (stbChange u c.row [.tracked] .lost (some w)) false = v ∧ v.acq = s.acq ∧ v.sha = s.sha ∧
      v.sites = s.sites.set c.row { e with state := .lost, learned := { e.learned with cause := w } } ∧ v.axs = u.axs ∧ v.txc.tracked = false ∧ v.mgt = u.mgt ∧ v.out = u.out ∧ v.dsq = s.dsq ∧ v.wsm = s.wsm ∧ v.zones = s.zones := by
    refine ⟨_, rfl, k.acq, k.sha, ?_, rfl, ?_, rfl, rfl, k.dsq, k.wsm, k.zones⟩
    · show u.sites.modify _ _ = _; rw [k.sites, List.modify_eq_set _ _ _ _ he]; congr 1
      unfold Entry.change; simp [hst]
    · show (u.txc.judged (u.txc.handTracked false)).tracked = _; rw [(judged_keeps _ _).2.2.2.2.2]; rfl
  obtain ⟨v, hv, v1, v2, v3, v4, v5, v6, v7, v8, v9, v10⟩ := m
  rw [hv]
  obtain ⟨a1, a2, a3, a4, a5, a6, a7, a8, a9, a10⟩ := raise_elsewhere v (.searchEnded w c.row c.phase)
  have rl := latest_raise v (.searchEnded w c.row c.phase)
  generalize raise v (.searchEnded w c.row c.phase) = x at a1 a2 a3 a4 a5 a6 a7 a8 a9 a10 rl
  refine ⟨?_, ?_, a4.trans v3, (a8.trans v4).trans (by rw [hu]), (a10.trans v6).trans (by rw [hu]),
    (a9.trans v7).trans (by rw [hu]), ?_, rl, a2.trans v8, a6.trans v9, a7.trans v10⟩
  · show ({ x.acq with ctx := none } : Acq) = _; rw [a1, v1]
  · show ({ x.sha with linkReady := false } : Sha) = _; rw [a5, v2]
  · show x.txc.tracked = _; rw [a3]; exact v5

theorem endsSearch_of_lostMidway {s : State} {c : Ctx} {e : Entry} {w v} (M : LostMidway s c e w v)
    (he : s.sites[c.row]? = some e) (z) : s.endsSearch c w (releaseSearch (v.withZones z)) := by
  intro e' he' _
  rw [he] at he'; cases he'
  have q := onlyAxes_releaseSearch (v.withZones z)
  have rr : ∀ a : Axis, a ≠ .mast → (releaseSearch (v.withZones z)).axis a = { v.axis a with owner := .none } := by
    intro a ha; cases a <;> first | exact absurd rfl ha | rfl
  have dr : (releaseSearch (v.withZones z)).out = v.out := rfl
  generalize releaseSearch (v.withZones z) = y at q rr dr
  refine ⟨?_, fun a ha => ?_, ?_, ?_, fun _ => ?_, ?_, ?_⟩
  · rw [q.acq]; exact M.acq
  · rw [rr a ha]; refine ⟨rfl, ?_⟩
    show (v.axis a).motion ≠ _; unfold State.axis; rw [M.axs]; exact stopSearch_leaves_none_moving s a ha
  · rw [q.sha]; exact M.sha
  · rw [q.sites]; exact M.sites
  · rw [q.txc]; exact M.tr
  · rw [dr, M.out, drive_stopSearch]
  · rw [q.ntu]; exact M.note

theorem stopSearch_idle {s : State} (h : ∀ a : Axis, a ≠ .mast → (s.axis a).motion ≠ .moving) : stopSearch s none = s := by
  unfold stopSearch searchAxes
  simp only [List.foldl]
  have p := h .pan (by decide)
  have q := h .tilt (by decide)
  have r := h .pol (by decide)
  simp only [p, q, r, false_and, if_false]

theorem slewPose_congr (e : Entry) (st : EntryState) (w : LastCause) :
    slewPose { e with state := st, learned := { e.learned with cause := w } } = slewPose e := rfl

theorem slewChecks_congr {s v : State} {row : Nat} {e : Entry} {st w} (he : s.sites[row]? = some e) (hv : v.sites[row]? = some { e with state := st, learned := { e.learned with cause := w } })
   (ha : v.axs = s.axs) (hz : v.zones = s.zones) : (slewChecks v row).1 = (slewChecks s row).1 ∧ ∃ z, (slewChecks v row).2 = v.withZones z := by
  have e1 : entryOf s row = e := by unfold entryOf State.entry; rw [he]; rfl
  have e2 : entryOf v row = { e with state := st, learned := { e.learned with cause := w } } := by unfold entryOf State.entry; rw [hv]; rfl
  have ax : ∀ b, v.axis b = s.axis b := fun b => by unfold State.axis; rw [ha]
  have rd : ∀ b, axisReady v b = axisReady s b := fun b => by unfold axisReady State.chan; simp only [ax]; rw [ha]
  have rdf : axisReady v = axisReady s := funext rd
  have sf : ∀ b x, inSoft v b x = inSoft s b x := fun b x => by unfold inSoft; rw [ax]
  have pc : ∀ p, (poseCheck v p).1 = (poseCheck s p).1 := fun p => by unfold poseCheck countedCheck; rw [hz]
  unfold slewChecks
  simp only [e1, e2, rdf, sf, pc, ax, slewPose_congr]
  constructor
  · generalize searchAxes.all (axisReady s) = b
    cases b <;> cases (s.axis .mast).position <;> first | rfl | (simp only []; split <;> rfl)
  · split
    · split
      · exact ⟨_, rfl⟩
      · exact ⟨v.zones, rfl⟩
    · exact ⟨v.zones, rfl⟩

/-- The state with PAN, TILT and POL released, in which a re-acquisition takes them again. -/
def searchBare (s : State) : State :=
  { s with axs := ((s.axs.set .pan { s.axis .pan with owner := .none }).set .tilt { s.axis .tilt with owner := .none }).set .pol { s.axis .pol with owner := .none } }

theorem axis_searchBare (s : State) (b : Axis) (hb : b ≠ .mast) : (searchBare s).axis b = { s.axis b with owner := .none } := by
  cases b <;> first | exact absurd rfl hb | rfl

theorem mast_searchBare (s : State) : (searchBare s).axis .mast = s.axis .mast := rfl

theorem searchBare_keeps (s : State) (b) : ((searchBare s).axis b).position = (s.axis b).position ∧ ((searchBare s).axis b).presentTarget = (s.axis b).presentTarget ∧ ((searchBare s).axis b).softMin = (s.axis b).softMin ∧
   ((searchBare s).axis b).softMax = (s.axis b).softMax ∧ ((searchBare s).axis b).rateLimit = (s.axis b).rateLimit := by
  by_cases hb : b = .mast
  · subst hb; exact ⟨rfl, rfl, rfl, rfl, rfl⟩
  · rw [axis_searchBare _ _ hb]; exact ⟨rfl, AxisRec.presentTarget_owner _ _, rfl, rfl, rfl⟩

theorem slewFirst_searchBare (s : State) (p t) : slewFirst (searchBare s) p t = slewFirst s p t := by
  unfold slewFirst; rw [(searchBare_keeps s .tilt).1]

theorem slewAllowed_searchBare {s : State} {p t} (h : s.slewAllowed p t) : (searchBare s).slewAllowed p t := by
  unfold State.slewAllowed at *
  rw [slewFirst_searchBare]
  simp only [] at *
  obtain ⟨h1, h2, h3, h4, h5⟩ := h
  have mc : (moveCheck (searchBare s) (slewFirst s p t).1 (slewFirst s p t).2).1 = (moveCheck s (slewFirst s p t).1 (slewFirst s p t).2).1 :=
    moveCheck_congr (s := s) (u := searchBare s) rfl (fun b => (searchBare_keeps s b).1) (fun b => (searchBare_keeps s b).2.1) _ _
  obtain ⟨b1, b2, b3, b4, b5⟩ := searchBare_keeps s (slewFirst s p t).1
  rw [b3, b4, b5, mc]
  exact ⟨h1, h2, h3, h4, h5⟩

theorem slewing_of_searchBare {s t : State} {row p ti po af ag} (h : (searchBare s).slewing row p ti po af ag t) :
    s.slewing row p ti po af ag t := by
  unfold State.slewing at *
  rw [slewFirst_searchBare] at h
  simp only [(searchBare_keeps s _).2.2.2.2] at h
  exact h

theorem slewFree_searchBare {s : State} {row : Nat} (h : (slewChecks s row).1 = none) (hx : ∀ a : Axis, a ≠ .mast →
    (s.axis a).motion = .idle ∧ (s.axis a).owner = .search ∧ s.jog a = none) : (searchBare s).slewFree := by
  have hr : searchAxes.all (axisReady s) = true := by
    unfold slewChecks at h; simp only [] at h
    split at h
    · assumption
    · cases h
  intro a ha
  rw [axis_searchBare _ _ ha]
  have : axisReady s a = true := by
    unfold searchAxes at hr; simp at hr
    cases a <;> first | exact absurd rfl ha | simp_all
  unfold axisReady at this; simp at this
  exact ⟨(hx a ha).1, Or.inl rfl, this.1.2, this.2⟩

/-- R156, R157: a loss, as the statements say it. -/
theorem loses_acqLose (s : State) (c : Ctx) (hc : s.acq.ctx = some c) (w : LastCause) : s.loses c w (acqLose s w) := by
  intro e he hst again pose
  have M := lostMidway_acqLose (c := c) he hst w
  have A : acqLose s w = (if (e.set.autoReacquire && !c.reacquire) = true then judgeReacquire (endCtx (raise (txcTracked (stbChange (stopSearch s none) c.row [.tracked] .lost (some w)) false) (.searchEnded w c.row c.phase))) c.row
      else releaseSearch (endCtx (raise (txcTracked (stbChange (stopSearch s none) c.row [.tracked] .lost (some w)) false) (.searchEnded w c.row c.phase)))) := by
    have hrow : (entryOf (endCtx (raise (txcTracked (stbChange (stopSearch s none) c.row [.tracked] .lost (some w)) false) (.searchEnded w c.row c.phase))) c.row).set.autoReacquire = e.set.autoReacquire := by
      unfold entryOf State.entry; rw [M.sites, List.getElem?_set]; simp [(List.getElem?_eq_some_iff.mp he).1]
    conv => lhs; unfold acqLose
    rw [hc]; simp only []; rw [hrow]
  rw [A]
  generalize endCtx (raise (txcTracked (stbChange (stopSearch s none) c.row [.tracked] .lost (some w)) false) (.searchEnded w c.row c.phase)) = v at M
  have vs : v.sites[c.row]? = some { e with state := .lost, learned := { e.learned with cause := w } } := by
    rw [M.sites, List.getElem?_set]; simp [(List.getElem?_eq_some_iff.mp he).1]
  have ven : entryOf v c.row = { e with state := .lost, learned := { e.learned with cause := w } } := by unfold entryOf State.entry; rw [vs]; rfl
  have E : s.endsSearch c w (releaseSearch v) := endsSearch_of_lostMidway M he v.zones
  have J : judgeReacquire v c.row = if s.dsq.deploy = .deployed ∧ s.wsm.gust ≠ .hold then
      (match slewChecks v c.row with
      | (none, s1) => reacquire s1 c.row
      | (some _, s1) => releaseSearch s1) else releaseSearch v := by
    unfold judgeReacquire; rw [ven, M.dsq, M.wsm]
    by_cases h1 : s.dsq.deploy = .deployed <;> by_cases h2 : s.wsm.gust = .hold <;> simp [h1, h2] <;> rfl
  refine ⟨fun hn => ?_, fun ha hk hm => ?_, fun ha hk hal hx => ?_⟩
  · split
    · rename_i hh
      rw [J, if_neg (fun k => hn ⟨by simpa using (Bool.and_eq_true_iff.mp hh).1, by simpa using (Bool.and_eq_true_iff.mp hh).2, k.1, k.2⟩)]
      exact E
    · exact E
  · have ax : v.axs = s.axs := by rw [M.axs, stopSearch_idle hm]
    obtain ⟨k1, z, k2⟩ := slewChecks_congr he vs ax M.zones
    rw [if_pos (by simp [ha.1, ha.2.1]), J, if_pos ha.2.2]
    generalize slewChecks v c.row = r at k1 k2
    obtain ⟨r1, r2⟩ := r
    simp only [] at k1 k2
    subst k1 k2
    cases h : (slewChecks s c.row).1 with
    | none => exact absurd h hk
    | some y => exact endsSearch_of_lostMidway M he z
  · have hm : ∀ a : Axis, a ≠ .mast → (s.axis a).motion ≠ .moving := fun a hh => by rw [(hx a hh).1]; decide
    have ax : v.axs = s.axs := by rw [M.axs, stopSearch_idle hm]
    have mg : v.mgt = s.mgt := by rw [M.mgt, stopSearch_idle hm]
    have ot : v.out = s.out := by rw [M.out, stopSearch_idle hm]
    obtain ⟨k1, -⟩ := slewChecks_congr he vs ax M.zones
    have k2 := slewChecks_passed (k1.trans hk)
    rw [if_pos (by simp [ha.1, ha.2.1]), J, if_pos ha.2.2, k2]
    simp only []
    unfold reacquire; simp only []
    have sit : (stbChange v c.row [.lost] .acquiring none).sites = s.sites.set c.row { e with state := .acquiring, learned := { e.learned with cause := w } } := by
      show v.sites.modify c.row _ = _
      rw [List.modify_eq_set _ _ _ _ vs, M.sites, List.set_set]; congr 1
    have en : entryOf (stbChange v c.row [.lost] .acquiring none) c.row = { e with state := .acquiring, learned := { e.learned with cause := w } } := by
      unfold entryOf State.entry; rw [sit, List.getElem?_set]; simp [(List.getElem?_eq_some_iff.mp he).1]
    have cx : acquireCtx (stbChange v c.row [.lost] .acquiring none) c.row true = newCtx c.row pose.1 pose.2 e.set.presetPol .azSweep true := by
      unfold acquireCtx; rw [en]; rfl
    rw [cx]
    have C := created_createCtx (stbChange v c.row [.lost] .acquiring none) (newCtx c.row pose.1 pose.2 e.set.presetPol .azSweep true)
    have ct : (createCtx (stbChange v c.row [.lost] .acquiring none) (newCtx c.row pose.1 pose.2 e.set.presetPol .azSweep true)).txc = v.txc := by
      unfold createCtx
      have n : ∀ u : State, (shaName u).1.txc = u.txc := by
        intro u; unfold shaName judgeReady enterOffering sendAbility; simp only []
        split
        · split
          · by_cases h : identityFits u <;> simp only [h] <;> rfl
          · rfl
        · rfl
      have := n (setCtx (stbChange v c.row [.lost] .acquiring none) (newCtx c.row pose.1 pose.2 e.set.presetPol .azSweep true))
      generalize shaName _ = r at this
      obtain ⟨r1, r2⟩ := r
      cases r2 <;> exact this
    generalize createCtx (stbChange v c.row [.lost] .acquiring none) (newCtx c.row pose.1 pose.2 e.set.presetPol .azSweep true) = x at C ct
    obtain ⟨a1, a2, a3, a4, a5, a6, a7, a8, a9, a10⟩ := raise_elsewhere x (.searchReacquire c.row)
    have rl := latest_raise x (.searchReacquire c.row)
    generalize raise x (.searchReacquire c.row) = y at a1 a2 a3 a4 a5 a6 a7 a8 a9 a10 rl
    obtain ⟨d, hd, L⟩ := C.ctx
    have yx : y.axs = s.axs := by rw [a8, C.axs]; exact ax
    have R : SlewReady (searchBare s) y := by
      refine ⟨?_, ?_, ?_, fun b hb => ?_, ?_, fun b hb => ?_, ?_⟩
      · rw [a7, C.zones]; exact M.zones
      · rw [a6, C.wsm]; exact M.wsm
      · rw [yx]; rfl
      · rw [axis_searchBare _ _ hb]; unfold State.axis; rw [yx]
        have := (hx b hb).2.1
        unfold State.axis at this
        rw [← this]
      · rw [mast_searchBare]; unfold State.axis; rw [yx]
      · unfold State.jog; rw [a10, C.mgt]; show v.mgt.get b = none; rw [mg]; exact (hx b hb).2.2
      · rw [a9, C.drive]; show v.out.drive = _; rw [ot]; rfl
    have G := startSlew_sends R (slewFree_searchBare hk hx) (c := d) (by rw [a1, hd]) (by rw [L.pan, L.tilt]; exact slewAllowed_searchBare hal) (by rw [L.phase]; rfl) (by rw [L.step]; rfl)
    rw [L.row, L.pan, L.tilt, L.pol, L.after, L.re] at G
    obtain ⟨g1, g2, g3, g4, g5, g6, -⟩ := G
    refine ⟨slewing_of_searchBare g1, ?_, ?_, ?_⟩
    · rw [g3, a4, C.sites, sit]
    · rw [g6, a3, ct]; exact M.tr
    · rw [g4]; exact rl

theorem State.formsSweep_of_withCtx {s t : State} {c d} (h : (s.withCtx d).formsSweep c t) : s.formsSweep c t :=
  State.formsSweep_congr h rfl rfl rfl rfl rfl rfl rfl (fun _ _ _ _ _ => rfl)

theorem State.startsSweep_of_withCtx {s t : State} {c d k : Ctx} {p} (h : (s.withCtx k).startsSweep d p t)
   (hr : d.row = c.row) (hd : ∀ x ce, ({ d with
        phase := p, step := some .toStart, rest := none, centre := ce, extent := x
        widened := false, gapRestarts := 0, partialBegin := none, partialEnd := none, partialOpen := false
        stepAxis := none } : Ctx) = { c with
        phase := p, step := some .toStart, rest := none, centre := ce, extent := x
        widened := false, gapRestarts := 0, partialBegin := none, partialEnd := none, partialOpen := false
        stepAxis := none }) : s.startsSweep c p t := by
  intro e he extent
  have := h e (by rw [hr]; exact he)
  simp only [hd] at this
  exact State.formsSweep_of_withCtx this

/-- R140: a further move of a slew, as the statements say it. -/
theorem slewsOn_slewMove (s : State) (c : Ctx) (hc : s.acq.ctx = some c) (a : Axis) : s.slewsOn c a (c.slewTarget a)
    (slewMove s c a) := by
  unfold slewMove State.slewsOn
  have := inSoft_iff s a (c.slewTarget a)
  refine ⟨fun h => ?_, fun h => ?_⟩
  · rw [if_neg (fun k => h (this.mp k))]; exact endsSearch_acqFail (d := c) (by rw [← hc]) rfl rfl rfl rfl rfl rfl
  · rw [if_pos (this.mpr h)]; exact searches_searchMove s c hc a .work _

/-- R108, R152: the arrival at a centring target, as the statements say it. -/
theorem centred_does (s : State) (c : Ctx) (hc : s.acq.ctx = some c) : s.centred c (centred s c) := by
  intro e b f he hb hf edges az el
  have ed : c.edges = edges := by unfold Ctx.edges Machine.midpoint; rw [hb, hf]; rfl
  have w1 : phaseAxis c.phase = .pan → writeEdges s c = az := by
    intro h; unfold writeEdges; simp only [h, ed, reduceCtorEq, if_false]
    show s.withSites (s.sites.modify c.row _) = _
    rw [List.modify_eq_set _ _ _ _ he]; rfl
  have w2 : phaseAxis c.phase = .tilt → writeEdges s c = el := by
    intro h; unfold writeEdges; simp only [h, ed, if_true]
    show s.withSites (s.sites.modify c.row _) = _
    rw [List.modify_eq_set _ _ _ _ he]; rfl
  unfold centred; simp only []
  refine ⟨fun h => ?_, fun h => ?_, fun h => ?_⟩
  · rw [h]; simp only []; rw [w1 (by rw [h]; rfl)]; exact startsSweep_startSweep az c hc .elSweep (by simp)
  · rw [h]; simp only []; rw [w1 (by rw [h]; rfl)]; exact startsSweep_startSweep az c hc .retrimEl (by simp)
  · have : writeEdges s c = el := w2 (by rcases h with h | h <;> rw [h] <;> rfl)
    rcases h with h | h <;> (rw [h]; simp only []; rw [this]; exact tracks_enterTrack el c hc)

/-- R149, R150: the end of a sweep without a begin edge, as the statements say it. -/
theorem noEdge_noBeginEdge (s : State) (c : Ctx) (hc : s.acq.ctx = some c) : s.noEdge c (noBeginEdge s c) := by
  unfold noBeginEdge
  refine ⟨fun h => ?_, fun h => ?_⟩
  · rw [if_pos h]; exact loses_acqLose s c hc .lostLevel
  · intro extent hx wide skipped
    rw [if_neg (by simp [h])]
    unfold widen; simp only []; rw [hx]
    have : (c.widened || wide ≤ extent || (c.clipLow ≠ .none && c.clipHigh ≠ .none)) = true ↔ skipped := by
      simp [skipped, or_assoc]
    refine ⟨fun k => ?_, fun k => ?_⟩
    · rw [if_pos (by exact this.mpr k)]; exact endsSearch_acqFail (d := c) (by rw [← hc]) rfl rfl rfl rfl rfl rfl
    · rw [if_neg (by exact fun q => k (this.mp q))]; exact formsSweep_toStart s _

/-- R142, R146: READY, as the statements say it. -/
theorem hearsReady_acqReady (s : State) : s.hearsReady (acqReady s) := by
  intro c hc d waits
  unfold acqReady; rw [hc]; simp only []
  refine ⟨fun h => by rw [if_pos h], fun h w => ?_, fun h w => ?_⟩
  · rw [if_neg (by simp [h]), if_pos w]
    have B := beginsSweep_beginSweeping (setCtx s c.ready) c.ready rfl
    unfold State.beginsSweep at B ⊢
    intro a r e x he hx u d' rate within blocked
    obtain ⟨b1, b2, b3⟩ := B e x he hx
    have mc : (moveCheck (setCtx s c.ready) (phaseAxis c.ready.phase) x).1 = blocked := by
      show (moveCheck (setCtx s c.ready) a x).1 = (moveCheck s a x).1
      exact moveCheck_congr (s := s) (u := setCtx s c.ready) rfl (fun _ => rfl) (fun _ => rfl) a x
    rw [mc] at b1 b2 b3
    exact ⟨fun k => State.endsSearch_congr (b1 k) rfl rfl rfl rfl rfl rfl rfl,
      fun i k n => State.endsSearch_congr (b2 i k (fun q => n ((State.accepts_congr (s := s) (u := setCtx s c.ready) rfl _ _ _ _).mp q))) rfl rfl rfl rfl rfl rfl rfl, fun i k n => (b3 i k n).trans rfl⟩
  · rw [if_neg (by simp [h]), if_neg w]; rfl

/-- R142, R146: WAIT, as the statements say it. -/
theorem hearsWait_acqWait (s : State) : s.hearsWait (acqWait s) := by
  intro c hc a d
  unfold acqWait; rw [hc]; simp only []
  refine ⟨fun h => by rw [if_neg h]; rfl, fun h hm => ?_⟩
  rw [if_pos h]
  unfold stopSweep
  have pa : phaseAxis c.waiting.phase = a := rfl
  show setCtx (axsStop s a) _ = _
  rw [axsStop_eq_withStop hm]
  have : ({ d with
          partialBegin := none, partialEnd := none, partialOpen := false, rest := some .reform, gapTimer := none
          stepAxis := none } : Ctx) = { d with
          partialBegin := none, partialEnd := none, partialOpen := false, step := some .sweeping, rest := some .reform, gapTimer := none
          stepAxis := none } := by
    have : d.step = some .sweeping := h
    rw [← this]
  rw [this]; rfl

/-- R142: the link has failed the context, as the statements say it. -/
theorem losesLink_linkFailed (s : State) (c : Ctx) (hc : s.acq.ctx = some c) : s.losesLink c (linkFailed s) := by
  unfold linkFailed; rw [hc]; simp only []
  refine ⟨fun h => ?_, fun h => ?_⟩
  · rw [if_neg (by simp [h])]; exact endsSearch_acqFail (d := c) (by rw [← hc]) rfl rfl rfl rfl rfl rfl
  · rw [if_pos h]; exact loses_acqLose s c hc .link

/-- R142: LINK, as the statements say it. -/
theorem hearsLink_acqLink (s : State) : s.hearsLink (acqLink s) := by
  intro c hc
  unfold acqLink; rw [hc]; simp only []
  refine ⟨fun h => ?_, fun h => ?_⟩
  · rw [if_neg (by simp [h])]; exact hearsWait_acqWait s
  · rw [if_pos h]; exact losesLink_linkFailed s c hc

theorem State.loses_of_withCtx {s t : State} {c d : Ctx} {w} (h : (s.withCtx d).loses c w t) : s.loses c w t := by
  intro e he hst again pose
  obtain ⟨h1, h2, h3⟩ := h e he hst
  have ck : (slewChecks (s.withCtx d) c.row).1 = (slewChecks s c.row).1 := by
    unfold slewChecks; simp only []
    have r1 : axisReady (s.withCtx d) = axisReady s := rfl
    have r2 : entryOf (s.withCtx d) c.row = entryOf s c.row := rfl
    have r3 : inSoft (s.withCtx d) = inSoft s := rfl
    have r4 : (s.withCtx d).axis .mast = s.axis .mast := rfl
    rw [r1, r2, r3, r4]
    generalize searchAxes.all (axisReady s) = b
    cases b <;> cases (s.axis .mast).position <;> first | rfl | (simp only []; split <;> rfl)
  rw [ck] at h2 h3
  refine ⟨fun k => State.endsSearch_congr (h1 k) rfl rfl rfl rfl rfl rfl rfl,
    fun k q m => State.endsSearch_congr (h2 k q m) rfl rfl rfl rfl rfl rfl rfl, fun k q al x => ?_⟩
  have al' : (s.withCtx d).slewAllowed pose.1 pose.2 := by
    unfold State.slewAllowed at *
    obtain ⟨a1, a2, a3, a4, a5⟩ := al
    refine ⟨a1, a2, a3, ?_, a5⟩
    rw [← a4]; exact moveCheck_congr (s := s) (u := s.withCtx d) rfl (fun _ => rfl) (fun _ => rfl) _ _
  exact h3 k q al' x

/-- R143, R147, R148, R155, R156: a told report, as the statements say it. -/
theorem usesReport_acqReport (s : State) (r : WinRec) (hr : ∃ rest, s.sha.window = r :: rest) : s.usesReport (acqReport s r) := by
  intro c e record rest mean hc he hw hm a here run counted
  have : record = r := by
    obtain ⟨q, h⟩ := hr; rw [hw] at h; exact (List.cons.inj h).1
  subst this
  have en : entryOf s c.row = e := by unfold entryOf State.entry; rw [he]; rfl
  unfold acqReport; rw [hc]; simp only []; rw [en, hm]; simp only []
  have hon : record.on a = here := by
    have : a = .pan ∨ a = .tilt := by show phaseAxis c.phase = _ ∨ phaseAxis c.phase = _; cases c.phase <;> simp [phaseAxis]
    simp only [here]
    rcases this with h | h <;> rw [h] <;> rfl
  refine ⟨fun h k => ?_, fun h => ⟨fun k => ?_, fun k q => ⟨fun z => ?_, fun z w => ?_⟩, fun k q z => ?_⟩,
    fun h k q => ⟨fun n => ?_, fun x n => ⟨fun b m => ?_, fun b m => ?_, fun b m => ?_, fun b m ha => ?_⟩⟩⟩
  · rw [if_neg h, if_neg (fun w => by rcases k with k | k; exact k w.1; exact k w.2)]
  · rw [if_pos h]; unfold trackReport; simp only []; rw [en, if_pos k]
    exact State.loses_of_withCtx (d := { c with lostRun := run }) (loses_acqLose (s.withCtx { c with lostRun := run }) { c with lostRun := run } rfl .lostLevel)
  · rw [if_pos h]; unfold trackReport; simp only []; rw [en, if_neg (by show ¬ e.set.lostCount ≤ run; omega)]
    unfold countReport drawPast255 countUp; simp only []
    rw [if_pos q, if_pos q, if_neg (fun y => by rcases z with z | z <;> [exact y.1 z; exact absurd y.2 (by omega)])]
    rfl
  · rw [if_pos h]; unfold trackReport; simp only []; rw [en, if_neg (by show ¬ e.set.lostCount ≤ run; omega)]
    unfold countReport drawPast255 countUp; simp only []
    rw [if_pos q, if_pos q, if_pos ⟨z, w⟩]
    exact State.startsSweep_of_withCtx (k := counted (c.reportCount + 1)) (startsSweep_startSweep (s.withCtx (counted (c.reportCount + 1))) (counted (c.reportCount + 1)) rfl .retrimAz (by simp)) rfl (fun _ _ => rfl)
  · rw [if_pos h]; unfold trackReport; simp only []; rw [en, if_neg (by show ¬ e.set.lostCount ≤ run; omega)]
    unfold countReport drawPast255 countUp; simp only []
    simp only [show ¬ c.reportCount < 255 by omega, if_false]
    rw [if_neg (c := c.retrimInUse ≠ 0 ∧ _) (fun w => w.1 z)]
    exact ⟨_, rfl⟩
  all_goals rw [if_neg h, if_pos ⟨k, q⟩]
  · rw [show record.on (phaseAxis c.phase) = none from hon.trans n]
  all_goals rw [show record.on (phaseAxis c.phase) = some x from hon.trans n]; simp only []; unfold judgeEdges; simp only []; rw [en]
  · rw [b]; simp only []; rw [if_pos m]; rfl
  · rw [b]; simp only []; rw [if_neg (by omega)]
  · obtain ⟨y, hy⟩ := Option.ne_none_iff_exists'.mp b
    rw [hy]; simp only []; rw [if_neg (by omega)]
  · obtain ⟨y, hy⟩ := Option.ne_none_iff_exists'.mp b
    rw [hy]; simp only []; rw [if_pos m]
    unfold stopSweep
    show setCtx (axsStop s a) _ = _
    rw [axsStop_eq_withStop ha, ← hy]; rfl

/-- R141, R167: the phase after settle, as the statements say it. -/
theorem settled_afterSettle (s : State) (c : Ctx) : s.settled c (afterSettle (s.withCtx c)) := by
  unfold afterSettle
  rw [show (s.withCtx c).acq.ctx = some c from rfl]
  simp only []
  refine ⟨fun h => ?_, fun h => ?_⟩
  · rw [if_neg (by rcases h with h | h <;> rw [h] <;> decide)]
    exact State.startsSweep_of_withCtx (k := { c with settleTimer := none }) (startsSweep_startSweep (s.withCtx { c with settleTimer := none }) { c with settleTimer := none } rfl c.afterSettle (by rcases h with h | h <;> simp [h])) rfl (fun _ _ => rfl)
  · intro e he hst
    rw [if_pos h]
    have en : entryOf (s.withCtx c) c.row = e := by unfold entryOf State.entry; rw [show (s.withCtx c).sites = s.sites from rfl, he]; rfl
    rw [en]
    have T := tracks_enterTrack (s.withCtx { c with settleTimer := none, retrimRead := e.adjust.retrim }) { c with settleTimer := none, retrimRead := e.adjust.retrim } rfl
    have hs : setCtx (s.withCtx c) (Ctx.readRetrim { c with settleTimer := none } e) = s.withCtx { c with settleTimer := none, retrimRead := e.adjust.retrim } := rfl
    rw [hs]
    generalize enterTrack (s.withCtx { c with settleTimer := none, retrimRead := e.adjust.retrim }) = u at T
    have T0 := T e he hst
    have hu := congrArg Acq.ctx T0.1
    refine ⟨u, _, ?_, hu, startsSweep_startSweep u _ hu .retrimAz (by simp)⟩
    intro e' he' hst'
    exact T e' he' hst'

end Sys2Proof.Machine
end

