-- ==== Sys2Proof/Laws/Told.lean ====
section
/-! SUPPORT. What the reports of an axis, the wake of the handshake, and a zone stop with its tell to the owner do. -/

namespace Sys2Proof.Machine

/-- R175, R176: TXC has judged the pose of a clean report. -/
theorem txcPosition_reports {s : State} (a : Axis) (pos : Int) (h : s.txc.ordered) :
    txcPosition (takePosition s a pos) a = s.reports a pos { s.axis a with position := some pos, silenceWatch := some 1000 } := by
  have hc : poseClear (takePosition s a pos) = poseClear (s.setAxis a { s.axis a with position := some pos }) := by
    have : presentPose (takePosition s a pos) = presentPose (s.setAxis a { s.axis a with position := some pos }) := by
      unfold presentPose; cases a <;> rfl
    unfold poseClear; rw [this]; rfl
  have e : s.watches a pos = if a = .pol then s.txc else (s.txc.seen a).watched (poseClear (takePosition s a pos)) := by
    unfold State.watches; rw [← hc]
    split
    · rfl
    · obtain ⟨-, h2⟩ := h
      unfold Txc.seen Txc.watched Txc.pend Txc.drop
      cases e1 : s.txc.txen <;> cases e2 : s.txc.pending <;> simp_all
  unfold txcPosition State.reports; rw [e]
  split <;> rfl

/-- R14: a POSITION report without a fault, within the full range. -/
theorem exec_position_clean {s : State} {a : Axis} {pos : Int} {moving : Bool} {code : Nat} (hr : s.running) (hf : inFull a pos = true)
    (h : s.txc.ordered) :
    exec (.position a pos moving false code) s = .next ((dsqReport (cleanReport (s.reports a pos
      { s.axis a with position := some pos, silenceWatch := some 1000 }) a pos moving) a).forwards (axisNode a) 0x10
        (positionPayload pos moving false code)) := by
  refine exec_eq_of_running hr rfl ?_
  show forwardUp (axsReport s a pos moving false code) _ _ _ = _
  unfold axsReport positionTaken; rw [if_pos hf]
  simp only [Bool.false_eq_true, if_false]
  rw [txcPosition_reports a pos h]; rfl

/-- R68: outside UNKNOWN DSQ records nothing. -/
theorem dsqReport_known {s : State} (a : Axis) (h : s.dsq.deploy ≠ .unknown) : dsqReport s a = s := if_neg h

theorem axis_reports (s : State) (a : Axis) (pos : Int) (q : AxisRec) : (s.reports a pos q).axis a = q := Axs.get_set_self _ _ _

theorem setAxis_reports (s : State) (a : Axis) (pos : Int) (q r : AxisRec) :
    (s.reports a pos q).setAxis a r = s.reports a pos r := by
  unfold State.reports State.setAxis State.withAxs; simp only [Axs.set_set]

/-- R173: a halt makes the enable condition false. -/
theorem Txc.ordered_halted {x : Txc} (h : x.ordered) : let y := x.judged { x with axisHalted := true }
    y.axisHalted = true ∧ y.txen = false ∧ y.pending = false := by
  obtain ⟨h1, h2⟩ := h
  have k : ({ x with axisHalted := true } : Txc).condition = false := by simp [Txc.condition]
  simp only []; unfold Txc.judged; rw [k]
  cases hc : x.condition
  · rw [hc] at h1
    cases e1 : x.txen <;> cases e2 : x.pending <;> simp_all
  · exact ⟨rfl, rfl, rfl⟩

/-- R17: what a halt does to the axis, its run and TXC. -/
theorem axsHalt_does (s : State) (a : Axis) (c) (ho : (s.axis a).owner = .none ∨ (s.axis a).owner = .console) :
    haltAxis s a c = axsHalt s a c := by
  unfold haltAxis tellHalted
  have : ((axsHalt s a c).axis a).owner = (s.axis a).owner := by
    have e : (axsHalt s a c).axs = s.axs.set a ((s.axis a).halt c) := by
      unfold axsHalt txcHalted txcJudged
      show (raise _ _).axs = _
      rw [axs_raise]; rfl
    unfold State.axis; rw [e, Axs.get_set_self]; rfl
  rw [this]
  rcases ho with h | h <;> rw [h]

/-- R10: a report that is the arrival of a MOVING axis, by what its owner is told. -/
theorem exec_position_arrival {s : State} {a : Axis} {pos target : Int} {code : Nat} (hr : s.running) (hf : inFull a pos = true)
    (hm : (s.axis a).motion = .moving) (ht : (s.axis a).selected = some target) (hw : (pos - target).natAbs ≤ (s.axis a).tolerance)
    (h : s.txc.ordered) :
    exec (.position a pos false false code) s = .next ((dsqReport (tellArrival (s.reports a pos
      { s.axis a with
        position := some pos, silenceWatch := some 1000, motion := .idle, arrivalTimer := none, jogTarget := none }) a pos)
          a).forwards (axisNode a) 0x10 (positionPayload pos false false code)) := by
  rw [exec_position_clean hr hf h]
  unfold cleanReport; simp only [axis_reports, setAxis_reports]
  generalize hq : ({ s.axis a with position := some pos, silenceWatch := some 1000 } : AxisRec) = q
  have e2 : q.reached pos q.selected = true := by
    unfold AxisRec.reached; rw [show q.selected = some target by rw [← hq]; exact ht]; rw [← hq]; simpa [withinTol] using hw
  rw [hm, if_neg (by decide), if_neg (by simp), e2, if_pos (by simp), ← hq]; rfl

/-- R11: the first report at rest of a stopping axis, by what its owner is told. -/
theorem exec_position_rest {s : State} {a : Axis} {pos : Int} {code : Nat} (hr : s.running) (hf : inFull a pos = true)
    (hm : (s.axis a).motion = .off ∨ (s.axis a).motion = .idle) (hs : (s.axis a).stopping = true) (h : s.txc.ordered) :
    exec (.position a pos false false code) s = .next ((dsqReport (tellRest (s.reports a pos
      { (if (s.axis a).stopMoved then { s.axis a with position := some pos, silenceWatch := some 1000 }.setTarget (s.axis a).sel (some pos)
          else { s.axis a with position := some pos, silenceWatch := some 1000 }) with
        stopping := false, stopMoved := false }) a pos) a).forwards (axisNode a) 0x10 (positionPayload pos false false code)) := by
  rw [exec_position_clean hr hf h]
  unfold cleanReport; simp only [axis_reports, setAxis_reports]
  rcases hm with hm | hm <;>
    rw [hm, if_neg (by decide), if_neg (by simp), if_neg (by simp), if_neg (by simp), hs, if_pos rfl] <;> rfl

theorem shaWake_unchanged {s : State} (h : s.sha.state ≠ .silent ∨ s.sha.quietTimer.isSome) : shaWake s = s := by
  unfold shaWake; rw [if_neg]; intro ⟨h1, h2⟩
  rcases h with h | h
  · exact h h1
  · rw [h2] at h; cases h

/-- R119: a page taken in SILENT outside the quiet time enters OFFERING. -/
theorem shaWake_offers {s : State} (h1 : s.sha.state = .silent) (h2 : s.sha.quietTimer = none) : shaWake s = s.offers := by
  unfold shaWake; rw [if_pos ⟨h1, h2⟩]
  unfold enterOffering sendAbility
  have : s.sha.offering false = { s.sha with
          state := .offering, echoTimer := none, reportWatch := none, identity := none, linkReady := false
          heard := false } := by
    unfold Sha.offering; cases hs : s.sha; rw [hs] at h1 h2; simp_all
  rw [this]
  show sendSite _ (.ability (offerBands (s.withSha _)) (offerPols (s.withSha _)) 7 false) = _
  rw [offerBands_eq, offerPols_eq]; rfl

/-- R36: a zone stop, as the statements say it. -/
theorem zoneStopped_zoneStop (s : State) (row : Nat) (a : Axis) (ht : (s.axis a).travelling = true) :
    s.zoneStopped row a (zoneStop s row a) := by
  unfold zoneStop
  have e0 : hitZone (axsStop s a) row = ({ s.withStop a with zones := s.zones.modify row Zone.hit } : State) := by rw [axsStop_of_travelling ht]; rfl
  rw [e0]
  have kb := sameBut_raise ({ s.withStop a with zones := s.zones.modify row Zone.hit } : State) (.zoneStopped a row)
  have kl := latest_raise ({ s.withStop a with zones := s.zones.modify row Zone.hit } : State) (.zoneStopped a row)
  have kr : s.roomy → raise ({ s.withStop a with zones := s.zones.modify row Zone.hit } : State) (.zoneStopped a row) = ({ s.withStop a with zones := s.zones.modify row Zone.hit } : State).noticed (.zoneStopped a row) :=
    fun h => raise_room (s := { s.withStop a with zones := s.zones.modify row Zone.hit }) _ h
  unfold State.zoneStopped
  intro r stopped
  refine ⟨_, kl, kb, kr, ?_⟩
  have ow : ((raise ({ s.withStop a with zones := s.zones.modify row Zone.hit } : State) (.zoneStopped a row)).axis a).owner = r.owner := by
    unfold State.axis; rw [axs_raise]; show ((s.axs.set a _).get a).owner = _; rw [Axs.get_set_self]
  have dq : (raise ({ s.withStop a with zones := s.zones.modify row Zone.hit } : State) (.zoneStopped a row)).dsq = s.dsq := by rw [dsq_raise]; rfl
  have aq : (raise ({ s.withStop a with zones := s.zones.modify row Zone.hit } : State) (.zoneStopped a row)).acq = s.acq := by rw [acq_raise]; rfl
  generalize raise ({ s.withStop a with zones := s.zones.modify row Zone.hit } : State) (.zoneStopped a row) = u at ow dq aq
  unfold tellZoneStop; rw [ow]
  refine ⟨fun h => ?_, fun h hd => ?_, fun h c hc => ?_⟩
  · rcases h with h | h <;> simp only [h]
  · rw [h]; simp only []
    have : sequenceFault u .zone = heldEntry u .zone := by
      unfold sequenceFault; rw [dq]; rcases hd with h | h <;> rw [h]
    rw [this]; exact holds_heldEntry u .zone (by rw [dq]; rcases hd with h | h <;> rw [h] <;> decide)
  · intro sweeping d
    rw [h]; simp only []
    have uc : u.acq.ctx = some c := by rw [aq]; exact hc
    unfold acqZoneStop; rw [uc]; simp only []
    refine ⟨fun k hb => ?_, fun k hb => ?_, fun k => ?_⟩
    · rw [if_pos k, if_pos (by cases e : c.partialBegin <;> simp_all)]; rfl
    · rw [if_pos k, if_neg (by rw [hb]; decide)]; rfl
    · rw [if_neg k]; exact endsSearch_acqFail (d := c) (by rw [← uc]) rfl rfl rfl rfl rfl rfl

/-- R35: the re-check of one axis, as the statements say it. -/
theorem rechecks_recheckAxis (s : State) (z : Zone) (row : Nat) (a : Axis) 
    (hz : ∃ k, s.zones[row]? = some { z with hits := k }) :
    s.rechecks z row a (recheckAxis row s a) := by
  obtain ⟨k, hz⟩ := hz
  unfold State.rechecks
  intro r blocked stops
  have hb : zoneStops s { z with hits := k } a = true ↔ blocked := by
    unfold zoneStops
    have m : ∀ b, zoneMeets { z with hits := k } b = zoneMeets z b := fun _ => rfl
    have h : ∀ p, zoneHolds { z with hits := k } p = zoneHolds z p := fun _ => rfl
    cases e : (s.axis a).presentTarget with
    | none => simp only [blocked]; constructor
              · intro h; cases h
              · rintro ⟨x, hx, _⟩; rw [show r.presentTarget = none from e] at hx; cases hx
    | some x =>
      simp only [m, h]
      have : blocked ↔ ((presentPose s = none → zoneMeets z (sweptBox s a x) = true) ∧
    ∀ p, presentPose s = some p →
      if zoneHolds z p = true then zoneHolds z (endPose s a x p) = true else zoneMeets z (sweptBox s a x) = true) := by
        simp only [blocked]
        rw [show r.presentTarget = some x from e]
        simp
      rw [this]
      cases presentPose s with
      | none => simp
      | some p => simp only [reduceCtorEq, false_implies, true_and, Option.some.injEq, forall_eq']
                  split <;> rfl
  have hs : (rechecked s a && zoneStops s { z with hits := k } a) = true ↔ stops := by
    unfold rechecked; simp only [Bool.and_eq_true, hb, stops]
    simp only [Bool.not_eq_true', Bool.and_eq_false_iff, decide_eq_true_eq, decide_eq_false_iff_not, and_assoc, not_and_or]
    exact Iff.rfl
  unfold recheckAxis; rw [hz]; simp only []
  refine ⟨fun h => ?_, fun h => ?_⟩
  · rw [if_neg (fun q => h (hs.mp q))]
  · rw [if_pos (hs.mpr h)]; exact zoneStopped_zoneStop s row a h.1

theorem zoneStop_keeps_row (s : State) (row a) {z : Zone} (hz : ∃ k, s.zones[row]? = some { z with hits := k }) : ∃ k,
    (zoneStop s row a).zones[row]? = some { z with hits := k } := by
  unfold zoneStop
  obtain ⟨k, hz⟩ := hz
  have h0 : ∃ k, (raise (hitZone (axsStop s a) row) (.zoneStopped a row)).zones[row]? = some { z with hits := k } := by
    rw [zones_raise]
    have : (axsStop s a).zones = s.zones := (axsStop_elsewhere s a).2.2.2.2.2.2.2.1
    unfold hitZone
    show ∃ k, ((axsStop s a).zones.modify row Zone.hit)[row]? = _
    rw [this, List.getElem?_modify]; simp only [if_true, hz]
    exact ⟨_, rfl⟩
  generalize raise (hitZone (axsStop s a) row) (.zoneStopped a row) = u at h0
  unfold tellZoneStop
  have keep : ∀ t : State, t.zones = u.zones → ∃ k, t.zones[row]? = some { z with hits := k } := fun t e => by rw [e]; exact h0
  split
  · exact h0
  · exact h0
  · exact h0
  · apply keep
    unfold acqZoneStop
    split
    · rfl
    · rename_i c hc
      split
      · split <;> rfl
      · exact (acqFail_does u c .zone hc).2.2.2.2.2.2.2.1
  · apply keep
    unfold sequenceFault
    by_cases hd : u.dsq.deploy = .held
    · rw [hd]
    · have := (heldEntry_does u .zone hd).2.2.2.2.2
      split <;> first | exact this | rfl

theorem recheckAxis_keeps_row (s : State) (row a) {z : Zone} (hz : ∃ k, s.zones[row]? = some { z with hits := k }) : ∃ k,
    (recheckAxis row s a).zones[row]? = some { z with hits := k } := by
  unfold recheckAxis
  split
  · split
    · exact zoneStop_keeps_row s row a hz
    · exact hz
  · exact hz

end Sys2Proof.Machine
end

