-- ==== Sys2Proof/Laws/Wake.lean ====
section
/-! SUPPORT. What a wake does: the channels, the re-judgement in HOLD, and the PARK entry on top of the stack. -/

namespace Sys2Proof.Machine

/-- R12, R13: a channel of its own axis is set to FULL. -/
theorem axsChannel_full (s : State) (a : Axis) :
    axsChannel s (moveChannel a) .full =
      sendDrive (s.withAxs { s.axs.set a ((s.axis a).opened (s.chan (moveChannel a))) with
        channels := s.axs.channels.set (moveChannel a) .full }) (.channel (moveChannel a) .full) := by
  have ca : (moveChannel a).axis = a := by cases a <;> rfl
  unfold axsChannel
  split
  · rename_i h
    have o : (s.axis a).opened (s.chan (moveChannel a)) = s.axis a := by unfold AxisRec.opened; rw [h]; exact if_neg (by simp)
    rw [o]
    have e : ({ s.axs.set a (s.axis a) with channels := s.axs.channels.set (moveChannel a) .full } : Axs) = s.axs := by
      have c : s.axs.channels.set (moveChannel a) .full = s.axs.channels := by
        rw [← h]; unfold State.chan; cases a <;> rfl
      rw [c]; unfold State.axis; cases a <;> rfl
    rw [e]; rfl
  · rename_i h
    have m : ({ s.axis a with motion := restMotion (moveChannel a) .full (s.axis a).motion } : AxisRec) =
        (s.axis a).opened (s.chan (moveChannel a)) := by
      unfold AxisRec.opened
      by_cases g : (s.axis a).motion = .off
      · rw [if_pos ⟨g, h⟩, g]; cases a <;> rfl
      · rw [if_neg (fun x => g x.1)]
        have : restMotion (moveChannel a) .full (s.axis a).motion = (s.axis a).motion := by
          cases a <;> cases hm : (s.axis _).motion <;> first | rfl | exact absurd hm g
        rw [this]
    unfold channelChange endsMove
    simp only [ne_eq, not_true_eq_false, decide_false, Bool.and_false, Bool.false_eq_true, if_false, Bool.false_and]
    unfold closeRunUnlessFull
    rw [if_pos rfl, ca]
    have x : (sendChannel s (moveChannel a) .full).axis a = s.axis a := by
      unfold State.axis sendChannel; cases a <;> rfl
    rw [x, m]
    unfold sendChannel State.setAxis
    cases a <;> rfl

/-- R12, R13: LOCK is set to FULL. -/
theorem axsChannel_lock_full (s : State) :
    axsChannel s .lock .full =
      sendDrive (s.withAxs { s.axs with channels := s.axs.channels.set .lock .full }) (.channel .lock .full) := by
  unfold axsChannel
  split
  · rename_i h
    have c : s.axs.channels.set .lock .full = s.axs.channels := by rw [← h]; unfold State.chan; rfl
    rw [c]; rfl
  · unfold channelChange endsMove
    simp only [ne_eq, not_true_eq_false, decide_false, Bool.and_false, Bool.false_eq_true, if_false, Bool.false_and]
    rfl

/-- R66, R173: DEPLOYED entered from another deploy state. -/
theorem judged_handDeploy_deployed {t : Txc} (h : t.deploy ≠ .deployed) :
    t.judged (t.handDeploy .deployed) =
      (let u : Txc := { t with deploy := .deployed }
       if u.gust ≠ .hold ∧ u.axisHalted = false ∧ (u.latch = true ∨ (u.tracked = true ∧ u.mute = false)) then
        { u with pending := true, panSeen := false, tiltSeen := false } else u) := by
  have c : t.condition = false := by unfold Txc.condition; simp [h]
  have e : t.handDeploy .deployed = { t with deploy := .deployed } := by unfold Txc.handDeploy; rw [if_neg (by simp)]
  unfold Txc.judged
  rw [c, e]
  by_cases g : t.gust ≠ .hold ∧ t.axisHalted = false ∧ (t.latch = true ∨ (t.tracked = true ∧ t.mute = false))
  · have k : ({ t with deploy := .deployed } : Txc).condition = true := by
      obtain ⟨g1, g2, g3⟩ := g
      unfold Txc.condition; rcases g3 with g3 | ⟨g3, g4⟩ <;> simp [*]
    rw [k]; exact (if_pos g).symm
  · have k : ({ t with deploy := .deployed } : Txc).condition = false := by
      unfold Txc.condition
      simp only [decide_true, Bool.true_and]
      by_contra n
      refine g ?_
      simp only [Bool.not_eq_false, Bool.and_eq_true, Bool.or_eq_true, decide_eq_true_eq, Bool.not_eq_true'] at n
      exact ⟨n.1.1, n.1.2, n.2.elim (fun y => Or.inr ⟨y.1, y.2⟩) Or.inl⟩
    rw [k]; exact (if_neg g).symm

/-- R83: the wake, up to the hand over of the wake pose. -/
theorem wakeUp_awake {s : State} (h : s.txc.deploy ≠ .deployed) : wakeUp s = rejudgeInHold s.awake := by
  have e : axsChannels s (fun _ _ => some .full) =
      { s with
        axs := s.awake.axs
        out := { s.out with drive := s.awake.out.drive } } := by
    unfold axsChannels allChannels
    simp only [List.foldl]
    rw [show (Channel.lift) = moveChannel .mast from rfl, show (Channel.pan) = moveChannel .pan from rfl,
      show (Channel.tilt) = moveChannel .tilt from rfl, show (Channel.pol) = moveChannel .pol from rfl]
    rw [axsChannel_full s .mast, axsChannel_lock_full, axsChannel_full _ .pan, axsChannel_full _ .tilt, axsChannel_full _ .pol]
    unfold sendDrive State.withOut State.withAxs State.awake
    simp only [List.append_assoc, List.cons_append, List.nil_append]
    rfl
  unfold wakeUp enterDeploy
  rw [e]
  show rejudgeInHold (State.withTxc _ (s.txc.judged (s.txc.handDeploy .deployed))) = _
  rw [judged_handDeploy_deployed h]
  rfl

/-- R168: a PARK entry on top is popped at a wake outside HOLD. -/
theorem acqWake_resumes {s : State} {e : StackEntry} {rest : List StackEntry} {x : Entry} (h : s.acq.stack = e :: rest)
    (hp : e.cause = .park) (hg : s.wsm.gust ≠ .hold) (hc : s.acq.ctx = none) (hx : s.sites[e.row]? = some x)
    (hxs : x.state = .suspended) (hf : s.slewFree) (hal : s.slewAllowed (s.wakeSlew e x).1.1 (s.wakeSlew e x).1.2) :
    s.resumesAtWake e x (acqWake s) ∧ ∀ k : NoticeClass, k ≠ .resume → (acqWake s).ntu.get k = s.ntu.get k := by
  have en : entryOf s e.row = x := by unfold entryOf State.entry; rw [hx]; rfl
  unfold State.resumesAtWake
  simp only [h, List.tail_cons]
  unfold State.wakeSlew at hal ⊢
  cases hw : s.dsq.wakePose
  · have w : acqWake s = startSlew (popTo s e fun t => resumedCtx t e (returnPhase t e)) := by
      unfold acqWake; simp only [h, hw]; rw [if_neg (by simp [hp]), if_neg hg]
    rw [w]
    rw [hw] at hal
    have rp : ∀ u : State, entryOf u e.row = { x with state := .acquiring } → returnPhase u e = returnPhase s e := by
      intro u hu; unfold returnPhase; rw [hu, en]
    have G := fun hf' hal' => popTo_slews (k := fun t => resumedCtx t e (returnPhase t e))
      (d := newCtx e.row (resumePose s e (returnPhase s e)).1 (resumePose s e (returnPhase s e)).2 x.set.presetPol
        (returnPhase s e).after e.reacquire) h hc hx hxs
      (fun u hu ha => by rw [rp u hu]; exact resumedCtx_eq _ hx hu ha) rfl rfl rfl hf' hal'
    rw [hp] at G
    have F : ∀ {A B C D E F G H : Prop}, A ∧ B ∧ C ∧ D ∧ E ∧ F ∧ G ∧ H → (A ∧ B ∧ C ∧ D ∧ E ∧ F ∧ G) ∧ H :=
      fun ⟨a, b, c, d, e, f, g, h⟩ => ⟨⟨a, b, c, d, e, f, g⟩, h⟩
    have ps : returnPhase s e = if x.learned.pan.isSome && x.learned.tilt.isSome then .track else e.phase := by
      unfold returnPhase; rw [en]
    cases hl : x.learned.pan with
    | none => rw [hl] at hal ps; rw [ps] at G; exact F (G hf hal)
    | some pan =>
      cases ht : x.learned.tilt with
      | none => rw [hl, ht] at hal ps; rw [ps] at G; exact F (G hf hal)
      | some tilt =>
        rw [hl, ht] at hal ps
        have po : resumePose s e .track = (pan, tilt) := by unfold resumePose; simp only [en]; unfold slewPose; rw [hl, ht]
        rw [ps] at G
        simp only [Option.isSome_some, Bool.and_self, if_true, po] at G
        exact F (G hf hal)
  · have w : acqWake s = startSlew (popTo s e fun t => presetCtx t e) := by
      unfold acqWake; simp only [h, hw]; rw [if_neg (by simp [hp]), if_neg hg]
    rw [w]
    rw [hw] at hal
    simp only [] at hal ⊢
    have G := popTo_slews (k := fun t => presetCtx t e)
      (d := newCtx e.row x.set.presetPan x.set.presetTilt x.set.presetPol .azSweep e.reacquire) h hc hx hxs
      (fun u hu _ => by unfold presetCtx; rw [hu]) rfl rfl rfl hf hal
    rw [hp] at G
    obtain ⟨g1, g2, g3, g4, g5, g6, g7, g8⟩ := G
    exact ⟨⟨g1, g2, g3, g4, g5, g6, g7⟩, g8⟩

/-- A frame that waits in the upstream queue bears on no slew. -/
theorem slewAllowed_queues {s : State} {p q : Int} (f : UpFrame) (h : s.slewAllowed p q) : (s.queues f).slewAllowed p q := by
  obtain ⟨h1, h2, h3, h4, h5⟩ := h
  exact ⟨h1, h2, h3, (moveCheck_congr (s := s) (u := s.queues f) rfl (fun _ => rfl) (fun _ => rfl) _ _).trans h4, h5⟩

/-- R98: a re-judgement that makes no stow leaves the Site Table and the wind monitor alone while no context runs. -/
theorem rejudge_elsewhere {s : State} (h : ¬ s.windCallsStow) (hc : s.acq.ctx = none) :
    (rejudge s).sites = s.sites ∧ (rejudge s).wsm = s.wsm := by
  have low : ∀ cap, (startLowering s cap).sites = s.sites ∧ (startLowering s cap).wsm = s.wsm := by
    intro cap
    rcases startLowering_cases s cap with ⟨_, _, u, hu, _, _, e⟩ | ⟨_, e⟩
    · rw [e, (raise_elsewhere _ _).2.2.2.1, (raise_elsewhere _ _).2.2.2.2.2.1, hu]
      unfold sendMove endJog axsTake
      split <;> split <;> exact ⟨rfl, rfl⟩
    · rw [e, (raise_elsewhere _ _).2.2.2.1, (raise_elsewhere _ _).2.2.2.2.2.1]; exact ⟨rfl, rfl⟩
  have p : acqPush s .gust none = s := by unfold acqPush; rw [hc]
  unfold rejudge
  rw [if_neg (fun x => h ((windStows_iff s).mp x)), p]
  unfold lowerAgain
  split
  · split
    · exact ⟨rfl, rfl⟩
    · split
      · split
        · exact ⟨rfl, rfl⟩
        · exact low _
      · exact ⟨rfl, rfl⟩
  · exact ⟨rfl, rfl⟩

/-- R98, R168: the stack after the re-judgement of a wake in HOLD. -/
theorem keepsNone_iff {s : State} (hd : s.dsq.deploy = .deployed) :
    s.keepsNone ↔ ∀ e rest, (rejudge s).acq.stack = e :: rest → e.cause ≠ .park := by
  obtain ⟨w1, -, w3⟩ := windHolds_rejudge s
  unfold State.keepsNone
  by_cases hw : s.windCallsStow
  · obtain ⟨-, -, -, k, -⟩ := (w1 hw).1
    exact ⟨fun _ e rest h => by rw [k] at h; exact absurd h (by simp), fun _ => Or.inr (Or.inl hw)⟩
  · obtain ⟨-, sus, same, -⟩ := w3 hw hd
    cases hc : s.acq.ctx with
    | some c =>
      obtain ⟨-, ⟨e, rest, h1, -, h2⟩, -⟩ := sus c hc
      refine ⟨fun _ e' rest' h => ?_, fun _ => Or.inl (by simp)⟩
      rw [h1] at h; cases h; rw [h2]; decide
    | none =>
      rw [same hc]
      exact ⟨fun h => h.elim (fun x => absurd rfl x) (fun h => h.elim (fun x => absurd x hw) id), fun h => Or.inr (Or.inr h)⟩

/-- R168: with no PARK entry on top a wake pops nothing. -/
theorem acqWake_none {s : State} (h : ∀ e rest, s.acq.stack = e :: rest → e.cause ≠ .park) : acqWake s = s := by
  unfold acqWake
  split
  · rfl
  · rename_i e rest he; exact if_pos (h e rest he)

/-- R168: a PARK entry on top at a wake in HOLD. -/
theorem acqWake_kept {s : State} {e : StackEntry} {rest : List StackEntry} (h : s.acq.stack = e :: rest) (hp : e.cause = .park)
    (hg : s.wsm.gust = .hold) : acqWake s = raise s (.resumeKept e.row) := by
  unfold acqWake; rw [h]; simp only []; rw [if_neg (by simp [hp]), if_pos hg]

end Sys2Proof.Machine
end

