-- ==== Sys2Proof/Tests/Slice0.lean ====
section
/-! SUPPORT. Tests: the check of commands refuses what no line can carry, worked values of the spec come out, and for every
statement with hypotheses a state and operands that meet them. -/

namespace Sys2Proof.Tests

open Sys2Proof Sys2Proof.Machine

/-! ## The check of commands -/

theorem test_wf_refuses_console_frames :
    ([.consoleMove .pan (some ⟨32768, .normal, none⟩), .consoleMove .pan (some ⟨-32769, .normal, none⟩),
      .consoleMove .pan (some ⟨0, .normal, some 65536⟩), .consoleJog .tilt (some ⟨.up, .normal, 65536⟩),
      .consoleOtherKind .pol 256, .consoleOtherKind .pol 1, .consoleOtherKind .pol 5, .accessoryFrame 4 0 [],
      .accessoryFrame 32 0 [], .accessoryFrame 5 256 [], .accessoryFrame 5 0 (List.replicate 25 0#8)] : List Instr).all
      (fun i => !i.wf) = true := by decide

theorem test_wf_refuses_drive_frames :
    ([.position .mast 32768 false false 0, .position .mast 0 false false 256, .wind 32768, .wind (-32769), .slope 32768 0,
      .slope 0 (-32769), .driveFrameForward 0 0 [], .driveFrameForward 32 0 [], .driveFrameForward 1 256 [],
      .driveFrameForward 1 0 (List.replicate 25 0#8), .driveFrameForward 1 0x10 [0#8, 0#8, 0#8, 1#8, 9#8],
      .driveFrameForward 5 0x11 [0#8, 0#8], .driveFrameForward 6 0x12 [0#8, 0#8, 0#8, 0#8]] : List Instr).all
      (fun i => !i.wf) = true := by decide

theorem test_wf_refuses_pages_and_requests :
    ([.ident 0, .ident 65536, .report 256 (-500) true, .report 0 (-99) true, .report 0 (-1301) true, .report 0 40000 false,
      .readNotice 8, .unknownRequest 256, .deploy (some (-1)), .deploy (some 65536), .acquire 256] : List Instr).all
      (fun i => !i.wf) = true := by decide

theorem test_wf_refuses_access :
    ([.read 256 0 0, .read 0 256 0, .read 0 0 256, .read 10 0 1, .read 9 7 0, .write 256 0 0 0, .write 0 256 0 0,
      .write 0 0 256 0, .write 6 0 0 2147483648, .write 6 0 0 (-2147483649), .write 2 23 7 0, .write 5 7 4 0, .write 6 0 36 0,
      .write 6 0 28 0, .write 3 7 16 0, .writeZone 24 0 0, .writeZone 0 8 0, .writeZone 0 0 2147483648,
      .writeDerateRow 8 0 0, .writeDerateRow 0 5 0, .writeDerateRow 0 0 2147483648, .writeVanAbilityWord 2147483648,
      .writeEntrySetting 8 1 0, .writeEntrySetting 0 0 0, .writeEntrySetting 0 17 0, .writeEntrySetting 0 1 2147483648,
      .writeEntryState 8 0, .writeEntryState 0 2147483648, .writeWindSetting .stowWind 2147483648] : List Instr).all
      (fun i => !i.wf) = true := by decide

theorem test_wf_takes_the_bounds :
    ([.consoleMove .pan (some ⟨-32768, .override, some 65535⟩), .consoleOtherKind .mast 6, .accessoryFrame 31 255 [],
      .position .pol 32767 true true 255, .driveFrameForward 31 255 [], .driveFrameForward 1 0x10 [0#8, 0#8, 2#8, 0#8, 0#8],
      .ident 65535, .report 255 (-1300) true, .report 0 (-100) true, .report 0 0 false, .read 9 8 0, .readNotice 7,
      .write 2 24 0 (-2147483648), .writeZone 23 7 2147483647, .writeDerateRow 7 4 0, .writeEntrySetting 7 16 0,
      .deploy (some 65535), .deploy none, .acquire 255] : List Instr).all Instr.wf = true := by decide

/-! ## Bytes of the lines -/

theorem test_check_of_the_nine_bytes :
    crc16 [0x31#8, 0x32#8, 0x33#8, 0x34#8, 0x35#8, 0x36#8, 0x37#8, 0x38#8, 0x39#8] = 0x29B1#16 := by decide +kernel

/-- A MOVE of PAN to -2 with OVERRIDE, written out by Tables 11-7 and 11-8. -/
theorem test_sort_console_move :
    sortUpstream ⟨2#8, 1#8, [0xFF#8, 0xFE#8, 1#8]⟩ = .consoleMove .pan (some ⟨-2, .override, none⟩) := by decide

theorem test_sort_drive_reports :
    [sortDrive ⟨1#8, 0x10#8, [1#8, 0x2C#8, 0#8, 1#8, 7#8]⟩, sortDrive ⟨5#8, 0x11#8, [0#8, 110#8]⟩,
      sortDrive ⟨6#8, 0x12#8, [0xFF#8, 0xFF#8, 0#8, 9#8]⟩, sortDrive ⟨0#8, 0x10#8, []⟩] =
    [.position .mast 300 false true 7, .wind 110, .slope (-1) 9, .frameDiscarded .drive] := by decide

theorem test_sort_pages :
    [sortSite ⟨0#8, 0x50#8, [15#8, 3#8, 7#8, 1#8]⟩, sortSite ⟨0#8, 0x52#8, [1#8, 1#8, 2#8, 0#8]⟩,
      sortSite ⟨0#8, 0x53#8, [0#8, 5#8]⟩, sortSite ⟨0#8, 0x54#8, [9#8, 0xFD#8, 0xA8#8, 0#8]⟩, sortSite ⟨0#8, 0x55#8, []⟩,
      sortSite ⟨0#8, 0x53#8, [0#8]⟩, sortSite ⟨0#8, 0x56#8, []⟩, sortSite ⟨1#8, 0x55#8, []⟩] =
    [.ability 15 3 7 true, .choiceEcho ⟨.b1, .v, .p500⟩ false, .ident 5, .report 9 (-600) true, .inboundNoEffectPage .leave,
      .malformedPage, .frameDiscarded .site, .frameDiscarded .site] := by decide

theorem test_sort_requests :
    [sortUpstream ⟨0#8, 0x32#8, [1#8, 0x2C#8]⟩, sortUpstream ⟨0#8, 0x36#8, [3#8]⟩,
      sortUpstream ⟨0#8, 0x31#8, [2#8, 0#8, 1#8, 0#8, 0#8, 1#8, 0#8]⟩, sortUpstream ⟨0#8, 0x30#8, [10#8, 0#8, 1#8]⟩,
      sortUpstream ⟨0#8, 0x33#8, [0#8]⟩, sortUpstream ⟨7#8, 0x99#8, [4#8]⟩] =
    [.deploy (some 300), .acquire 3, .writeZone 0 1 256, .readSiteUp, .unknownRequest 0x33, .accessoryFrame 7 0x99 [4#8]] := by
  decide

/-- A frame behind a stray start mark is found; one whose check fails is discarded (R178). -/
theorem test_receive_hunts :
    receive .upstream ([7#8] ++ (Frame.mk 0#8 0x33#8 []).bytes ++ (Frame.mk 0#8 0x38#8 []).bytes) = [.stow, .resume] ∧
    receive .upstream [0xA5#8, 0#8, 0x33#8, 0#8, 0#8, 0#8] = [.frameDiscarded .upstream] := by decide +kernel

/-- R183, R187: the NOTICE of a HALTED TILT with cause SILENCE. -/
theorem test_notice_bytes :
    (UpFrame.notice (.axis .tilt .silence)).frame.payload.length = 5 ∧
    (UpFrame.frame (replyRefused 0x32 .state)).payload.take 3 = [0x32#8, 0#8, 1#8] := by decide

/-! ## States for the witnesses -/

/-- An axis that stands at a position, its channel FULL. -/
def standing (r : AxisRec) (p : Int) : AxisRec := { r with motion := .idle, position := some p, silenceWatch := some 1000 }

/-- The part DEPLOYED at 500 cm, every axis standing, on level ground. -/
def deployed : State :=
  { State.reset with
    axs :=
      { mast := standing State.reset.axs.mast 500, pan := standing State.reset.axs.pan 1800
        tilt := standing State.reset.axs.tilt 100, pol := standing State.reset.axs.pol 0
        channels := ⟨.full, .full, .full, .full, .full⟩ }
    dsq := { State.reset.dsq with deploy := .deployed }
    wsm := { State.reset.wsm with lastSlope := some (0, 0), slopeState := .level, slopeWatch := some 2000 }
    txc := { State.reset.txc with deploy := .deployed } }

/-- The part in another deploy state. -/
def inState (d : Deploy) : State :=
  { deployed with dsq := { deployed.dsq with deploy := d }, txc := { deployed.txc with deploy := d } }

/-- The part DEPLOYED with one axis changed. -/
def withAxis (a : Axis) (f : AxisRec → AxisRec) : State := deployed.setAxis a (f (deployed.axis a))

/-- The part DEPLOYED with PAN moving to 1900 for the console. -/
def panMoving : State :=
  withAxis .pan fun r => { r with motion := .moving, owner := .console, working := some 1900, arrivalTimer := some 60 }

/-- The part DEPLOYED with PAN jogging up to 1950, a run open. -/
def panJogging : State :=
  { (withAxis .pan fun r =>
      { r with motion := .jogging, owner := .console, jogTarget := some 1950, arrivalTimer := some 60 }) with
    mgt := State.reset.mgt.set .pan (some ⟨.up, 150⟩) }

/-- The part DEPLOYED with PAN HALTED, clean reports seen since. -/
def panHalted : State :=
  let s := withAxis .pan fun r => { r with motion := .halted, faultCause := .drive, driveCode := some 7, releaseReady := true }
  { s with txc := { s.txc with axisHalted := true } }

/-- The handshake in a state, nothing else of it changed. -/
def linked (h : Handshake) : State := { deployed with sha := { deployed.sha with state := h } }

/-- The choice of band 1, H, 100 ms. -/
def b1h : Choice := ⟨.b1, .h, .p100⟩

/-- The part DEPLOYED with the choice sent. -/
def offered : State :=
  { deployed with sha := { deployed.sha with state := .chosen, sent := some (b1h, true), echoTimer := some 2000, toggle := true } }

/-- The link up, its window empty. -/
def linkedUp : State :=
  { deployed with sha := { deployed.sha with state := .up, agreed := some b1h, identity := some 9, reportWatch := some 300 } }

/-- The part DEPLOYED with the first site row in a state. -/
def siteIn (e : EntryState) : State := { deployed with sites := deployed.sites.set 0 { Entry.powerOn with state := e } }

/-- A context of row 0 in a phase. -/
def ctxIn (p : Phase) : Ctx := { newCtx 0 1800 100 0 .azSweep false with phase := p }

/-- A context of row 0 runs, the row in a state, PAN, TILT and POL owned by SEARCH, PAN holding a working target. -/
def searching (c : Ctx) (e : EntryState) : State :=
  let s := siteIn e
  { s with
    axs :=
      { s.axs with
        pan := { s.axs.pan with owner := .search, working := some 1800 }
        tilt := { s.axs.tilt with owner := .search }
        pol := { s.axs.pol with owner := .search } }
    acq := { s.acq with ctx := some c } }

/-- A context of row 0 waits on the Resume Stack. -/
def stacked : State :=
  let s := siteIn .suspended
  { s with acq := { s.acq with stack := [⟨0, .switch, .azSweep, none, none, none, false⟩] } }

/-- Zone 0 valid over arc 1900 to 2000, every tilt and height. -/
def wall : Zone := { Zone.powerOn with valid := true, arcFrom := 1900, arcTo := 2000 }

/-- The part DEPLOYED beside the wall. -/
def walled : State := { deployed with zones := deployed.zones.set 0 wall }

/-- A full upstream queue. -/
def full : State := { deployed with lnu := { deployed.lnu with queue := List.replicate 64 (replyDone 0x33) } }

/-- The part in reset. -/
def inReset : State := { State.reset with lnu := { State.reset.lnu with rst := true } }

/-- The part DEPLOYED with one free place in the upstream queue. -/
def lastPlace : State := { deployed with lnu := { deployed.lnu with queue := List.replicate 63 (replyDone 0x33) } }

/-! ## Witnesses: states and operands that meet the hypotheses of the statements -/

theorem listens_deployed : deployed.listens := ⟨rfl, by decide⟩

theorem test_meets_StepTakesTheFrontCommand :
    ({ deployed with pending := [.stow, .park] } : State).pending = .stow :: [.park] ∧ deployed.pending = [] := by decide

theorem test_meets_AssertedRstDiscardsEverything : inReset.lnu.rst = true ∧ Instr.stow.isPin = false := by decide

theorem test_meets_FullQueueDiscardsConsoleFrames :
    Instr.stow.fromConsole = true ∧ (Instr.accessoryFrame 31 0 []).fromConsole = true ∧ 64 ≤ full.lnu.queue.length := by decide

theorem test_meets_ResetRequestKeepsTablesAndSettings : State.reset.listens ∧ lastPlace.listens :=
  ⟨⟨rfl, by decide⟩, rfl, by decide⟩

theorem test_meets_EveryRequestGetsExactlyOneReply :
    Instr.requestKind .stow = some 0x33 ∧ Instr.requestKind (.unknownRequest 0) = some 0 ∧ lastPlace.listens :=
  ⟨rfl, rfl, rfl, by decide⟩

theorem test_meets_DriveFramesAreAnsweredOnlyByRefusals :
    Instr.driveKind (.consoleMove .pan none) = some (1, .pan) ∧ Instr.driveKind (.consoleOtherKind .mast 255) = some (255, .mast) ∧
      lastPlace.listens :=
  ⟨rfl, rfl, rfl, by decide⟩

/-- The part in a deploy state, with the levels of its two pins. -/
def pins (d : Deploy) (park stow : Bool) : State :=
  let s := inState d
  { s with dsq := { s.dsq with parkIn := park, stowIn := stow } }

theorem test_meets_InputLevelsThatOnlyFollow :
    (pins .held false true).dsq.parkIn = false ∧ (pins .held false true).dsq.stowIn = true ∧
    ((pins .unknown true false).dsq.deploy = .unknown ∧ (pins .unknown true false).dsq.parkIn = true ∧
      (pins .unknown true false).dsq.stowIn = false) ∧
    (pins .stowed true false).dsq.deploy = .stowed ∧ (pins .lowering true false).dsq.deploy = .lowering := by decide

theorem test_meets_StowRequestsAndTheStowEffects :
    ((pins .raising true false).listens ∧ (pins .raising true false).running) ∧
    (pins .raising true false).dsq.parkIn = true ∧ (pins .raising true false).dsq.stowIn = false ∧
    ((pins .raising true false).dsq.deploy = .raising ∧ (pins .deployed true false).dsq.deploy = .deployed ∧
      (pins .parked true false).dsq.deploy = .parked ∧ (pins .held true false).dsq.deploy = .held) ∧
    (deployed.sha.state = .silent ∧ linkedUp.sha.state ≠ .silent) ∧
    (inState .unknown).dsq.deploy = .unknown ∧ (inState .stowed).dsq.deploy = .stowed ∧
    (inState .lowering).dsq.deploy = .lowering :=
  ⟨⟨⟨rfl, by decide⟩, rfl⟩, by decide⟩

/-! ### Console frames -/

/-- PAN to its soft maximum, MAST to the maximum height, an axis of the console that travels. -/
theorem test_meets_ConsoleMoveIsSent :
    (let s := deployed
     let r := s.axis .pan
     s.listens ∧ s.dsq.deploy = .deployed ∧ r.owner = .none ∧ r.motion = .idle ∧ r.position.isSome ∧
      channelsFull s .pan = true ∧ r.softMin ≤ (3599 : Int) ∧ (3599 : Int) ≤ r.softMax ∧ inFull .pan 3599 = true ∧
      0 < capped ((none : Option Nat).getD r.rateLimit) (rateCap s.wsm .pan) ∧ (moveCheck s .pan 3599).1 = false) ∧
    (let r := deployed.axis .mast
     r.softMin ≤ (1500 : Int) ∧ (1500 : Int) ≤ r.softMax ∧ inFull .mast 1500 = true ∧ (1500 : Int) ≤ deployed.dsq.maxHeight ∧
      deployed.wsm.caps = none ∧ (moveCheck deployed .mast 1500).1 = false) ∧
    (panJogging.axis .pan).owner = .console ∧ (panJogging.axis .pan).motion = .jogging :=
  ⟨⟨listens_deployed, by decide⟩, by decide⟩

theorem test_meets_ConsoleSelectIsSent :
    let s := panMoving
    let r := s.axis .pan
    s.listens ∧ s.dsq.deploy = .deployed ∧ r.owner = .console ∧ r.motion = .moving ∧ r.position.isSome ∧
      channelsFull s .pan = true ∧ r.target .work = some 1900 ∧ r.softMin ≤ (1900 : Int) ∧ (1900 : Int) ≤ r.softMax ∧
      inFull .pan 1900 = true ∧ 0 < capped r.rateLimit (rateCap s.wsm .pan) ∧ (moveCheck s .pan 1900).1 = false :=
  ⟨⟨rfl, by decide⟩, by decide⟩

/-- Beside the wall a jog up ends short of it; an open run is of the same direction, or of the other. -/
theorem test_meets_ConsoleJogOpensOrHoldsARun :
    (walled.listens ∧ walled.dsq.deploy = .deployed) ∧
    (let bound := extentQuery walled .pan 1800 .up
     let limit := jogLimit walled .pan .up bound
     bound = some 1900 ∧ walled.jog .pan = none ∧ (walled.axis .pan).owner = .none ∧ (walled.axis .pan).motion = .idle ∧
      (walled.axis .pan).position = some 1800 ∧ channelsFull walled .pan = true ∧
      jogRefusal walled .pan .up 1800 bound = none ∧ (walled.axis .pan).softMin ≤ limit ∧ limit ≤ (walled.axis .pan).softMax ∧
      (moveCheck walled .pan limit).1 = false ∧ inFull .pan limit = true ∧
      0 < capped 1 (rateCap walled.wsm .pan)) ∧
    (panJogging.listens ∧ panJogging.jog .pan = some ⟨.up, 150⟩ ∧ panJogging.dsq.deploy = .deployed) ∧
    (let bound := extentQuery panJogging .pan 1800 .down
     let limit := jogLimit panJogging .pan .down bound
     bound = none ∧ jogRefusal panJogging .pan .down 1800 bound = none ∧ (panJogging.axis .pan).softMin ≤ limit ∧
      limit ≤ (panJogging.axis .pan).softMax ∧ (moveCheck panJogging .pan limit).1 = false ∧
      inFull .pan limit = true ∧ (panJogging.axis .pan).motion = .jogging ∧ (panJogging.axis .pan).owner = .console) :=
  ⟨⟨⟨rfl, by decide⟩, rfl⟩, by decide, ⟨⟨rfl, by decide⟩, by decide⟩, by decide⟩

theorem test_meets_ConsoleStopIsCarriedOut :
    (deployed.listens ∧ (inState .raising).dsq.deploy = .raising ∧ (inState .lowering).dsq.deploy = .lowering ∧
      (inState .held).dsq.deploy = .held) ∧
    ((deployed.axis .pan).owner = .none ∧ (deployed.axis .pan).motion = .idle) ∧
    ((panMoving.axis .pan).owner = .console ∧ (panMoving.axis .pan).motion = .moving) ∧
    ((panJogging.axis .pan).owner = .console ∧ (panJogging.axis .pan).motion = .jogging) ∧
    ((panHalted.axis .pan).owner = .none ∧ (panHalted.axis .pan).motion = .halted) ∧
    ((State.reset.axis .pan).owner = .none ∧ (State.reset.axis .pan).motion = .off) :=
  ⟨⟨listens_deployed, by decide⟩, by decide⟩

theorem test_meets_ConsoleFramesRefusedAtOnce : deployed.listens ∧ lastPlace.listens := ⟨listens_deployed, rfl, by decide⟩

theorem test_meets_FramesThatNoBlockTakes : deployed.running ∧ full.running := ⟨rfl, rfl⟩

theorem test_meets_ConsoleMotionOutsideDeployed :
    (inState .unknown).listens ∧ (inState .unknown).dsq.deploy = .unknown ∧ (inState .stowed).dsq.deploy = .stowed ∧
    (inState .raising).dsq.deploy = .raising ∧ (inState .lowering).dsq.deploy = .lowering ∧
    (inState .held).dsq.deploy = .held ∧ (inState .parked).dsq.deploy = .parked ∧ (some 1 : Option Nat) ≠ some 0 :=
  ⟨⟨rfl, by decide⟩, by decide⟩

theorem test_meets_ConsoleMotionOnAnotherOwnersAxis :
    let owned : Owner → State := fun o => withAxis .pan fun r => { r with owner := o }
    (owned .sequence).listens ∧ (owned .sequence).dsq.deploy = .deployed ∧ (owned .sequence).jog .pan = none ∧
    ((owned .sequence).axis .pan).owner = .sequence ∧ ((owned .wind).axis .pan).owner = .wind ∧
    ((owned .search).axis .pan).owner = .search :=
  ⟨⟨rfl, by decide⟩, by decide⟩

/-- PAN across the wall; the bound 1900 itself is blocked, 1899 is not. -/
theorem test_meets_BlockedConsoleMoveCountsHits :
    let s := walled
    let r := s.axis .pan
    s.listens ∧ s.dsq.deploy = .deployed ∧ s.jog .pan = none ∧ r.owner = .none ∧ r.motion = .idle ∧ r.position.isSome ∧
      channelsFull s .pan = true ∧ r.softMin ≤ (1900 : Int) ∧ (1900 : Int) ≤ r.softMax ∧
      (s.zones.any fun z => moveBlocker s .pan 1900 z) = true ∧ (s.zones.any fun z => moveBlocker s .pan 1899 z) = false :=
  ⟨⟨rfl, by decide⟩, by decide⟩

theorem test_meets_AccessoryFramesFollowTheWindowMode :
    deployed.listens ∧ deployed.lnu.window = .pass ∧
    ({ deployed with lnu := { deployed.lnu with window := .closed } } : State).lnu.window = .closed :=
  ⟨listens_deployed, rfl, rfl⟩

/-! ### Reports of the drive line -/

theorem test_meets_PositionReportsAreTaken :
    (deployed.running ∧ deployed.dsq.deploy ≠ .unknown ∧ deployed.txc.ordered) ∧
    (inFull .pan 0 = true ∧ inFull .pan 3599 = true) ∧
    (panHalted.axis .pan).motion = .halted ∧
    ((deployed.axis .pan).motion = .idle ∧ (deployed.axis .pan).stopping = false) ∧
    (let r := (withAxis .pan fun r => { r with stopping := true, stopMoved := true }).axis .pan
     r.motion = .idle ∧ r.stopping = true ∧ r.owner ≠ .search) ∧
    (let r := panMoving.axis .pan
     r.motion = .moving ∧ r.selected = some 1900 ∧ r.owner = .console ∧ r.stopping = false ∧
      ((1901 : Int) - 1900).natAbs ≤ r.tolerance ∧ r.tolerance < ((1902 : Int) - 1900).natAbs) ∧
    (let r := panJogging.axis .pan
     r.motion = .jogging ∧ r.jogTarget = some 1950 ∧ ((1949 : Int) - 1950).natAbs ≤ r.tolerance) :=
  ⟨⟨rfl, by decide, ⟨by decide, by decide⟩⟩, by decide⟩

theorem test_meets_AxisEventsHaltTheAxis :
    (panMoving.running ∧ panMoving.txc.ordered ∧ (panMoving.axis .pan).owner = .console) ∧
    ((panMoving.axis .pan).motion ≠ .halted ∧ (panMoving.axis .pan).arrivalTimer.isSome ∧
      (panMoving.axis .pan).travelling ∧ (panMoving.axis .pan).silenceWatch.isSome) ∧
    (inFull .pan (-1) = false ∧ inFull .pan 3600 = false ∧ inFull .pan 3599 = true ∧ panMoving.dsq.deploy ≠ .unknown) ∧
    (panHalted.txc.ordered ∧ (panHalted.axis .pan).owner = .none ∧ (panHalted.axis .pan).motion = .halted ∧
      (panHalted.axis .pan).silenceWatch.isSome) :=
  ⟨⟨rfl, ⟨by decide, by decide⟩, by decide⟩, by decide, by decide, ⟨by decide, by decide⟩, by decide⟩

/-- On air, and with the enable pending, each in order. -/
theorem test_meets_EnableFollowsTheReportedPose :
    let on : State := { deployed with txc := { deployed.txc with latch := true, txen := true } }
    let waits : State := { deployed with txc := { deployed.txc with latch := true, pending := true, panSeen := true } }
    let owned : Owner → State := fun o => on.setAxis .tilt { on.axis .tilt with owner := o, motion := .moving, working := some 500 }
    on.running ∧ inFull .tilt 900 = true ∧ on.dsq.deploy ≠ .unknown ∧ on.txc.ordered ∧ waits.txc.ordered ∧
      deployed.txc.ordered ∧ (on.axis .tilt).owner = .none ∧
      ((owned .search).running ∧ (owned .search).txc.ordered ∧ ((owned .search).axis .tilt).selected = some 500) ∧
      ((900 : Int) - 500).natAbs > ((owned .search).axis .tilt).tolerance ∧ ((owned .wind).axis .tilt).owner = .wind :=
  ⟨rfl, by decide, by decide, ⟨by decide, by decide⟩, ⟨by decide, by decide⟩, ⟨by decide, by decide⟩, rfl,
    ⟨rfl, ⟨by decide, by decide⟩, by decide⟩, by decide, by decide⟩

theorem test_meets_WindReportsAreTaken :
    deployed.running ∧ 600 ≤ 600 ∧ deployed.wsm.gust = .calm ∧ deployed.wsm.warnRun = 0 ∧ ((-1 : Int) < 0) ∧ ((600 : Int) < 601) :=
  ⟨rfl, by decide⟩

/-- The slope limit is 50 and the margin 20: 50 is LEVEL, 51 and 70 OVER, 71 FAULT. -/
theorem test_meets_SlopeReportsAreTaken :
    deployed.running ∧
    [slopeOf 50 20 50 0, slopeOf 50 20 0 (-51), slopeOf 50 20 70 0, slopeOf 50 20 0 (-71)] = [.level, .over, .over, .fault] ∧
    deployed.wsm.slopeLimit = 50 ∧ deployed.wsm.slopeMargin = 20 ∧ (-900 : Int).natAbs ≤ 900 ∧ ¬ (901 : Int).natAbs ≤ 900 ∧
    (inState .stowed).dsq.deploy = .stowed ∧ (inState .held).dsq.deploy = .held ∧ deployed.dsq.deploy ≠ .held :=
  ⟨rfl, by decide⟩

/-! ### Pages of the site line -/

theorem test_meets_IgnoredPagesStartAnOfferInSilent :
    deployed.running ∧ deployed.sha.state = .silent ∧ deployed.sha.quietTimer = none ∧ (linked .up).sha.state ≠ .silent ∧
    ({ deployed.sha with quietTimer := some 2000 } : Sha).quietTimer.isSome :=
  ⟨rfl, by decide⟩

/-- A resolution that agrees with the choice held, one that changes it, and one that fails. -/
theorem test_meets_AbilityPagesAreResolved :
    (linkedUp.running ∧ linkedUp.acq.ctx = none ∧ linkedUp.sha.state = .up ∧ linkedUp.sha.agreed = some b1h ∧
      linkedUp.roomy) ∧
    ((linked .offering).sha.state = .offering ∧ (linked .chosen).sha.state = .chosen) ∧
    (resolve linkedUp ⟨1, 1, 1, true⟩ = some b1h ∧ resolve linkedUp ⟨2, 1, 1, true⟩ = some ⟨.b2, .h, .p100⟩ ∧
      resolve linkedUp ⟨0, 1, 1, true⟩ = none ∧ resolve linkedUp ⟨1, 0, 1, true⟩ = none ∧
      resolve linkedUp ⟨1, 1, 0, true⟩ = none) ∧
    (linked .noCommon).sha.state = .noCommon ∧
    (deployed.sha.state = .silent ∧ ({ deployed.sha with quietTimer := some 2000 } : Sha).quietTimer.isSome) :=
  ⟨⟨rfl, rfl, rfl, rfl, rfl, by decide⟩, by decide⟩

/-- R121: H is preferred at a preset pol of 450, V at 451 and at -451. -/
theorem test_preferred_pol :
    let at_ : Int → State := fun pol =>
      let s := searching (ctxIn .slew) .acquiring
      { s with sites := s.sites.modify 0 fun e => { e with set := { e.set with presetPol := pol } } }
    [resolve (at_ 450) ⟨15, 3, 7, false⟩, resolve (at_ 451) ⟨15, 3, 7, false⟩, resolve (at_ (-451)) ⟨8, 1, 4, false⟩] =
      [some ⟨.b1, .h, .p100⟩, some ⟨.b1, .v, .p100⟩, some ⟨.b4, .h, .p500⟩] := by decide

theorem test_meets_EchoPagesDecideTheLink :
    (offered.running ∧ offered.roomy ∧ offered.sha.state = .chosen ∧ offered.sha.sent = some (b1h, true) ∧
      offered.acq.ctx = none ∧ (false : Bool) ≠ true ∧ b1h ≠ ⟨.b2, .h, .p100⟩) ∧
    (let k := ctxIn .slew
     let s := { searching k .acquiring with sha := offered.sha }
     s.running ∧ s.roomy ∧ s.acq.ctx = some k ∧ k.linkIsReady = false ∧ k.step = none ∧
      (s.sites[k.row]?.map (·.set.siteCode)) = some 0) ∧
    (linked .offering).sha.state = .offering ∧ (linked .up).sha.state = .up ∧ (linked .noCommon).sha.state = .noCommon :=
  ⟨⟨rfl, ⟨rfl, by decide⟩, by decide⟩, ⟨rfl, ⟨rfl, by decide⟩, by decide⟩, by decide⟩

/-- Distances 1 and 127 are accepted, across the wrap too; 0 and 128 are not (R133). -/
theorem test_meets_IdentAndReportPagesAreTaken :
    linkedUp.running ∧ offered.sha.state = .chosen ∧ linkedUp.sha.state = .up ∧ linkedUp.sha.identity = some 9 ∧
    linkedUp.acq.ctx = none ∧ linkedUp.sha.agreed = some b1h ∧ linkedUp.sha.linkReady = false ∧ linkedUp.sha.window = [] ∧
    ((linked .offering).sha.state = .offering ∧ (linked .noCommon).sha.state = .noCommon) ∧
    [1, 0, 127, 128, 254].map (fun seq =>
      ({ linkedUp.sha with window := [⟨255, -600, some 1800, some 100⟩] } : Sha).accepts seq) = [true, true, false, false, false] ∧
    [126, 127].map (fun seq =>
      ({ linkedUp.sha with window := [⟨255, -600, some 1800, some 100⟩] } : Sha).accepts seq) = [true, false] :=
  ⟨rfl, by decide⟩

/-- R134: of levels -601 and -600 the mean is -601, rounded down; of one record it is that record. -/
theorem test_meets_MeanLevelOfTheNewestRecords :
    let w : List WinRec := [⟨2, -601, none, none⟩, ⟨1, -600, none, none⟩]
    w ≠ [] ∧ meanLevel w 1 = some (-601) ∧ meanLevel w 2 = some (-601) ∧ meanLevel w 8 = some (-601) ∧
    linkedUp.lnu.rst = false ∧ linkedUp.sha.state = .up ∧ linkedUp.sha.window = [] ∧ linkedUp.sha.linkReady = false := by
  decide

/-! ### Management access -/

theorem test_meets_ReadsAnswerTheField :
    lastPlace.listens ∧ isSpecialRead 9 8 0 = false ∧ isSpecialRead 10 0 0 = false ∧ isSpecialRead 10 0 1 = true ∧ 11 ≤ 11 :=
  ⟨⟨rfl, by decide⟩, by decide⟩

theorem test_meets_NoticeReadsAcknowledgeTheClass :
    let with_ : ClassRow → State := fun r => { deployed with ntu := deployed.ntu.set .deploy r }
    let fresh := with_ { latest := some .deployUp, pending := true, newer := false }
    let newer := with_ { latest := some .deployUp, pending := true, newer := true }
    deployed.listens ∧ NoticeClass.ofRow NoticeClass.deploy.row = some .deploy ∧ (NoticeClass.ofRow 0).isSome ∧ (NoticeClass.ofRow 7).isSome ∧ NoticeClass.ofRow 8 = none ∧
    (deployed.ntu.get .deploy).pending = false ∧
    ((fresh.ntu.get .deploy).pending = true ∧ (fresh.ntu.get .deploy).newer = false) ∧
    ((newer.ntu.get .deploy).newer = true ∧ (newer.ntu.get .deploy).latest = some .deployUp ∧ newer.roomy) :=
  ⟨listens_deployed, by decide, by decide, by decide, by decide, by decide, by decide, by decide, by decide, rfl, by decide⟩

theorem test_meets_WritesOfAxisSettings :
    lastPlace.listens ∧ [8, 9, 10, 11, 12].all (fun n => 8 ≤ n ∧ n ≤ 12) ∧ (7 < 8 ∧ 12 < 13) ∧ (0 = 0 ∧ 7 ≤ 7) :=
  ⟨⟨rfl, by decide⟩, by decide⟩

theorem test_meets_WritesOfTheSettingsTable : lastPlace.listens := ⟨rfl, by decide⟩

/-- A zone written while no axis travels: a field within and outside its range; a pose that the zone comes to contain. -/
theorem test_meets_WritesOfZones :
    (deployed.listens ∧ deployed.roomy) ∧ deployed.zones[0]? = some .powerOn ∧ deployed.zones[23]? = some .powerOn ∧
    deployed.zones[24]? = none ∧
    (within 0 3599 (3600 : Int) () = none ∧ within 0 3599 (3599 : Int) () = some ()) ∧
    (allAxes.all fun a => !(deployed.axis a).travelling) = true ∧
    (let n : Zone := { Zone.powerOn with valid := true }
     (presentPose deployed).any (fun p => zoneHolds n p && !zoneHolds .powerOn p) = true ∧
      (presentPose deployed).any (fun p => zoneHolds wall p && !zoneHolds .powerOn p) = false) :=
  ⟨⟨listens_deployed, rfl, by decide⟩, by decide⟩

/-- Two valid rows with floors 100 and 100 do not rise, with 100 and 101 they do. -/
theorem test_meets_WritesOfWindTables :
    let row : Nat → DerateRow := fun n => { valid := true, floor := n, heightCap := 1500, panCap := 300, tiltCap := 300 }
    deployed.listens ∧ (deployed.wsm.derate[7]?).isSome ∧ deployed.wsm.gust ≠ .hold ∧
    (within 0 600 (600 : Int) () = some () ∧ within 0 600 (601 : Int) () = none) ∧
    ¬ (([row 100, row 100].filter (·.valid)).map (·.floor)).Pairwise (· < ·) ∧
    (([row 100, row 101].filter (·.valid)).map (·.floor)).Pairwise (· < ·) ∧
    ((110 : Int) < 200 ∧ (200 : Int) ≤ 250) :=
  ⟨listens_deployed, by decide⟩

theorem test_meets_WritesOfTheSiteTable :
    deployed.listens ∧
    ([EntryState.empty, .loaded, .lost, .acquiring, .tracked, .suspended].map fun e => (siteIn e).sites[0]?.map (·.state)) =
      [some .empty, some .loaded, some .lost, some .acquiring, some .tracked, some .suspended] ∧
    (deployed.sites[7]?).isSome ∧ deployed.sites[8]? = none ∧ (1 ≤ 1 ∧ 16 ≤ 16 ∧ (1 : Int) ≠ 0) :=
  ⟨listens_deployed, by decide⟩

/-! ### Deploy Sequencer -/

/-- The part STOWED on level ground with PARK_IN asserted and one slot that sets LIFT and LOCK to FULL. -/
def ready : State :=
  let s := pins .stowed true false
  { s with
    axs := { s.axs with mast := standing s.axs.mast 20, pan := standing s.axs.pan 0, tilt := standing s.axs.tilt (-100) }
    dsq := { s.dsq with slots := s.dsq.slots.set 2 ⟨⟨.channel, .lift, .full⟩, ⟨.none, .lift, .off⟩⟩ } }

/-- One state for each check of Table 4-7, the earlier ones passed; the heights 300 and 1500 are in range, 299 is not. -/
theorem test_meets_DeployIsRefusedByTheFirstFailingCheck :
    ready.listens ∧ ready.dsq.deploy ≠ .deployed ∧
    deployRefusal (inState .held) 800 = some .state ∧
    deployRefusal { ready with dsq := { ready.dsq with stowIn := true } } 800 = some .interlock ∧
    deployRefusal { ready with dsq := { ready.dsq with slots := State.reset.dsq.slots } } 800 = some .noSequence ∧
    deployRefusal { ready with wsm := { ready.wsm with lastSlope := some (51, 0) } } 800 = some .slope ∧
    deployRefusal ready 299 = some .range ∧
    deployRefusal { ready with wsm := { ready.wsm with gust := .hold } } 800 = some .wind ∧
    (let s := { ready with zones := ready.zones.set 0 { wall with arcFrom := 0 } }
     deployRefusal s 800 = none ∧ (s.zones.any fun z => zoneMeets z (deployBox s 800)) = true) := by
  refine ⟨⟨rfl, by decide⟩, ?_⟩
  decide

theorem test_meets_DeployRunsTheForwardWalk :
    (ready.listens ∧ (ready.dsq.slots[2]?).map (·.deploy.kind) = some .channel ∧ deployRefusal ready 300 = none ∧
      deployRefusal ready 1500 = none ∧ (ready.zones.all fun z => !zoneMeets z (deployBox ready 300)) = true ∧
      ((ready.dsq.slots.take 2).all fun sl => sl.deploy.kind = .none) = true) ∧
    (let s := { ready with dsq := { ready.dsq with deploy := .raising, slot := some 2, slotTimer := some 1000 } }
     s.running ∧ s.dsq.deploy = .raising ∧ s.dsq.slot = some 2 ∧ s.dsq.slotTimer.isSome ∧ s.wsm.gust ≠ .hold ∧
      ((s.dsq.slots.drop 3).all fun sl => sl.deploy.kind = .none) = true) :=
  ⟨⟨⟨rfl, by decide⟩, by decide⟩, rfl, by decide⟩

theorem test_meets_DeployInDeployedMovesTheMast :
    let s := deployed
    let r := s.axis .mast
    s.listens ∧ s.dsq.deploy = .deployed ∧ s.dsq.minHeight ≤ 300 ∧ (1500 : Int) ≤ s.dsq.maxHeight ∧ s.wsm.gust ≠ .hold ∧
      s.wsm.caps = none ∧ r.owner = .none ∧ r.motion = .idle ∧ s.chan .lift = .full ∧ s.chan .lock = .full ∧
      r.position.isSome ∧ r.softMin ≤ 300 ∧ (1500 : Int) ≤ r.softMax ∧ inFull .mast 300 = true ∧ inFull .mast 1500 = true ∧
      (moveCheck s .mast 300).1 = false ∧ (moveCheck s .mast 1500).1 = false :=
  ⟨listens_deployed, by decide⟩

theorem test_meets_ParkAndWakeAreTaken :
    (deployed.listens ∧ deployed.agrees) ∧ (inState .stowed).dsq.deploy ≠ .deployed ∧
    ((withAxis .mast fun r => { r with owner := .sequence }).axis .mast).owner = .sequence ∧
    (deployed.dsq.deploy = .deployed ∧ (deployed.axis .mast).owner ≠ .sequence ∧ deployed.wsm.gust ≠ .hold) ∧
    (inState .parked).agrees ∧ ((inState .parked).dsq.deploy = .parked ∧ (inState .parked).acq.stack = []) ∧
    stacked.acq.stack.map (·.cause) = [.switch] :=
  ⟨⟨listens_deployed, rfl, rfl, rfl⟩, by decide, by decide, by decide, ⟨rfl, rfl, rfl⟩, by decide⟩

/-- HELD above the stow height with every axis IDLE; at the stow pose, height 20 at its bound; and between. -/
theorem test_meets_ClearHoldFollowsTheState :
    let held := inState .held
    let low : State :=
      { held with
        axs :=
          { held.axs with
            mast := standing held.axs.mast 20, pan := standing held.axs.pan 0, tilt := standing held.axs.tilt (-100) } }
    (held.listens ∧ held.agrees ∧ low.agrees ∧ panHalted.agrees) ∧
    ((panHalted.axis .pan).motion = .halted ∧ (panHalted.axis .pan).releaseReady = true ∧ panHalted.dsq.deploy ≠ .held ∧
      (allAxes.all fun b => b = .pan || (panHalted.axis b).motion ≠ .halted) = true) ∧
    ((allAxes.all fun a => (held.axis a).motion = .idle) = true ∧
      ((held.axis .mast).position.any fun p => held.dsq.stowHeight < p) = true) ∧
    ((pins .held false false).dsq.parkIn = false ∧ (pins .held true true).dsq.stowIn = true ∧
      (pins .held true false).dsq.parkIn = true ∧ held.wsm.gust ≠ .hold) ∧
    (((low.axis .mast).position.any fun p => low.dsq.stowHeight < p) = false ∧ stowTest low = true) ∧
    stowTest (low.setAxis .pan (standing low.axs.pan 2)) = false :=
  ⟨⟨⟨rfl, by decide⟩, ⟨rfl, rfl, by decide⟩, ⟨rfl, rfl, by decide⟩, rfl, rfl, by decide⟩, by decide⟩

/-! ### Acquisition -/

/-- An arc across the seam holds 3400, 3599, 0 and 200, not 201 and 3399; a box that touches the wall meets it (R28). -/
theorem test_meets_ZonesHoldPosesAndMeetBoxes :
    let z : Zone := { wall with arcFrom := 3400, arcTo := 200 }
    [3400, 3599, 0, 200, 201, 3399].map (fun p => zoneHolds z ⟨p, 0, 0⟩) = [true, true, true, true, false, false] ∧
    zoneHolds { z with valid := false } ⟨0, 0, 0⟩ = false ∧
    [(1800, 1900), (2000, 2100), (1800, 1899)].map (fun i => zoneMeets wall ⟨i, (0, 0), (0, 0)⟩) = [true, true, false] ∧
    wall.tiltLow ≤ wall.tiltHigh ∧ wall.heightLow ≤ wall.heightHigh := by decide

/-- One state for each check of Table 8-4, the earlier ones passed. -/
theorem test_meets_AcquireIsRefusedByTheFirstFailingCheck :
    let s := siteIn .loaded
    s.listens ∧ (s.sites[0]?).isSome ∧ (8 ≤ 8 ∧ 7 < 8) ∧ acquireRefusal s 8 = some .range ∧
    acquireRefusal (inState .held) 0 = some .state ∧
    acquireRefusal (searching (ctxIn .slew) .acquiring) 0 = some .busy ∧ acquireRefusal deployed 0 = some .empty ∧
    acquireRefusal { s with wsm := { s.wsm with gust := .hold } } 0 = some .wind ∧
    acquireRefusal (s.setAxis .pan { s.axs.pan with owner := .console, motion := .moving }) 0 = some .owner ∧
    acquireRefusal s 0 = none ∧
    (slewChecks (s.setAxis .mast { s.axs.mast with position := none }) 0).1 = some .state ∧
    (slewChecks (s.setAxis .pan { s.axs.pan with softMin := 1 }) 0).1 = some .range ∧
    (slewChecks { s with zones := s.zones.set 0 { wall with arcFrom := 0 } } 0).1 = some .zone :=
  ⟨⟨rfl, by decide⟩, by decide⟩

theorem test_meets_AcquireStartsASlew :
    (let s := siteIn .loaded
     let e : Entry := { Entry.powerOn with state := .loaded }
     s.listens ∧ s.sites[0]? = some e ∧ acquireRefusal s 0 = none ∧ (slewChecks s 0).1 = none ∧ s.acq.ctx = none ∧
      s.slewFree ∧ s.slewAllowed (slewPose e).1 (slewPose e).2) ∧
    ((stacked.acq.stack.any fun x => x.row = 0) = true ∧ stacked.sites[0]?.map (·.state) = some .suspended) ∧
    (let s := searching (ctxIn .slew) .acquiring
     let t := { s with sites := s.sites.set 1 { Entry.powerOn with state := .lost } }
     acquireRefusal t 1 = none ∧ (slewChecks t 1).1 = none ∧ t.acq.ctx = some (ctxIn .slew) ∧
      t.sites[0]?.map (·.state) = some .acquiring) := by
  refine ⟨⟨⟨rfl, by decide⟩, by decide, by decide, by decide, rfl, ?_, ?_⟩, by decide, by decide⟩
  · intro a h; cases a <;> first | exact absurd rfl h | exact ⟨rfl, Or.inl rfl, rfl, rfl⟩
  · unfold State.slewAllowed; decide

theorem test_meets_DropResumeRemovesTheTopEntry :
    deployed.acq.stack = [] ∧ stacked.acq.stack = ⟨0, .switch, .azSweep, none, none, none, false⟩ :: [] ∧ stacked.lnu.rst = false ∧
    stacked.sites[0]?.map (·.state) = some .suspended := by decide

theorem test_meets_ResumeAndRelease :
    (deployed.listens ∧ deployed.acq.stack = []) ∧
    (let s := stacked
     let e : StackEntry := ⟨0, .switch, .azSweep, none, none, none, false⟩
     s.listens ∧ s.acq.stack = e :: [] ∧ s.dsq.deploy = .deployed ∧ s.wsm.gust ≠ .hold ∧ s.acq.ctx = none ∧
      s.sites[0]? = some { Entry.powerOn with state := .suspended } ∧ resumePose s e e.phase = (0, 0) ∧ s.slewFree ∧
      s.slewAllowed 0 0) ∧
    (inState .held).dsq.deploy ≠ .deployed ∧
    (let s := { stacked with acq := { stacked.acq with ctx := some { ctxIn .slew with row := 1 } } }
     s.fits ∧ s.acq.ctx = some { ctxIn .slew with row := 1 }) := by
  refine ⟨⟨listens_deployed, rfl⟩, ⟨⟨rfl, by decide⟩, rfl, rfl, by decide, rfl, by decide, by decide, ?_, ?_⟩, by decide, ?_, rfl⟩
  · intro a h; cases a <;> first | exact absurd rfl h | exact ⟨rfl, Or.inl rfl, rfl, rfl⟩
  · unfold State.slewAllowed; decide
  · unfold State.fits; decide

/-- A sweep of 60 about 1800 that starts at 1740; one cut to nothing by zones at both sides; a track and a search with the
link wait timer running; a sweep with the gap timer running at 2 and at 3 restarts. -/
theorem test_meets_AcquisitionTimersRunOut :
    (let s := searching { ctxIn .settle with settleTimer := some 2000 } .acquiring
     s.running ∧ (s.axis .pan).working = some 1800 ∧ (s.axis .pan).position = some 1800 ∧ (s.axis .pan).owner = .search ∧
      (s.axis .pan).motion = .idle ∧ s.chan .pan = .full ∧ (s.sites[0]?).map (·.set.searchAz) = some 60 ∧
      extentQuery s .pan 1800 .down = none ∧ extentQuery s .pan 1800 .up = none ∧ inFull .pan 1740 = true ∧
      0 < capped (s.axis .pan).rateLimit (rateCap s.wsm .pan) ∧ (moveCheck s .pan 1740).1 = false ∧
      (∃ c, s.acq.ctx = some c ∧ c.phase = .settle ∧ c.afterSettle = .azSweep ∧ c.settleTimer.isSome) ∧
      (let t := { s.setAxis .pan { s.axis .pan with tolerance := 2 } with
          zones := (s.zones.set 0 { wall with arcFrom := 1801 }).set 1 { wall with arcFrom := 0, arcTo := 1799 } }
       extentQuery t .pan 1800 .down = some 1799 ∧ extentQuery t .pan 1800 .up = some 1801 ∧
        min (min (1800 + 60) (t.axis .pan).softMax) (1801 - 2) < max (max (1800 - 60) (t.axis .pan).softMin) (1799 + 2))) ∧
    ((ctxIn .azSweep).linkWait.isSome ∧ (ctxIn .azSweep).phase.tracks = false ∧ (ctxIn .track).phase.tracks = true ∧
      (searching (ctxIn .track) .tracked).sites[0]?.map (fun e => (e.state, e.set.autoReacquire)) = some (.tracked, false)) ∧
    (let c := { ctxIn .azSweep with gapTimer := some 200, gapRestarts := 2 }
     c.gapTimer.isSome ∧ c.gapRestarts < 3 ∧ ((searching c .acquiring).axis (phaseAxis c.phase)).motion = .idle ∧
      3 ≤ ({ c with gapRestarts := 3 } : Ctx).gapRestarts) :=
  ⟨⟨rfl, by decide, by decide, by decide, by decide, by decide, by decide, by decide, by decide, by decide, by decide,
    by decide, ⟨_, rfl, rfl, rfl, rfl⟩, by decide⟩, by decide⟩

/-! ### Witnesses for the clauses on running contexts, walks, the wind and the owners -/

/-- One slot: slot 2 sets LIFT and LOCK FULL on the way out; slot 1 turns the dish's channels to LOW and slot 3 moves the tilt
in on the way back. -/
def slotted : List Slot :=
  ((State.reset.dsq.slots.set 2 ⟨⟨.channel, .lift, .full⟩, ⟨.none, .lift, .off⟩⟩).set 1
    ⟨⟨.none, .lift, .off⟩, ⟨.channel, .dish, .low⟩⟩).set 3 ⟨⟨.tiltOut, .lift, .off⟩, ⟨.tiltIn, .lift, .off⟩⟩

/-- A walk under way with a slot in progress, every axis taken for SEQUENCE, TILT moving to its stow tilt. -/
def walking (d : Deploy) (slot : Nat) : State :=
  let s := inState d
  { s with
    axs :=
      { s.axs with
        mast := { s.axs.mast with owner := .sequence }, pan := { s.axs.pan with owner := .sequence }
        tilt := { s.axs.tilt with owner := .sequence, motion := .moving, working := some (-100), arrivalTimer := some 30 }
        pol := { s.axs.pol with owner := .sequence } }
    dsq := { s.dsq with slots := slotted, slot := some slot, slotTimer := some 1000 } }

/-- A context of row 0 runs while PAN moves to 1900 for it. -/
def sweeping (c : Ctx) (e : EntryState) : State :=
  let s := searching { c with stepAxis := some .pan } e
  s.setAxis .pan { s.axs.pan with motion := .moving, working := some 1900, arrivalTimer := some 60 }

/-- The part DEPLOYED in HOLD, the newest wind speeds given, derate row 0 capping the mast at 400 cm. -/
def holding (speeds : List Nat) : State :=
  { deployed with
    wsm :=
      { deployed.wsm with
        gust := .hold, memory := speeds
        derate := deployed.wsm.derate.set 0 { valid := true, floor := 0, heightCap := 400, panCap := 300, tiltCap := 300 } }
    txc := { deployed.txc with gust := .hold } }

/-- From RAISING the walk turns back at slot 3 in progress, or at 2 to slot 1; from DEPLOYED it starts at slot 3, the last. -/
theorem test_meets_StowRequests_walks :
    let kinds := slotted.map fun sl => (sl.deploy.kind, sl.stow.kind)
    (walking .raising 2).listens ∧ (walking .raising 2).dsq.slot = some 2 ∧
    kinds = [(.none, .none), (.none, .channel), (.channel, .none), (.tiltOut, .tiltIn), (.none, .none), (.none, .none),
      (.none, .none), (.none, .none)] ∧
    (let s := { inState .held with dsq := { (inState .held).dsq with slots := slotted.take 3 } }
     s.listens ∧ s.dsq.deploy = .held ∧ (s.dsq.slots[2]?).map (·.deploy.kind) = some .channel ∧ s.dsq.slots[3]? = none) :=
  ⟨⟨rfl, by decide⟩, by decide, by decide, ⟨rfl, by decide⟩, by decide⟩

theorem test_meets_ConsoleStop_owners :
    (let s := sweeping (ctxIn .azSweep) .acquiring
     s.listens ∧ (s.axis .pan).owner = .search ∧ s.acq.ctx.isSome ∧ (s.axis .pan).motion = .moving ∧
      (s.axis .tilt).motion = .idle) ∧
    (let s := walking .lowering 3
     s.listens ∧ (s.axis .tilt).owner = .sequence ∧ (s.axis .tilt).motion = .moving ∧ (s.axis .pan).motion = .idle ∧
      s.dsq.deploy ≠ .held) ∧
    (let s := withAxis .mast fun r => { r with owner := .wind, motion := .moving, working := some 400, arrivalTimer := some 90 }
     s.listens ∧ s.roomy ∧ (s.axis .mast).owner = .wind ∧ (s.axis .mast).motion = .moving) :=
  ⟨⟨⟨rfl, by decide⟩, by decide⟩, ⟨⟨rfl, by decide⟩, by decide⟩, ⟨rfl, by decide⟩, ⟨rfl, by decide⟩, by decide⟩

theorem test_meets_ConsoleMotionOutsideDeployed_wakes :
    let s := { stacked with dsq := { stacked.dsq with deploy := .parked } }
    s.listens ∧ s.dsq.deploy = .parked ∧ s.wsm.gust ≠ .hold ∧ s.acq.stack.map (·.cause) = [.switch] := ⟨⟨rfl, by decide⟩, by decide⟩

/-- An override refused at step 3 (the channel of PAN LOW), and one that is sent, at the soft maximum. -/
theorem test_meets_ConsoleMotionOnAnotherOwnersAxis_override :
    let s := sweeping (ctxIn .azSweep) .acquiring
    let r := s.axis .pan
    s.listens ∧ s.dsq.deploy = .deployed ∧ s.jog .pan = none ∧ r.owner = .search ∧ s.acq.ctx.isSome ∧
    channelsFull { s with axs := { s.axs with channels := ⟨.full, .full, .low, .full, .full⟩ } } .pan = false ∧
    channelsFull s .pan = true ∧ r.position.isSome ∧ r.motion = .moving ∧ r.softMin ≤ (3599 : Int) ∧ (3599 : Int) ≤ r.softMax ∧
    inFull .pan 3599 = true ∧ 0 < capped 1 (rateCap s.wsm .pan) ∧ (s.zones.all fun z => !z.valid) = true :=
  ⟨⟨rfl, by decide⟩, by decide⟩

/-- The last first report, TILT's: at the stow pose, off it, with PAN HALTED; the two lines before the judgement. -/
theorem test_meets_PositionReports_firstReports :
    let first : Bool → Bool → Int → State := fun park stow pan =>
      let s := pins .unknown park stow
      { s with
        axs := { s.axs with mast := standing s.axs.mast 20, pan := standing s.axs.pan pan }
        dsq := { s.dsq with mastReported := true, panReported := true } }
    let seen : State → State := fun s => s.setAxis .tilt { s.axis .tilt with position := some (-100) }
    ((first true false 0).running ∧ (first true false 0).dsq.deploy = .unknown ∧ (first true false 0).txc.deploy = .unknown ∧
      ((first true false 0).axis .tilt).motion = .idle ∧ ((first true false 0).axis .tilt).stopping = false) ∧
    stowTest (seen (first true false 0)) = true ∧ stowTest (seen (first true false 1)) = true ∧
    stowTest (seen (first true false 2)) = false ∧
    ((first true true 2).dsq.stowIn = true ∧ (first false false 2).dsq.parkIn = false ∧ (first true false 2).dsq.parkIn = true) ∧
    (pins .unknown true false).dsq.panReported = false :=
  ⟨⟨rfl, by decide⟩, by decide⟩

theorem test_meets_AxisEvents_owners :
    (let s := sweeping (ctxIn .azSweep) .acquiring
     s.running ∧ s.txc.ordered ∧ (s.axis .pan).owner = .search ∧ (s.axis .pan).motion ≠ .halted ∧
      (s.axis .pan).arrivalTimer.isSome ∧ (s.axis .pan).travelling ∧ (s.axis .pan).silenceWatch.isSome ∧
      s.sites[0]?.map (·.state) = some .acquiring) ∧
    (let s := walking .lowering 3
     s.txc.ordered ∧ (s.axis .tilt).owner = .sequence ∧ (s.axis .tilt).travelling ∧ s.dsq.deploy = .lowering) ∧
    (panHalted.txc.axisHalted = true ∧ panHalted.dsq.deploy ≠ .unknown ∧ inFull .pan 3599 = true) :=
  ⟨⟨rfl, ⟨by decide, by decide⟩, by decide⟩, ⟨⟨by decide, by decide⟩, by decide⟩, by decide⟩

/-- The third speed at 110 gives WARN, at 200 HOLD; the sixtieth below 110 leaves HOLD; with a GUST entry on the stack or not. -/
theorem test_meets_WindReports_changes :
    (let s := { deployed with wsm := { deployed.wsm with warnRun := 2, holdRun := 2 } }
     s.running ∧ s.agrees ∧ s.roomy ∧ s.txc.ordered ∧ s.wsm.warnThreshold ≤ 110 ∧ (199 : Int) < s.wsm.holdThreshold ∧
      s.wsm.holdThreshold ≤ 200) ∧
    ({ deployed.wsm with memory := [200, 110, 0] } : Wsm).gustValue = some 200 ∧
    (let e : StackEntry := ⟨0, .gust, .azSweep, none, none, none, false⟩
     let s : State :=
      { stacked with
        wsm := { stacked.wsm with gust := .hold, calmRun := 59 }, txc := { stacked.txc with gust := .hold }
        acq := { stacked.acq with stack := [e] } }
     s.agrees ∧ s.roomy ∧ s.wsm.gust = .hold ∧ s.wsm.calmRun + 1 = 60 ∧ s.acq.stack = [e] ∧ s.dsq.deploy = .deployed ∧
      s.acq.ctx = none ∧ s.sites[0]?.map (·.state) = some .suspended ∧ resumePose s e e.phase = (0, 0) ∧ s.slewFree ∧
      s.slewAllowed 0 0 ∧ (inState .held).dsq.deploy ≠ .deployed) ∧
    (stacked.acq.stack.map (·.cause) = [.switch] ∧ deployed.acq.stack = []) := by
  refine ⟨⟨rfl, ⟨rfl, rfl, rfl⟩, ⟨rfl, by decide⟩, ⟨rfl, rfl⟩, by decide⟩, by decide,
    ⟨⟨rfl, rfl, rfl⟩, ⟨rfl, by decide⟩, rfl, rfl, rfl, rfl, rfl, by decide, by decide, ?_, ?_, by decide⟩, by decide⟩
  · intro a h; cases a <;> first | exact absurd rfl h | exact ⟨rfl, Or.inl rfl, rfl, rfl⟩
  · unfold State.slewAllowed; decide

/-- A gust value of 250 calls for the stow, 249 does not; the cap of 400 is below the mast and not below the minimum height. -/
theorem test_meets_windHolds :
    ((holding [250]).wsm.gustValue = some 250 ∧ (holding [249]).wsm.gustValue = some 249 ∧ (holding []).wsm.stowWind = 250) ∧
    ((holding [249]).wsm.caps.map (·.heightCap) = some 400 ∧ (holding [249]).dsq.minHeight ≤ 400 ∧
      ((holding [249]).axis .mast).owner ≠ .sequence ∧ ((holding [249]).axis .mast).position = some 500 ∧
      inFull .mast 400 = true) ∧
    ((holding [249]).mastFree ∧ ¬ ((holding [249]).setAxis .mast { deployed.axs.mast with motion := .off }).mastFree) ∧
    (let s := (holding [249]).setAxis .mast { deployed.axs.mast with owner := .wind, motion := .moving, working := some 400 }
     (s.axis .mast).owner = .wind ∧ (s.axis .mast).motion = .moving ∧ (s.axis .mast).selected = some 400) ∧
    ((holding [249]).listens ∧ (holding [249]).agrees ∧ (holding [249]).wsm.gust = .hold ∧
      ((holding [249]).wsm.derate[7]?).isSome) ∧
    (inState .parked).dsq.deploy ≠ .deployed :=
  ⟨by decide, by decide, ⟨⟨by decide, by decide, by decide, by decide, by decide⟩, fun h => h.2.1 rfl⟩, by decide,
    ⟨⟨rfl, by decide⟩, ⟨rfl, rfl, by decide⟩, by decide⟩, by decide⟩

/-- A context of row 0, whose site code is 9, runs with the link up, or with the choice sent. -/
theorem test_meets_pages_with_a_context :
    let c := ctxIn .azSweep
    let coded : Nat → State := fun code =>
      let s := searching c .acquiring
      { s with
        sha := { linkedUp.sha with linkReady := true }
        sites := s.sites.modify 0 fun e => { e with set := { e.set with siteCode := code } } }
    let s := coded 9
    (s.running ∧ s.roomy ∧ s.sha.state = .up ∧ s.acq.ctx = some c ∧ s.sha.agreed = some b1h) ∧
    (resolve s ⟨1, 1, 1, true⟩ = some b1h ∧ resolve s ⟨2, 1, 1, true⟩ = some ⟨.b2, .h, .p100⟩ ∧
      resolve s ⟨0, 1, 1, true⟩ = none) ∧
    (s.sha.identity = some 9 ∧ s.sites[0]?.map (·.set.siteCode) = some 9 ∧ s.sha.linkReady = true) ∧
    ((coded 0).sites[0]?.map (·.set.siteCode) = some 0) ∧
    (let t := { s with sha := { s.sha with identity := some 8, linkReady := false } }
     t.sha.identity ≠ some 9 ∧ t.sha.linkReady = false ∧ t.sha.window = []) ∧
    (let t := { s with sha := { offered.sha with identity := some 8 } }
     t.sha.state = .chosen ∧ t.sha.sent = some (b1h, true) ∧ t.sha.identity ≠ some 9) ∧
    (deployed.sha.state = .silent ∧ deployed.sha.quietTimer = none) :=
  ⟨⟨rfl, ⟨rfl, by decide⟩, by decide⟩, by decide⟩

/-- What a told report meets: a begin edge at -700, none at -701, an end edge, the lost run at its count, the re-trim count. -/
theorem test_meets_usesReport :
    let w : Int → List WinRec := fun level => [⟨1, level, some 1800, some 100⟩]
    ((Entry.powerOn.set.edgeLevel, Entry.powerOn.set.lostLevel, Entry.powerOn.set.lostCount, Entry.powerOn.set.avgLength) =
      (-700, -900, 5, 4) ∧ meanLevel (w (-700)) 4 = some (-700) ∧ meanLevel (w (-901)) 4 = some (-901)) ∧
    (let c := { ctxIn .azSweep with step := some .sweeping, partialBegin := some 1790 }
     c.phase ≠ .track ∧ c.step = some .sweeping ∧ c.rest = none ∧ ((sweeping c .acquiring).axis (phaseAxis c.phase)).motion = .moving) ∧
    (let c := { ctxIn .track with lostRun := 4, reportCount := 9, retrimInUse := 10 }
     c.phase = .track ∧ 5 ≤ c.lostRun + 1 ∧ c.retrimInUse ≤ c.reportCount + 1 ∧ c.reportCount < 255 ∧
      (searching c .tracked).sites[0]?.map (·.state) = some .tracked) := by decide

/-- Every row and field of the Sequence Table; values at and past the ends. -/
theorem test_meets_WritesOfTheSettingsTable_slots :
    (walking .raising 2).listens ∧ ((walking .raising 2).dsq.deploy = .raising ∧ (walking .lowering 2).dsq.deploy = .lowering) ∧
    ((deployed.dsq.slots[7]?).isSome ∧ deployed.dsq.slots[8]? = none) ∧
    (within 0 6 (6 : Int) () = some () ∧ within 0 6 (7 : Int) () = none ∧ within 0 5 (6 : Int) () = none ∧
      within 0 2 (3 : Int) () = none) :=
  ⟨⟨rfl, by decide⟩, by decide⟩

/-- PAN moving to 1900 for the console, for SEARCH and for SEQUENCE, against a zone ahead and one that holds the pose. -/
theorem test_meets_WritesOfZones_recheck :
    (zoneMeets wall (sweptBox panMoving .pan 1900) = true ∧
      zoneMeets { wall with arcFrom := 1901 } (sweptBox panMoving .pan 1900) = false) ∧
    (let z := { wall with arcFrom := 1800 }
     (presentPose panMoving).map (zoneHolds z) = some true ∧
      (presentPose panMoving).map (fun p => zoneHolds z (endPose panMoving .pan 1900 p)) = some true) ∧
    ((panMoving.axis .pan).travelling = true ∧ (panMoving.axis .pan).owner = .console ∧ (panMoving.axis .pan).presentTarget = some 1900) ∧
    (let c := { ctxIn .azSweep with stepAxis := some .pan, step := some .sweeping, partialBegin := some 1790 }
     ((sweeping c .acquiring).axis .pan).owner = .search ∧ (sweeping c .acquiring).acq.ctx = some c ∧
      ({ c with partialBegin := none } : Ctx).partialBegin = none) ∧
    (((walking .raising 2).axis .tilt).travelling = true ∧ ((walking .raising 2).axis .tilt).owner = .sequence) := by decide

/-- The slot timer and the arrival of TILT in both walks; the next slot, and the end of the walk. -/
theorem test_meets_Walks_go_on :
    (walking .raising 2).running ∧ (walking .lowering 3).dsq.slotTimer.isSome ∧
    (let s := walking .lowering 3
     s.dsq.deploy = .lowering ∧ s.dsq.slot = some 3 ∧ s.dsq.motionOf .tiltIn = some (.tilt, some (-100)) ∧
      (s.axis .tilt).owner = .sequence ∧ (s.axis .tilt).motion = .moving ∧ (s.axis .tilt).selected = some (-100) ∧
      inFull .tilt (-100) = true ∧ ((-100 : Int) - (-100)).natAbs ≤ (s.axis .tilt).tolerance ∧
      (s.txc.txen != s.txc.pending) = s.txc.condition ∧ (s.txc.txen && s.txc.pending) = false) ∧
    ((walking .raising 3).dsq.motionOf .tiltOut = some (.tilt, some 0) ∧ (walking .raising 3).dsq.motionOf .mastUp = some (.mast, none)) ∧
    ((slotted.drop 4).all fun sl => sl.deploy.kind = .none) = true ∧ ((slotted.take 1).all fun sl => sl.stow.kind = .none) = true := by
  refine ⟨rfl, ?_⟩
  decide

/-- The part DEPLOYED on air by the latch. -/
def onAir : State := { deployed with txc := { deployed.txc with latch := true, txen := true } }

/-- One state for each refusal of a re-height, and its arrival, on air too. -/
theorem test_meets_DeployInDeployed_refusals :
    (299 < deployed.dsq.minHeight ∧ (holding [249]).wsm.gust = .hold) ∧
    ((withAxis .mast fun r => { r with owner := .wind }).axis .mast).owner = .wind ∧
    ((withAxis .mast fun r => { r with motion := .off }).axis .mast).motion = .off ∧
    ((withAxis .mast fun r => { r with motion := .moving, owner := .console }).axis .mast).motion ≠ .idle ∧
    ((withAxis .mast fun r => { r with softMin := 400 }).axis .mast).softMin = 400 ∧
    (walled.setAxis .pan (standing walled.axs.pan 1950)).zones.any
      (fun z => moveBlocker (walled.setAxis .pan (standing walled.axs.pan 1950)) .mast 800 z) = true ∧
    (let s := withAxis .mast fun r => { r with owner := .sequence, motion := .moving, working := some 800, arrivalTimer := some 90 }
     (s.axis .mast).selected = some 800 ∧ ((802 : Int) - 800).natAbs ≤ (s.axis .mast).tolerance ∧ inFull .mast 802 = true ∧
      ({ s.dsq with deployHeight := some 800 } : Dsq).deployHeight = some 800 ∧
      (onAir.txc.txen = true ∧ (onAir.txc.txen != onAir.txc.pending) = onAir.txc.condition)) := by decide

/-- An entry that a push of AZ_SWEEP formed, and one of EL_SWEEP. -/
theorem test_meets_ResumeAndRelease_poses :
    let az : StackEntry := ⟨0, .gust, .azSweep, none, some 1800, some 100, false⟩
    let el : StackEntry := ⟨0, .gust, .elSweep, some 1810, none, some 100, false⟩
    resumePose stacked az .azSweep = (1800, 100) ∧ resumePose stacked el .elSweep = (1810, 100) ∧
    resumePose stacked az .slew = (0, 0) ∧ (stacked.sites[0]?).isSome := by decide

/-- The arrivals of a search: each step axis and step, the target 1900 reached within tolerance; and the rests. -/
theorem test_meets_AcquisitionTimers_arrivals :
    let s := sweeping (ctxIn .slew) .acquiring
    (s.running ∧ inFull .pan 1901 = true ∧ s.dsq.deploy ≠ .unknown ∧ s.txc.ordered ∧
      (s.axis .pan).owner = .search ∧ (s.axis .pan).motion = .moving ∧ (s.axis .pan).selected = some 1900 ∧
      ((1901 : Int) - 1900).natAbs ≤ (s.axis .pan).tolerance) ∧
    (∃ c, s.acq.ctx = some c ∧ c.stepAxis = some .pan ∧ c.step = none ∧ c.phase = .slew ∧ c.tiltFirst = false) ∧
    (let c := { ctxIn .azSweep with stepAxis := some .pan, step := some .toStart, linkIsReady := true }
     (sweeping c .acquiring).acq.ctx = some c ∧ c.linkIsReady = true ∧
      ({ c with step := some .sweeping, partialBegin := some 1790 } : Ctx).partialBegin ≠ none ∧
      ({ c with step := some .centring } : Ctx).phase ∈ [Phase.azSweep, .elSweep, .retrimAz, .retrimEl]) ∧
    (let c := { ctxIn .azSweep with step := some .sweeping, rest := some .edgeHere, partialBegin := some 1790 }
     let t := (searching c .acquiring).setAxis .pan
       { (searching c .acquiring).axs.pan with stopping := true, stopMoved := true }
     (t.axis .pan).motion = .idle ∧ (t.axis .pan).stopping = true ∧ t.acq.ctx = some c ∧ phaseAxis c.phase = .pan) :=
  ⟨⟨rfl, by decide, by decide, ⟨by decide, by decide⟩, by decide⟩, ⟨_, rfl, rfl, rfl, rfl, rfl⟩, by decide, by decide⟩

/-- A re-trim of a track on air, its arrival at the sweep start with the link READY. -/
theorem test_meets_AcquisitionTimers_onAir :
    let c := { ctxIn .retrimAz with step := some .toStart, linkIsReady := true, stepAxis := some .pan }
    let s := { sweeping c .tracked with txc := { deployed.txc with tracked := true, txen := true } }
    s.running ∧ s.acq.ctx = some c ∧ s.sites[c.row]?.map (·.state) = some .tracked ∧ s.txc.ordered ∧ s.txc.txen = true ∧
      (s.axis .pan).owner = .search ∧ (s.axis .pan).motion = .moving ∧ (s.axis .pan).selected = some 1900 :=
  ⟨rfl, rfl, rfl, ⟨by decide, by decide⟩, by decide⟩

/-! ### Witnesses for the refusals of a console motion, the walks, and the park -/

/-- A console motion refused at each step: the channel LOW; 3600 past the soft range and 1501 past the maximum height; 401 past
a cap of 400; 1900 in the wall, from IDLE and from a jog whose run the frame closes. -/
theorem test_meets_turnsAway :
    let low : State := { deployed with axs := { deployed.axs with channels := ⟨.full, .full, .low, .full, .full⟩ } }
    let jogs := { panJogging with zones := walled.zones }
    (deployed.listens ∧ deployed.dsq.deploy = .deployed ∧ (deployed.axis .pan).owner = .none) ∧
    (channelsFull low .pan = false ∧ channelsFull deployed .pan = true) ∧
    ((deployed.axis .pan).softMax < 3600 ∧ deployed.dsq.maxHeight < 1501 ∧ (deployed.axis .pan).target .alt = none) ∧
    ((holding [249]).wsm.caps.map (·.heightCap) = some 400 ∧ (holding [249]).listens ∧ (400 : Int) < 401 ∧
      (401 : Int) ≤ (holding [249]).dsq.maxHeight ∧ channelsFull (holding [249]) .mast = true) ∧
    (walled.zones.any (moveBlocker walled .pan 1900) = true ∧ jogs.zones.any (moveBlocker jogs .pan 1900) = true) ∧
    ((jogs.jog .pan).isSome ∧ (jogs.axis .pan).motion = .jogging ∧ jogs.listens) :=
  ⟨⟨listens_deployed, by decide⟩, by decide, by decide, ⟨by decide, ⟨rfl, by decide⟩, by decide⟩, by decide,
    by decide, by decide, rfl, by decide⟩

/-- A jog up refused RANGE at the end of the soft range, WIND at the cap, ZONE short of the wall; one whose limit is below the
soft range; one out of the zone that holds it, whose limit the same zone holds. -/
theorem test_meets_ConsoleJog_refusals :
    let at_ : State → Axis → Int → State := fun s a p => s.setAxis a (standing (s.axis a) p)
    let refusal : State → Axis → Int → Option Reason := fun s a p => jogRefusal (at_ s a p) a .up p (extentQuery (at_ s a p) a p .up)
    let limit : State → Int → Int := fun s p => jogLimit s .pan .up (extentQuery s .pan p .up)
    (refusal deployed .pan 3599 = some .range ∧ refusal (holding [249]) .mast 400 = some .wind ∧
      refusal walled .pan 1899 = some .zone ∧ extentQuery (at_ walled .pan 1899) .pan 1899 .up = some 1900) ∧
    (let s := walled.setAxis .pan { walled.axs.pan with softMin := 2000 }
     jogRefusal s .pan .up 1800 (extentQuery s .pan 1800 .up) = none ∧ limit s 1800 < (s.axis .pan).softMin) ∧
    (let s := at_ { walled with zones := walled.zones.set 0 { wall with arcTo := 3599 } } .pan 1950
     jogRefusal s .pan .up 1950 (extentQuery s .pan 1950 .up) = none ∧ (s.axis .pan).softMin ≤ limit s 1950 ∧
      limit s 1950 ≤ (s.axis .pan).softMax ∧ (moveCheck s .pan (limit s 1950)).1 = true) := by decide

/-- What holds of every slot from the `n`-th on holds of a later one. -/
theorem drop_of_all {p : Slot → Bool} {l : List Slot} {n k : Nat} {x : Slot} (h : (l.drop n).all p = true) (hk : n ≤ k)
    (hx : l[k]? = some x) : p x = true := by
  rw [← Nat.add_sub_cancel' hk, ← List.getElem?_drop] at hx
  exact List.all_eq_true.mp h x (List.mem_of_getElem? hx)

/-- The slots that the backward walk passes: four from DEPLOYED, with the stow tilt first; three and none from RAISING. The row
of the running context and a SUSPENDED one; an axis that travels. -/
theorem test_meets_StowRequests_rows :
    ({ sweeping (ctxIn .azSweep) .acquiring with dsq := { deployed.dsq with slots := slotted } } : State).walksBackFrom 4 ∧
    (walking .raising 2).walksBackFrom 3 ∧
    ({ walking .raising 2 with dsq := { (walking .raising 2).dsq with slot := none } } : State).walksBackFrom 0 ∧
    (slotted[3]?).map (·.stow.kind) = some .tiltIn ∧ (slotted[2]?).map (·.stow.kind) = some .none ∧
    ((sweeping (ctxIn .azSweep) .acquiring).rowState 0 = some .acquiring ∧ stacked.rowState 0 = some .suspended) ∧
    (((sweeping (ctxIn .azSweep) .acquiring).axis .pan).travelling = true ∧ (panJogging.axis .pan).motion = .jogging) :=
  ⟨⟨nofun, fun _ => ⟨fun _ _ hk h => of_decide_eq_true
      (drop_of_all (p := fun sl => decide (sl.deploy.kind = .none)) (l := slotted) (n := 4) (by decide) hk h), fun _ => ⟨_, rfl, by decide⟩⟩⟩, ⟨fun _ => rfl, fun h => absurd rfl h⟩,
    ⟨fun _ => rfl, fun h => absurd rfl h⟩, by decide⟩

/-- A DEPLOY whose first action is a motion action: slot 3 is the first whose deploy action is not NONE. -/
theorem test_meets_DeployRuns_motionFirst :
    let slots := slotted.set 2 ⟨⟨.none, .lift, .off⟩, ⟨.none, .lift, .off⟩⟩
    let s := { ready with dsq := { ready.dsq with slots := slots } }
    s.listens ∧ deployRefusal s 300 = none ∧ (s.zones.all fun z => !zoneMeets z (deployBox s 300)) = true ∧
      (slots.take 4).map (·.deploy.kind) = [.none, .none, .none, .tiltOut] :=
  ⟨⟨rfl, by decide⟩, by decide⟩

/-- Reports on air: the arrival of a wind lowering, and one of PAN in UNKNOWN where TXC has not the enable condition. -/
theorem test_meets_PositionReports_onAir :
    (onAir.running ∧ onAir.txc.ordered ∧ onAir.txc.txen = true ∧ onAir.dsq.deploy ≠ .unknown ∧ onAir.roomy) ∧
    (let s := onAir.setAxis .mast
       { onAir.axs.mast with owner := .wind, motion := .moving, working := some 400, arrivalTimer := some 90 }
     (s.axis .mast).owner = .wind ∧ (s.axis .mast).motion = .moving ∧ (s.axis .mast).selected = some 400 ∧
      ((402 : Int) - 400).natAbs ≤ (s.axis .mast).tolerance) ∧
    ((pins .unknown true false).txc.ordered ∧ (pins .unknown true false).txc.deploy = .unknown) :=
  ⟨⟨rfl, ⟨by decide, by decide⟩, by decide, by decide, rfl, by decide⟩, by decide, ⟨by decide, by decide⟩, rfl⟩

/-- Faulted reports: of an axis of SEARCH, of one of WIND, and of one in UNKNOWN, not HALTED and HALTED. -/
theorem test_meets_AxisEvents_faults :
    (let s := sweeping (ctxIn .azSweep) .acquiring
     s.running ∧ s.txc.ordered ∧ (s.axis .pan).owner = .search ∧ (s.axis .pan).motion ≠ .halted ∧ s.dsq.deploy ≠ .unknown) ∧
    ((withAxis .mast fun r => { r with owner := .wind }).axis .mast).owner = .wind ∧
    (let s := pins .unknown true false
     s.running ∧ s.txc.ordered ∧ (s.axis .pan).motion ≠ .halted ∧ s.dsq.deploy = .unknown ∧ s.txc.deploy = .unknown) ∧
    (let s := { panHalted with dsq := { panHalted.dsq with deploy := .unknown } }
     (s.axis .pan).motion = .halted ∧ s.txc.axisHalted = true ∧ s.dsq.deploy = .unknown) :=
  ⟨⟨rfl, ⟨by decide, by decide⟩, by decide⟩, rfl, ⟨rfl, ⟨by decide, by decide⟩, by decide⟩, by decide⟩

/-- A PARK while PAN moves for a running context, and while it jogs for the console, its channel FULL. -/
theorem test_meets_ParkAndWake_travelling :
    (let s := sweeping (ctxIn .azSweep) .acquiring
     s.listens ∧ s.agrees ∧ s.dsq.deploy = .deployed ∧ (s.axis .mast).owner ≠ .sequence ∧
      s.acq.ctx = some { ctxIn .azSweep with stepAxis := some .pan } ∧ s.acq.stack.length < 3 ∧ s.rowState 0 = some .acquiring ∧ (s.axis .pan).travelling = true ∧
      channelsFull s .pan = true) ∧
    ((panJogging.axis .pan).travelling = true ∧ channelsFull panJogging .pan = true ∧ panJogging.acq.ctx = none ∧
      keptOn 1#5 .lift = true ∧ keptOn 1#5 .pan = false) :=
  ⟨⟨⟨rfl, by decide⟩, ⟨rfl, rfl, rfl⟩, by decide⟩, by decide⟩

/-- The PARK entry of row 0, saved in a search of PAN. -/
def parkEntry : StackEntry := ⟨0, .park, .azSweep, none, none, none, false⟩

/-- Row 0, SUSPENDED, with a learned pan and tilt or none. -/
def asleepRow (learned : Option Int) : Entry :=
  { Entry.powerOn with state := .suspended, learned := { Entry.powerOn.learned with pan := learned, tilt := learned } }

/-- The part PARKED, every channel and every axis OFF, the PARK entry of row 0 on the stack. -/
def asleep (g : Gust) (wake : WakePose) (learned : Option Int) : State :=
  let s := inState .parked
  { s with
    axs :=
      { mast := { s.axs.mast with motion := .off }, pan := { s.axs.pan with motion := .off }
        tilt := { s.axs.tilt with motion := .off }, pol := { s.axs.pol with motion := .off }, channels := .allOff }
    dsq := { s.dsq with wakePose := wake }, wsm := { s.wsm with gust := g }, txc := { s.txc with gust := g }
    sites := s.sites.set 0 (asleepRow learned), acq := { s.acq with stack := [parkEntry] } }

/-- PARK in HOLD; a WAKE with the PARK entry on top, by wake pose and learned pose; in HOLD with it, and with nothing on the
stack. The wake by a console frame meets the same. -/
theorem test_meets_ParkAndWakeAreTaken_entries :
    (let s := holding [249]
     s.listens ∧ s.agrees ∧ s.dsq.deploy = .deployed ∧ (s.axis .mast).owner ≠ .sequence ∧ s.wsm.gust = .hold) ∧
    (let s := asleep .calm .return none
     s.listens ∧ s.agrees ∧ s.roomy ∧ s.dsq.deploy = .parked ∧ s.wsm.gust ≠ .hold ∧ s.acq.stack = parkEntry :: [] ∧
      parkEntry.cause = .park ∧ s.acq.ctx = none ∧ s.sites[parkEntry.row]? = some (asleepRow none) ∧
      s.awake.wakeSlew parkEntry (asleepRow none) = ((0, 0), .azSweep) ∧ s.awake.slewFree ∧ s.awake.slewAllowed 0 0 ∧
      (s.noticed .deployAwake).awake.slewFree ∧ (s.noticed .deployAwake).awake.slewAllowed 0 0) ∧
    ((asleep .calm .return (some 100)).awake.wakeSlew parkEntry (asleepRow (some 100)) = ((100, 100), .track) ∧
      (asleep .calm .preset (some 100)).awake.wakeSlew parkEntry (asleepRow (some 100)) = ((0, 0), .azSweep)) ∧
    (let s := asleep .hold .return none
     s.listens ∧ s.agrees ∧ s.wsm.gust = .hold ∧ s.acq.stack = parkEntry :: [] ∧ ¬ s.awake.keepsNone ∧
      ¬ (s.noticed .deployAwake).awake.keepsNone ∧ ({ s with acq := { s.acq with stack := [] } } : State).awake.keepsNone) := by
  have still : ∀ v : State, v.acq = (asleep .hold .return none).acq → windStows v = false → ¬ v.keepsNone := by
    rintro v hv hw (h | h | h)
    · rw [hv] at h; exact h rfl
    · rw [(windStows_iff v).mpr h] at hw; cases hw
    · exact h parkEntry [] (by rw [hv]; rfl) rfl
  refine ⟨⟨⟨rfl, by decide⟩, ⟨rfl, rfl, rfl⟩, rfl, by decide, rfl⟩,
    ⟨⟨rfl, by decide⟩, ⟨rfl, rfl, rfl⟩, ⟨rfl, by decide⟩, rfl, by decide, rfl, rfl, rfl, rfl, rfl, ?_, ?_, ?_, ?_⟩, by decide,
    ⟨rfl, by decide⟩, ⟨rfl, rfl, rfl⟩, rfl, rfl, still _ rfl (by decide), still _ rfl (by decide),
    Or.inr (Or.inr fun _ _ h => nomatch h)⟩
  · intro a h; cases a <;> first | exact absurd rfl h | exact ⟨rfl, Or.inl rfl, rfl, rfl⟩
  · unfold State.slewAllowed; decide
  · intro a h; cases a <;> first | exact absurd rfl h | exact ⟨rfl, Or.inl rfl, rfl, rfl⟩
  · unfold State.slewAllowed; decide

/-- R132: of the reports 0, 100, 200, 0 the last lets the first leave the window. -/
theorem test_reportWindow_holdsNoSequenceTwice :
    let s : State := { linkedUp with sha := { linkedUp.sha with window := [200, 100, 0].map fun q => ⟨q, -700, none, none⟩ } }
    s.sha.accepts 0 = true ∧ (acceptRecord s ⟨0, -600, none, none⟩).sha.window.map (·.seq) = [0, 200, 100] := by decide

/-- R131, R135: the quiet time after a RESET request, where a link was ended and where none was. -/
theorem test_resetRequest_startsTheQuietTime :
    (resetRequest linkedUp).sha.quietTimer = some 2000 ∧ (resetRequest deployed).sha.quietTimer = none := by decide

/-! ### Transmitter, link, line, watches and the lines' bytes -/

theorem test_meets_TxOnAndTxOff :
    (deployed.listens ∧ deployed.agrees ∧ (inState .held).agrees) ∧ (inState .held).dsq.deploy ≠ .deployed ∧
    (deployed.wsm.gust ≠ .hold ∧ deployed.txc.axisHalted = false ∧ deployed.txc.latch = false ∧ deployed.txc.tracked = false) ∧
    panHalted.txc.axisHalted = true ∧ panHalted.dsq.deploy = .deployed :=
  ⟨⟨listens_deployed, ⟨rfl, rfl, rfl⟩, rfl, rfl, rfl⟩, by decide⟩

theorem test_meets_LinkTimersRunOut :
    (offered.running ∧ offered.roomy ∧ offered.listens) ∧
    ({ (linked .offering).sha with offerTimer := some 500 } : Sha).offerTimer.isSome ∧
    (offered.sha.echoTimer.isSome ∧ offered.sha.sent = some (b1h, true) ∧ offered.sha.resends < 3 ∧
      ({ offered.sha with resends := 2 } : Sha).resends < 3 ∧ 3 ≤ ({ offered.sha with resends := 3 } : Sha).resends) ∧
    (linkedUp.sha.reportWatch.isSome ∧ linkedUp.acq.ctx = none ∧ linkedUp.lnu.rst = false) ∧
    ((ctxIn .slew).linkUsed = false ∧ ({ ctxIn .azSweep with linkUsed := true } : Ctx).phase.tracks = false ∧
      (searching (ctxIn .slew) .acquiring).acq.ctx = some (ctxIn .slew)) :=
  ⟨⟨rfl, ⟨rfl, by decide⟩, rfl, by decide⟩, by decide⟩

/-- The kinds 30 and 3F hexadecimal are of Table 11-2, 2F and 40 are not. -/
theorem test_meets_TheLineUnitTakesItsCommands :
    lastPlace.listens ∧ (0x30 ≤ 0x30 ∧ 0x3F ≤ 0x3F ∧ 0x2F < 0x30 ∧ 0x3F < 0x40) ∧ deployed.lnu.queue = [] ∧
    ({ deployed.lnu with restarts := [115200] } : Lnu).restarts = [115200] ∧
    (lastPlace.lnu.queue = replyDone 0x33 :: List.replicate 62 (replyDone 0x33) ∧ lastPlace.ntu.held = []) ∧
    (List.replicate 62 (replyDone 0x33)).length = 62 ∧
    (full.lnu.queue = replyDone 0x33 :: List.replicate 63 (replyDone 0x33) ∧ 63 ≤ (List.replicate 63 (replyDone 0x33)).length) ∧
    ({ deployed.ntu with held := [.deployUp] } : Ntu).held = .deployUp :: [] :=
  ⟨⟨rfl, by decide⟩, by decide⟩

theorem test_meets_StoppedTimersDoNothing :
    let s := State.reset
    (allAxes.all fun a => (s.axis a).arrivalTimer = none ∧ (s.axis a).silenceWatch = none ∧ s.jog a = none) = true ∧
    s.dsq.slotTimer = none ∧ s.wsm.windWatch = none ∧ s.wsm.slopeWatch = none ∧ s.sha.offerTimer = none ∧
    s.sha.echoTimer = none ∧ s.sha.reportWatch = none ∧ s.sha.quietTimer = none ∧ s.acq.ctx = none ∧
    (ctxIn .settle).settleTimer = none ∧ (ctxIn .settle).gapTimer = none ∧ (ctxIn .settle).ready.linkWait = none := by decide

theorem test_meets_DeadmanAndSensorWatchesRunOut :
    panJogging.running ∧ (panJogging.jog .pan = some ⟨.up, 150⟩ ∧ (panJogging.axis .pan).motion = .jogging) ∧
    (deployed.roomy ∧ deployed.wsm.slopeWatch.isSome) ∧ ({ deployed.wsm with windWatch := some 2000 } : Wsm).windWatch.isSome :=
  ⟨rfl, by decide, ⟨⟨rfl, by decide⟩, rfl⟩, rfl⟩

/-- The invariant holds at a state with a command waiting, and the step answers. -/
theorem test_meets_EveryStepKeepsTheInvariant :
    let s := { State.reset with pending := [.stow] }
    s.inv ∧ ∃ t, step s = .next t := by
  intro s
  have empty : ∀ row x, s.rowState row = some x → x = .empty := fun row x h => by
    rw [State.rowState, show s.sites = List.replicate 8 Entry.powerOn from rfl, List.getElem?_replicate] at h
    split at h
    · exact (Option.some.inj h).symm
    · exact nomatch h
  have none_ : ∀ row x, x ≠ EntryState.empty → ¬ s.rowState row = some x := fun row x h e => h (empty row x e)
  refine ⟨⟨⟨fun a => ?_, ?_, ⟨rfl, rfl, rfl⟩, rfl, rfl⟩, fun h => Bool.noConfusion h, ⟨?_, ?_, ?_, ?_, fun c h => nomatch h⟩, ?_, ?_, ?_⟩,
    _, rfl⟩
  · cases a <;> exact ⟨rfl, rfl, by decide, by decide, rfl, by decide, by decide⟩
  · unfold State.fits; decide
  · exact fun row => ⟨fun h => absurd h (none_ row _ (by decide)), fun ⟨_, h, _⟩ => nomatch h⟩
  · exact fun row => ⟨fun h => absurd h (none_ row _ (by decide)), fun ⟨_, h, _⟩ => nomatch h⟩
  · exact fun row => ⟨fun h => absurd h (none_ row _ (by decide)), fun ⟨_, h, _⟩ => nomatch h⟩
  · exact List.Pairwise.nil
  · exact ⟨fun n a b h => (nomatch h : False).elim, List.Pairwise.nil⟩
  · unfold risingFloors; decide
  · intro a h; cases a <;> exact Bool.noConfusion h

theorem test_meets_BytesOfACommandAreThatCommand :
    (Instr.consoleMove .pol (some ⟨-900, .override, some 65535⟩)).wf = true ∧
    frameOf (.consoleMove .pol (some ⟨-900, .override, some 65535⟩)) =
      some (.upstream, ⟨4#8, 1#8, [0xFC#8, 0x7C#8, 1#8, 0xFF#8, 0xFF#8]⟩) ∧
    frameOf (.report 255 (-100) true) = some (.site, ⟨0#8, 0x54#8, [255#8, 0xFF#8, 0x9C#8, 0#8]⟩) ∧
    frameOf (.wind 600) = some (.drive, ⟨5#8, 0x11#8, [2#8, 0x58#8]⟩) ∧ frameOf .rstRelease = none := by decide

/-! ## Worked sequences -/

/-- R19, R17: PAN goes silent while it stands: it is HALTED and one STOP goes out. -/
theorem test_silence_halts :
    (match exec (.silenceWatchExpiry .pan) deployed with
      | .next t => (t.axs.pan.motion, t.axs.pan.faultCause, t.out.drive.getLast?, t.txc.axisHalted)
      | _ => (.off, .none, none, false)) = (.halted, .silence, some (.stop .pan), true) := by decide

/-- R12, R82: PARK turns the channels off and keeps the ones of the keep-on mask LOW. -/
theorem test_park_keeps_lock :
    (match exec .park { deployed with dsq := { deployed.dsq with keepOn := 2 } } with
      | .next t => (t.dsq.deploy, t.axs.channels, t.lnu.queue.getLast?)
      | _ => (.unknown, ⟨.off, .off, .off, .off, .off⟩, none)) =
      (.parked, ⟨.off, .low, .off, .off, .off⟩, some (replyDone 0x34)) := by decide

/-- R140: an ACQUIRE of a LOADED row slews PAN to its preset first, since the dish does not rise. -/
theorem test_acquire_slews :
    (match exec (.acquire 0) (siteIn .loaded) with
      | .next t => (t.sites[0]?.map (·.state), t.out.drive.getLast?)
      | _ => (none, none)) = (some .acquiring, some (.move .pan 0 100)) := by decide

/-- R57 to R59: a jog up beside the wall goes to the last position short of it. -/
theorem test_jog_stops_short :
    (match exec (.consoleJog .pan (some ⟨.up, .normal, 30⟩)) walled with
      | .next t => (t.out.drive.getLast?, t.axs.pan.motion)
      | _ => (none, .off)) = (some (.move .pan 1899 30), .jogging) := by decide

end Sys2Proof.Tests
end

section
/-! The invariant that every step keeps (R5, R7 to R11, R13, R17, R20, R22, R69, R90, R92, R104, R110, R132, R133, R162, R173,
R175, R176, R179), part by part: the records, the capacities, the pose, the Report Window, the derate floors, the fields
handed to the Transmitter Enable Control, and the rows of the Site Table. -/

namespace Sys2Proof.Machine

variable {P : State → Prop}

/-! ## Ways to the commands that several parts share -/

/-- R173: no judgement asserts TXEN. -/
theorem Txc.txen_judged {o n : Txc} (h : (o.judged n).txen = true) : n.txen = true := by
  unfold Txc.judged at h
  split at h
  · exact h
  · exact absurd h (by simp [Txc.drop])
  · exact h

theorem Txc.txen_handDeploy (t : Txc) (d : Deploy) : (t.handDeploy d).txen = t.txen := by
  unfold Txc.handDeploy; split <;> rfl

theorem Txc.txen_handTracked (t : Txc) (b : Bool) : (t.handTracked b).txen = t.txen := by
  cases b <;> rfl

/-- A property that survives every change of TXC which asserts no TXEN, every deploy state, and the records of halted and
cleared axes survives what is handed to TXC. -/
theorem closed_of_quiet (q : Quiet P)
    (txc : ∀ {s} (v : Txc), (v.txen = true → s.txc.txen = true) → P s → P (s.withTxc v))
    (deploy : ∀ {s} (d : Deploy), P s → P (s.withDsq { s.dsq with deploy := d }))
    (halt : ∀ {s} (a : Axis) (c : FaultCause), c ≠ .none → P s → P (s.setAxis a ((s.axis a).halt c)))
    (cleared : ∀ {s} (a : Axis), (s.axis a).motion = .halted → P s →
      P (s.setAxis a ((s.axis a).cleared (s.chan (moveChannel a))))) : Closed P := by
  have judged : ∀ {s} (n : Txc), (n.txen = true → s.txc.txen = true) → P s → P (txcJudged s n) :=
    fun n hn hs => txc _ (fun h => hn (Txc.txen_judged h)) hs
  have handed : ∀ {s} (d : Deploy), P s → P (setDeploy s d) := fun {s} d hs =>
    judged _ (fun h => (Txc.txen_handDeploy s.txc d).symm.trans h) (deploy d hs)
  have untracked : ∀ {s} (b : Bool), P s → P (txcTracked s b) := fun {s} b hs =>
    judged _ (fun h => (Txc.txen_handTracked s.txc b).symm.trans h) hs
  refine
    { toQuiet := q, deploy := fun d _ hs => handed d hs, halt := fun a c hc hs => ?_, clear := fun {s} hs => ?_,
      tracked := untracked, txOn := fun hs => judged _ id hs, txOff := fun hs => txc _ nofun hs, lower := fun {s} hs => ?_ }
  · exact judged _ id (q.raise _ (q.closeRun a (q.sendDrive _ (halt a c hc hs))))
  · have h1 : P (allAxes.foldl clearAxis s) := by
      refine Quiet.fold (fun {s} a hs => ?_) allAxes hs
      unfold clearAxis
      simp only []
      split
      · rename_i hm
        simp only [Bool.and_eq_true, decide_eq_true_eq] at hm
        exact cleared a hm.1 hs
      · exact hs
    exact Quiet.ite h1 (judged _ id h1)
  · have h0 : P (acqEmptyStack (acqWalkAbort s)) := by
      refine q.acqEmptyStack ?_
      unfold acqWalkAbort
      split
      · exact hs
      · exact q.endCtx (untracked false (q.raise _ (q.stbChange _ _ _ _ hs)))
    unfold beforeWalk
    generalize acqEmptyStack (acqWalkAbort s) = u at h0
    have h1 : P (txcStow u) := txc _ nofun h0
    have h2 := q.axsStopAll allAxes (q.axsTakeAll .sequence allAxes (q.shaEnd h1))
    simp only []
    generalize axsStopAll (axsTakeAll (shaEnd (txcStow u)) .sequence allAxes) allAxes = v at h2 ⊢
    exact handed .lowering (q.dsq _ rfl rfl h2)

/-- R14, R15: a position handed to TXC after its fault has been judged. -/
theorem positionHanded_of_engine (h : Engine P) (position : ∀ {s} (a : Axis), P s → P (txcPosition s a))
    (take : ∀ {s} (a : Axis) (p : Int), P s → P (takePosition s a p)) {s} (a : Axis) (p : Int) (fault : Bool) (code : Nat)
    (hs : P s) : P (txcPosition (if fault then faultedReport (takePosition s a p) a code else takePosition s a p) a) := by
  have h1 := take a p hs
  have h2 : P (if fault then faultedReport (takePosition s a p) a code else takePosition s a p) :=
    Quiet.ite (h.faultedReport a code h1) h1
  exact position a h2

/-! ## Records of the axes (R5, R7 to R11, R13, R17, R20) -/

/-- Every record is of one piece, and the channels of each axis that travels are FULL. -/
def State.recordsStand (s : State) : Prop := (∀ a, (s.axis a).wf) ∧ s.powered

theorem recordsStand_setAxis {s : State} {a : Axis} {r : AxisRec} (h : s.recordsStand) (hw : (s.axis a).wf → r.wf)
    (ht : r.travelling = true → (s.axis a).travelling = true ∨ channelsFull s a = true) : (s.setAxis a r).recordsStand := by
  obtain ⟨wf, powered⟩ := h
  have full : ∀ b, channelsFull (s.setAxis a r) b = channelsFull s b := fun b => by
    unfold channelsFull; simp only [State.chan_setAxis]
  refine ⟨fun b => ?_, fun b hb => ?_⟩
  · by_cases hba : b = a
    · subst hba; rw [State.axis_setAxis_self]; exact hw (wf b)
    · rw [State.axis_setAxis_ne _ _ hba]; exact wf b
  · rw [full]
    by_cases hba : b = a
    · subst hba
      rw [State.axis_setAxis_self] at hb
      exact (ht hb).elim (powered b) id
    · rw [State.axis_setAxis_ne _ _ hba] at hb; exact powered b hb

theorem recordsStand_of_rest {s : State} (h : ∀ a, (s.axis a).wf ∧ (s.axis a).travelling = false) : s.recordsStand :=
  ⟨fun a => (h a).1, fun a ht => absurd ht (by simp [(h a).2])⟩

theorem recordsStand_reset : State.reset.recordsStand := by
  refine recordsStand_of_rest fun a => ?_
  cases a <;> exact ⟨AxisRec.wf_powerOn _ _ _ _ _, rfl⟩

theorem quiet_recordsStand : Quiet State.recordsStand where
  drive _ hs := hs
  mgt _ hs := hs
  ntu _ hs := hs
  lnu _ _ _ _ _ _ hs := hs
  axis _ _ _ _ hr hs := recordsStand_setAxis hs hr.1 hr.2
  channels {s} c hc hs :=
    have e : ∀ a, (s.withAxs { s.axs with channels := c }).axis a = s.axis a := fun a => Axs.get_withChannels _ a _
    ⟨fun a => by rw [e]; exact hs.1 a, fun a ht => by rw [e] at ht; exact hc a ht (hs.2 a ht)⟩
  site _ hs := hs
  zones _ _ hs := hs
  dsq _ _ _ hs := hs
  sha _ _ hs := hs
  sites _ _ hs := hs
  acq _ _ hs := hs

theorem whole_recordsStand : Whole State.recordsStand :=
  have closed : Closed State.recordsStand := closed_of_quiet quiet_recordsStand (fun _ _ hs => hs) (fun _ hs => hs)
    (fun a c hc hs => recordsStand_setAxis hs (fun _ => AxisRec.wf_halt hc) nofun)
    (fun a hm hs => recordsStand_setAxis hs (AxisRec.wf_cleared _ hm) fun ht => by
      unfold AxisRec.travelling AxisRec.cleared at ht; split at ht <;> simp at ht)
  { closed.engine with
    lines := fun _ _ _ hs => hs
    wsm := fun _ _ _ _ _ hs => hs
    gust := fun _ hs => hs
    handed := fun a p f c hs => positionHanded_of_engine closed.engine (fun _ hs => Quiet.ite hs hs)
      (fun a p hs => recordsStand_setAxis hs
        (fun hw => by obtain ⟨w1, w2, w3, -, w5⟩ := hw; exact ⟨w1, w2, w3, fun _ => rfl, w5⟩) Or.inl) a p f c hs
    zone := fun _ _ hs => hs
    placeReply := fun _ _ _ _ hs => Quiet.ite hs hs
    sent := fun hs => by unfold frameSent; split <;> exact hs
    powerUp := fun _ => recordsStand_reset
    inReset := fun _ => recordsStand_reset
    restart := fun _ => recordsStand_of_rest fun a => by cases a <;> exact ⟨AxisRec.wf_resetKept _, rfl⟩ }


/-! ## Capacities (R22, R69, R90, R92, R104, R132, R162, R179) -/

theorem fits_reset : State.reset.fits := by unfold State.fits; decide

theorem quiet_fits : Quiet State.fits where
  drive _ hs := hs
  mgt _ hs := hs
  ntu _ hs := hs
  lnu v fs _ hq _ hb hs := by
    obtain ⟨queue, others⟩ := hs
    refine ⟨?_, others⟩
    show v.queue.length ≤ Config.queuePlaces
    rcases hb with rfl | hb
    · rw [hq, List.append_nil]; exact queue
    · exact Nat.le_trans hb (by decide)
  axis _ _ _ _ _ hs := hs
  channels _ _ hs := hs
  site _ hs := hs
  zones zs hz hs := by
    obtain ⟨h1, h2, h3, h4, zones, h5⟩ := hs
    have same := congrArg List.length hz
    rw [List.length_map, List.length_map] at same
    exact ⟨h1, h2, h3, h4, same.trans zones, h5⟩
  dsq _ _ hl hs := by
    obtain ⟨h1, h2, h3, h4, h5, h6, slots, h7⟩ := hs
    exact ⟨h1, h2, h3, h4, h5, h6, hl.trans slots, h7⟩
  sha _ hf hs := by
    obtain ⟨h1, window, h2⟩ := hs
    exact ⟨h1, hf.length window, h2⟩
  sites _ hl hs := by
    obtain ⟨h1, h2, h3, h4, h5, sites, h6⟩ := hs
    exact ⟨h1, h2, h3, h4, h5, hl.trans sites, h6⟩
  acq _ hl hs := by
    obtain ⟨h1, h2, stack, h3⟩ := hs
    exact ⟨h1, h2, hl stack, h3⟩

theorem whole_fits : Whole State.fits :=
  have closed : Closed State.fits :=
    closed_of_quiet quiet_fits (fun _ _ hs => hs) (fun _ hs => hs) (fun _ _ _ hs => hs) (fun _ _ hs => hs)
  { closed.engine with
    lines := fun v _ hq hs => by
      obtain ⟨queue, others⟩ := hs
      exact ⟨by show v.queue.length ≤ _; rw [hq]; exact queue, others⟩
    wsm := fun _ _ hm hd _ hs => by
      obtain ⟨h1, h2, h3, memory, h4, h5, h6, derate⟩ := hs
      exact ⟨h1, h2, h3, hm memory, h4, h5, h6, hd.trans derate⟩
    gust := fun _ hs => hs
    handed := positionHanded_of_engine closed.engine (fun _ hs => Quiet.ite hs hs) (fun _ _ hs => hs)
    zone := fun _ _ hs => by
      obtain ⟨h1, h2, h3, h4, zones, h5⟩ := hs
      exact ⟨h1, h2, h3, h4, (List.length_set ..).trans zones, h5⟩
    placeReply := fun {s} k n w d hs => by
      unfold placeReply placeUp
      split
      · rename_i hq
        obtain ⟨-, others⟩ := hs
        refine ⟨?_, others⟩
        simpa using hq
      · exact hs
    sent := fun {s} hs => by
      unfold frameSent
      split
      · exact hs
      · rename_i f rest hq
        refine quiet_fits.placeHeld ?_
        obtain ⟨queue, others⟩ := hs
        refine ⟨?_, others⟩
        rw [hq] at queue
        exact Nat.le_of_succ_le queue
    powerUp := fun _ => fits_reset
    inReset := fun _ => fits_reset
    restart := fun hs => by
      obtain ⟨queue, -, -, -, zones, sites, slots, derate⟩ := hs
      exact ⟨queue, Nat.zero_le _, Nat.zero_le _, Nat.zero_le _, zones, (List.length_map ..).trans sites, slots, derate⟩ }

/-! ## The pose behind TXEN (R175, R176) -/

theorem presentPose_congr {s t : State} (h : ∀ a, (t.axis a).position = (s.axis a).position) :
    presentPose t = presentPose s := by
  unfold presentPose; simp only [h]

/-- R24: the hits of the zones do not count for a pose. -/
theorem any_zoneHolds_of_place {zs ys : List Zone} (h : zs.map Zone.place = ys.map Zone.place) (p : Pose) :
    (zs.any fun z => zoneHolds z p) = ys.any fun z => zoneHolds z p := by
  have key : ∀ l : List Zone, (l.any fun z => zoneHolds z p) = (l.map Zone.place).any fun z => zoneHolds z p := fun l => by
    rw [List.any_map]; rfl
  rw [key zs, key ys, h]

theorem poseClear_congr {s t : State} (hp : ∀ a, (t.axis a).position = (s.axis a).position)
    (hz : t.zones.map Zone.place = s.zones.map Zone.place) : poseClear t = poseClear s := by
  unfold poseClear
  rw [presentPose_congr hp]
  split
  · rfl
  · rw [any_zoneHolds_of_place hz]

theorem position_setAxis {s : State} {a : Axis} {r : AxisRec} (h : r.position = (s.axis a).position) (b : Axis) :
    ((s.setAxis a r).axis b).position = (s.axis b).position := by
  rw [State.axis_setAxis]
  split
  · rename_i e; rw [e, h]
  · rfl

theorem posed_setAxis {s : State} {a : Axis} {r : AxisRec} (hs : s.posed) (h : r.position = (s.axis a).position) :
    (s.setAxis a r).posed := fun hx => (poseClear_congr (position_setAxis h) rfl).trans (hs hx)

theorem quiet_posed : Quiet State.posed where
  drive _ hs := hs
  mgt _ hs := hs
  ntu _ hs := hs
  lnu _ _ _ _ _ _ hs := hs
  axis _ _ hp _ _ hs := posed_setAxis hs hp
  channels {s} c _ hs hx := (poseClear_congr (s := s) (fun a => by cases a <;> rfl) rfl).trans (hs hx)
  site _ hs := hs
  zones {s} zs hz hs hx := (poseClear_congr (s := s) (t := s.withZones zs) (fun _ => rfl) hz).trans (hs hx)
  dsq _ _ _ hs := hs
  sha _ _ hs := hs
  sites _ _ hs := hs
  acq _ _ hs := hs

/-- R175, R176: a position of MAST, PAN or TILT leaves TXEN asserted only where the pose watch answers CLEAR. -/
theorem posed_txcPosition (s : State) {a : Axis} (ha : a ≠ .pol) : (txcPosition s a).posed := by
  unfold txcPosition
  rw [if_neg ha]
  intro hx
  change ((s.txc.seen a).watched (poseClear s)).txen = true at hx
  show poseClear s = true
  unfold Txc.watched at hx
  split at hx
  · split at hx
    · assumption
    · exact absurd hx (by simp)
  · split at hx
    · rename_i hc
      simp only [Bool.and_eq_true] at hc
      exact hc.2
    · contradiction

/-- R176: the pose judgement of a zone write. -/
theorem posed_txcZone (s : State) : (txcZone s).posed := by
  unfold txcZone
  intro hx
  change (s.txc.zoneJudged (poseClear s)).txen = true at hx
  show poseClear s = true
  unfold Txc.zoneJudged at hx
  split at hx
  · exact absurd hx (by simp)
  · rename_i hn
    have ht : s.txc.txen = true := by split at hx <;> exact hx
    simpa [ht] using hn

/-- The pose has no part in POL. -/
theorem posed_takePosition_pol {s : State} (p : Int) (hs : s.posed) : (takePosition s .pol p).posed := hs

theorem whole_posed : Whole State.posed :=
  have closed : Closed State.posed := closed_of_quiet quiet_posed (fun _ hx hs h => hs (hx h)) (fun _ hs => hs)
    (fun _ _ _ hs => posed_setAxis hs rfl) (fun _ _ hs => posed_setAxis hs rfl)
  have dark : ∀ {s : State}, s.txc.txen = false → s.posed := fun h hx => absurd hx (by simp [h])
  { closed.engine with
    lines := fun _ _ _ hs => hs
    wsm := fun _ _ _ _ _ hs => hs
    gust := fun {s} g hs hx => hs (Txc.txen_judged (o := s.txc) (n := { s.txc with gust := g }) hx)
    handed := fun a p f c hs => by
      by_cases ha : a = .pol
      · subst ha
        have h1 := posed_takePosition_pol p hs
        cases f
        · exact h1
        · exact closed.engine.faultedReport .pol c h1
      · exact posed_txcPosition _ ha
    zone := fun _ _ _ => posed_txcZone _
    placeReply := fun _ _ _ _ hs => Quiet.ite hs hs
    sent := fun hs => by unfold frameSent; split <;> exact hs
    powerUp := fun _ => dark rfl
    inReset := fun _ => dark rfl
    restart := fun _ => dark rfl }

/-! ## The Report Window and the derate floors (R92, R132, R133) -/

/-- Each record is 1 to 127 ahead of the one before it, and no two bear the same sequence. -/
def inOrder (w : List WinRec) : Prop :=
  (∀ n new old, w[n]? = some new → w[n + 1]? = some old →
    1 ≤ (new.seq + 256 - old.seq) % 256 ∧ (new.seq + 256 - old.seq) % 256 ≤ 127) ∧
  (w.map (·.seq)).Nodup

theorem inOrder_nil : inOrder [] := ⟨fun _ _ _ h => by simp at h, List.nodup_nil⟩

theorem inOrder_of_prefix {v w : List WinRec} (h : v <+: w) (hw : inOrder w) : inOrder v := by
  obtain ⟨ahead, nodup⟩ := hw
  have same : ∀ {n : Nat} {r : WinRec}, v[n]? = some r → w[n]? = some r := by
    intro n r hr
    obtain ⟨t, rfl⟩ := h
    exact (List.getElem?_append_left (List.getElem?_eq_some_iff.mp hr).1).trans hr
  exact ⟨fun n new old h1 h2 => ahead n new old (same h1) (same h2), nodup.sublist (h.sublist.map _)⟩

theorem inOrder_cons {r : WinRec} {w : List WinRec} (hw : inOrder w) (hn : r.seq ∉ w.map (·.seq))
    (hd : ∀ old, w.head? = some old → 1 ≤ (r.seq + 256 - old.seq) % 256 ∧ (r.seq + 256 - old.seq) % 256 ≤ 127) :
    inOrder (r :: w) := by
  obtain ⟨ahead, nodup⟩ := hw
  refine ⟨fun n new old h1 h2 => ?_, List.nodup_cons.mpr ⟨hn, nodup⟩⟩
  cases n with
  | zero =>
    obtain rfl : r = new := by simpa using h1
    exact hd old (by simpa [List.head?_eq_getElem?] using h2)
  | succ n => exact ahead n new old (by simpa using h1) (by simpa using h2)

/-- R133: a record accepted in front of the newest, the records from an older one of its sequence on taken out. -/
theorem inOrder_accepted {h : Sha} {r : WinRec} (ha : h.accepts r.seq = true) (hw : inOrder h.window) :
    inOrder (r :: h.window.takeWhile (·.seq != r.seq)) := by
  have pre := List.takeWhile_prefix (l := h.window) (fun x : WinRec => x.seq != r.seq)
  refine inOrder_cons (inOrder_of_prefix pre hw) (fun hm => ?_) fun old ho => ?_
  · obtain ⟨x, hx, e⟩ := List.mem_map.mp hm
    have := List.mem_takeWhile_imp hx
    simp [e] at this
  · have hh : h.window.head? = some old := by
      obtain ⟨t, ht⟩ := pre
      rw [← ht, List.head?_append, ho]; rfl
    unfold Sha.accepts Sha.newest at ha
    simpa [hh] using ha

theorem Sha.follows.inOrder {h v : Sha} (f : h.follows v) (hw : inOrder h.window) : Machine.inOrder v.window := by
  rcases f with f | f | ⟨r, ha, f⟩
  · rw [f]; exact hw
  · rw [f]; exact inOrder_nil
  · rw [f]; exact inOrder_of_prefix (List.take_prefix _ _) (inOrder_accepted ha hw)

/-- The Report Window is in sequence, and the floors of the valid derate rows rise. -/
def State.listsInOrder (s : State) : Prop := s.inSequence ∧ risingFloors s.wsm.derate

theorem listsInOrder_reset : State.reset.listsInOrder := ⟨inOrder_nil, by unfold risingFloors; decide⟩

theorem quiet_listsInOrder : Quiet State.listsInOrder where
  drive _ hs := hs
  mgt _ hs := hs
  ntu _ hs := hs
  lnu _ _ _ _ _ _ hs := hs
  axis _ _ _ _ _ hs := hs
  channels _ _ hs := hs
  site _ hs := hs
  zones _ _ hs := hs
  dsq _ _ _ hs := hs
  sha _ hf hs := ⟨hf.inOrder hs.1, hs.2⟩
  sites _ _ hs := hs
  acq _ _ hs := hs

theorem whole_listsInOrder : Whole State.listsInOrder :=
  have closed : Closed State.listsInOrder :=
    closed_of_quiet quiet_listsInOrder (fun _ _ hs => hs) (fun _ hs => hs) (fun _ _ _ hs => hs) (fun _ _ hs => hs)
  { closed.engine with
    lines := fun _ _ _ hs => hs
    wsm := fun _ _ _ _ hr hs => ⟨hs.1, (Inner.floorsRise_iff _).mp (hr ((Inner.floorsRise_iff _).mpr hs.2))⟩
    gust := fun _ hs => hs
    handed := positionHanded_of_engine closed.engine (fun _ hs => Quiet.ite hs hs) (fun _ _ hs => hs)
    zone := fun _ _ hs => hs
    placeReply := fun _ _ _ _ hs => Quiet.ite hs hs
    sent := fun hs => by unfold frameSent; split <;> exact hs
    powerUp := fun _ => listsInOrder_reset
    inReset := fun _ => listsInOrder_reset
    restart := fun hs => ⟨inOrder_nil, hs.2⟩ }

/-! ## What is handed to TXC (R173, R175) -/

theorem anyHalted_congr {s t : State} (h : ∀ a, (t.axis a).motion = .halted ↔ (s.axis a).motion = .halted) :
    anyHalted t = anyHalted s := by
  unfold anyHalted; simp only [h]

theorem Txc.ordered_congr {x y : Txc} (h : x.ordered) (hc : y.condition = x.condition)
    (hd : (y.txen != y.pending) = (x.txen != x.pending)) (hb : (y.txen && y.pending) = false) : y.ordered :=
  ⟨hd.trans (h.1.trans hc.symm), hb⟩

/-- With the enable condition false, neither TXEN nor the pending enable. -/
theorem Txc.ordered_of_dark {x : Txc} (hc : x.condition = false) (ht : x.txen = false) (hp : x.pending = false) : x.ordered := by
  unfold Txc.ordered; rw [hc, ht, hp]; decide

/-- R173: a judged change of other fields than TXEN and the pending enable. -/
theorem Txc.ordered_judged {o n : Txc} (h : o.ordered) (ht : n.txen = o.txen) (hp : n.pending = o.pending) :
    (o.judged n).ordered := by
  obtain ⟨h1, h2⟩ := h
  unfold Txc.judged
  split
  · rename_i ho hn
    have dark : n.txen = false := by rw [ht]; revert h1 h2; rw [ho]; cases o.txen <;> cases o.pending <;> decide
    refine ⟨?_, by simp [Txc.pend, dark]⟩
    show (n.txen != true) = n.condition
    rw [dark, hn]; rfl
  · rename_i ho hn
    exact Txc.ordered_of_dark hn rfl rfl
  · rename_i ne1 ne2
    have hc : n.condition = o.condition := by
      revert ne1 ne2
      cases o.condition <;> cases n.condition <;> simp
    exact ⟨by rw [ht, hp, hc]; exact h1, by rw [ht, hp]; exact h2⟩

theorem Txc.ordered_seen {x : Txc} (a : Axis) (h : x.ordered) : (x.seen a).ordered := by
  unfold Txc.seen; exact Quiet.ite (P := Txc.ordered) h h

theorem Txc.ordered_watched {x : Txc} (clear : Bool) (h : x.ordered) : (x.watched clear).ordered := by
  have hb := h.2
  unfold Txc.watched
  split
  · rename_i ht
    refine Quiet.ite h (Txc.ordered_congr h rfl ?_ rfl)
    rw [ht, Bool.true_and] at hb
    rw [ht, hb]; rfl
  · rename_i ht
    split
    · rename_i hc
      simp only [Bool.and_eq_true] at hc
      obtain ⟨⟨⟨hp, -⟩, -⟩, -⟩ := hc
      refine Txc.ordered_congr h rfl ?_ rfl
      rw [hp, eq_false_of_ne_true ht]; rfl
    · exact h

theorem Txc.ordered_zoneJudged {x : Txc} (clear : Bool) (h : x.ordered) : (x.zoneJudged clear).ordered := by
  have hb := h.2
  unfold Txc.zoneJudged
  split
  · rename_i ht
    simp only [Bool.and_eq_true] at ht
    obtain ⟨ht, -⟩ := ht
    rw [ht, Bool.true_and] at hb
    refine Txc.ordered_congr h rfl ?_ rfl
    rw [ht, hb]; rfl
  · split
    · rename_i hp
      rw [hp, Bool.and_true] at hb
      refine Txc.ordered_congr h rfl ?_ ?_
      · rw [hp]; rfl
      · show (x.txen && true) = false
        rw [hb]; rfl
    · exact h

theorem Txc.ordered_off (x : Txc) : x.off.ordered := by
  refine Txc.ordered_of_dark ?_ rfl rfl
  unfold Txc.off Txc.condition Txc.drop
  cases x.tracked <;> simp

/-- The fields of TXC that other blocks hand to it. -/
def Txc.handedFields (x : Txc) : Deploy × Gust × Bool := (x.deploy, x.gust, x.axisHalted)

theorem Txc.handedFields_judged (o n : Txc) : (o.judged n).handedFields = n.handedFields := by
  unfold Txc.judged; split <;> rfl
theorem Txc.handedFields_handDeploy (x : Txc) (d : Deploy) : (x.handDeploy d).handedFields = (d, x.gust, x.axisHalted) := by
  unfold Txc.handDeploy; split <;> rfl
theorem Txc.handedFields_handTracked (x : Txc) (b : Bool) : (x.handTracked b).handedFields = x.handedFields := by
  cases b <;> rfl
theorem Txc.handedFields_watched (x : Txc) (a : Axis) (clear : Bool) :
    ((x.seen a).watched clear).handedFields = x.handedFields := by
  have seen : (x.seen a).handedFields = x.handedFields := by unfold Txc.seen; split <;> rfl
  rw [← seen]
  unfold Txc.watched
  split
  · split <;> rfl
  · split <;> rfl
theorem Txc.handedFields_zoneJudged (x : Txc) (clear : Bool) : (x.zoneJudged clear).handedFields = x.handedFields := by
  unfold Txc.zoneJudged
  split
  · rfl
  · split <;> rfl

theorem agrees_iff (s : State) : s.agrees ↔ s.txc.handedFields = (s.dsq.deploy, s.wsm.gust, anyHalted s) := by
  simp [State.agrees, Txc.handedFields]

/-- The fields handed to TXC agree with the blocks that handed them, and its fields have a property. -/
def State.handed (f : Txc → Prop) (s : State) : Prop :=
  s.txc.handedFields = (s.dsq.deploy, s.wsm.gust, anyHalted s) ∧ f s.txc

variable {f : Txc → Prop}

theorem handed_setAxis {s : State} {a : Axis} {r : AxisRec} (h : s.handed f)
    (hm : r.motion = .halted ↔ (s.axis a).motion = .halted) : (s.setAxis a r).handed f := by
  obtain ⟨agrees, holds⟩ := h
  refine ⟨?_, holds⟩
  rw [anyHalted_congr (s := s)]
  · exact agrees
  · intro b
    rw [State.axis_setAxis]
    split
    · rename_i e; rw [e]; exact hm
    · exact Iff.rfl

theorem quiet_handed : Quiet (State.handed f) where
  drive _ hs := hs
  mgt _ hs := hs
  ntu _ hs := hs
  lnu _ _ _ _ _ _ hs := hs
  axis _ _ _ hm _ hs := handed_setAxis hs hm
  channels _ _ hs := hs
  site _ hs := hs
  zones _ _ hs := hs
  dsq d hd _ hs := ⟨by show _ = (d.deploy, _); rw [hd]; exact hs.1, hs.2⟩
  sha _ _ hs := hs
  sites _ _ hs := hs
  acq _ _ hs := hs

/-- R173: what a judged change hands over is what the blocks hold. -/
theorem handed_txcJudged {s : State} {n : Txc} (ho : s.txc.ordered) (ht : n.txen = s.txc.txen) (hp : n.pending = s.txc.pending)
    (hn : n.handedFields = (s.dsq.deploy, s.wsm.gust, anyHalted s)) : (txcJudged s n).handed Txc.ordered :=
  ⟨(Txc.handedFields_judged _ _).trans hn, Txc.ordered_judged ho ht hp⟩

theorem handed_setDeploy {s : State} (d : Deploy) (h : s.handed Txc.ordered) : (setDeploy s d).handed Txc.ordered := by
  obtain ⟨agrees, ordered⟩ := h
  obtain ⟨-, hg, hx⟩ : s.txc.deploy = s.dsq.deploy ∧ s.txc.gust = s.wsm.gust ∧ s.txc.axisHalted = anyHalted s :=
    (agrees_iff s).mpr agrees
  refine handed_txcJudged ordered (Txc.txen_handDeploy _ _) (by unfold Txc.handDeploy; split <;> rfl) ?_
  rw [Txc.handedFields_handDeploy]
  show (d, s.txc.gust, s.txc.axisHalted) = (d, s.wsm.gust, anyHalted s)
  rw [hg, hx]

theorem handed_txcTracked {s : State} (b : Bool) (h : s.handed Txc.ordered) : (txcTracked s b).handed Txc.ordered :=
  handed_txcJudged h.2 (Txc.txen_handTracked _ _) (by cases b <;> rfl) ((Txc.handedFields_handTracked _ _).trans h.1)

theorem handed_axsHalt {s : State} (a : Axis) (c : FaultCause) (h : s.handed Txc.ordered) :
    (axsHalt s a c).handed Txc.ordered := by
  obtain ⟨agrees, ordered⟩ := h
  obtain ⟨hd, hg, -⟩ : s.txc.deploy = s.dsq.deploy ∧ s.txc.gust = s.wsm.gust ∧ s.txc.axisHalted = anyHalted s :=
    (agrees_iff s).mpr agrees
  unfold axsHalt
  generalize hv : closeRun (sendDrive (s.setAxis a ((s.axis a).halt c)) (.stop a)) a = v
  have halted : anyHalted (raise v (.axis a c)) = true := by
    rw [← Bool.not_eq_false, anyHalted_false_iff]
    intro none
    apply none a
    unfold State.axis
    rw [axs_raise, ← hv]
    exact congrArg AxisRec.motion (Axs.get_set_self _ _ _)
  have hx : v.txc = s.txc ∧ v.dsq = s.dsq ∧ v.wsm = s.wsm := by subst hv; exact ⟨rfl, rfl, rfl⟩
  refine handed_txcJudged (by rw [txc_raise, hx.1]; exact ordered) rfl rfl ?_
  rw [halted, txc_raise, dsq_raise, wsm_raise, hx.1, hx.2.1, hx.2.2, ← hd, ← hg]
  rfl

/-- R21: clearing leaves the fields of TXC and of its handers alone, and halts no axis. -/
theorem clearing_keeps (s : State) : let u := allAxes.foldl clearAxis s
    u.txc = s.txc ∧ u.dsq = s.dsq ∧ u.wsm = s.wsm ∧ ∀ a, (u.axis a).motion = .halted → (s.axis a).motion = .halted := by
  refine Quiet.fold (P := fun u => u.txc = s.txc ∧ u.dsq = s.dsq ∧ u.wsm = s.wsm ∧
    ∀ a, (u.axis a).motion = .halted → (s.axis a).motion = .halted) (fun {u} a hu => ?_) allAxes ⟨rfl, rfl, rfl, fun _ => id⟩
  unfold clearAxis
  simp only []
  split
  · obtain ⟨h1, h2, h3, h4⟩ := hu
    refine ⟨h1, h2, h3, fun b hb => ?_⟩
    rw [State.axis_setAxis] at hb
    split at hb
    · unfold AxisRec.cleared at hb; split at hb <;> cases hb
    · exact h4 b hb
  · exact hu

theorem handed_clearAxes {s : State} (h : s.handed Txc.ordered) : (clearAxes s).handed Txc.ordered := by
  obtain ⟨agrees, ordered⟩ := h
  obtain ⟨hd, hg, hx⟩ : s.txc.deploy = s.dsq.deploy ∧ s.txc.gust = s.wsm.gust ∧ s.txc.axisHalted = anyHalted s :=
    (agrees_iff s).mpr agrees
  have keeps := clearing_keeps s
  unfold clearAxes
  simp only [] at keeps ⊢
  generalize allAxes.foldl clearAxis s = u at keeps ⊢
  obtain ⟨ht, hq, hw, hm⟩ := keeps
  split
  · rename_i halted
    have before : anyHalted s = true := by
      rw [← Bool.not_eq_false, anyHalted_false_iff]
      intro none
      exact absurd halted (ne_true_of_eq_false ((anyHalted_false_iff u).mpr fun a ha => none a (hm a ha)))
    refine ⟨?_, by rw [ht]; exact ordered⟩
    rw [ht, hq, hw, halted, ← before]; exact agrees
  · rename_i halted
    refine handed_txcJudged (by rw [ht]; exact ordered) rfl rfl ?_
    rw [eq_false_of_ne_true halted, hq, hw, ht, ← hd, ← hg]; rfl

/-- With TXEN and the pending enable off, LOWERING finds the enable condition false and leaves them off. -/
theorem handed_lowering {s : State} (h : s.handed fun x => x.txen = false ∧ x.pending = false) :
    (setDeploy s .lowering).handed Txc.ordered := by
  obtain ⟨agrees, ht, hp⟩ := h
  obtain ⟨-, hg, hx⟩ := (agrees_iff s).mpr agrees
  have fields := Txc.handedFields_handDeploy s.txc .lowering
  have dark : (s.txc.handDeploy .lowering).condition = false := by
    unfold Txc.condition; rw [show (s.txc.handDeploy .lowering).deploy = .lowering from congrArg Prod.fst fields]; rfl
  have off : (s.txc.handDeploy .lowering).txen = false ∧ (s.txc.handDeploy .lowering).pending = false :=
    ⟨(Txc.txen_handDeploy _ _).trans ht, by unfold Txc.handDeploy; split <;> exact hp⟩
  refine ⟨(Txc.handedFields_judged _ _).trans (fields.trans ?_), ?_⟩
  · rw [hg, hx]; rfl
  · show (s.txc.judged (s.txc.handDeploy .lowering)).ordered
    unfold Txc.judged
    rw [dark]
    split
    · contradiction
    · exact Txc.ordered_of_dark dark rfl rfl
    · exact Txc.ordered_of_dark dark off.1 off.2

/-- R78, R177: the STOW effects drop TXEN and its pending enable before the walk departs to LOWERING. -/
theorem handed_beforeWalk {s : State} (h : s.handed Txc.ordered) : (beforeWalk s).handed Txc.ordered := by
  have q : Quiet (State.handed Txc.ordered) := quiet_handed
  have d : Quiet (State.handed fun x => x.txen = false ∧ x.pending = false) := quiet_handed
  have h0 : (acqEmptyStack (acqWalkAbort s)).handed Txc.ordered := by
    refine q.acqEmptyStack ?_
    unfold acqWalkAbort
    split
    · exact h
    · exact q.endCtx (handed_txcTracked false (q.raise _ (q.stbChange _ _ _ _ h)))
  unfold beforeWalk
  generalize acqEmptyStack (acqWalkAbort s) = u at h0
  have h1 : (txcStow u).handed fun x => x.txen = false ∧ x.pending = false := ⟨h0.1, rfl, rfl⟩
  have h2 := d.axsStopAll allAxes (d.axsTakeAll .sequence allAxes (d.shaEnd h1))
  simp only []
  generalize axsStopAll (axsTakeAll (shaEnd (txcStow u)) .sequence allAxes) allAxes = v at h2 ⊢
  exact handed_lowering (d.dsq _ rfl rfl h2)

theorem closed_handed : Closed (State.handed Txc.ordered) where
  toQuiet := quiet_handed
  deploy d _ hs := handed_setDeploy d hs
  halt a c _ hs := handed_axsHalt a c hs
  clear hs := handed_clearAxes hs
  tracked b hs := handed_txcTracked b hs
  txOn hs := handed_txcJudged hs.2 rfl rfl hs.1
  txOff hs := ⟨hs.1, Txc.ordered_off _⟩
  lower hs := handed_beforeWalk hs

theorem handed_reset : State.reset.handed Txc.ordered := ⟨rfl, Txc.ordered_of_dark rfl rfl rfl⟩

theorem whole_handed : Whole (State.handed Txc.ordered) :=
  { closed_handed.engine with
    lines := fun _ _ _ hs => hs
    wsm := fun w hg _ _ _ hs => ⟨by show _ = (_, w.gust, _); rw [hg]; exact hs.1, hs.2⟩
    gust := fun {s} g hs => by
      obtain ⟨hd, -, hx⟩ := (agrees_iff _).mpr hs.1
      refine handed_txcJudged hs.2 rfl rfl ?_
      show (s.txc.deploy, g, s.txc.axisHalted) = (s.dsq.deploy, g, anyHalted s)
      rw [hd, hx]
    handed := positionHanded_of_engine closed_handed.engine
      (fun a hs => Quiet.ite hs
        ⟨(Txc.handedFields_watched _ _ _).trans hs.1, Txc.ordered_watched _ (Txc.ordered_seen a hs.2)⟩)
      (fun _ _ hs => handed_setAxis hs Iff.rfl)
    zone := fun _ _ hs => ⟨(Txc.handedFields_zoneJudged _ _).trans hs.1, Txc.ordered_zoneJudged _ hs.2⟩
    placeReply := fun _ _ _ _ hs => Quiet.ite hs hs
    sent := fun hs => by unfold frameSent; split <;> exact hs
    powerUp := fun _ => handed_reset
    inReset := fun _ => handed_reset
    restart := fun _ => handed_reset }

/-! ## The rows of the Site Table (R110, R162) -/

theorem held_resetKept (e : Entry) : e.resetKept.state.held = false := by
  unfold Entry.resetKept
  split
  · rename_i h; rw [h]; rfl
  · rfl

theorem whole_rows : Whole (Rows []) :=
  have reset : Rows [] State.reset :=
    rows_idle rfl rfl fun e he => by rw [List.eq_of_mem_replicate he]; rfl
  { engine_rows with
    lines := fun _ _ _ hs => hs
    wsm := fun _ _ _ _ _ hs => hs
    gust := fun _ hs => hs
    handed := positionHanded_of_engine engine_rows (fun _ hs => Quiet.ite hs hs) (fun _ _ hs => hs)
    zone := fun _ _ hs => hs
    placeReply := fun _ _ _ _ hs => Quiet.ite hs hs
    sent := fun hs => by unfold frameSent; split <;> exact hs
    powerUp := fun _ => reset
    inReset := fun _ => reset
    restart := fun _ => rows_idle rfl rfl fun e he => by
      obtain ⟨x, -, rfl⟩ := List.mem_map.mp he
      exact held_resetKept x }

/-! ## The whole -/

/-- The invariant, as the parts that are kept one by one. -/
theorem inv_iff (s : State) : s.inv ↔
    s.recordsStand ∧ s.fits ∧ s.handed Txc.ordered ∧ s.posed ∧ Rows [] s ∧ s.listsInOrder := by
  rw [← rows_iff]
  unfold State.inv State.sound State.recordsStand State.handed State.listsInOrder
  rw [agrees_iff]
  constructor
  · rintro ⟨⟨wf, fits, agrees, ordered⟩, posed, rows, window, floors, powered⟩
    obtain ⟨-, -, stack, -⟩ := id fits
    exact ⟨⟨wf, powered⟩, fits, ⟨agrees, ordered⟩, posed, ⟨stack, rows⟩, window, floors⟩
  · rintro ⟨⟨wf, powered⟩, fits, ⟨agrees, ordered⟩, posed, ⟨-, rows⟩, window, floors⟩
    exact ⟨⟨wf, fits, agrees, ordered⟩, posed, rows, window, floors, powered⟩

/-- A property that every command keeps, and that the waiting commands have no part in, is kept by every step. -/
theorem Whole.step (h : Whole P) (hp : ∀ {s} (l : List Instr), P s → P (s.withPending l)) {s t : State} (hs : P s)
    (e : Machine.step s = .next t) : P t := by
  unfold Machine.step at e
  split at e
  · cases e; exact hs
  · exact h.exec _ (hp _ hs) e

/-- Settles O59: each part of the invariant survives every command. -/
theorem everyStepKeepsTheInvariant : Obligations.EveryStepKeepsTheInvariant := by
  intro s t hs e
  obtain ⟨records, fits, handed, posed, rows, lists⟩ := (inv_iff s).mp hs
  exact (inv_iff t).mpr
    ⟨whole_recordsStand.step (fun _ h => h) records e, whole_fits.step (fun _ h => h) fits e,
      whole_handed.step (fun _ h => h) handed e, whole_posed.step (fun _ h => h) posed e,
      whole_rows.step (fun _ h => h) rows e, whole_listsInOrder.step (fun _ h => h) lists e⟩

end Sys2Proof.Machine
end

section
/-! A clean POSITION report, by the motion of its axis (R10, R11, R14, R20, R68, R99). -/

namespace Sys2Proof.Machine

/-! ## What a clean report does to an axis that has nothing to tell -/

theorem AxisRec.reached_iff (r : AxisRec) (p : Int) (target : Option Int) :
    r.reached p target = true ↔ ∃ t, target = some t ∧ (p - t).natAbs ≤ r.tolerance := by
  cases target <;> simp [AxisRec.reached, withinTol]

theorem cleanReport_halted {s : State} {a : Axis} (p : Int) (m : Bool) (h : (s.axis a).motion = .halted) :
    cleanReport s a p m = s.setAxis a { s.axis a with releaseReady := true } := by
  unfold cleanReport; simp only []; rw [if_pos h]; rfl

theorem cleanReport_moving {s : State} {a : Axis} (p : Int) (h : (s.axis a).motion ≠ .halted) :
    cleanReport s a p true = s := by
  unfold cleanReport; simp only []; rw [if_neg h]; rfl

/-- R10: a report at rest that reaches no target, of an axis that is not stopping. -/
theorem cleanReport_short {s : State} {a : Axis} {p : Int} (m : Bool) (h : (s.axis a).motion ≠ .halted)
    (hs : (s.axis a).stopping = false)
    (hm : (s.axis a).motion = .moving → (s.axis a).reached p (s.axis a).selected = false)
    (hj : (s.axis a).motion = .jogging → (s.axis a).reached p (s.axis a).jogTarget = false) : cleanReport s a p m = s := by
  unfold cleanReport; simp only []
  rw [if_neg h]
  cases m with
  | true => rfl
  | false =>
    rw [if_neg Bool.false_ne_true, if_neg (fun c => ?_), if_neg (fun c => ?_), hs, if_neg Bool.false_ne_true]
    · simp only [Bool.and_eq_true, decide_eq_true_eq] at c
      exact absurd c.2 (ne_true_of_eq_false (hj c.1))
    · simp only [Bool.and_eq_true, decide_eq_true_eq] at c
      exact absurd c.2 (ne_true_of_eq_false (hm c.1))

/-- R10: the arrival of a JOGGING axis at its jog target, of which no owner is told. -/
theorem cleanReport_jogArrives {s : State} {a : Axis} {p : Int} (h : (s.axis a).motion = .jogging)
    (hj : (s.axis a).reached p (s.axis a).jogTarget = true) : cleanReport s a p false = s.setAxis a (s.axis a).arrived := by
  unfold cleanReport; simp only []
  rw [h, hj, if_neg (by decide), if_neg Bool.false_ne_true, if_neg (by simp), if_pos (by simp)]

/-! ## The owner that is told nothing -/

theorem tellArrival_quiet {s : State} {a : Axis} (p : Int) (h : (s.axis a).owner = .none ∨ (s.axis a).owner = .console) :
    tellArrival s a p = s := by
  unfold tellArrival; rcases h with h | h <;> rw [h]

theorem tellRest_quiet {s : State} {a : Axis} (p : Int) (h : (s.axis a).owner ≠ .search) : tellRest s a p = s := by
  unfold tellRest; split <;> first | rfl | contradiction

/-- R99: the arrival of a wind lowering releases MAST with its notice. -/
theorem tellArrival_wind {s : State} (p : Int) (h : (s.axis .mast).owner = .wind) (hr : s.roomy) :
    tellArrival s .mast p = (s.setAxis .mast { s.axis .mast with owner := .none }).noticed (.windLowered p) := by
  unfold tellArrival endLowering; rw [h]
  exact raise_room _ hr

/-! ## The report as a whole -/

/-- A clean report has been taken with the record `q`, and DSQ has recorded it in UNKNOWN (R14, R68). -/
def State.takesAs (s : State) (a : Axis) (pos : Int) (moving : Bool) (code : Nat) (q : AxisRec) : Prop :=
  let up : State → State := fun t => t.forwards (axisNode a) 0x10 (positionPayload pos moving false code)
  (s.dsq.deploy ≠ .unknown → exec (.position a pos moving false code) s = .next (up (s.reports a pos q))) ∧
  (s.dsq.deploy = .unknown → s.txc.deploy = .unknown →
    ∃ t, (s.reports a pos q).firstReport a t ∧ exec (.position a pos moving false code) s = .next (up t))

theorem State.deploy_watches (s : State) (a : Axis) (pos : Int) : (s.watches a pos).deploy = s.txc.deploy := by
  unfold State.watches
  simp only []
  repeat' split
  all_goals rfl

/-- R68: outside UNKNOWN a report ends with its own axis; in UNKNOWN DSQ takes it. -/
theorem takesAs_of_exec {s : State} {a : Axis} {pos : Int} {moving : Bool} {code : Nat} {q : AxisRec}
    (h : exec (.position a pos moving false code) s =
      .next ((dsqReport (s.reports a pos q) a).forwards (axisNode a) 0x10 (positionPayload pos moving false code))) :
    s.takesAs a pos moving code q := by
  refine ⟨fun hd => ?_, fun hd hx => ⟨_, firstReport_dsqReport a hd ?_, h⟩⟩
  · rw [h, dsqReport_known a (s := s.reports a pos q) hd]
  · exact (s.deploy_watches a pos).trans hx

/-- R14: the record after the position of a report. -/
abbrev AxisRec.seenAt (r : AxisRec) (pos : Int) : AxisRec := { r with position := some pos, silenceWatch := some 1000 }

theorem takesAs_of_cleanReport {s : State} {a : Axis} {pos : Int} {moving : Bool} {code : Nat} {q : AxisRec} (hr : s.running)
    (hf : inFull a pos = true) (ho : s.txc.ordered)
    (h : cleanReport (s.reports a pos ((s.axis a).seenAt pos)) a pos moving = s.reports a pos q) :
    s.takesAs a pos moving code q := by
  refine takesAs_of_exec ?_
  rw [exec_position_clean hr hf ho, h]

theorem AxisRec.owner_restedAt (r : AxisRec) (pos : Int) :
    ({ (if r.stopMoved then (r.seenAt pos).setTarget r.sel (some pos) else r.seenAt pos) with
      stopping := false, stopMoved := false } : AxisRec).owner = r.owner := by
  show (if r.stopMoved then (r.seenAt pos).setTarget r.sel (some pos) else r.seenAt pos).owner = r.owner
  split
  · exact AxisRec.owner_setTarget ..
  · rfl

section
variable {s : State} {a : Axis} {pos target : Int} {moving : Bool} {code : Nat}

/-- R20: a HALTED axis becomes release ready. -/
theorem takesAs_halted (hr : s.running) (hf : inFull a pos = true) (ho : s.txc.ordered) (hm : (s.axis a).motion = .halted) :
    s.takesAs a pos moving code { (s.axis a).seenAt pos with releaseReady := true } := by
  refine takesAs_of_cleanReport hr hf ho ?_
  rw [cleanReport_halted _ _ (by rw [axis_reports]; exact hm), axis_reports, setAxis_reports]

theorem takesAs_moving (hr : s.running) (hf : inFull a pos = true) (ho : s.txc.ordered) (hm : (s.axis a).motion ≠ .halted) :
    s.takesAs a pos true code ((s.axis a).seenAt pos) :=
  takesAs_of_cleanReport hr hf ho (cleanReport_moving _ (by rw [axis_reports]; exact hm))

/-- R10, R11: a report that is neither an arrival nor the end of a stop. -/
theorem takesAs_short (hr : s.running) (hf : inFull a pos = true) (ho : s.txc.ordered) (hm : (s.axis a).motion ≠ .halted)
    (hs : (s.axis a).stopping = false)
    (hmv : (s.axis a).motion = .moving → ∀ t, (s.axis a).selected = some t → (s.axis a).tolerance < (pos - t).natAbs)
    (hjg : (s.axis a).motion = .jogging → ∀ t, (s.axis a).jogTarget = some t → (s.axis a).tolerance < (pos - t).natAbs) :
    s.takesAs a pos moving code ((s.axis a).seenAt pos) := by
  have far : ∀ x : Option Int, (∀ t, x = some t → (s.axis a).tolerance < (pos - t).natAbs) →
      ((s.axis a).seenAt pos).reached pos x = false := fun x h => Bool.eq_false_iff.mpr fun e => by
    obtain ⟨t, ht, hle⟩ := (AxisRec.reached_iff _ pos x).mp e
    exact Nat.not_le.mpr (h t ht) hle
  refine takesAs_of_cleanReport hr hf ho (cleanReport_short moving ?_ ?_ ?_ ?_) <;> rw [axis_reports]
  · exact hm
  · exact hs
  · exact fun h => far _ (hmv h)
  · exact fun h => far _ (hjg h)

/-- R11: the first report at rest of a stopping axis, of which no search is told. -/
theorem takesAs_rest (hr : s.running) (hf : inFull a pos = true) (ho : s.txc.ordered)
    (hm : (s.axis a).motion = .off ∨ (s.axis a).motion = .idle) (hs : (s.axis a).stopping = true)
    (how : (s.axis a).owner ≠ .search) :
    s.takesAs a pos false code
      { (if (s.axis a).stopMoved then ((s.axis a).seenAt pos).setTarget (s.axis a).sel (some pos) else (s.axis a).seenAt pos) with
        stopping := false, stopMoved := false } := by
  refine takesAs_of_exec ?_
  rw [exec_position_rest hr hf hm hs ho, tellRest_quiet]
  rw [axis_reports]
  exact (AxisRec.owner_restedAt _ pos).trans_ne how

/-- R10: the arrival of a MOVING axis whose owner is told nothing. -/
theorem takesAs_arrival (hr : s.running) (hf : inFull a pos = true) (ho : s.txc.ordered) (hm : (s.axis a).motion = .moving)
    (ht : (s.axis a).selected = some target) (hw : (pos - target).natAbs ≤ (s.axis a).tolerance)
    (how : (s.axis a).owner = .none ∨ (s.axis a).owner = .console) :
    s.takesAs a pos false code ((s.axis a).seenAt pos).arrived := by
  refine takesAs_of_exec ?_
  rw [exec_position_arrival hr hf hm ht hw ho, tellArrival_quiet]
  · rfl
  · rw [axis_reports]; exact how

/-- R10: the arrival of a JOGGING axis. -/
theorem takesAs_jogArrival (hr : s.running) (hf : inFull a pos = true) (ho : s.txc.ordered) (hm : (s.axis a).motion = .jogging)
    (ht : (s.axis a).jogTarget = some target) (hw : (pos - target).natAbs ≤ (s.axis a).tolerance) :
    s.takesAs a pos false code ((s.axis a).seenAt pos).arrived := by
  refine takesAs_of_cleanReport hr hf ho ?_
  rw [cleanReport_jogArrives, axis_reports, setAxis_reports]
  · rw [axis_reports]; exact hm
  · rw [axis_reports]; exact (AxisRec.reached_iff _ _ _).mpr ⟨target, ht, hw⟩

/-- R99: the arrival of a wind lowering. -/
theorem exec_position_lowered (hr : s.running) (hf : inFull .mast pos = true) (ho : s.txc.ordered)
    (hm : (s.axis .mast).motion = .moving) (ht : (s.axis .mast).selected = some target)
    (hw : (pos - target).natAbs ≤ (s.axis .mast).tolerance) (how : (s.axis .mast).owner = .wind)
    (hd : s.dsq.deploy ≠ .unknown) (hroom : s.roomy) :
    exec (.position .mast pos false false code) s =
      .next (((s.reports .mast pos { ((s.axis .mast).seenAt pos).arrived with owner := .none }).noticed (.windLowered pos)).forwards
        (axisNode .mast) 0x10 (positionPayload pos false false code)) := by
  rw [exec_position_arrival hr hf hm ht hw ho, tellArrival_wind (s := s.reports .mast pos _) pos ?_ hroom, axis_reports,
    setAxis_reports, dsqReport_known]
  · rfl
  · unfold State.noticed
    simp only []
    split <;> exact hd
  · rw [axis_reports]; exact how

end

/-- Settles O24, by the motion of the axis. -/
theorem positionReportsAreTaken : Obligations.PositionReportsAreTaken := by
  intro a pos moving code s r seen arrived up takenAs hr hf ho
  refine ⟨takesAs_halted hr hf ho, ?moving, ?still, ?rest, ?arrival, ?lowered, ?jogArrival, ?away⟩
  case moving =>
    rintro hm rfl
    exact takesAs_moving hr hf ho hm
  case still =>
    intro hm hs
    rcases hm with hm | hm <;>
      exact takesAs_short hr hf ho (hm.trans_ne (by decide)) hs (absurd · (hm.trans_ne (by decide)))
        (absurd · (hm.trans_ne (by decide)))
  case rest =>
    rintro hm hs rfl how
    exact takesAs_rest hr hf ho hm hs how
  case arrival =>
    rintro target hm ht rfl how hw
    exact takesAs_arrival hr hf ho hm ht hw how
  case lowered =>
    rintro target hm ht rfl rfl how hw hd hroom
    exact exec_position_lowered hr hf ho hm ht hw how hd hroom
  case jogArrival =>
    rintro target hm ht rfl hw
    exact takesAs_jogArrival hr hf ho hm ht hw
  case away =>
    rintro target (⟨hm, ht⟩ | ⟨hm, ht⟩) hs hw
    · refine takesAs_short hr hf ho (hm.trans_ne (by decide)) hs (fun _ t e => ?_) (absurd · (hm.trans_ne (by decide)))
      cases ht.symm.trans e
      exact hw
    · refine takesAs_short hr hf ho (hm.trans_ne (by decide)) hs (absurd · (hm.trans_ne (by decide))) (fun _ t e => ?_)
      cases ht.symm.trans e
      exact hw

end Sys2Proof.Machine
end

section
/-! Power-on values of motion (R2, R3, R22, R57, R66, R67, R69), and timers that are not running (log 2). -/

namespace Sys2Proof.Machine

/-- Settles O7, block by block. -/
theorem powerOnValuesOfMotion : Obligations.PowerOnValuesOfMotion := by
  refine ⟨fun a => ?axis, fun c => ?channel, rfl, rfl, rfl, ?dsq⟩
  case axis => cases a <;> exact ⟨rfl, rfl, rfl, rfl, rfl, rfl, rfl, rfl, rfl, rfl, rfl, rfl, rfl, rfl, rfl⟩
  case channel => cases c <;> rfl
  case dsq => exact ⟨rfl, rfl, rfl, rfl, rfl, rfl, rfl, rfl, rfl, rfl, rfl, rfl⟩

/-! ## Timers that are not running -/

section
variable {s : State}

/-- Whether or not the part is in reset, a command whose meaning changes nothing changes nothing. -/
theorem exec_of_unchanged {c : Instr} {f : State → State} (e : exec c s = .next (onPart f s)) (h : f s = s) :
    exec c s = .next s := by
  rw [e]; unfold onPart; rw [h, ite_self]

theorem arrivalTimeout_stopped {a : Axis} (h : (s.axis a).arrivalTimer = none) : arrivalTimeout s a = s := by
  unfold arrivalTimeout; rw [h]; rfl

theorem silenceExpiry_stopped {a : Axis} (h : (s.axis a).silenceWatch = none) : silenceExpiry s a = s := by
  unfold silenceExpiry; rw [h]; rfl

theorem deadmanExpiry_stopped {a : Axis} (h : s.jog a = none) : deadmanExpiry s a = s := by
  unfold deadmanExpiry; rw [h]; rfl

theorem dsqSlotTimer_stopped (h : s.dsq.slotTimer = none) : dsqSlotTimer s = s := by unfold dsqSlotTimer; rw [h]; rfl

theorem wsmWindSilent_stopped (h : s.wsm.windWatch = none) : wsmWindSilent s = s := by unfold wsmWindSilent; rw [h]; rfl

theorem wsmSlopeSilent_stopped (h : s.wsm.slopeWatch = none) : wsmSlopeSilent s = s := by unfold wsmSlopeSilent; rw [h]; rfl

theorem shaOfferTimer_stopped (h : s.sha.offerTimer = none) : shaOfferTimer s = s := by unfold shaOfferTimer; rw [h]; rfl

theorem shaEchoTimer_stopped (h : s.sha.echoTimer = none) : shaEchoTimer s = s := by unfold shaEchoTimer; rw [h]

theorem reportSilence_stopped (h : s.sha.reportWatch = none) : reportSilence s = s := by unfold reportSilence; rw [h]; rfl

theorem quietOver_stopped (h : s.sha.quietTimer = none) : quietOver s = s := by unfold quietOver; rw [← h]; rfl

theorem acqSettleTimer_stopped (h : ∀ c, s.acq.ctx = some c → c.settleTimer = none) : acqSettleTimer s = s := by
  unfold acqSettleTimer
  split
  · rfl
  · rename_i c hc
    rw [h c hc]; rfl

theorem acqLinkWait_stopped (h : ∀ c, s.acq.ctx = some c → c.linkWait = none) : acqLinkWait s = s := by
  unfold acqLinkWait
  split
  · rfl
  · rename_i c hc
    rw [h c hc]; rfl

theorem acqGapTimer_stopped (h : ∀ c, s.acq.ctx = some c → c.gapTimer = none) : acqGapTimer s = s := by
  unfold acqGapTimer
  split
  · rfl
  · rename_i c hc
    rw [h c hc]; rfl

end

/-- Settles O56, timer by timer. -/
theorem stoppedTimersDoNothing : Obligations.StoppedTimersDoNothing := fun _ _ =>
  ⟨fun h => exec_of_unchanged rfl (arrivalTimeout_stopped h), fun h => exec_of_unchanged rfl (silenceExpiry_stopped h),
    fun h => exec_of_unchanged rfl (deadmanExpiry_stopped h), fun h => exec_of_unchanged rfl (dsqSlotTimer_stopped h),
    fun h => exec_of_unchanged rfl (wsmWindSilent_stopped h), fun h => exec_of_unchanged rfl (wsmSlopeSilent_stopped h),
    fun h => exec_of_unchanged rfl (shaOfferTimer_stopped h), fun h => exec_of_unchanged rfl (shaEchoTimer_stopped h),
    fun h => exec_of_unchanged rfl (reportSilence_stopped h), fun h => exec_of_unchanged rfl (quietOver_stopped h),
    fun h => exec_of_unchanged rfl (acqSettleTimer_stopped h), fun h => exec_of_unchanged rfl (acqLinkWait_stopped h),
    fun h => exec_of_unchanged rfl (acqGapTimer_stopped h)⟩

end Sys2Proof.Machine
end

section
/-! WRITEs of axis settings, and of read-only fields (R2, R182). -/

namespace Sys2Proof.Machine

/-- R182: what a WRITE answers. -/
theorem exec_write {s : State} (h : s.listens) (table row field : Nat) (v : Int) :
    exec (.write table row field v) s = .next (replyWrite s (writeField s table row field v)) := exec_eq_of_listens h rfl rfl

/-- R2: a WRITE to the record of an axis. -/
theorem exec_write_axis {s : State} (h : s.listens) (a : Axis) (field : Nat) (v : Int) :
    exec (.write 1 (axisNode a - 1) field v) s =
      .next (replyWrite s (((s.axis a).write a field v).map (s.setAxis a))) := by
  rw [exec_write h]
  cases a <;> rfl

theorem replyWrite_ignored {s : State} (h : s.listens) :
    replyWrite s (.error .ignored) = s.queues (replyRefused 0x31 .ignored) := refuse_listens h kindWrite .ignored

/-- R182: DONE with the value in range, REFUSED RANGE with it outside. -/
theorem replyWrite_orRange {α : Type} {s : State} (h : s.listens) (v : Option α) (g : α → AxisRec) (a : Axis) :
    .next (replyWrite s ((orRange v g).map (s.setAxis a))) = writeOutcome s (v.map fun x => s.setAxis a (g x)) := by
  cases v with
  | none => exact congrArg _ (refuse_listens h kindWrite .range)
  | some x => exact congrArg _ (done_listens (listens_of_lnu (t := s.setAxis a (g x)) h rfl) kindWrite)

theorem inRange_map {α : Type} (lo hi v : Int) (f : Int → α) : (inRange lo hi v).map f = within lo hi v (f v) := by
  unfold inRange within; split <;> rfl

theorem natInRange_map {α : Type} (lo hi : Nat) (v : Int) (f : Nat → α) :
    (natInRange lo hi v).map f = within lo hi v (f v.toNat) := by
  unfold natInRange within; split <;> rfl

theorem AxisRec.write_readOnly (r : AxisRec) (a : Axis) {field : Nat} (v : Int) (h : field < 8 ∨ 12 < field) :
    r.write a field v = .error .ignored := by
  unfold AxisRec.write
  split <;> first | omega | rfl

/-- R182 (Table 11-3): tables 0 and 7 to 10 are read-only. -/
theorem writeField_readOnly (s : State) {table : Nat} (row field : Nat) (v : Int) (h : table = 0 ∨ 7 ≤ table) :
    writeField s table row field v = .error .ignored := by
  unfold writeField
  split <;> first | omega | rfl

theorem maxRate_eq (a : Axis) : (maxRate a : Int) = if a = .mast then 30 else 300 := by cases a <;> rfl

/-- Settles O37, field by field. -/
theorem writesOfAxisSettings : Obligations.WritesOfAxisSettings := by
  intro a field v s h r write set
  have axis : exec write s = .next (replyWrite s ((r.write a field v).map (s.setAxis a))) := exec_write_axis h a field v
  refine ⟨?rate, ?tolerance, ?arrival, ?softMin, ?softMax, fun hf => ?other, fun table row ht => ?table⟩
  case rate =>
    rintro rfl
    exact axis.trans ((replyWrite_orRange h _ _ a).trans (by rw [natInRange_map, maxRate_eq]; rfl))
  case tolerance =>
    rintro rfl
    exact axis.trans ((replyWrite_orRange h _ _ a).trans (by rw [natInRange_map]; rfl))
  case arrival =>
    rintro rfl
    exact axis.trans ((replyWrite_orRange h _ _ a).trans (by rw [natInRange_map]; rfl))
  case softMin =>
    rintro rfl
    exact axis.trans ((replyWrite_orRange h _ _ a).trans (by rw [inRange_map]; rfl))
  case softMax =>
    rintro rfl
    exact axis.trans ((replyWrite_orRange h _ _ a).trans (by rw [inRange_map]; rfl))
  case other => rw [axis, AxisRec.write_readOnly r a v hf]; exact congrArg _ (replyWrite_ignored h)
  case table => rw [exec_write h, writeField_readOnly s row field v ht, replyWrite_ignored h]

end Sys2Proof.Machine
end

section
/-! CLEAR_HOLD and the stow test (R21, R68, R86, R98). -/

namespace Sys2Proof.Machine

/-! ## The clearing of the axes (R21) -/

theorem clearAxis_unready {s : State} {a : Axis} (h : (s.axis a).motion = .halted → (s.axis a).releaseReady = false) :
    clearAxis s a = s := by
  unfold clearAxis
  simp only []
  refine if_neg fun c => ?_
  simp only [Bool.and_eq_true, decide_eq_true_eq] at c
  exact absurd c.2 (ne_true_of_eq_false (h c.1))

theorem clearAxis_ready {s : State} {a : Axis} (hm : (s.axis a).motion = .halted) (hr : (s.axis a).releaseReady = true) :
    clearAxis s a = s.setAxis a ((s.axis a).cleared (s.chan (moveChannel a))) := by
  unfold clearAxis
  simp only []
  exact if_pos (by simp [hm, hr])

theorem clearing_unready {s : State} (h : ∀ a, (s.axis a).motion = .halted → (s.axis a).releaseReady = false) (l : List Axis) :
    l.foldl clearAxis s = s := by
  induction l with
  | nil => rfl
  | cons a l ih => rw [List.foldl_cons, clearAxis_unready (h a), ih]

theorem AxisRec.motion_cleared (r : AxisRec) (ch : ChanState) : (r.cleared ch).motion ≠ .halted := by
  show (if ch = .off then Motion.off else .idle) ≠ .halted
  split <;> decide

theorem motion_setAxis_cleared {s : State} {a : Axis} (ch : ChanState) (h : ∀ b, b ≠ a → (s.axis b).motion ≠ .halted) (b : Axis) :
    ((s.setAxis a ((s.axis a).cleared ch)).axis b).motion ≠ .halted := by
  rw [State.axis_setAxis]
  split
  · exact AxisRec.motion_cleared _ _
  · rename_i hb; exact h b hb

/-- R21: the only axis HALTED, release ready, is the only one cleared. -/
theorem clearing_one {s : State} {a : Axis} (hm : (s.axis a).motion = .halted) (hr : (s.axis a).releaseReady = true)
    (h : ∀ b, b ≠ a → (s.axis b).motion ≠ .halted) (l : List Axis) (ha : a ∈ l) :
    l.foldl clearAxis s = s.setAxis a ((s.axis a).cleared (s.chan (moveChannel a))) := by
  induction l with
  | nil => cases ha
  | cons b l ih =>
    rw [List.foldl_cons]
    by_cases hb : b = a
    · subst hb
      rw [clearAxis_ready hm hr, clearing_unready]
      exact fun c hc => absurd hc (motion_setAxis_cleared _ h c)
    · rw [clearAxis_unready (fun hc => absurd hc (h b hb))]
      exact ih ((List.mem_cons.mp ha).resolve_left (Ne.symm hb))

theorem Txc.judged_self (x : Txc) : x.judged x = x := by
  unfold Txc.judged; cases x.condition <;> rfl

/-- With an axis HALTED and none release ready, the clearing changes nothing and nothing is told. -/
theorem clearAxes_unready {s : State} (hh : anyHalted s = true)
    (h : ∀ a, (s.axis a).motion = .halted → (s.axis a).releaseReady = false) : clearAxes s = s := by
  unfold clearAxes
  simp only []
  rw [clearing_unready h, if_pos hh]

/-- With no axis HALTED, the clearing tells TXC what it holds already. -/
theorem clearAxes_still {s : State} (ha : s.agrees) (h : ∀ a, (s.axis a).motion ≠ .halted) : clearAxes s = s := by
  have none := (anyHalted_false_iff s).mpr h
  have told : ({ s.txc with axisHalted := false } : Txc) = s.txc := by rw [← none, ← ha.2.2]
  unfold clearAxes txcHalted txcJudged
  simp only []
  rw [clearing_unready (fun a hm => absurd hm (h a)), none, if_neg Bool.false_ne_true, told, Txc.judged_self]
  rfl

theorem clearAxes_one {s : State} {a : Axis} (hm : (s.axis a).motion = .halted) (hr : (s.axis a).releaseReady = true)
    (h : ∀ b, b ≠ a → (s.axis b).motion ≠ .halted) :
    clearAxes s = txcHalted (s.setAxis a ((s.axis a).cleared (s.chan (moveChannel a)))) false := by
  unfold clearAxes
  simp only []
  rw [clearing_one hm hr h allAxes (by cases a <;> decide), (anyHalted_false_iff _).mpr (motion_setAxis_cleared _ h),
    if_neg Bool.false_ne_true]

/-! ## The judgement in HELD (R86) -/

theorem clearHold_held {s : State} (ha : s.agrees) (h : ∀ a, (s.axis a).motion ≠ .halted) (hd : s.dsq.deploy = .held) :
    clearHold s =
      if clearsToDeployed s then
        if !s.dsq.parkIn || s.dsq.stowIn then refuse s kindClearHold .interlock
        else done (raise (enterDeploy (clearHoldCause (axsReleaseAll s allAxes)) .deployed) .deployUp) kindClearHold
      else if stowTest s then done (goStowed (clearHoldCause s)) kindClearHold
      else refuse s kindClearHold .state := by
  unfold clearHold clearHeld
  simp only []
  rw [clearAxes_still ha h, if_pos hd, (anyHalted_false_iff s).mpr h, if_neg Bool.false_ne_true]

theorem clearHold_elsewhere {s : State} (ha : s.agrees) (h : ∀ a, (s.axis a).motion ≠ .halted) (hd : s.dsq.deploy ≠ .held) :
    clearHold s = done s kindClearHold := by
  unfold clearHold
  simp only []
  rw [clearAxes_still ha h, if_neg hd, (anyHalted_false_iff s).mpr h, if_neg Bool.false_ne_true]

/-- R21: an axis HALTED that is not release ready, and none that is. -/
theorem clearHold_unready {s : State} (hh : anyHalted s = true)
    (h : ∀ a, (s.axis a).motion = .halted → (s.axis a).releaseReady = false) : clearHold s = refuse s kindClearHold .state := by
  unfold clearHold clearHeld
  simp only []
  rw [clearAxes_unready hh h, if_pos hh, if_pos hh, ite_self]

/-- R21: outside HELD the only axis HALTED, release ready, is cleared. -/
theorem clearHold_one {s : State} {a : Axis} (h : s.listens) (hd : s.dsq.deploy ≠ .held) (hm : (s.axis a).motion = .halted)
    (hr : (s.axis a).releaseReady = true) (hb : ∀ b, b ≠ a → (s.axis b).motion ≠ .halted) :
    clearHold s =
      (txcHalted (s.setAxis a ((s.axis a).cleared (s.chan (moveChannel a)))) false).queues (replyDone 0x3D) := by
  unfold clearHold
  simp only []
  rw [clearAxes_one hm hr hb]
  generalize ht : txcHalted (s.setAxis a ((s.axis a).cleared (s.chan (moveChannel a)))) false = t
  have deploy : t.dsq.deploy ≠ .held := by subst ht; exact hd
  have none : anyHalted t = false := by
    subst ht; exact (anyHalted_false_iff _).mpr (motion_setAxis_cleared _ hb)
  rw [if_neg deploy, none, if_neg Bool.false_ne_true]
  exact done_listens (listens_of_lnu h (by subst ht; rfl)) _

theorem clearsToDeployed_iff (s : State) : clearsToDeployed s = true ↔
    ((s.axis .mast).position.any fun p => s.dsq.stowHeight < p) = true ∧ ∀ a : Axis, (s.axis a).motion = .idle := by
  unfold clearsToDeployed
  rw [Bool.and_eq_true, List.all_eq_true]
  simp only [decide_eq_true_eq]
  exact and_congr_right fun _ => ⟨fun h a => h a (by cases a <;> decide), fun h a _ => h a⟩

/-- R68: the stow test. -/
theorem stowTest_iff (s : State) : stowTest s = true ↔
    ∃ h p t, (s.axis .mast).position = some h ∧ (s.axis .pan).position = some p ∧ (s.axis .tilt).position = some t ∧
      h ≤ s.dsq.stowHeight ∧ (p - s.dsq.stowPan).natAbs ≤ (s.axis .pan).tolerance ∧
      (t - s.dsq.stowTilt).natAbs ≤ (s.axis .tilt).tolerance := by
  unfold stowTest withinTol
  split
  · rename_i h p t eh ep et
    simp [eh, ep, et, and_assoc]
  · rename_i absent
    refine iff_of_false Bool.false_ne_true ?_
    rintro ⟨h, p, t, eh, ep, et, -⟩
    exact absent h p t eh ep et

/-- R74, R86: the channels OFF, the axes released, the state STOWED. -/
theorem goStowed_does (s : State) : (goStowed s).dsq = { s.dsq with deploy := .stowed } ∧
    (∀ a, ((goStowed s).axis a).owner = .none) ∧ ∀ c, (goStowed s).chan c = .off := by
  unfold goStowed channelsToOff
  have chans := chan_axsChannels s (fun s c => if s.chan c = .off then none else some .off) (fun _ _ c _ h => by simp only [h])
  have kept := (steady_dsq_eq s.dsq).axsChannels (fun s c => if s.chan c = .off then none else some .off) (s := s) rfl
  generalize axsChannels s (fun s c => if s.chan c = .off then none else some .off) = u at chans kept
  refine ⟨?_, fun a => ?_, fun c => (chans c).trans ?_⟩
  · show ({ u.dsq with deploy := .stowed } : Dsq) = _
    rw [kept]
  · exact congrArg AxisRec.owner (axis_axsReleaseAll u a)
  · split
    · assumption
    · rfl

/-! ## The change to DEPLOYED (R86, R98) -/

/-- R86: CLEAR_HOLD has released the axes, and the part is DEPLOYED with no hold cause. -/
def State.unheld (s : State) : State :=
  { s with
    axs := { s.axs with
      mast := { s.axs.mast with owner := .none }, pan := { s.axs.pan with owner := .none }
      tilt := { s.axs.tilt with owner := .none }, pol := { s.axs.pol with owner := .none } }
    dsq := { s.dsq with deploy := .deployed, holdCause := .none }
    txc := { s.txc with deploy := .deployed } }

theorem enterDeploy_calm {s : State} (d : Deploy) (h : s.wsm.gust ≠ .hold) : enterDeploy s d = setDeploy s d := if_neg h

/-- R98: in HOLD the change to DEPLOYED re-judges, and hands TXC no enable condition. -/
theorem enterDeploy_unheld {s : State} (ha : s.agrees) (hd : s.dsq.deploy = .held) (hg : s.wsm.gust = .hold) :
    enterDeploy (clearHoldCause (axsReleaseAll s allAxes)) .deployed = rejudge s.unheld := by
  obtain ⟨deploy, gust, -⟩ := ha
  have handed : s.txc.judged (s.txc.handDeploy .deployed) = { s.txc with deploy := .deployed } := by
    rw [judged_handDeploy_deployed (by rw [deploy, hd]; decide)]
    exact if_neg fun c => c.1 (gust.trans hg)
  have entered : setDeploy (clearHoldCause (axsReleaseAll s allAxes)) .deployed = s.unheld := by
    unfold setDeploy txcDeploy txcJudged State.unheld
    exact congrArg (fun x => ((clearHoldCause (axsReleaseAll s allAxes)).withDsq _).withTxc x) handed
  unfold enterDeploy rejudgeInHold
  rw [entered]
  exact if_pos hg

/-- R179: the REPLY stands last in a queue that has kept it a place. -/
theorem last_done {l : List UpFrame} {s : State} (h : Waiting l Config.noticePlaces s) (k : Nat) :
    (done s k).lnu.queue.getLast? = some (replyDone k) := by
  rw [done_room k (Nat.lt_of_le_of_lt h.2 (by decide))]
  exact List.getLast?_concat

theorem last_done_deployUp {s : State} (h : s.listens) :
    (done (raise (enterDeploy (clearHoldCause (axsReleaseAll s allAxes)) .deployed) .deployUp) kindClearHold).lnu.queue.getLast? =
      some (replyDone 0x3D) := by
  have w := inner_waiting (s.lnu.queue.filter UpFrame.isReply) (Nat.le_refl Config.noticePlaces)
  have released := w.axsReleaseAll allAxes (waiting_listens h)
  have entered := w.enterDeploy .deployed (by decide) (s := clearHoldCause (axsReleaseAll s allAxes)) released
  exact last_done (w.raise .deployUp entered) kindClearHold

theorem noticed_done (s : State) (k : Nat) :
    ((done (raise s .deployUp) k).ntu.get .deploy).latest = some .deployUp := by
  rw [ntu_done]; exact latest_raise s .deployUp

/-- Settles O46, by the HALTED axes and the deploy state. -/
theorem clearHoldFollowsTheState : Obligations.ClearHoldFollowsTheState := by
  intro s h ha noneHalted up
  have upIff : clearsToDeployed s = true ↔ up := clearsToDeployed_iff s
  refine ⟨?unready, ?one, ?elsewhere, ?interlock, ?deployed, ?inHold, ?stowed, ?fails, stowTest_iff s⟩
  case unready =>
    rintro ⟨a, hm⟩ hr
    have hh : anyHalted s = true := by
      rw [← Bool.not_eq_false, anyHalted_false_iff]
      exact fun none => none a hm
    exact exec_eq_of_listens h rfl ((clearHold_unready hh hr).trans (refuse_listens h _ _))
  case one =>
    intro a hd hm hr hb
    refine completes_of_listens h rfl ?_
    rw [clearHold_one h hd hm hr hb]
    refine ⟨rfl, (judged_keeps _ _).2.2.1, rfl, rfl, fun b hb => ?_⟩
    cases b <;> first | rfl | exact absurd hb (by decide)
  case elsewhere =>
    intro hn hd
    exact exec_eq_of_listens h rfl ((clearHold_elsewhere ha hn hd).trans (done_listens h _))
  case interlock =>
    intro hn hd hu hl
    refine exec_eq_of_listens h rfl ?_
    have locked : (!s.dsq.parkIn || s.dsq.stowIn) = true := by rcases hl with hl | hl <;> simp [hl]
    rw [clearHold_held ha hn hd, if_pos (upIff.mpr hu), if_pos locked]
    exact refuse_listens h _ _
  case deployed =>
    intro hn hd hu hp hs hg
    refine completes_of_listens h rfl ?_
    rw [clearHold_held ha hn hd, if_pos (upIff.mpr hu), if_neg (by simp [hp, hs])]
    have calm := enterDeploy_calm (s := clearHoldCause (axsReleaseAll s allAxes)) .deployed hg
    refine ⟨?_, fun a => ?_, noticed_done _ _, last_done_deployUp h⟩
    · rw [dsq_done, dsq_raise, calm]; rfl
    · unfold State.axis
      rw [axs_done, axs_raise, calm]
      exact axis_axsReleaseAll s a
  case inHold =>
    intro hn hd hu hp hs hg
    refine completes_of_listens h rfl ?_
    rw [clearHold_held ha hn hd, if_pos (upIff.mpr hu), if_neg (by simp [hp, hs])]
    refine ⟨rejudge s.unheld, windHolds_rejudge s.unheld, ?_, ?_, ?_, ?_, last_done_deployUp h⟩
    · rw [axs_done, axs_raise, enterDeploy_unheld ha hd hg]
    · rw [dsq_done, dsq_raise, enterDeploy_unheld ha hd hg]
    · rw [acq_done, acq_raise, enterDeploy_unheld ha hd hg]
    · rw [out_done, out_raise, enterDeploy_unheld ha hd hg]
  case stowed =>
    intro hn hd hu ht
    refine completes_of_listens h rfl ?_
    rw [clearHold_held ha hn hd, if_neg (fun c => hu (upIff.mp c)), if_pos ht]
    obtain ⟨dsq, owner, off⟩ := goStowed_does (clearHoldCause s)
    refine ⟨(dsq_done _ _).trans dsq, fun a => ?_, fun c => ?_⟩
    · unfold State.axis
      rw [axs_done]; exact owner a
    · unfold State.chan
      rw [axs_done]; exact off c
  case fails =>
    intro hn hd hu ht
    refine exec_eq_of_listens h rfl ?_
    rw [clearHold_held ha hn hd, if_neg (fun c => hu (upIff.mp c)), if_neg (ne_true_of_eq_false ht)]
    exact refuse_listens h _ _

end Sys2Proof.Machine
end

section
/-! Which poses a zone holds and which boxes it meets (R25, R28). -/

namespace Sys2Proof.Machine

theorem onArc_iff (z : Zone) (pan : Int) : onArc z pan = true ↔
    if z.arcFrom ≤ z.arcTo then z.arcFrom ≤ pan ∧ pan ≤ z.arcTo else z.arcFrom ≤ pan ∨ pan ≤ z.arcTo := by
  unfold onArc
  split <;> simp

theorem overlapsArc_iff (z : Zone) (i : Int × Int) : overlapsArc z i = true ↔
    if z.arcFrom ≤ z.arcTo then i.1 ≤ z.arcTo ∧ z.arcFrom ≤ i.2 else z.arcFrom ≤ i.2 ∨ i.1 ≤ z.arcTo := by
  unfold overlapsArc
  split <;> simp

theorem overlaps_iff (low high : Int) (i : Int × Int) : overlaps low high i = true ↔ i.1 ≤ high ∧ low ≤ i.2 := by
  simp [overlaps]

/-- R25: a pose lies inside a valid zone when each coordinate lies on its range. -/
theorem zoneHolds_iff (z : Zone) (p : Pose) : zoneHolds z p = true ↔
    z.valid = true ∧ onArc z p.pan = true ∧ (z.tiltLow ≤ p.tilt ∧ p.tilt ≤ z.tiltHigh) ∧
      (z.heightLow ≤ p.height ∧ p.height ≤ z.heightHigh) := by
  simp [zoneHolds, and_assoc]

/-- R28: a box meets a valid zone when each interval overlaps its range. -/
theorem zoneMeets_iff (z : Zone) (b : Box) : zoneMeets z b = true ↔
    z.valid = true ∧ overlapsArc z b.pan = true ∧ (b.tilt.1 ≤ z.tiltHigh ∧ z.tiltLow ≤ b.tilt.2) ∧
      (b.height.1 ≤ z.heightHigh ∧ z.heightLow ≤ b.height.2) := by
  simp only [zoneMeets, Bool.and_eq_true, overlaps_iff, and_assoc]

/-- Two closed intervals overlap when they share a point: the higher of their low ends. -/
theorem overlap_iff_exists {low high : Int} {i : Int × Int} (h : low ≤ high) (hi : i.1 ≤ i.2) :
    i.1 ≤ high ∧ low ≤ i.2 ↔ ∃ x, (low ≤ x ∧ x ≤ high) ∧ i.1 ≤ x ∧ x ≤ i.2 :=
  ⟨fun _ => ⟨max low i.1, by omega⟩, fun ⟨x, _⟩ => by omega⟩

/-- An interval overlaps an arc when it holds a pan on it; of an arc across the seam an end of the interval is such a pan. -/
theorem overlapsArc_iff_exists (z : Zone) {i : Int × Int} (hi : i.1 ≤ i.2) :
    overlapsArc z i = true ↔ ∃ x, onArc z x = true ∧ i.1 ≤ x ∧ x ≤ i.2 := by
  simp only [overlapsArc_iff, onArc_iff]
  split
  next h => exact overlap_iff_exists h hi
  next =>
    constructor
    · rintro (h | h)
      · exact ⟨i.2, .inl h, hi, Int.le_refl _⟩
      · exact ⟨i.1, .inr h, Int.le_refl _, hi⟩
    · rintro ⟨x, h, hx⟩
      omega

/-- R28: a box whose intervals are in order meets a zone exactly when the zone holds a pose of the box. -/
theorem zoneMeets_iff_exists (z : Zone) (b : Box) (ht : z.tiltLow ≤ z.tiltHigh) (hh : z.heightLow ≤ z.heightHigh)
    (bp : b.pan.1 ≤ b.pan.2) (bt : b.tilt.1 ≤ b.tilt.2) (bh : b.height.1 ≤ b.height.2) :
    zoneMeets z b = true ↔
      ∃ q : Pose, zoneHolds z q = true ∧ (b.pan.1 ≤ q.pan ∧ q.pan ≤ b.pan.2) ∧
        (b.tilt.1 ≤ q.tilt ∧ q.tilt ≤ b.tilt.2) ∧ (b.height.1 ≤ q.height ∧ q.height ≤ b.height.2) := by
  simp only [zoneMeets_iff, zoneHolds_iff, overlapsArc_iff_exists z bp, overlap_iff_exists ht bt, overlap_iff_exists hh bh]
  constructor
  · rintro ⟨hv, ⟨pan, hp, ip⟩, ⟨tilt, ht, it⟩, height, hh, ih⟩
    exact ⟨⟨pan, tilt, height⟩, ⟨hv, hp, ht, hh⟩, ip, it, ih⟩
  · rintro ⟨q, ⟨hv, hp, ht, hh⟩, ip, it, ih⟩
    exact ⟨hv, ⟨q.pan, hp, ip⟩, ⟨q.tilt, ht, it⟩, q.height, hh, ih⟩

theorem countedCheck_blocked (s : State) (blocks : Zone → Bool) :
    (countedCheck s blocks).1 = true ↔ ∃ z ∈ s.zones, blocks z = true := List.any_eq_true

/-- Settles O47, coordinate by coordinate. -/
theorem zonesHoldPosesAndMeetBoxes : Obligations.ZonesHoldPosesAndMeetBoxes := by
  intro z p b s
  refine ⟨?holds, countedCheck_blocked s _, ?meets, zoneMeets_iff_exists z b⟩
  case holds => rw [zoneHolds_iff, onArc_iff]
  case meets => rw [zoneMeets_iff, overlapsArc_iff]

end Sys2Proof.Machine
end

section
/-! The zones that block a move, and a console MOVE that they block (R24, R26, R27, R29, R48 to R51, R61). -/

namespace Sys2Proof.Machine

/-! ## The zones that block a move (R26, R27, R29) -/

theorem presentPose_eq_some_iff (s : State) (p : Pose) : presentPose s = some p ↔
    (s.axis .pan).position = some p.pan ∧ (s.axis .tilt).position = some p.tilt ∧ (s.axis .mast).position = some p.height := by
  obtain ⟨pan, tilt, height⟩ := p
  unfold presentPose
  cases (s.axis .pan).position <;> cases (s.axis .tilt).position <;> cases (s.axis .mast).position <;> simp

/-- R27: with no position the interval is the full range, else it runs from the position to the present target. -/
theorem axisSpan_eq (s : State) (a : Axis) : axisSpan s a =
    match (s.axis a).position with
    | none => (fullLow a, fullHigh a)
    | some p => (min p ((s.axis a).presentTarget.getD p), max p ((s.axis a).presentTarget.getD p)) := by
  unfold axisSpan
  split <;> simp only [*, span]

theorem moveSpan_eq (s : State) (a : Axis) (target : Int) : moveSpan s a target =
    match (s.axis a).position with
    | none => (fullLow a, fullHigh a)
    | some p => (min p target, max p target) := by
  unfold moveSpan
  split <;> simp only [*, span]

/-- R29: with no pose, a zone blocks when the box meets it. -/
theorem moveBlocker_noPose {s : State} (a : Axis) (target : Int) (z : Zone) (h : presentPose s = none) :
    moveBlocker s a target z = zoneMeets z (sweptBox s a target) := by
  unfold moveBlocker
  rw [h]

/-- R29: from a start pose inside no zone, a zone blocks when the box meets it. -/
theorem moveBlocker_outside {s : State} {start : Pose} (a : Axis) (target : Int) (z : Zone) (h : presentPose s = some start)
    (hout : ∀ y ∈ s.zones, zoneHolds y start = false) : moveBlocker s a target z = zoneMeets z (sweptBox s a target) := by
  unfold moveBlocker
  rw [h]
  simp only [List.any_eq_true]
  rw [if_neg fun ⟨y, hy, hold⟩ => Bool.false_ne_true ((hout y hy).symm.trans hold)]

/-- R29: from a start pose inside some zone, a zone blocks when it holds the end pose, or when the box meets it and it does not
hold the start pose. -/
theorem moveBlocker_inside {s : State} {start : Pose} (a : Axis) (target : Int) (z : Zone) (h : presentPose s = some start)
    (hin : ∃ y ∈ s.zones, zoneHolds y start = true) : moveBlocker s a target z =
      (zoneHolds z (endPose s a target start) || (zoneMeets z (sweptBox s a target) && !zoneHolds z start)) := by
  unfold moveBlocker
  rw [h]
  simp only [List.any_eq_true]
  rw [if_pos hin]

theorem moveCheck_blocked (s : State) (a : Axis) (target : Int) :
    (moveCheck s a target).1 = true ↔ a ≠ .pol ∧ ∃ z ∈ s.zones, moveBlocker s a target z = true := by
  unfold moveCheck
  split
  next h => simp [h]
  next h => rw [countedCheck_blocked]; exact (and_iff_right h).symm

/-- R24: a BLOCKED check of a geometric axis leaves each blocking zone with one more hit. -/
theorem moveCheck_hits {a : Axis} (s : State) (target : Int) (h : a ≠ .pol) : (moveCheck s a target).2 = s.hitBy a target := by
  unfold moveCheck
  rw [if_neg h]
  rfl

theorem inFull_iff (a : Axis) (x : Int) : inFull a x = true ↔ fullLow a ≤ x ∧ x ≤ fullHigh a := by simp [inFull]

/-! ## A console MOVE that the zones block (R51, R61) -/

/-- R49: step 4 passes for a target. -/
theorem gateRange_iff (s : State) (a : Axis) (x : Int) : gateRange s a x = true ↔
    ((s.axis a).softMin ≤ x ∧ x ≤ (s.axis a).softMax) ∧ (a = .mast → x ≤ s.dsq.maxHeight) := by
  unfold gateRange
  simp only [Bool.and_eq_true, inSoft_iff, Bool.or_eq_true, decide_eq_true_eq]
  exact and_congr_right fun _ => Decidable.imp_iff_not_or.symm

/-- R50: step 5 passes for a target. -/
theorem gateWind_iff (s : State) (a : Axis) (x : Int) : gateWind s a x = true ↔
    (a = .mast → ∀ row, s.wsm.caps = some row → x ≤ row.heightCap) := by
  unfold gateWind aboveCap
  simp only [Bool.or_eq_true, decide_eq_true_eq]
  rw [← Decidable.imp_iff_not_or]
  cases s.wsm.caps <;> simp

/-- R48: step 3 passes. -/
theorem gateReady_iff (s : State) (a : Axis) : gateReady s a = true ↔ s.movable a := by
  unfold gateReady State.movable
  simp only [Bool.and_eq_true, decide_eq_true_eq]
  tauto

/-- R48 to R51: where steps 3 to 5 pass, a target that the zones block is refused ZONE with the hits counted. -/
theorem gateSteps_blocked {s : State} {a : Axis} {x : Int} (hm : s.movable a) (hr : gateRange s a x = true)
    (hw : gateWind s a x = true) (hp : a ≠ .pol) (hb : ∃ z ∈ s.zones, moveBlocker s a x z = true) :
    gateSteps s a (some x) = .error (.zone, s.hitBy a x) := by
  unfold gateSteps
  have blocked : (moveCheck s a x).1 = true := (moveCheck_blocked s a x).mpr ⟨hp, hb⟩
  simp only [(gateReady_iff s a).mpr hm, hr, hw, blocked, moveCheck_hits s x hp, Bool.not_true, Bool.false_eq_true, if_false,
    if_true]

/-- R43, R45, R61: in DEPLOYED a frame on an axis of NONE or CONSOLE comes to steps 3 to 6 with an open run closed. -/
theorem gateDeploy_attempts {s : State} {a : Axis} (hd : s.dsq.deploy = .deployed)
    (ho : (s.axis a).owner = .none ∨ (s.axis a).owner = .console) (kind : Nat) (p : Priority) (attempt : State → Attempt) :
    gateDeploy s a kind (fun s => pastDeploy s a kind p attempt) =
      runAttempt (closeRun s a) a kind false (s.jog a).isSome attempt := by
  unfold gateDeploy
  rw [hd]
  show stepOwner (closeRun s a) a kind p (s.jog a).isSome attempt = _
  unfold stepOwner
  rcases ho with h | h <;> rw [show ((closeRun s a).axis a).owner = _ from h]

/-- R42, R61: a refusal at step 3 or later of a frame that found the state `s`, `u` the state that its attempt left. -/
theorem refuseLate_turnedAway {s : State} (h : s.listens) (a : Axis) (kind : Nat) (why : Reason) :
    refuseLate (closeRun s a) a kind why false (s.jog a).isSome =
      (s.turnedAway a).queues (.reply kind (axisNode a) (some why) .none) := by
  unfold refuseLate State.turnedAway
  simp only [Bool.false_and, Bool.false_or, Bool.and_eq_true, decide_eq_true_eq]
  show refuseFrame (if (s.jog a).isSome = true ∧ (s.axis a).motion = .jogging then _ else _) _ _ _ = _
  split
  next hj =>
    have travels : ((closeRun s a).axis a).travelling = true := (AxisRec.travelling_iff _).mpr (.inr hj.2)
    rw [axsStop_of_travelling travels, refuseFrame_room _ _ _ (show ((closeRun s a).withStop a).lnu.queue.length < _ from h.2)]
    unfold State.withStop closeRun State.withMgt
    simp only [Mgt.set_set]
    rfl
  next => exact refuseFrame_room _ _ _ h.2

theorem consoleMove_some {s : State} {a : Axis} {f : MoveFields} (hf : f.rate ≠ some 0) : consoleMove s a (some f) =
    gateDeploy s a kindMove fun s => pastDeploy s a kindMove f.priority (tryMove a f.target f.rate) := if_neg hf

/-- R24, R29, R51, R61: a MOVE past step 2 whose move check is BLOCKED. -/
theorem exec_consoleMove_blocked {s : State} {a : Axis} {f : MoveFields} (h : s.listens) (hd : s.dsq.deploy = .deployed)
    (ho : (s.axis a).owner = .none ∨ (s.axis a).owner = .console) (hm : s.movable a) (hp : a ≠ .pol) (hf : f.rate ≠ some 0)
    (hr : gateRange s a f.target = true) (hw : gateWind s a f.target = true)
    (hb : ∃ z ∈ s.zones, moveBlocker s a f.target z = true) :
    exec (.consoleMove a (some f)) s =
      .next (((s.hitBy a f.target).turnedAway a).queues (.reply 1 (axisNode a) (some .zone) .none)) := by
  refine exec_eq_of_listens h rfl ?_
  have steps : gateSteps (closeRun s a) a (some f.target) = .error (.zone, closeRun (s.hitBy a f.target) a) :=
    gateSteps_blocked (s := closeRun s a) hm hr hw hp hb
  rw [consoleMove_some hf, gateDeploy_attempts hd ho]
  unfold runAttempt tryMove
  rw [steps]
  exact refuseLate_turnedAway (s := s.hitBy a f.target) h a kindMove .zone

/-- Settles O21: the blocked MOVE first, then the boxes and poses it is judged by. -/
theorem blockedConsoleMoveCountsHits : Obligations.BlockedConsoleMoveCountsHits := by
  intro a f s r
  refine ⟨?move, rfl, axisSpan_eq s a, fun target start => ⟨?swept, rfl⟩, presentPose_eq_some_iff s, ?blocker,
    moveCheck_blocked s a, ?full, ?channels, rfl⟩
  case move =>
    intro h hd ho hm hp lo hi hf hmast hb
    exact exec_consoleMove_blocked h hd ho hm hp hf
      ((gateRange_iff s a _).mpr ⟨⟨lo, hi⟩, fun e => (hmast e).1⟩) ((gateWind_iff s a _).mpr fun e => (hmast e).2) hb
  case swept => exact congrArg (boxWith s a) (moveSpan_eq s a target)
  case blocker =>
    intro target z
    refine ⟨fun h => ?noPose, fun start h => ⟨fun out => ?outside, fun inside => ?inside⟩⟩
    case noPose => rw [moveBlocker_noPose a target z h]
    case outside => rw [moveBlocker_outside a target z h out]
    case inside =>
      rw [moveBlocker_inside a target z h inside]
      simp only [Bool.or_eq_true, Bool.and_eq_true, Bool.not_eq_true']
  case full =>
    intro x
    rw [inFull_iff]
    cases a <;> exact Iff.rfl
  case channels =>
    unfold channelsFull
    simp only [Bool.and_eq_true, Bool.or_eq_true, decide_eq_true_eq]
    exact and_congr_right fun _ => Decidable.imp_iff_not_or.symm

end Sys2Proof.Machine
end

section
/-! WRITEs of zones: the range of each field, the pose judgement, the pose notice, and the re-check of the axes (R23, R34 to R36,
R176). -/

namespace Sys2Proof.Machine

/-! ## The value written (R23) -/

/-- R23: the zone with a field at a value of its range. -/
def Zone.fielded (z : Zone) (field : Nat) (v : Int) : Option Zone :=
  match field with
  | 0 => within 0 1 v { z with valid := v = 1 }
  | 1 => within 0 3599 v { z with arcFrom := v }
  | 2 => within 0 3599 v { z with arcTo := v }
  | 3 => within (-100) z.tiltHigh v { z with tiltLow := v }
  | 4 => within z.tiltLow 900 v { z with tiltHigh := v }
  | 5 => within 0 z.heightHigh v { z with heightLow := v }
  | _ => within z.heightLow 1500 v { z with heightHigh := v }

theorem orRange_inRange {β : Type} (lo hi v : Int) (f : Int → β) :
    orRange (inRange lo hi v) f = orRange (within lo hi v (f v)) id := by
  unfold inRange within
  split <;> rfl

theorem orRange_boolOf {β : Type} (v : Int) (f : Bool → β) : orRange (boolOf v) f = orRange (within 0 1 v (f (v = 1))) id := by
  unfold boolOf within
  split
  · rfl
  · rfl
  next h0 h1 =>
    have out : ¬ (0 ≤ v ∧ v ≤ 1) := fun h => (show v = 0 ∨ v = 1 by omega).elim h0 h1
    rw [if_neg out]
    rfl

theorem Zone.write_range (z : Zone) {field : Nat} (v : Int) (h : field ≤ 6) : z.write field v = orRange (z.fielded field v) id :=
  match field with
  | 0 => orRange_boolOf _ _
  | 1 | 2 | 3 | 4 | 5 | 6 => orRange_inRange _ _ _ _
  | _ + 7 => absurd h (by omega)

theorem Zone.write_readOnly (z : Zone) {field : Nat} (v : Int) (h : 7 ≤ field) : z.write field v = .error .ignored :=
  match field with
  | 0 | 1 | 2 | 3 | 4 | 5 | 6 => absurd h (by omega)
  | _ + 7 => rfl

/-! ## The pose judgement and the pose notice (R34, R35, R176) -/

/-- R34, R176: a zone has been written with its hits at 0, and TXC has judged the pose. -/
def State.rezoned (s : State) (row : Nat) (n : Zone) : State :=
  let u := { s with zones := s.zones.set row { n with hits := 0 } }
  { u with
    txc :=
      if s.txc.txen && !poseClear u then { s.txc with txen := false, pending := true, panSeen := false, tiltSeen := false }
      else if s.txc.pending then { s.txc with panSeen := false, tiltSeen := false }
      else s.txc }

theorem Txc.zoneJudged_eq (t : Txc) (clear : Bool) : t.zoneJudged clear =
    if t.txen && !clear then { t with txen := false, pending := true, panSeen := false, tiltSeen := false }
    else if t.pending then { t with panSeen := false, tiltSeen := false }
    else t := by
  unfold Txc.zoneJudged Txc.pend
  split
  · rfl
  · split
    next h => rw [h]
    next => rfl

theorem txcZone_rezoned (s : State) (row : Nat) (n : Zone) :
    txcZone (s.withZones (s.zones.set row { n with hits := 0 })) = s.rezoned row n := by
  unfold txcZone
  rw [Txc.zoneJudged_eq]
  rfl

/-- R35: a zone has been written, and the notice of a pose that it has come to contain raised. -/
def State.zoneTaken (s : State) (row : Nat) (old new : Zone) : State :=
  if poseEntered s old new then raise (s.rezoned row new) (.zonePose row) else s.rezoned row new

theorem zoneTaken_axis (s : State) (row : Nat) (old new : Zone) (a : Axis) : (s.zoneTaken row old new).axis a = s.axis a := by
  unfold State.zoneTaken
  split
  · exact congrArg (Axs.get · a) (axs_raise _ _)
  · rfl

theorem zoneTaken_row {s : State} {row : Nat} {old : Zone} (new : Zone) (hz : s.zones[row]? = some old) :
    (s.zoneTaken row old new).zones[row]? = some { new with hits := 0 } := by
  have zones : (s.zoneTaken row old new).zones = s.zones.set row { new with hits := 0 } := by
    unfold State.zoneTaken
    split
    · exact zones_raise _ _
    · rfl
  rw [zones, List.getElem?_set_self (List.getElem?_eq_some_iff.mp hz).1]

theorem zoneTaken_roomy {s : State} {row : Nat} {old new : Zone} (h : poseEntered s old new = true → s.roomy) :
    s.zoneTaken row old new =
      if poseEntered s old new then (s.rezoned row new).noticed (.zonePose row) else s.rezoned row new := by
  unfold State.zoneTaken
  split
  next he => exact raise_room (s := s.rezoned row new) _ (h he)
  next => rfl

/-! ## The re-check (R35, R36) -/

/-- R25: an invalid zone stops no axis. -/
theorem zoneStops_invalid (s : State) {z : Zone} (a : Axis) (h : z.valid = false) : zoneStops s z a = false := by
  have holds : ∀ p, zoneHolds z p = false := fun p => by simp [zoneHolds, h]
  have meets : ∀ b, zoneMeets z b = false := fun b => by simp [zoneMeets, h]
  unfold zoneStops
  simp only [holds, meets]
  repeat' split
  all_goals rfl

theorem recheckAxis_unmoved {s : State} {row : Nat} {z : Zone} {a : Axis} (hz : s.zones[row]? = some z)
    (h : z.valid = false ∨ (s.axis a).travelling = false) : recheckAxis row s a = s := by
  have free : (rechecked s a && zoneStops s z a) = false := by
    rcases h with hv | ht
    · rw [zoneStops_invalid s a hv, Bool.and_false]
    · unfold rechecked
      simp only [ht, Bool.false_and]
  unfold recheckAxis
  rw [hz]
  exact if_neg (by rw [free]; exact Bool.false_ne_true)

theorem recheck_unmoved {s : State} {row : Nat} {z : Zone} (hz : s.zones[row]? = some z)
    (h : z.valid = false ∨ ∀ a, (s.axis a).travelling = false) : recheck s row = s := by
  have still (a : Axis) : recheckAxis row s a = s := recheckAxis_unmoved hz (h.imp_right (· a))
  unfold recheck
  simp only [List.foldl_cons, List.foldl_nil, still]

theorem rechecks_recheck {s : State} {row : Nat} {z : Zone} (hz : ∃ k, s.zones[row]? = some { z with hits := k }) :
    ∃ m p, s.rechecks z row .mast m ∧ m.rechecks z row .pan p ∧ p.rechecks z row .tilt (recheck s row) :=
  have hm := recheckAxis_keeps_row s row .mast hz
  have hp := recheckAxis_keeps_row _ row .pan hm
  ⟨_, _, rechecks_recheckAxis s z row .mast hz, rechecks_recheckAxis _ z row .pan hm, rechecks_recheckAxis _ z row .tilt hp⟩

/-- R34, R35: every accepted write is followed by the re-check; while the zone is not valid it finds nothing. -/
theorem zoneWritten_rechecks {s : State} {row : Nat} {old : Zone} (new : Zone) (hz : s.zones[row]? = some old) :
    zoneWritten s row old new = recheck (s.zoneTaken row old new) row := by
  unfold zoneWritten
  rw [txcZone_rezoned]
  show (if new.valid then recheck (s.zoneTaken row old new) row else s.zoneTaken row old new) = _
  split
  next => rfl
  next h => exact (recheck_unmoved (zoneTaken_row new hz) (.inl (Bool.eq_false_iff.mpr h))).symm

/-! ## The command -/

/-- R179: an operation that keeps every property of the engine leaves a place for the REPLY. -/
theorem listens_of_engine {f : State → State} (hf : ∀ {P : State → Prop}, Engine P → ∀ {s}, P s → P (f s)) {s : State}
    (h : s.listens) : (f s).listens :=
  ⟨hf (closed_apart apart_rst false).engine h.1,
    Nat.lt_of_le_of_lt (hf (closed_waiting _ (Nat.le_refl _)).engine (waiting_listens h)).2 (by decide)⟩

theorem listens_zoneWritten {s : State} {row : Nat} {old : Zone} (new : Zone) (h : s.listens) :
    (recheck (s.zoneTaken row old new) row).listens :=
  listens_of_engine (f := (recheck · row)) (fun e _ hs => e.recheck row hs) <| by
    unfold State.zoneTaken
    split
    · exact listens_of_engine (f := (raise · (.zonePose row))) (fun e _ hs => e.raise _ hs) (s := s.rezoned row new) h
    · exact h

theorem exec_writeZone {s : State} {row : Nat} {z : Zone} (h : s.listens) (hz : s.zones[row]? = some z) (field : Nat) (v : Int) :
    exec (.writeZone row field v) s = .next (replyWrite s ((z.write field v).map (zoneWritten s row z))) :=
  have written : writeField s 2 row field v = (z.write field v).map (zoneWritten s row z) := by
    show writeZoneField s row field v = _
    unfold writeZoneField
    rw [hz]
  exec_eq_of_listens h rfl (congrArg (replyWrite s) written)

/-- R34: a WRITE of a value of the field's range. -/
theorem exec_writeZone_taken {s : State} {row field : Nat} {v : Int} {z n : Zone} (h : s.listens) (hz : s.zones[row]? = some z)
    (hf : field ≤ 6) (hn : z.fielded field v = some n) :
    exec (.writeZone row field v) s = .next ((recheck (s.zoneTaken row z n) row).queues (replyDone 0x31)) := by
  rw [exec_writeZone h hz, z.write_range v hf, hn]
  show Host.Outcome.next (done (zoneWritten s row z n) kindWrite) = _
  rw [zoneWritten_rechecks n hz, done_listens (listens_zoneWritten n h)]
  rfl

/-- Settles O39: the refusals, then what the re-check of an accepted write finds. -/
theorem writesOfZones : Obligations.WritesOfZones := by
  intro row field v z s h hz new after entered
  refine ⟨fun hf hn => ?range, fun hf => ?hits, fun n hf hn hs he => ?unmoved, fun n hf hn hs he hr => ?noticed,
    fun n hf hn hr => ?rechecked⟩
  case range =>
    rw [exec_writeZone h hz, z.write_range v hf, show z.fielded field v = none from hn]
    exact congrArg _ (refuse_listens h kindWrite .range)
  case hits =>
    rw [exec_writeZone h hz, z.write_readOnly v hf]
    exact congrArg _ (replyWrite_ignored h)
  case unmoved =>
    have taken : s.zoneTaken row z n = after n := if_neg (Bool.eq_false_iff.mp he)
    have still : n.valid = false ∨ ∀ a, ((s.zoneTaken row z n).axis a).travelling = false := by
      simpa only [zoneTaken_axis] using hs
    rw [exec_writeZone_taken h hz hf hn, recheck_unmoved (zoneTaken_row n hz) still, taken]
  case noticed =>
    have taken : s.zoneTaken row z n = (after n).noticed (.zonePose row) := (zoneTaken_roomy fun _ => hr).trans (if_pos he)
    have still : ∀ a, ((s.zoneTaken row z n).axis a).travelling = false := by simpa only [zoneTaken_axis] using hs
    rw [exec_writeZone_taken h hz hf hn, recheck_unmoved (zoneTaken_row n hz) (.inr still), taken]
  case rechecked =>
    intro u
    have taken : s.zoneTaken row z n = u := zoneTaken_roomy hr
    obtain ⟨m, p, hm, hp, ht⟩ := rechecks_recheck ⟨0, zoneTaken_row n hz⟩
    refine ⟨_, exec_writeZone_taken h hz hf hn, m, p, _, ?_, hp, ht, rfl⟩
    rw [← taken]
    exact hm

end Sys2Proof.Machine
end

section
/-! The timers of the running context, and the arrivals and rests of the axes it owns (R140 to R142, R145, R146, R148 to R152,
R156 to R158). -/

namespace Sys2Proof.Machine

section
variable {s t : State} {c d : Ctx} {a b : Axis}

theorem State.withCtx_self (hc : s.acq.ctx = some c) : s.withCtx c = s := by
  unfold State.withCtx
  rw [← hc]

/-- R149, R150: which context runs meanwhile makes no difference to the end of a sweep without a begin edge. -/
theorem State.noEdge_of_withCtx (h : (s.withCtx d).noEdge c t) : s.noEdge c t := by
  obtain ⟨lost, ended⟩ := h
  refine ⟨fun ht => State.loses_of_withCtx (lost ht), fun ht extent hx => ?_⟩
  obtain ⟨skips, widens⟩ := ended ht extent hx
  exact ⟨fun k => State.endsSearch_congr (skips k) rfl rfl rfl rfl rfl rfl rfl, fun k => State.formsSweep_of_withCtx (widens k)⟩

/-- R149, R150: the end of a sweep without a begin edge, its context just set. -/
theorem noEdge_of_set (s : State) (d : Ctx) : s.noEdge d (noBeginEdge (s.withCtx d) d) :=
  State.noEdge_of_withCtx (noEdge_noBeginEdge (s.withCtx d) d rfl)

/-! ## Timers -/

section
variable (hc : s.acq.ctx = some c)
include hc

/-- R141: the settle timer runs out. -/
theorem settled_acqSettleTimer (h : c.settleTimer.isSome) (hp : c.phase = .settle) : s.settled c (acqSettleTimer s) := by
  have runs : acqSettleTimer s = afterSettle (s.withCtx c) := by
    unfold acqSettleTimer
    rw [s.withCtx_self hc, hc]
    simp only [h, hp, decide_true, Bool.and_self, if_true]
  rw [runs]
  exact settled_afterSettle s c

/-- R142: the link wait timer runs out. -/
theorem losesLink_acqLinkWait (h : c.linkWait.isSome) : s.losesLink c (acqLinkWait s) := by
  have runs : acqLinkWait s = linkFailed s := by
    unfold acqLinkWait
    rw [hc]
    exact if_pos h
  rw [runs]
  exact losesLink_linkFailed s c hc

/-- R151: the gap timer runs out with restarts left: the sweep stops and forms its interval afresh at the rest. -/
theorem acqGapTimer_restarts (h : c.gapTimer.isSome) (hn : c.gapRestarts < 3)
    (hm : (s.axis (phaseAxis c.phase)).motion = .moving ∨ (s.axis (phaseAxis c.phase)).motion = .idle) :
    acqGapTimer s = (s.withStop (phaseAxis c.phase)).withCtx
      { c with
        step := some .toStart, rest := some .reform, gapTimer := none, stepAxis := none, partialBegin := none
        partialEnd := none, partialOpen := false, gapRestarts := c.gapRestarts + 1 } := by
  unfold acqGapTimer
  rw [hc]
  simp only [Option.isNone_iff_eq_none, Option.isSome_iff_ne_none.mp h, if_false, Nat.not_le.mpr hn]
  unfold stopSweep
  rw [← axsStop_eq_withStop hm.symm]
  rfl

/-- R151: the gap timer runs out the fourth time. -/
theorem endsSearch_acqGapTimer (h : c.gapTimer.isSome) (hn : 3 ≤ c.gapRestarts) : s.endsSearch c .gaps (acqGapTimer s) := by
  have runs : acqGapTimer s = acqFail s .gaps := by
    unfold acqGapTimer
    rw [hc]
    simp only [Option.isNone_iff_eq_none, Option.isSome_iff_ne_none.mp h, if_false, hn, if_true]
  rw [runs]
  exact endsSearch_acqFail (d := c) (by rw [← hc]) rfl rfl rfl rfl rfl rfl

/-! ## Arrivals (Table 8-6) -/

theorem acqArrival_elsewhere (h : c.stepAxis ≠ some a) : acqArrival s a = s := by
  unfold acqArrival
  rw [hc]
  exact if_pos h

theorem acqArrival_atStep (h : c.stepAxis = some a) {st : SweepStep} (hs : c.step = some st) : acqArrival s a =
    match st with
    | .toStart => atStart s c
    | .sweeping => sweepEnded s c
    | .centring => centred s c := by
  unfold acqArrival
  rw [hc]
  simp only [h, hs, ne_eq, not_true_eq_false, if_false]
  cases st <;> rfl

theorem acqArrival_inSlew (h : c.stepAxis = some a) (hs : c.step = none) (hp : c.phase = .slew) :
    acqArrival s a = slewArrived s c a := by
  unfold acqArrival
  rw [hc]
  simp only [h, hs, hp, ne_eq, not_true_eq_false, if_false, if_true]

/-- R140: the next move of the slew. -/
theorem acqArrival_slewsOn (h : c.stepAxis = some a) (hs : c.step = none) (hp : c.phase = .slew)
    (hb : nextSlewAxis c.tiltFirst a = some b) : s.slewsOn c b (c.slewTarget b) (acqArrival s a) := by
  rw [acqArrival_inSlew hc h hs hp]
  unfold slewArrived
  rw [hb]
  exact slewsOn_slewMove s c hc b

/-- R140, R141: SETTLE after POL, with a settle time. -/
theorem acqArrival_settles (h : c.stepAxis = some .pol) (hs : c.step = none) (hp : c.phase = .slew) (ht : s.acq.settleTime ≠ 0) :
    acqArrival s .pol = s.withCtx { c with phase := .settle, stepAxis := none, settleTimer := some s.acq.settleTime } := by
  rw [acqArrival_inSlew hc h hs hp]
  show enterSettle s = _
  unfold enterSettle
  rw [hc]
  exact if_neg ht

/-- R140, R141: with a settle time of 0 the settle timer runs out at once. -/
theorem acqArrival_settled (h : c.stepAxis = some .pol) (hs : c.step = none) (hp : c.phase = .slew) (ht : s.acq.settleTime = 0) :
    s.settled { c with phase := .settle, stepAxis := none, settleTimer := some s.acq.settleTime } (acqArrival s .pol) := by
  have runs : acqArrival s .pol =
      afterSettle (s.withCtx { c with phase := .settle, stepAxis := none, settleTimer := some s.acq.settleTime }) := by
    rw [acqArrival_inSlew hc h hs hp]
    show enterSettle s = _
    unfold enterSettle
    rw [hc]
    exact if_pos ht
  rw [runs]
  exact settled_afterSettle s _

/-- R146: the sweep start with the link READY. -/
theorem acqArrival_beginsSweep (h : c.stepAxis = some a) (hs : c.step = some .toStart) (hl : c.linkIsReady = true) :
    s.beginsSweep c (acqArrival s a) := by
  rw [acqArrival_atStep hc h hs]
  show s.beginsSweep c (if c.linkIsReady then beginSweeping s else _)
  rw [if_pos hl]
  exact beginsSweep_beginSweeping s c hc

/-- R146: the sweep start, the link not READY. -/
theorem acqArrival_waits (h : c.stepAxis = some a) (hs : c.step = some .toStart) (hl : c.linkIsReady = false) :
    acqArrival s a = s.withCtx { c with stepAxis := none } :=
  (acqArrival_atStep hc h hs).trans (if_neg (by rw [hl]; exact Bool.false_ne_true))

/-- R149: the sweep end is the open end edge of a sweep with a begin edge. -/
theorem acqArrival_centres (h : c.stepAxis = some a) (hs : c.step = some .sweeping) (hb : c.partialBegin ≠ none) :
    s.centres { c with gapTimer := none, partialEnd := c.sweepEnd, partialOpen := true } (acqArrival s a) := by
  obtain ⟨x, hx⟩ := Option.ne_none_iff_exists'.mp hb
  have ends : sweepEnded s c =
      centre (s.withCtx { c with gapTimer := none, partialEnd := c.sweepEnd, partialOpen := true }) := by
    unfold sweepEnded
    rw [hx]
    rfl
  rw [acqArrival_atStep hc h hs]
  show s.centres _ (sweepEnded s c)
  rw [ends]
  exact centres_centre s _

/-- R149: the sweep end without a begin edge. -/
theorem acqArrival_noEdge (h : c.stepAxis = some a) (hs : c.step = some .sweeping) (hb : c.partialBegin = none) :
    s.noEdge { c with gapTimer := none, stepAxis := none } (acqArrival s a) := by
  have ends : sweepEnded s c =
      noBeginEdge (s.withCtx { c with gapTimer := none, stepAxis := none }) { c with gapTimer := none, stepAxis := none } := by
    unfold sweepEnded
    rw [hb]
    rfl
  rw [acqArrival_atStep hc h hs]
  show s.noEdge _ (sweepEnded s c)
  rw [ends]
  exact noEdge_of_set s { c with gapTimer := none, stepAxis := none }

/-- R152: the centring target. -/
theorem acqArrival_centred (h : c.stepAxis = some a) (hs : c.step = some .centring) : s.centred c (acqArrival s a) := by
  rw [acqArrival_atStep hc h hs]
  exact centred_does s c hc

/-! ## The first report at rest after a STOP -/

theorem acqRest_elsewhere (pos : Int) (h : a ≠ phaseAxis c.phase ∨ c.rest = none) : acqRest s a pos = s := by
  unfold acqRest
  rw [hc]
  rcases h with h | h
  · exact if_pos h
  · simp only [h, ite_self]

theorem acqRest_awaited (pos : Int) (h : a = phaseAxis c.phase) {next : RestThen} (hn : c.rest = some next) : acqRest s a pos =
    match next with
    | .reform => toStart s
    | .centre => centre s
    | .edgeHere => centre (s.withCtx { c with partialEnd := some pos, partialOpen := true })
    | .noEdge => noBeginEdge (s.withCtx { c with rest := none }) { c with rest := none } := by
  unfold acqRest
  rw [hc]
  simp only [h, hn, ne_eq, not_true_eq_false, if_false]
  cases next <;> rfl

/-- R146, R151: the interval is formed afresh. -/
theorem acqRest_reforms (pos : Int) (h : a = phaseAxis c.phase) (hn : c.rest = some .reform) : s.formsSweep c (acqRest s a pos) := by
  rw [acqRest_awaited hc pos h hn]
  have forms := formsSweep_toStart s c
  rwa [s.withCtx_self hc] at forms

/-- R148: both edges are set. -/
theorem acqRest_centres (pos : Int) (h : a = phaseAxis c.phase) (hn : c.rest = some .centre) : s.centres c (acqRest s a pos) := by
  rw [acqRest_awaited hc pos h hn]
  have centring := centres_centre s c
  rwa [s.withCtx_self hc] at centring

/-- R36, R149: the position of the rest is the open end edge. -/
theorem acqRest_centresHere (pos : Int) (h : a = phaseAxis c.phase) (hn : c.rest = some .edgeHere) :
    s.centres { c with partialEnd := some pos, partialOpen := true } (acqRest s a pos) := by
  rw [acqRest_awaited hc pos h hn]
  exact centres_centre s _

/-- R36, R149, R150: the sweep has ended without a begin edge. -/
theorem acqRest_noEdge (pos : Int) (h : a = phaseAxis c.phase) (hn : c.rest = some .noEdge) :
    s.noEdge { c with rest := none } (acqRest s a pos) := by
  rw [acqRest_awaited hc pos h hn]
  exact noEdge_of_set s { c with rest := none }

end

/-! ## The reports of an axis that SEARCH owns -/

/-- R10: an arrival is told to the Acquisition Engine. -/
theorem exec_position_searchArrival {pos target : Int} {code : Nat} (hr : s.running) (hf : inFull a pos = true)
    (hd : s.dsq.deploy ≠ .unknown) (ho : s.txc.ordered) (how : (s.axis a).owner = .search) (hm : (s.axis a).motion = .moving)
    (ht : (s.axis a).selected = some target) (hw : (pos - target).natAbs ≤ (s.axis a).tolerance) :
    exec (.position a pos false false code) s =
      .next ((acqArrival (s.reports a pos ((s.axis a).seenAt pos).arrived) a).forwards (axisNode a) 0x10
        (positionPayload pos false false code)) := by
  have told : tellArrival (s.reports a pos ((s.axis a).seenAt pos).arrived) a pos =
      acqArrival (s.reports a pos ((s.axis a).seenAt pos).arrived) a := by
    have owner : ((s.reports a pos ((s.axis a).seenAt pos).arrived).axis a).owner = .search := by rw [axis_reports]; exact how
    unfold tellArrival
    rw [owner]
  have known := closed_deployKnown.acqArrival (s := s.reports a pos ((s.axis a).seenAt pos).arrived) a hd
  refine (exec_position_arrival hr hf hm ht hw ho).trans ?_
  show Host.Outcome.next ((dsqReport (tellArrival (s.reports a pos ((s.axis a).seenAt pos).arrived) a pos) a).forwards _ _ _) = _
  rw [told, dsqReport_known a known]

/-- R11: the first report at rest after a STOP is told to the Acquisition Engine. -/
theorem exec_position_searchRest {pos : Int} {code : Nat} (hr : s.running) (hf : inFull a pos = true)
    (hd : s.dsq.deploy ≠ .unknown) (ho : s.txc.ordered) (how : (s.axis a).owner = .search)
    (hm : (s.axis a).motion = .off ∨ (s.axis a).motion = .idle) (hs : (s.axis a).stopping = true) :
    exec (.position a pos false false code) s =
      .next ((acqRest (s.reports a pos (((s.axis a).seenAt pos).rested pos)) a pos).forwards (axisNode a) 0x10
        (positionPayload pos false false code)) := by
  have told : tellRest (s.reports a pos (((s.axis a).seenAt pos).rested pos)) a pos =
      acqRest (s.reports a pos (((s.axis a).seenAt pos).rested pos)) a pos := by
    have owner : ((s.reports a pos (((s.axis a).seenAt pos).rested pos)).axis a).owner = .search := by
      rw [axis_reports]
      exact ((s.axis a).owner_restedAt pos).trans how
    unfold tellRest
    rw [owner]
  have known := closed_deployKnown.acqRest (s := s.reports a pos (((s.axis a).seenAt pos).rested pos)) a pos hd
  refine (exec_position_rest hr hf hm hs ho).trans ?_
  show Host.Outcome.next
    ((dsqReport (tellRest (s.reports a pos (((s.axis a).seenAt pos).rested pos)) a pos) a).forwards _ _ _) = _
  rw [told, dsqReport_known a known]

end

theorem phaseAxis_eq (p : Phase) : phaseAxis p = if p = .elSweep ∨ p = .retrimEl then .tilt else .pan := by cases p <;> rfl

theorem Phase.tracks_iff (p : Phase) : p.tracks = true ↔ p ∈ [Phase.track, .retrimAz, .retrimEl] := by cases p <;> decide

/-- Settles O52: the timers, then the arrivals by the step of the context, then the rests by what awaits them. -/
theorem acquisitionTimersRunOut : Obligations.AcquisitionTimersRunOut := by
  intro c e s hr hc _ phaseA
  have axis : phaseAxis c.phase = phaseA := phaseAxis_eq c.phase
  refine ⟨fun h hp => ?settle, fun h => ?link, fun h => ⟨fun hn hm => ?restart, fun hn => ?gaps⟩,
    fun a pos code hf hd ho how => ?reports, axis, c.phase.tracks_iff⟩
  case settle => exact completes_of_running hr rfl (settled_acqSettleTimer hc h hp)
  case link => exact completes_of_running hr rfl (losesLink_acqLinkWait hc h)
  case restart =>
    rw [← axis] at hm ⊢
    exact exec_eq_of_running hr rfl (acqGapTimer_restarts hc h hn hm)
  case gaps => exact completes_of_running hr rfl (endsSearch_acqGapTimer hc h hn)
  case reports =>
    intro r seen comesTo
    refine ⟨fun target hm ht hw => ?arrival, fun hm hs => ?rest⟩
    case arrival =>
      intro u
      have uc : u.acq.ctx = some c := hc
      have told {Q : State → Prop} (q : Q (acqArrival u a)) : comesTo Q :=
        ⟨_, q, exec_position_searchArrival hr hf hd ho how hm ht hw⟩
      refine ⟨fun h => told (acqArrival_elsewhere uc h), fun h hs hp => ⟨?_, ?_, ?_, ?_, ?pol⟩,
        fun h hs => ⟨fun hl => told (acqArrival_beginsSweep uc h hs hl), fun hl => told (acqArrival_waits uc h hs hl)⟩,
        fun h hs => ⟨fun hb => told (acqArrival_centres uc h hs hb), fun hb => told (acqArrival_noEdge uc h hs hb)⟩,
        fun h hs _ => told (acqArrival_centred uc h hs)⟩
      case pol =>
        rintro rfl
        exact ⟨fun ht => told (acqArrival_settles uc h hs hp ht), fun ht => told (acqArrival_settled uc h hs hp ht)⟩
      all_goals
        rintro hfirst rfl
        exact told (acqArrival_slewsOn uc h hs hp (by rw [hfirst]; rfl))
    case rest =>
      intro v
      have vc : v.acq.ctx = some c := hc
      have told {Q : State → Prop} (q : Q (acqRest v a pos)) : comesTo Q :=
        ⟨_, q, exec_position_searchRest hr hf hd ho how hm hs⟩
      rw [← axis]
      exact ⟨fun h => told (acqRest_elsewhere vc pos h), fun h hn => told (acqRest_reforms vc pos h hn),
        fun h hn => told (acqRest_centres vc pos h hn), fun h hn => told (acqRest_centresHere vc pos h hn),
        fun h hn => told (acqRest_noEdge vc pos h hn)⟩

end Sys2Proof.Machine
end

section
/-! Console frames: those refused by the field check, those for the accessory nodes, and the REPLYs of all of them (R41, R42, R65). -/

namespace Sys2Proof.Machine

/-! ## The field check (R41) -/

theorem refuseFrame_listens {s : State} (h : s.listens) (kind node : Nat) (why : Reason) :
    refuseFrame s kind node why = s.queues (.reply kind node (some why) .none) := refuseFrame_room kind node why h.2

/-- R42: a console frame whose meaning is a refusal. -/
theorem exec_of_refuseFrame {s : State} {c : Instr} {f : State → State} {kind node : Nat} {why : Reason} (h : s.listens)
    (e : exec c s = .next (onConsole f s)) (hf : f s = refuseFrame s kind node why) :
    exec c s = .next (s.queues (.reply kind node (some why) .none)) :=
  exec_eq_of_listens h e (hf.trans (refuseFrame_listens h kind node why))

/-- Settles O18, frame by frame. -/
theorem consoleFramesRefusedAtOnce : Obligations.ConsoleFramesRefusedAtOnce := by
  intro a s h refused
  refine ⟨?channel, fun kind => ?other, ?move, ?jog, ?stop, ?select, fun t p => ?moveAtZero, fun d p => ?jogAtZero⟩
  all_goals exact exec_of_refuseFrame h rfl rfl

/-! ## Nodes 5 to 31 (R65) -/

theorem accessory_pass {s : State} (hw : s.lnu.window = .pass) (node kind : Nat) (payload : List Byte) :
    accessory s node kind payload = sendDrive s (.forwarded node kind payload) := by unfold accessory; rw [hw]

theorem accessory_closed {s : State} (hw : s.lnu.window = .closed) (node kind : Nat) (payload : List Byte) :
    accessory s node kind payload = refuseFrame s kind node .noTarget := by unfold accessory; rw [hw]

/-- Settles O22, by the window mode. -/
theorem accessoryFramesFollowTheWindowMode : Obligations.AccessoryFramesFollowTheWindowMode := fun node kind payload _ h =>
  ⟨fun hw => exec_eq_of_listens h rfl (accessory_pass hw node kind payload),
    fun hw => exec_of_refuseFrame h rfl (accessory_closed hw node kind payload)⟩

/-! ## Answers (R42) -/

/-- R42: of a console frame of a kind for an axis, no REPLY has joined those that waited, `l`, or one REPLY REFUSED has. -/
def AnsweredByRefusal (l : List UpFrame) (kind : Nat) (a : Axis) (t : State) : Prop :=
  t.lnu.queue.filter UpFrame.isReply = l ∨
    ∃ why, t.lnu.queue.filter UpFrame.isReply = l ++ [.reply kind (axisNode a) (some why) .none]

section
variable {l : List UpFrame} {s : State} (a : Axis) (kind : Nat)

theorem answered_of_waiting {t : State} (h : Waiting l Config.noticePlaces t) : AnsweredByRefusal l kind a t := .inl h.1

theorem answered_refuseFrame (why : Reason) (h : Waiting l Config.noticePlaces s) :
    AnsweredByRefusal l kind a (refuseFrame s kind (axisNode a) why) := .inr ⟨why, (waiting_placeReply kind _ _ _ h).1⟩

/-- No operation before the REPLY takes its place. -/
theorem waitsForReply (l : List UpFrame) : Inner (Waiting l Config.noticePlaces) := inner_waiting l (Nat.le_refl _)

theorem answered_refuseLate (why : Reason) (suspended closed : Bool) (h : Waiting l Config.noticePlaces s) :
    AnsweredByRefusal l kind a (refuseLate s a kind why suspended closed) :=
  answered_refuseFrame a kind why (Quiet.ite ((waitsForReply l).axsStop a h) h)

theorem answered_runAttempt (suspended closed : Bool) {attempt : State → Attempt}
    (keeps : ∀ {s}, Waiting l Config.noticePlaces s → Inner.Keeps (Waiting l Config.noticePlaces) (attempt s))
    (h : Waiting l Config.noticePlaces s) : AnsweredByRefusal l kind a (runAttempt s a kind suspended closed attempt) := by
  have kept := keeps h
  unfold runAttempt
  split
  next u e => rw [e] at kept; exact answered_of_waiting a kind kept
  next why u e => rw [e] at kept; exact answered_refuseLate a kind why suspended closed kept

theorem answered_pastDeploy (p : Priority) {attempt : State → Attempt}
    (keeps : ∀ {s}, Waiting l Config.noticePlaces s → Inner.Keeps (Waiting l Config.noticePlaces) (attempt s))
    (h : Waiting l Config.noticePlaces s) : AnsweredByRefusal l kind a (pastDeploy s a kind p attempt) := by
  have closed := (waitsForReply l).closeRun a h
  unfold pastDeploy stepOwner
  split
  · exact answered_runAttempt a kind _ _ keeps closed
  · exact answered_runAttempt a kind _ _ keeps closed
  · exact answered_runAttempt a kind _ _ keeps ((waitsForReply l).overrideTake a closed)
  all_goals exact answered_refuseFrame a kind _ closed

theorem answered_gateDeploy {go : State → State}
    (hgo : Waiting l Config.noticePlaces s → AnsweredByRefusal l kind a (go s)) (h : Waiting l Config.noticePlaces s) :
    AnsweredByRefusal l kind a (gateDeploy s a kind go) := by
  unfold gateDeploy
  split
  · exact hgo h
  · exact answered_refuseFrame a kind _ ((waitsForReply l).wakeByFrame h)
  all_goals exact answered_refuseFrame a kind _ h

theorem answered_consoleMove (f : Option MoveFields) (h : Waiting l Config.noticePlaces s) :
    AnsweredByRefusal l kindMove a (consoleMove s a f) := by
  cases f with
  | none => exact answered_refuseFrame a kindMove .range h
  | some f =>
    exact Quiet.ite (answered_refuseFrame a kindMove .range h)
      (answered_gateDeploy a kindMove (answered_pastDeploy a kindMove f.priority ((waitsForReply l).tryMove a _ _)) h)

theorem answered_consoleSelect (f : Option SelectFields) (h : Waiting l Config.noticePlaces s) :
    AnsweredByRefusal l kindSelect a (consoleSelect s a f) := by
  cases f with
  | none => exact answered_refuseFrame a kindSelect .range h
  | some f =>
    exact answered_gateDeploy a kindSelect (answered_pastDeploy a kindSelect f.priority ((waitsForReply l).trySelect a _)) h

theorem answered_consoleJog (f : Option JogFields) (h : Waiting l Config.noticePlaces s) :
    AnsweredByRefusal l kindJog a (consoleJog s a f) := by
  cases f with
  | none => exact answered_refuseFrame a kindJog .range h
  | some f =>
    refine Quiet.ite (answered_refuseFrame a kindJog .range h) (answered_gateDeploy a kindJog (fun h => Quiet.ite ?reload ?attempt) h)
    case reload => exact answered_of_waiting a kindJog ((waitsForReply l).openRun a f.dir h)
    case attempt => exact answered_pastDeploy a kindJog f.priority ((waitsForReply l).tryJog a _ _) h

theorem answered_consoleStop (p : Option Priority) (h : Waiting l Config.noticePlaces s) :
    AnsweredByRefusal l kindStop a (consoleStop s a p) := by
  cases p with
  | none => exact answered_refuseFrame a kindStop .range h
  | some p =>
    unfold consoleStop
    dsimp only
    split
    · exact answered_of_waiting a kindStop h
    · exact answered_of_waiting a kindStop h
    · exact answered_of_waiting a kindStop h
    all_goals exact answered_of_waiting a kindStop ((waitsForReply l).stopByOwner a h)

end

/-- Settles O11, by the kind of the frame. -/
theorem driveFramesAreAnsweredOnlyByRefusals : Obligations.DriveFramesAreAnsweredOnlyByRefusals := by
  intro c kind a s hk h
  have w := waiting_listens h
  cases c <;> simp only [Instr.driveKind, reduceCtorEq, Option.some.injEq, Prod.mk.injEq] at hk
  all_goals obtain ⟨rfl, rfl⟩ := hk
  case consoleMove f => exact completes_of_listens h rfl (answered_consoleMove _ f w)
  case consoleJog f => exact completes_of_listens h rfl (answered_consoleJog _ f w)
  case consoleStop p => exact completes_of_listens h rfl (answered_consoleStop _ p w)
  case consoleSelect f => exact completes_of_listens h rfl (answered_consoleSelect _ f w)
  case consoleChannel => exact completes_of_listens h rfl (answered_refuseFrame _ kindChannel .owner w)
  case consoleOtherKind => exact completes_of_listens h rfl (answered_refuseFrame _ _ .ignored w)

end Sys2Proof.Machine
end

section
/-! A console MOVE and a console SELECT on an axis of NONE or CONSOLE: sent, or refused by the first of steps 3 to 6 that fails
(R7, R8, R47 to R53, R61). -/

namespace Sys2Proof.Machine

/-! ## What steps 3 to 6 answer (R48 to R51) -/

section
variable {s : State} {a : Axis} {target : Option Int} {x : Int}

theorem gateSteps_unready (h : ¬ s.movable a) : gateSteps s a target = .error (.state, s) := by
  have unready : gateReady s a = false := Bool.eq_false_iff.mpr fun e => h ((gateReady_iff s a).mp e)
  unfold gateSteps
  rw [unready]
  rfl

theorem gateSteps_outOfRange (hm : s.movable a) (h : ¬ ∃ x, target = some x ∧ gateRange s a x = true) :
    gateSteps s a target = .error (.range, s) := by
  unfold gateSteps
  rw [(gateReady_iff s a).mpr hm]
  cases target with
  | none => rfl
  | some x =>
    have out : gateRange s a x = false := Bool.eq_false_iff.mpr fun e => h ⟨x, rfl, e⟩
    dsimp only
    rw [out]
    rfl

theorem gateSteps_windy (hm : s.movable a) (hr : gateRange s a x = true) (h : ¬ gateWind s a x = true) :
    gateSteps s a (some x) = .error (.wind, s) := by
  unfold gateSteps
  dsimp only
  rw [(gateReady_iff s a).mpr hm, hr, Bool.eq_false_iff.mpr h]
  rfl

theorem gateSteps_passed (hm : s.movable a) (hr : gateRange s a x = true) (hw : gateWind s a x = true)
    (hc : (moveCheck s a x).1 = false) : gateSteps s a (some x) = .ok (x, s) := by
  unfold gateSteps
  dsimp only
  rw [(gateReady_iff s a).mpr hm, hr, hw, moveCheck_allowed hc]
  rfl

end

/-! ## An attempt on an axis of NONE or CONSOLE (R47, R61) -/

theorem runAttempt_ok {s t : State} {attempt : State → Attempt} (e : attempt s = .ok t) (a : Axis) (kind : Nat)
    (suspended closed : Bool) : runAttempt s a kind suspended closed attempt = t := by
  unfold runAttempt
  rw [e]

/-- R61: an attempt past step 2 that is refused, `u` the state with the hits it has counted. -/
theorem runAttempt_turnedAway {s u : State} {a : Axis} {why : Reason} {attempt : State → Attempt} (h : u.listens)
    (hj : u.jog a = s.jog a) (e : attempt (closeRun s a) = .error (why, closeRun u a)) (kind : Nat) :
    runAttempt (closeRun s a) a kind false (s.jog a).isSome attempt =
      (u.turnedAway a).queues (.reply kind (axisNode a) (some why) .none) := by
  unfold runAttempt
  rw [e, ← hj]
  exact refuseLate_turnedAway h a kind why

/-- R48 to R51: a frame whose attempt is refused wherever steps 3 to 6 refuse is turned away by the first of them that fails. -/
theorem turnsAway_of_gateSteps {s : State} {a : Axis} {kind : Nat} {target : Option Int} {i : Instr} (h : s.listens)
    (refuses : ∀ {why u}, u.listens → u.jog a = s.jog a → gateSteps (closeRun s a) a target = .error (why, closeRun u a) →
      exec i s = .next ((u.turnedAway a).queues (.reply kind (axisNode a) (some why) .none))) :
    s.turnsAway a kind target i := by
  unfold State.turnsAway
  intro r range wind refused
  have inRange {x : Int} (hx : target = some x) (hr : range) : gateRange s a x = true := by
    obtain ⟨y, hy, lo, hi, hm⟩ := hr
    cases hx.symm.trans hy
    exact (gateRange_iff s a x).mpr ⟨⟨lo, hi⟩, hm⟩
  refine ⟨fun hm => ?state, fun hm hr => ?range, fun hm hr hw => ?wind, fun x hm hr hw hx hp hb => ?zone⟩
  case state => exact refuses h rfl (gateSteps_unready (s := closeRun s a) hm)
  case range =>
    refine refuses h rfl (gateSteps_outOfRange (s := closeRun s a) hm ?_)
    rintro ⟨x, hx, hg⟩
    obtain ⟨⟨lo, hi⟩, top⟩ := (gateRange_iff s a x).mp hg
    exact hr ⟨x, hx, lo, hi, top⟩
  case wind =>
    obtain ⟨x, hx, -⟩ := id hr
    subst hx
    refine refuses h rfl (gateSteps_windy (s := closeRun s a) hm (inRange rfl hr) fun hg => hw fun hmast y row hy hrow => ?_)
    cases hy
    exact (gateWind_iff s a x).mp hg hmast row hrow
  case zone =>
    subst hx
    refine refuses (u := s.hitBy a x) h rfl (gateSteps_blocked (s := closeRun s a) hm (inRange rfl hr) ?_ hp hb)
    exact (gateWind_iff s a x).mpr fun hmast row hrow => hw hmast x row rfl hrow

/-- R5, R47: the record of an axis of NONE or CONSOLE once it is the console's. -/
def AxisRec.forConsole (r : AxisRec) : AxisRec := if r.owner = .none then r.taken .console else r

theorem AxisRec.forConsole_cases (r : AxisRec) (ho : r.owner = .none ∨ r.owner = .console) :
    r.forConsole = { r with owner := .console } ∨
      r.owner = .none ∧ r.motion = .jogging ∧
        r.forConsole = { r.setTarget r.sel r.jogTarget with motion := .moving, jogTarget := none, owner := .console } := by
  unfold AxisRec.forConsole AxisRec.taken
  rcases ho with ho | ho
  · rw [if_pos ho]
    by_cases hj : r.motion = .jogging
    · rw [if_pos hj]; exact .inr ⟨ho, hj, rfl⟩
    · rw [if_neg hj]; exact .inl rfl
  · rw [if_neg (by rw [ho]; decide), ← ho]; exact .inl rfl

/-- R5: an axis that is not JOGGING for NONE changes its owner alone. -/
theorem AxisRec.forConsole_eq {r : AxisRec} (ho : r.owner = .none ∨ r.owner = .console)
    (hm : r.motion = .jogging → r.owner = .console) : r.forConsole = { r with owner := .console } := by
  rcases r.forConsole_cases ho with e | ⟨hn, hj, -⟩
  · exact e
  · exact absurd (hm hj) (by rw [hn]; decide)

theorem AxisRec.forConsole_keeps (r : AxisRec) (ho : r.owner = .none ∨ r.owner = .console) :
    r.forConsole.owner = .console ∧ r.forConsole.position = r.position ∧ r.forConsole.rateLimit = r.rateLimit ∧
      (r.motion ≠ .off → r.forConsole.motion ≠ .off) ∧ (r.motion ≠ .halted → r.forConsole.motion ≠ .halted) := by
  rcases r.forConsole_cases ho with e | ⟨-, -, e⟩ <;> rw [e]
  · exact ⟨rfl, rfl, rfl, id, id⟩
  · refine ⟨rfl, AxisRec.position_setTarget _ _ _, ?_, fun _ => (by decide : Motion.moving ≠ .off), fun _ => (by decide : Motion.moving ≠ .halted)⟩
    cases r.sel <;> rfl

theorem takeIfFree_closeRun (s : State) (a : Axis) :
    takeIfFree (closeRun s a) a = closeRun (s.setAxis a (s.axis a).forConsole) a := by
  unfold takeIfFree AxisRec.forConsole
  show (if (s.axis a).owner = .none then axsTake (closeRun s a) .console a else closeRun s a) = _
  split
  next ho =>
    unfold axsTake
    rw [if_neg (show ¬ ((closeRun s a).axis a).owner = .console by rw [show ((closeRun s a).axis a).owner = .none from ho]; decide)]
    unfold closeRun State.withMgt
    simp only [State.setAxis, State.withAxs, Mgt.set_set]
    rfl
  next =>
    unfold State.setAxis State.axis
    rw [Axs.set_get]
    rfl

/-- R7: AXS accepts the move of an axis that the console has taken where the gate has passed it. -/
theorem accepts_forConsole {s : State} {a : Axis} {x : Int} {rate : Nat} (hm : s.movable a)
    (ho : (s.axis a).owner = .none ∨ (s.axis a).owner = .console) (hx : inFull a x = true) (hr : 0 < rate) :
    (closeRun (s.setAxis a (s.axis a).forConsole) a).accepts .console a x rate := by
  obtain ⟨off, halted, position, full⟩ := hm
  obtain ⟨owner, position', -, off', halted'⟩ := (s.axis a).forConsole_keeps ho
  have record : (closeRun (s.setAxis a (s.axis a).forConsole) a).axis a = (s.axis a).forConsole := State.axis_setAxis_self s a _
  have channels : channelsFull (closeRun (s.setAxis a (s.axis a).forConsole) a) a = channelsFull s a := by
    unfold channelsFull closeRun
    simp only [State.chan_withMgt, State.chan_setAxis]
  unfold State.accepts
  dsimp only
  rw [record, channels, position']
  exact ⟨owner, off' off, halted' halted, full, position, hx, hr⟩

theorem gateRate_forConsole (s : State) (a : Axis) (ho : (s.axis a).owner = .none ∨ (s.axis a).owner = .console)
    (rate : Option Nat) : gateRate (closeRun (s.setAxis a (s.axis a).forConsole) a) a rate =
      capped (rate.getD (s.axis a).rateLimit) (rateCap s.wsm a) := by
  obtain ⟨-, -, limit, -⟩ := (s.axis a).forConsole_keeps ho
  unfold gateRate
  rw [show (closeRun (s.setAxis a (s.axis a).forConsole) a).axis a = (s.axis a).forConsole from State.axis_setAxis_self s a _, limit]
  rfl

theorem withMove_closeRun (s : State) (a : Axis) (p q : AxisRec) (x : Int) (rate : Nat) :
    (closeRun (s.setAxis a p) a).withMove a q x rate =
      { s with
        axs := s.axs.set a
          { q with
            motion := .moving, jogTarget := none, stopping := false, stopMoved := false, arrivalTimer := some q.arrivalLimit }
        mgt := s.mgt.set a none
        out := { s.out with drive := s.out.drive ++ [.move a x (min rate q.rateLimit)] } } := by
  unfold State.withMove closeRun State.withMgt State.setAxis State.withAxs
  simp only [Axs.set_set, Mgt.set_set, ite_self]

/-! ## MOVE (R52) -/

section
variable {s : State} {a : Axis} (hd : s.dsq.deploy = .deployed)
  (ho : (s.axis a).owner = .none ∨ (s.axis a).owner = .console)
include hd ho

theorem consoleMove_attempts {f : MoveFields} (hf : f.rate ≠ some 0) : consoleMove s a (some f) =
    runAttempt (closeRun s a) a kindMove false (s.jog a).isSome (tryMove a f.target f.rate) := by
  rw [consoleMove_some hf, gateDeploy_attempts hd ho]

theorem consoleSelect_attempts (f : SelectFields) : consoleSelect s a (some f) =
    runAttempt (closeRun s a) a kindSelect false (s.jog a).isSome (trySelect a f.sel) :=
  gateDeploy_attempts hd ho kindSelect f.priority (trySelect a f.sel)

end

theorem tryMove_refused {s u : State} {a : Axis} {x : Int} {why : Reason} (rate : Option Nat)
    (e : gateSteps s a (some x) = .error (why, u)) : tryMove a x rate s = .error (why, u) := by
  unfold tryMove
  rw [e]

/-- R52: a MOVE that passes steps 3 to 6 is sent. -/
theorem tryMove_sent {s : State} {a : Axis} {x : Int} {rate : Option Nat} (hm : s.movable a)
    (ho : (s.axis a).owner = .none ∨ (s.axis a).owner = .console) (e : gateSteps (closeRun s a) a (some x) = .ok (x, closeRun s a))
    (hx : inFull a x = true) (hr : 0 < capped (rate.getD (s.axis a).rateLimit) (rateCap s.wsm a)) :
    tryMove a x rate (closeRun s a) = .ok
      ((closeRun (s.setAxis a (s.axis a).forConsole) a).withMove a
        ((s.axis a).forConsole.setTarget (s.axis a).forConsole.sel (some x)) x
        (capped (rate.getD (s.axis a).rateLimit) (rateCap s.wsm a))) := by
  have record : (closeRun (s.setAxis a (s.axis a).forConsole) a).axis a = (s.axis a).forConsole := State.axis_setAxis_self s a _
  have sent := (axsMoveTo_does _ .console a x _).1 (accepts_forConsole hm ho hx hr)
  unfold tryMove
  rw [e]
  dsimp only
  rw [takeIfFree_closeRun, gateRate_forConsole s a ho, sent, record]
  rfl

/-- R5, R8: what is written for a MOVE takes the place of what a take has written. -/
theorem AxisRec.forConsole_moved (r : AxisRec) (ho : r.owner = .none ∨ r.owner = .console) (x : Int) :
    { r.forConsole.setTarget r.forConsole.sel (some x) with
        motion := .moving, jogTarget := none, stopping := false, stopMoved := false
        arrivalTimer := some (r.forConsole.setTarget r.forConsole.sel (some x)).arrivalLimit } =
      { r.setTarget r.sel (some x) with
        owner := .console, motion := .moving, jogTarget := none, stopping := false, stopMoved := false
        arrivalTimer := some r.arrivalLimit } ∧
    (r.forConsole.setTarget r.forConsole.sel (some x)).rateLimit = r.rateLimit := by
  obtain ⟨motion, owner, position, working, alternate, sel⟩ := r
  rcases AxisRec.forConsole_cases _ ho with e | ⟨-, -, e⟩ <;> rw [e] <;> cases sel <;> exact ⟨rfl, rfl⟩

/-- Settles O14: the MOVE that passes every step, then the step that refuses it. -/
theorem consoleMoveIsSent : Obligations.ConsoleMoveIsSent := by
  intro a f s r rate h hd ho hf
  refine ⟨fun hm lo hi hx hr hmast hc => exec_eq_of_listens h rfl ?sent, turnsAway_of_gateSteps h fun hu hj e => ?refused⟩
  case refused =>
    refine exec_eq_of_listens h rfl ((consoleMove_attempts hd ho hf).trans ?_)
    exact runAttempt_turnedAway hu hj (tryMove_refused f.rate e) kindMove
  case sent =>
    have steps : gateSteps (closeRun s a) a (some f.target) = .ok (f.target, closeRun s a) :=
      gateSteps_passed (s := closeRun s a) hm ((gateRange_iff s a _).mpr ⟨⟨lo, hi⟩, fun e => (hmast e).1⟩)
        ((gateWind_iff s a _).mpr fun e => (hmast e).2) ((moveCheck_closeRun s a a _).trans hc)
    obtain ⟨record, limit⟩ := AxisRec.forConsole_moved r ho f.target
    rw [consoleMove_attempts hd ho hf, runAttempt_ok (tryMove_sent hm ho steps hx hr), withMove_closeRun]
    exact congrArg₂ (fun q n => ({ s with
      axs := s.axs.set a q, mgt := s.mgt.set a none
      out := { s.out with drive := s.out.drive ++ [.move a f.target (min rate n)] } } : State)) record limit

/-! ## SELECT (R53) -/

theorem trySelect_refused {s u : State} {a : Axis} {which : Sel} {why : Reason}
    (e : gateSteps s a ((s.axis a).target which) = .error (why, u)) : trySelect a which s = .error (why, u) := by
  unfold trySelect
  rw [e]

theorem moveRefusal_accepted {s : State} {o : Owner} {a : Axis} {x : Int} {rate : Nat} (h : s.accepts o a x rate) :
    moveRefusal s o a (some x) (some rate) = none := by
  obtain ⟨owner, off, halted, full, position, range, pos⟩ := h
  obtain ⟨p, hp⟩ := Option.isSome_iff_exists.mp position
  unfold moveRefusal
  simp [owner, off, halted, full, hp, range, Nat.ne_of_gt pos]

/-- R7: a SELECT of a target that AXS accepts. -/
theorem axsSelect_accepted {s : State} {o : Owner} {a : Axis} {which : Sel} {x : Int} {rate : Nat} (h : s.accepts o a x rate)
    (ht : (s.axis a).target which = some x) :
    axsSelect s o a which (some rate) = .ok (s.withMove a { s.axis a with sel := which } x rate) := by
  unfold axsSelect
  dsimp only
  rw [ht, moveRefusal_accepted h]
  dsimp only
  unfold sendMove endJog State.withMove
  split <;> rfl

/-- R53: a SELECT that passes steps 3 to 6 is sent. -/
theorem trySelect_sent {s : State} {a : Axis} {which : Sel} {x : Int} (hm : s.movable a)
    (ho : (s.axis a).owner = .none ∨ (s.axis a).owner = .console)
    (owned : (s.axis a).forConsole = { s.axis a with owner := .console }) (ht : (s.axis a).target which = some x)
    (e : gateSteps (closeRun s a) a (some x) = .ok (x, closeRun s a)) (hx : inFull a x = true)
    (hr : 0 < capped (s.axis a).rateLimit (rateCap s.wsm a)) :
    trySelect a which (closeRun s a) = .ok
      ((closeRun (s.setAxis a (s.axis a).forConsole) a).withMove a { s.axis a with sel := which, owner := .console } x
        (capped (s.axis a).rateLimit (rateCap s.wsm a))) := by
  have record : (closeRun (s.setAxis a (s.axis a).forConsole) a).axis a = { s.axis a with owner := .console } :=
    (State.axis_setAxis_self s a _).trans owned
  have named : ((closeRun (s.setAxis a (s.axis a).forConsole) a).axis a).target which = some x := by rw [record]; exact ht
  have sent := axsSelect_accepted (accepts_forConsole hm ho hx hr) named
  unfold trySelect
  rw [show ((closeRun s a).axis a).target which = some x from ht, e]
  dsimp only
  rw [takeIfFree_closeRun, gateRate_forConsole s a ho, Option.getD_none, sent, record]
  rfl

/-- Settles O15: the SELECT that passes every step, then the step that refuses it. -/
theorem consoleSelectIsSent : Obligations.ConsoleSelectIsSent := by
  intro a f s r rate h hd ho
  refine ⟨fun x hmo hm ht lo hi hx hr hmast hc => exec_eq_of_listens h rfl ?sent,
    turnsAway_of_gateSteps h fun hu hj e => ?refused⟩
  case refused =>
    refine exec_eq_of_listens h rfl ((consoleSelect_attempts hd ho f).trans ?_)
    exact runAttempt_turnedAway hu hj (trySelect_refused e) kindSelect
  case sent =>
    have steps : gateSteps (closeRun s a) a (some x) = .ok (x, closeRun s a) :=
      gateSteps_passed (s := closeRun s a) hm ((gateRange_iff s a _).mpr ⟨⟨lo, hi⟩, fun e => (hmast e).1⟩)
        ((gateWind_iff s a _).mpr fun e => (hmast e).2) ((moveCheck_closeRun s a a _).trans hc)
    have owned : r.forConsole = { r with owner := .console } := AxisRec.forConsole_eq ho fun hj =>
      hmo.elim (fun e => absurd (hj.symm.trans e) (by decide)) (Or.elim · (fun e => absurd (hj.symm.trans e) (by decide)) And.right)
    rw [consoleSelect_attempts hd ho, runAttempt_ok (trySelect_sent hm ho owned ht steps hx hr), withMove_closeRun]

end Sys2Proof.Machine
end

section
/-! A console JOG: the boundary, the limit and the refusals of Table 3-4, and the run (R9, R33, R48, R57 to R61). -/

namespace Sys2Proof.Machine

/-! ## The nearest bound in a direction (R33, R58) -/

/-- The nearest of some bounds for a travel in a direction. -/
def NearestIn (dir : Dir) (l : List Int) (x : Int) : Prop := x ∈ l ∧ ∀ y ∈ l, if dir = .up then x ≤ y else y ≤ x

theorem nearestIn_singleton (dir : Dir) (x : Int) : NearestIn dir [x] x := by
  cases dir <;> simp [NearestIn]

/-- The nearer of two bounds stands for both. -/
theorem nearestIn_nearer (dir : Dir) (x y : Int) (l : List Int) (b : Int) :
    NearestIn dir (nearer dir x y :: l) b ↔ NearestIn dir (x :: y :: l) b := by
  unfold NearestIn nearer
  rw [List.forall_mem_cons, List.forall_mem_cons, List.forall_mem_cons, List.mem_cons, List.mem_cons, List.mem_cons]
  generalize (b ∈ l) = rest
  generalize (∀ y ∈ l, if dir = .up then b ≤ y else y ≤ b) = nearest
  cases dir <;> simp only [reduceCtorEq, if_true, if_false] <;> grind

/-- One more bound, where there is one. -/
theorem nearestIn_nearerOpt {dir : Dir} {l : List Int} {x : Int} (h : NearestIn dir l x) (o : Option Int) :
    NearestIn dir (l ++ o.toList) ((nearerOpt dir (some x) o).getD x) := by
  cases o with
  | none => simpa [nearerOpt] using h
  | some y =>
    unfold NearestIn at h ⊢
    cases dir <;> simp only [nearerOpt, nearer, Option.getD_some, Option.toList_some] <;> grind

theorem foldl_nearerOpt {α : Type} (dir : Dir) (f : α → Option Int) (l : List α) (best : Option Int) (b : Int) :
    l.foldl (fun best z => nearerOpt dir best (f z)) best = some b ↔ NearestIn dir (best.toList ++ l.filterMap f) b := by
  induction l generalizing best with
  | nil =>
    cases best with
    | none => simp [NearestIn]
    | some x => exact ⟨fun h => Option.some.inj h ▸ nearestIn_singleton dir x, fun h => congrArg some (List.mem_singleton.mp h.1).symm⟩
  | cons z l ih =>
    rw [List.foldl_cons, ih, List.filterMap_cons]
    cases f z with
    | none => cases best <;> rfl
    | some y =>
      cases best with
      | none => rfl
      | some x => exact nearestIn_nearer dir x y _ b

theorem foldl_nearerOpt_none {α : Type} (dir : Dir) (f : α → Option Int) (l : List α) (best : Option Int) :
    l.foldl (fun best z => nearerOpt dir best (f z)) best = none ↔ best = none ∧ ∀ z ∈ l, f z = none := by
  induction l generalizing best with
  | nil => simp
  | cons z l ih =>
    have both : nearerOpt dir best (f z) = none ↔ best = none ∧ f z = none := by
      cases best <;> cases f z <;> simp [nearerOpt]
    rw [List.foldl_cons, ih, both, List.forall_mem_cons, and_assoc]

/-! ## The boundary (R33) -/

/-- R33: the candidate of a zone that bounds the travel. -/
def boundaryOf (s : State) (a : Axis) (start : Int) (dir : Dir) (z : Zone) : Option Int :=
  if zoneBounds s z a then zoneEdge z a start dir else none

theorem boundaryOf_eq_some_iff (s : State) (a : Axis) (start : Int) (dir : Dir) (z : Zone) (x : Int) :
    boundaryOf s a start dir z = some x ↔ zoneBounds s z a = true ∧ zoneEdge z a start dir = some x := by
  unfold boundaryOf
  split <;> simp [*]

theorem extentQuery_eq_foldl (s : State) (a : Axis) (start : Int) (dir : Dir) : extentQuery s a start dir =
    s.zones.foldl (fun best z => nearerOpt dir best (boundaryOf s a start dir z)) none := by
  unfold extentQuery boundaryOf
  congr 1
  funext best z
  split
  · rfl
  · cases best <;> rfl

theorem extentQuery_eq_some_iff (s : State) (a : Axis) (start : Int) (dir : Dir) (b : Int) : extentQuery s a start dir = some b ↔
    NearestIn dir (s.zones.filterMap (boundaryOf s a start dir)) b := by
  rw [extentQuery_eq_foldl]
  exact foldl_nearerOpt dir _ _ none b

theorem extentQuery_eq_none_iff (s : State) (a : Axis) (start : Int) (dir : Dir) : extentQuery s a start dir = none ↔
    ∀ z ∈ s.zones, boundaryOf s a start dir z = none := by
  rw [extentQuery_eq_foldl, foldl_nearerOpt_none]
  exact and_iff_right rfl

/-- R33: a zone bounds the travel where its ranges on the other axes overlap. -/
theorem zoneBounds_iff (s : State) (z : Zone) (a : Axis) : zoneBounds s z a = true ↔
    z.valid = true ∧
    (a ≠ .pan → if z.arcFrom ≤ z.arcTo then (axisSpan s .pan).1 ≤ z.arcTo ∧ z.arcFrom ≤ (axisSpan s .pan).2
      else z.arcFrom ≤ (axisSpan s .pan).2 ∨ (axisSpan s .pan).1 ≤ z.arcTo) ∧
    (a ≠ .tilt → (axisSpan s .tilt).1 ≤ z.tiltHigh ∧ z.tiltLow ≤ (axisSpan s .tilt).2) ∧
    (a ≠ .mast → (axisSpan s .mast).1 ≤ z.heightHigh ∧ z.heightLow ≤ (axisSpan s .mast).2) := by
  unfold zoneBounds
  simp only [Bool.and_eq_true, Bool.or_eq_true, decide_eq_true_eq, overlapsArc_iff, overlaps_iff, ← or_iff_not_imp_left, and_assoc]

/-- The range of a zone on an axis of Table 2-5, low end. -/
def Zone.lowOn (z : Zone) (a : Axis) : Int :=
  match a with
  | .pan => z.arcFrom
  | .tilt => z.tiltLow
  | .mast | .pol => z.heightLow

/-- The range of a zone on an axis of Table 2-5, high end. -/
def Zone.highOn (z : Zone) (a : Axis) : Int :=
  match a with
  | .pan => z.arcTo
  | .tilt => z.tiltHigh
  | .mast | .pol => z.heightHigh

/-- Table 2-5: the candidate of a zone. -/
theorem zoneEdge_eq_some_iff (z : Zone) (a : Axis) (start : Int) (dir : Dir) (x : Int) : zoneEdge z a start dir = some x ↔
    a ≠ .pol ∧ x = (if dir = .up then z.lowOn a else z.highOn a) ∧
      (if a = .pan ∧ z.arcTo < z.arcFrom then z.arcTo < start ∧ start < z.arcFrom
        else if dir = .up then start < z.lowOn a else z.highOn a < start) := by
  cases a <;> cases dir <;> simp [zoneEdge, Zone.lowOn, Zone.highOn, and_comm, eq_comm] <;> grind

theorem extentQuery_pol (s : State) (start : Int) (dir : Dir) : extentQuery s .pol start dir = none := by
  rw [extentQuery_eq_none_iff]
  intro z _
  unfold boundaryOf
  exact ite_self _

/-! ## The limit and the refusals (Table 3-4) -/

section
variable (s : State) (a : Axis) (dir : Dir)

/-- R58: the bounds of step 4. -/
def rangeBounds : List Int := softBound (s.axis a) dir :: if a = .mast ∧ dir = .up then [s.dsq.maxHeight] else []

theorem nearestIn_rangeBound : NearestIn dir (rangeBounds s a dir) (rangeBound s a dir) := by
  unfold rangeBounds rangeBound
  split
  next h =>
    have nearest := nearestIn_nearerOpt (nearestIn_singleton dir (softBound (s.axis a) dir)) (some s.dsq.maxHeight)
    rw [h.2] at nearest ⊢
    exact nearest
  next => exact nearestIn_singleton dir _

/-- R58: the jog limit is the nearest of the bounds. -/
theorem nearestIn_jogLimit (bound : Option Int) :
    NearestIn dir (rangeBounds s a dir ++ (windBound s a dir).toList ++ (bound.map (shortOf (s.axis a) dir)).toList)
      (jogLimit s a dir bound) :=
  nearestIn_nearerOpt (nearestIn_nearerOpt (nearestIn_rangeBound s a dir) _) _

/-- Some of the bounds is not beyond a position. -/
def ShortIn (p : Int) (l : List Int) : Prop := ∃ x ∈ l, ¬ if dir = .up then p < x else x < p

theorem beyond_iff (p x : Int) : beyond dir p x = true ↔ if dir = .up then p < x else x < p := by
  cases dir <;> simp [beyond]

theorem shortIn_nearest {p x : Int} {l : List Int} (h : NearestIn dir l x) : ShortIn dir p l ↔ beyond dir p x = false := by
  rw [← Bool.not_eq_true, beyond_iff]
  unfold ShortIn NearestIn at *
  cases dir <;> grind

theorem shortIn_toList {p : Int} (o : Option Int) : ShortIn dir p o.toList ↔ o.any (fun b => !beyond dir p b) = true := by
  cases o with
  | none => simp [ShortIn]
  | some x => simp [ShortIn, ← beyond_iff]

/-- R58: the first of steps 4 to 6 that has a bound not beyond the position refuses the JOG. -/
theorem jogRefusal_eq (p : Int) (bound : Option Int) :
    let wind := (windBound s a dir).toList
    let zone := (bound.map (shortOf (s.axis a) dir)).toList
    (ShortIn dir p (rangeBounds s a dir) → jogRefusal s a dir p bound = some .range) ∧
    (¬ ShortIn dir p (rangeBounds s a dir) → ShortIn dir p wind → jogRefusal s a dir p bound = some .wind) ∧
    (¬ ShortIn dir p (rangeBounds s a dir) → ¬ ShortIn dir p wind → ShortIn dir p zone →
      jogRefusal s a dir p bound = some .zone) ∧
    (¬ ShortIn dir p (rangeBounds s a dir) → ¬ ShortIn dir p wind → ¬ ShortIn dir p zone →
      jogRefusal s a dir p bound = none) := by
  dsimp only
  rw [shortIn_nearest dir (nearestIn_rangeBound s a dir), shortIn_toList, shortIn_toList, Option.any_map]
  unfold jogRefusal
  have passes : ¬ beyond dir p (rangeBound s a dir) = false → ¬ (!beyond dir p (rangeBound s a dir)) = true := by simp
  refine ⟨fun hr => ?_, fun hr hw => ?_, fun hr hw hz => ?_, fun hr hw hz => ?_⟩
  · rw [hr]; rfl
  · rw [if_neg (passes hr), if_pos hw]
  · rw [if_neg (passes hr), if_neg hw, if_pos hz]
  · rw [if_neg (passes hr), if_neg hw, if_neg hz]

end

/-! ## The attempt (R48, R58, R59) -/

section
variable {s : State} {a : Axis} {dir : Dir} {rate : Nat} {p : Int}

theorem tryJog_unready (h : ¬ s.movable a) : tryJog a dir rate s = .error (.state, s) := by
  have unready : gateReady s a = false := Bool.eq_false_iff.mpr fun e => h ((gateReady_iff s a).mp e)
  unfold tryJog
  rw [unready]

/-- R58: a JOG with a bound that is not beyond the position. -/
theorem tryJog_short (hm : s.movable a) (hp : (s.axis a).position = some p) {why : Reason}
    (hw : jogRefusal s a dir p (extentQuery s a p dir) = some why) :
    tryJog a dir rate s = .error (why, countBoundary s a why (extentQuery s a p dir)) := by
  unfold tryJog
  rw [(gateReady_iff s a).mpr hm, hp]
  dsimp only
  rw [hw]

section
variable (hm : s.movable a) (hp : (s.axis a).position = some p)
  (hw : jogRefusal s a dir p (extentQuery s a p dir) = none)
include hm hp hw

/-- R30: a limit outside the soft range. -/
theorem tryJog_outOfRange (hs : inSoft s a (jogLimit s a dir (extentQuery s a p dir)) = false) :
    tryJog a dir rate s = .error (.range, s) := by
  unfold tryJog
  rw [(gateReady_iff s a).mpr hm, hp]
  dsimp only
  rw [hw, hs]
  rfl

/-- R59: a limit that the zones block. -/
theorem tryJog_blocked (hs : inSoft s a (jogLimit s a dir (extentQuery s a p dir)) = true)
    (hb : (moveCheck s a (jogLimit s a dir (extentQuery s a p dir))).1 = true) :
    tryJog a dir rate s = .error (.zone, s.hitBy a (jogLimit s a dir (extentQuery s a p dir))) := by
  unfold tryJog
  rw [(gateReady_iff s a).mpr hm, hp]
  dsimp only
  rw [hw, hs, hb, moveCheck_hits _ _ ((moveCheck_blocked _ _ _).mp hb).1]
  rfl

/-- R59: a limit that passes. -/
theorem tryJog_passed (hs : inSoft s a (jogLimit s a dir (extentQuery s a p dir)) = true)
    (hb : (moveCheck s a (jogLimit s a dir (extentQuery s a p dir))).1 = false) :
    tryJog a dir rate s = jogMove (takeIfFree s a) a dir (jogLimit s a dir (extentQuery s a p dir)) rate := by
  unfold tryJog
  rw [(gateReady_iff s a).mpr hm, hp]
  dsimp only
  rw [hw, hs, moveCheck_allowed hb]
  rfl

end

/-- R9, R59: the JOG MOVE that AXS accepts, and the run. -/
theorem jogMove_sent {x : Int} (hm : s.movable a) (ho : (s.axis a).owner = .none ∨ (s.axis a).owner = .console)
    (owned : (s.axis a).forConsole = { s.axis a with owner := .console }) (hx : inFull a x = true)
    (hr : 0 < capped rate (rateCap s.wsm a)) :
    jogMove (takeIfFree (closeRun s a) a) a dir x rate = .ok
      { s with
        axs := s.axs.set a
          { s.axis a with
            owner := .console, motion := .jogging, jogTarget := some x, stopping := false, stopMoved := false
            arrivalTimer := some (s.axis a).arrivalLimit }
        mgt := s.mgt.set a (some ⟨dir, s.mgt.deadmanTime⟩)
        out := { s.out with drive := s.out.drive ++
          [.move a x (min (capped rate (rateCap s.wsm a)) (s.axis a).rateLimit)] } } := by
  have record : (closeRun (s.setAxis a (s.axis a).forConsole) a).axis a = { s.axis a with owner := .console } :=
    (State.axis_setAxis_self s a _).trans owned
  have unrefused := moveRefusal_accepted (accepts_forConsole (rate := capped rate (rateCap s.wsm a)) hm ho hx hr)
  unfold jogMove axsJogMove
  rw [takeIfFree_closeRun, gateRate_forConsole s a ho, Option.getD_some, unrefused, record]
  unfold openRun closeRun sendDrive State.withMgt State.withOut State.setAxis State.withAxs
  simp only [Axs.set_set, Mgt.set_set, Mgt.deadmanTime_set]
  rfl

end

/-! ## The frame (R57, R60, R61) -/

theorem runsIn_iff (s : State) (a : Axis) (dir : Dir) : runsIn s a dir = true ↔ ∃ old, s.jog a = some old ∧ old.dir = dir := by
  unfold runsIn
  simp [Option.any_eq_true]

section
variable {s : State} {a : Axis} {f : JogFields} (hd : s.dsq.deploy = .deployed) (hf : f.rate ≠ 0)
include hd hf

theorem consoleJog_deployed : consoleJog s a (some f) =
    if runsIn s a f.dir then openRun s a f.dir else pastDeploy s a kindJog f.priority (tryJog a f.dir f.rate) := by
  show (if f.rate = 0 then _ else gateDeploy s a kindJog _) = _
  rw [if_neg hf]
  unfold gateDeploy
  rw [hd]

/-- R60: a JOG of an open run's direction. -/
theorem consoleJog_reloads (h : ∃ old, s.jog a = some old ∧ old.dir = f.dir) : consoleJog s a (some f) = openRun s a f.dir := by
  rw [consoleJog_deployed hd hf, if_pos ((runsIn_iff s a f.dir).mpr h)]

theorem consoleJog_attempts (h : ∀ old, s.jog a = some old → old.dir ≠ f.dir)
    (ho : (s.axis a).owner = .none ∨ (s.axis a).owner = .console) : consoleJog s a (some f) =
      runAttempt (closeRun s a) a kindJog false (s.jog a).isSome (tryJog a f.dir f.rate) := by
  have gate := gateDeploy_attempts hd ho kindJog f.priority (tryJog a f.dir f.rate)
  rw [consoleJog_deployed hd hf, if_neg fun e => ?_, ← gate]
  · unfold gateDeploy
    rw [hd]
  · obtain ⟨old, hj, he⟩ := (runsIn_iff s a f.dir).mp e
    exact h old hj he

end

/-- Settles O16: the frame, then the limit and its refusals, then the boundary. -/
theorem consoleJogOpensOrHoldsARun : Obligations.ConsoleJogOpensOrHoldsARun := by
  intro a f s r rate run
  refine ⟨fun h hd hf => ⟨fun hj => ?reload, fun p hj ho hmo hp full => ?opens, fun hj ho => ?refusals⟩,
    fun p bound => ?limit, fun start => ?boundary⟩
  case reload => exact exec_eq_of_listens h rfl (consoleJog_reloads hd hf hj)
  case opens =>
    intro bound limit hw lo hi hc hx hr
    have hm : s.movable a := by
      refine ⟨?_, ?_, by rw [hp]; rfl, full⟩ <;> rcases hmo with e | e | ⟨e, -⟩ <;> exact e.trans_ne (by decide)
    have owned : r.forConsole = { r with owner := .console } := AxisRec.forConsole_eq ho fun hj =>
      hmo.elim (fun e => absurd (hj.symm.trans e) (by decide)) (Or.elim · (fun e => absurd (hj.symm.trans e) (by decide)) And.right)
    have passed := tryJog_passed (s := closeRun s a) (rate := f.rate) hm hp hw ((inSoft_iff s a limit).mpr ⟨lo, hi⟩)
      ((moveCheck_closeRun s a a limit).trans hc)
    refine exec_eq_of_listens h rfl ?_
    rw [consoleJog_attempts hd hf hj ho, runAttempt_ok (passed.trans (jogMove_sent hm ho owned hx hr))]
    rfl
  case refusals =>
    have turned {why : Reason} {u : State} (hu : u.listens) (hj' : u.jog a = s.jog a)
        (e : tryJog a f.dir f.rate (closeRun s a) = .error (why, closeRun u a)) :
        exec (.consoleJog a (some f)) s = .next ((u.turnedAway a).queues (.reply 2 (axisNode a) (some why) .none)) :=
      exec_eq_of_listens h rfl ((consoleJog_attempts hd hf hj ho).trans (runAttempt_turnedAway hu hj' e kindJog))
    refine ⟨fun hm => turned h rfl (tryJog_unready (s := closeRun s a) hm), fun p hm hp => ?_⟩
    intro bound limit within
    refine ⟨fun why hw hz => ?short, fun b hw hb => ?zone, fun hw hn => ?range, fun hw hin hc => ?blocked⟩
    case short =>
      refine turned h rfl ((tryJog_short (s := closeRun s a) hm hp hw).trans ?_)
      unfold countBoundary
      split
      · exact absurd rfl hz
      · rfl
    case zone =>
      have notPol : a ≠ .pol := by
        rintro rfl
        exact absurd (hb.symm.trans (extentQuery_pol s p f.dir)) (by simp)
      refine turned (u := s.hitBy a b) h rfl ((tryJog_short (s := closeRun s a) hm hp hw).trans ?_)
      show Except.error (_, countBoundary (closeRun s a) a .zone bound) = _
      rw [hb]
      exact congrArg (fun u => Except.error (Reason.zone, u)) (moveCheck_hits (closeRun s a) b notPol)
    case range =>
      refine turned h rfl (tryJog_outOfRange (s := closeRun s a) hm hp hw (Bool.eq_false_iff.mpr fun e => hn ?_))
      exact (inSoft_iff s a limit).mp e
    case blocked =>
      exact turned (u := s.hitBy a limit) h rfl (tryJog_blocked (s := closeRun s a) hm hp hw
        ((inSoft_iff s a limit).mpr hin) ((moveCheck_closeRun s a a limit).trans hc))
  case limit =>
    intro nearest short margin raised range wind zone
    have bounds : rangeBounds s a f.dir = range := by
      show _ :: _ = _ :: _
      congr 1
      cases f.dir <;> rfl
    have caps : (windBound s a f.dir).toList = wind := by
      show (if raised then _ else _ : Option Int).toList = if raised then _ else _
      split <;> rfl
    have margins : (bound.map (shortOf r f.dir)).toList = zone := by
      show _ = (bound.map _).toList
      congr 2
      funext b
      cases f.dir <;> rfl
    have limit := nearestIn_jogLimit s a f.dir bound
    have refusals := jogRefusal_eq s a f.dir p bound
    dsimp only at refusals
    rw [bounds, caps, margins] at limit refusals
    exact ⟨limit, refusals⟩
  case boundary =>
    intro bounds candidate
    have member (b : Int) : b ∈ s.zones.filterMap (boundaryOf s a start f.dir) ↔ ∃ z ∈ s.zones, bounds z ∧ candidate z b := by
      simp only [List.mem_filterMap, boundaryOf_eq_some_iff, zoneBounds_iff, zoneEdge_eq_some_iff]
      exact Iff.rfl
    refine ⟨fun b => ?_, ?_⟩
    · rw [extentQuery_eq_some_iff]
      refine and_congr (member b) ⟨fun near z hz hb x hx => near x ((member x).mpr ⟨z, hz, hb, hx⟩), fun near x hx => ?_⟩
      obtain ⟨z, hz, hb, hc⟩ := (member x).mp hx
      exact near z hz hb x hc
    · rw [extentQuery_eq_none_iff]
      refine ⟨fun none z hz hb x hx => ?_, fun none z hz => Option.eq_none_iff_forall_ne_some.mpr fun x hx => ?_⟩
      · have found := (member x).mpr ⟨z, hz, hb, hx⟩
        obtain ⟨y, hy, e⟩ := List.mem_filterMap.mp found
        exact absurd (e.symm.trans (none y hy)) (by simp)
      · obtain ⟨y, hy, hb, hc⟩ := (member x).mp (List.mem_filterMap.mpr ⟨z, hz, hx⟩)
        exact none y hy hb x hc

end Sys2Proof.Machine
end

section
/-! A STOP from the console, and the timers of the motion gate and of the sensors (R11, R44, R54 to R56, R62, R91). -/

namespace Sys2Proof.Machine

/-! ## The STOP of an axis, by its motion (R11) -/

section
variable {s : State} {a : Axis}

theorem axsStop_off (h : (s.axis a).motion = .off) : axsStop s a = s := by unfold axsStop; rw [h]

theorem axsStop_halted (h : (s.axis a).motion = .halted) : axsStop s a = sendDrive s (.stop a) := by unfold axsStop; rw [h]

theorem axsStop_atRest (h : (s.axis a).motion = .idle ∨ (s.axis a).motion = .moving ∨ (s.axis a).motion = .jogging) :
    axsStop s a = s.withStop a := by
  rcases h with hi | hm | hj
  · exact axsStop_eq_withStop (.inl hi)
  · exact axsStop_eq_withStop (.inr hm)
  · exact axsStop_of_travelling (by unfold AxisRec.travelling; rw [hj]; rfl)

/-- R63: a run that the STOP closes may have been closed before. -/
theorem withStop_closeRun (s : State) (a : Axis) : (closeRun s a).withStop a = s.withStop a := by
  unfold closeRun State.withStop State.withMgt
  simp only [Mgt.set_set]
  rfl

theorem axis_axsStop_ne (s : State) {a b : Axis} (h : b ≠ a) : (axsStop s a).axis b = s.axis b := by
  unfold axsStop
  split
  · rfl
  · rfl
  all_goals exact State.axis_setAxis_ne s _ h

theorem jog_axsStop (s : State) (a : Axis) (h : s.jog a = none) : (axsStop s a).jog a = none := by
  unfold axsStop
  split
  · exact h
  · exact h
  all_goals exact Mgt.get_set_self s.mgt a none

theorem drive_axsStop (s : State) (a : Axis) :
    (axsStop s a).out.drive = s.out.drive ++ if (s.axis a).motion = .off then [] else [.stop a] := by
  unfold axsStop
  split
  next h => rw [h, if_pos rfl, List.append_nil]
  all_goals
    rename_i h
    rw [h]
    rfl

theorem axis_withStop (s : State) (a : Axis) : (s.withStop a).axis a = (s.axis a).stopped := Axs.get_set_self s.axs a _

end

/-! ## The deadman timer and the sensors' silence (R62, R91) -/

/-- Settles O57, timer by timer. -/
theorem deadmanAndSensorWatchesRunOut : Obligations.DeadmanAndSensorWatchesRunOut := by
  intro s h
  refine ⟨fun a run open_ => ?deadman, fun room => ⟨fun wind => ?wind, fun slope => ?slope⟩⟩
  case deadman =>
    intro r hm
    refine exec_eq_of_running h rfl ?_
    have rest : r.motion = .idle ∨ r.motion = .moving ∨ r.motion = .jogging := hm.elim (.inr ∘ .inr) .inl
    have unmoved : decide (r.motion = .moving) = false := by rcases hm with e | e <;> rw [e] <;> rfl
    unfold deadmanExpiry
    rw [open_, if_pos (by rfl), axsStop_atRest (s := closeRun s a) rest, withStop_closeRun]
    unfold State.withStop
    dsimp only
    rw [show decide ((s.axis a).motion = .moving) = false from unmoved, Bool.false_or]
  case wind =>
    refine exec_eq_of_running h rfl ?_
    unfold wsmWindSilent
    rw [if_pos wind]
    exact raise_room (s := s.withWsm { s.wsm with windWatch := none }) _ room
  case slope =>
    refine exec_eq_of_running h rfl ?_
    unfold wsmSlopeSilent
    rw [if_pos slope]
    exact raise_room (s := s.withWsm { s.wsm with slopeWatch := none, lastSlope := none, slopeState := .none }) _ room

/-! ## A STOP (R44, R54 to R56) -/

theorem consoleStop_byOwner {s : State} (a : Axis) (p : Priority)
    (h : s.dsq.deploy = .deployed ∨ s.dsq.deploy = .raising ∨ s.dsq.deploy = .lowering ∨ s.dsq.deploy = .held) :
    consoleStop s a (some p) = stopByOwner s a := by
  unfold consoleStop
  rcases h with e | e | e | e <;> rw [e]

section
variable {s : State} {a : Axis}

theorem closeRun_takeIfFree (s : State) (a : Axis) :
    closeRun (takeIfFree s a) a = closeRun (s.setAxis a (s.axis a).forConsole) a := by
  unfold takeIfFree AxisRec.forConsole
  split
  next e =>
    unfold axsTake
    rw [if_neg (by rw [e]; decide)]
    unfold closeRun State.withMgt
    simp only [Mgt.set_set]
  next =>
    unfold State.setAxis State.axis
    rw [Axs.set_get]
    rfl

/-- R54: the axis of NONE or CONSOLE is the console's before it is stopped. -/
theorem stopByOwner_console (ho : (s.axis a).owner = .console ∨ (s.axis a).owner = .none ∧ (s.axis a).motion ≠ .jogging) :
    stopByOwner s a = axsStop (closeRun (s.setAxis a { s.axis a with owner := .console }) a) a := by
  have free : (s.axis a).owner = .none ∨ (s.axis a).owner = .console := ho.elim .inr fun h => .inl h.1
  have owned : (s.axis a).forConsole = { s.axis a with owner := .console } :=
    AxisRec.forConsole_eq free fun hj => ho.elim id fun h => absurd hj h.2
  have takes : stopByOwner s a = axsStop (closeRun (takeIfFree s a) a) a := by
    unfold stopByOwner
    rcases free with e | e <;> rw [e]
  rw [takes, closeRun_takeIfFree, owned]

theorem stopByOwner_search (ho : (s.axis a).owner = .search) : stopByOwner s a = axsStop (overrideTake s a) a := by
  unfold stopByOwner; rw [ho]

theorem stopByOwner_other (ho : (s.axis a).owner = .sequence ∨ (s.axis a).owner = .wind) : stopByOwner s a = stopForOwner s a := by
  unfold stopByOwner
  rcases ho with e | e <;> rw [e]

/-- R56: the owner of a MOVING axis is told. -/
theorem stopForOwner_moving (hm : (s.axis a).motion = .moving) : stopForOwner s a = tellConsoleStop (s.withStop a) a := by
  unfold stopForOwner
  rw [if_pos hm, axsStop_eq_withStop (.inr hm)]

theorem stopForOwner_unmoving (hm : (s.axis a).motion = .idle ∨ (s.axis a).motion = .jogging) :
    stopForOwner s a = s.withStop a := by
  unfold stopForOwner
  rw [if_neg fun e => ?_, axsStop_atRest (hm.imp_right .inr)]
  rcases hm with h | h <;> exact absurd (h.symm.trans e) (by decide)

/-- R56, R84: a STOP of a MOVING axis of SEQUENCE, outside HELD. -/
theorem tellConsoleStop_sequence (ho : (s.axis a).owner = .sequence)
    (hd : s.dsq.deploy = .deployed ∨ s.dsq.deploy = .raising ∨ s.dsq.deploy = .lowering) :
    tellConsoleStop (s.withStop a) a = heldEntry (s.withStop a) .stopped := by
  unfold tellConsoleStop
  rw [axis_withStop, show (s.axis a).stopped.owner = .sequence from ho]
  unfold sequenceFault
  rw [show (s.withStop a).dsq = s.dsq from rfl]
  rcases hd with e | e | e <;> rw [e]

/-- R56: a STOP of MAST in a wind lowering. -/
theorem tellConsoleStop_wind (ho : (s.axis .mast).owner = .wind) :
    tellConsoleStop (s.withStop .mast) .mast = endLowering (s.withStop .mast) .windStopped := by
  unfold tellConsoleStop
  rw [axis_withStop, show (s.axis .mast).stopped.owner = .wind from ho]

/-- R46, R55: what a frame with override has done to a running acquisition and to PAN, TILT and POL. -/
def TakenFromSearch (c : Ctx) (a : Axis) (t : State) : Prop :=
  t.suspended c .override ∧ (∀ b : Axis, b ≠ .mast → b ≠ a → (t.axis b).owner = .none ∧ (t.axis b).motion ≠ .moving) ∧
    (t.axis a).owner = .console ∧ t.jog a = none

theorem takenFromSearch_overrideTake {c : Ctx} (hc : s.acq.ctx = some c) (ho : (s.axis a).owner = .search) :
    TakenFromSearch c a (overrideTake s a) := by
  obtain ⟨suspended, released, owner, run, -⟩ := overrideSearch_does a hc ho
  exact ⟨suspended, released, owner, run⟩

theorem takenFromSearch_axsStop {c : Ctx} (h : TakenFromSearch c a s) : TakenFromSearch c a (axsStop s a) := by
  obtain ⟨suspended, released, owner, run⟩ := h
  have only := onlyAxes_axsStop s a
  refine ⟨?_, fun b hb hne => ?_, (owner_axsStop s a a).trans owner, jog_axsStop s a run⟩
  · unfold State.suspended
    rw [only.acq, only.txc]
    exact suspended
  · rw [axis_axsStop_ne s hne]
    exact released b hb hne

/-- R4, R56: the end of a wind lowering, with room for its notice. -/
theorem endLowering_room (n : Notice) (h : s.roomy) : endLowering s n = (axsRelease s .mast).noticed n :=
  raise_room (s := axsRelease s .mast) n h

theorem AxisRec.motion_taken (r : AxisRec) (o : Owner) :
    (r.taken o).motion = if r.motion = .jogging then .moving else r.motion := by
  unfold AxisRec.taken
  split <;> rfl

end

/-- Settles O17, by the owner of the axis. -/
theorem consoleStopIsCarriedOut : Obligations.ConsoleStopIsCarriedOut := by
  intro a p s r stop stopped atRest h hd
  have carried {t : State} (e : stopByOwner s a = t) : exec (.consoleStop a (some p)) s = .next t :=
    exec_eq_of_listens h rfl ((consoleStop_byOwner a p hd).trans e)
  have motion : ((closeRun (s.setAxis a { s.axis a with owner := .console }) a).axis a).motion = r.motion :=
    (congrArg AxisRec.motion (State.axis_setAxis_self s a { s.axis a with owner := .console })).trans rfl
  refine ⟨fun ho => ⟨fun hm => carried ?rest, fun hm => carried ?halted, fun hm => carried ?off⟩, fun c ho hc => ?search,
    fun ho hm => carried ?unmoving, fun ho hm hheld => ?sequence, fun ha ho hm room => carried ?wind⟩
  case rest =>
    rw [stopByOwner_console ho, axsStop_atRest (by rw [motion]; exact hm), withStop_closeRun]
    unfold State.withStop
    dsimp only
    rw [State.axis_setAxis_self]
    unfold State.setAxis State.withAxs
    simp only [Axs.set_set]
    rfl
  case halted =>
    rw [stopByOwner_console ho, axsStop_halted (motion.trans hm)]
    rfl
  case off =>
    rw [stopByOwner_console ho, axsStop_off (motion.trans hm)]
    rfl
  case search =>
    refine ⟨_, carried (stopByOwner_search ho), ?_⟩
    dsimp only
    obtain ⟨-, -, -, -, drive, record, -⟩ := overrideSearch_does a hc ho
    obtain ⟨suspended, released, owner, run⟩ := takenFromSearch_axsStop (takenFromSearch_overrideTake hc ho)
    have moves := (congrArg AxisRec.motion record).trans (AxisRec.motion_taken r .console)
    generalize overrideTake s a = u at *
    refine ⟨suspended, released, owner, run, fun hm => ?_, ?_⟩
    · have taken : (u.axis a).motion = .idle ∨ (u.axis a).motion = .moving := by
        rw [moves]
        rcases hm with e | e | e <;> rw [e] <;> decide
      rw [axsStop_eq_withStop taken, axis_withStop]
      exact ⟨rfl, rfl⟩
    · have same : (u.axis a).motion = .off ↔ r.motion = .off := by
        rw [moves]
        cases r.motion <;> decide
      rw [drive_axsStop, drive]
      simp only [same]
  case unmoving => exact (stopByOwner_other ho).trans (stopForOwner_unmoving hm)
  case sequence =>
    have outside : s.dsq.deploy = .deployed ∨ s.dsq.deploy = .raising ∨ s.dsq.deploy = .lowering := by
      rcases hd with e | e | e | e
      · exact .inl e
      · exact .inr (.inl e)
      · exact .inr (.inr e)
      · exact absurd e hheld
    obtain ⟨dsq, axes, ⟨frames, drive⟩, -⟩ := heldEntry_does (s.withStop a) .stopped hheld
    refine ⟨_, carried (((stopByOwner_other (.inl ho)).trans (stopForOwner_moving hm)).trans
      (tellConsoleStop_sequence ho outside)), ?_⟩
    dsimp only
    rw [dsq]
    refine ⟨rfl, rfl, rfl, rfl, axes, frames, drive.trans ?_⟩
    exact List.append_assoc s.out.drive [.stop a] frames
  case wind =>
    subst ha
    rw [stopByOwner_other (.inr ho), stopForOwner_moving hm, tellConsoleStop_wind ho, endLowering_room (s := s.withStop .mast) _ room]
    unfold axsRelease
    rw [axis_withStop]
    rfl

end Sys2Proof.Machine
end

section
/-! MOVE, JOG and SELECT on an axis of another owner (R45, R46). -/

namespace Sys2Proof.Machine

/-! ## The frames up to step 2 (R43 to R45) -/

section
variable {s : State} {a : Axis} (hd : s.dsq.deploy = .deployed) (hj : s.jog a = none)
include hd hj

/-- R61: with no open run of the axis, step 1 in DEPLOYED leads to step 2. -/
theorem gateDeploy_noRun (kind : Nat) (p : Priority) (attempt : State → Attempt) :
    gateDeploy s a kind (fun s => pastDeploy s a kind p attempt) = stepOwner s a kind p false attempt := by
  have unclosed : closeRun s a = s := by
    unfold closeRun State.withMgt
    rw [Mgt.set_none hj]
  unfold gateDeploy
  rw [hd]
  show stepOwner (closeRun s a) a kind p (s.jog a).isSome attempt = _
  rw [unclosed, hj]
  rfl

theorem consoleMove_noRun {f : MoveFields} (hf : f.rate ≠ some 0) :
    consoleMove s a (some f) = stepOwner s a kindMove f.priority false (tryMove a f.target f.rate) := by
  rw [consoleMove_some hf, gateDeploy_noRun hd hj]

theorem consoleSelect_noRun (f : SelectFields) :
    consoleSelect s a (some f) = stepOwner s a kindSelect f.priority false (trySelect a f.sel) :=
  gateDeploy_noRun hd hj kindSelect f.priority (trySelect a f.sel)

theorem consoleJog_noRun {f : JogFields} (hf : f.rate ≠ 0) :
    consoleJog s a (some f) = stepOwner s a kindJog f.priority false (tryJog a f.dir f.rate) := by
  have noRun : ¬ runsIn s a f.dir = true := fun e => by
    obtain ⟨old, ho, -⟩ := (runsIn_iff s a f.dir).mp e
    exact absurd (hj.symm.trans ho) (by simp)
  rw [consoleJog_deployed hd hf, if_neg noRun, ← gateDeploy_noRun hd hj]
  unfold gateDeploy
  rw [hd]

end

/-- R45: the owners that refuse a frame at step 2. -/
theorem stepOwner_refused {s : State} {a : Axis} {p : Priority}
    (h : (s.axis a).owner = .sequence ∨ (s.axis a).owner = .wind ∨ (s.axis a).owner = .search ∧ p = .normal)
    (kind : Nat) (closed : Bool) (attempt : State → Attempt) :
    stepOwner s a kind p closed attempt = refuseFrame s kind (axisNode a) .owner := by
  unfold stepOwner
  rcases h with e | e | ⟨e, rfl⟩ <;> rw [e]

theorem stepOwner_override {s : State} {a : Axis} (h : (s.axis a).owner = .search) (kind : Nat) (closed : Bool)
    (attempt : State → Attempt) :
    stepOwner s a kind .override closed attempt = runAttempt (overrideTake s a) a kind true closed attempt := by
  unfold stepOwner
  rw [h]

/-! ## An attempt on an axis taken from SEARCH (R46) -/

section
variable {s : State} {a : Axis} {c : Ctx} (hc : s.acq.ctx = some c) (ho : (s.axis a).owner = .search)
include hc ho

theorem channelsFull_overrideTake : channelsFull (overrideTake s a) a = channelsFull s a := by
  obtain ⟨-, -, -, -, -, -, channels, -⟩ := overrideSearch_does a hc ho
  unfold channelsFull State.chan
  rw [channels]

theorem axis_overrideTake : (overrideTake s a).axis a = (s.axis a).taken .console := by
  obtain ⟨-, -, -, -, -, record, -⟩ := overrideSearch_does a hc ho
  exact record

/-- R48: the take does not make an axis ready. -/
theorem movable_of_overrideTake (h : (overrideTake s a).movable a) : s.movable a := by
  obtain ⟨off, halted, position, full⟩ := h
  rw [axis_overrideTake hc ho] at off halted position
  rw [AxisRec.motion_taken] at off halted
  rw [AxisRec.position_taken] at position
  rw [channelsFull_overrideTake hc ho] at full
  refine ⟨fun e => off ?_, fun e => halted ?_, position, full⟩ <;> rw [e] <;> rfl

/-- R46: a frame that is refused at step 3 after the take. -/
theorem runAttempt_unready {attempt : State → Attempt} (h : s.listens) (kind : Nat)
    (e : attempt (overrideTake s a) = .error (.state, overrideTake s a)) :
    let t := runAttempt (overrideTake s a) a kind true false attempt
    TakenFromSearch c a t ∧ ((s.axis a).motion = .moving → (t.axis a).motion = .idle ∧ (t.axis a).stopping = true) ∧
      t.lnu.queue.getLast? = some (.reply kind (axisNode a) (some .state) .none) := by
  have taken := takenFromSearch_overrideTake hc ho
  have record := axis_overrideTake hc ho
  have waits := waitsForReply (s.lnu.queue.filter UpFrame.isReply)
  have waiting := waits.overrideTake a (waiting_listens h)
  unfold runAttempt
  rw [e]
  unfold refuseLate
  generalize overrideTake s a = u at *
  have last {v : State} (w : Waiting (s.lnu.queue.filter UpFrame.isReply) Config.noticePlaces v) :
      refuseFrame v kind (axisNode a) .state = v.queues (.reply kind (axisNode a) (some .state) .none) :=
    refuseFrame_room kind _ _ (Nat.lt_of_le_of_lt w.2 (by decide))
  by_cases hm : (u.axis a).motion = .moving
  · simp only [hm, Bool.false_and, Bool.true_and, Bool.or_false, decide_true, if_true]
    rw [last (waits.axsStop a waiting)]
    refine ⟨takenFromSearch_axsStop taken, fun _ => ?_, List.getLast?_concat⟩
    have stopped : (axsStop u a).axis a = (u.axis a).stopped := by
      rw [axsStop_eq_withStop (.inr hm), axis_withStop]
    show ((axsStop u a).axis a).motion = _ ∧ ((axsStop u a).axis a).stopping = _
    rw [stopped]
    exact ⟨rfl, rfl⟩
  · simp only [hm, Bool.false_and, Bool.true_and, Bool.or_false, decide_false, Bool.false_eq_true, if_false]
    rw [last waiting]
    refine ⟨taken, fun moving => absurd ?_ hm, List.getLast?_concat⟩
    rw [record, AxisRec.motion_taken, moving]
    rfl

end

/-! ## Zones that are not valid (R24) -/

theorem zoneHolds_invalid {z : Zone} (h : z.valid = false) (p : Pose) : zoneHolds z p = false :=
  Bool.eq_false_iff.mpr fun e => absurd ((zoneHolds_iff z p).mp e).1 (by rw [h]; decide)

theorem zoneMeets_invalid {z : Zone} (h : z.valid = false) (b : Box) : zoneMeets z b = false :=
  Bool.eq_false_iff.mpr fun e => absurd ((zoneMeets_iff z b).mp e).1 (by rw [h]; decide)

theorem moveBlocker_eq_zoneMeets {s : State} (h : ∀ z ∈ s.zones, z.valid = false) (a : Axis) (x : Int) (z : Zone) :
    moveBlocker s a x z = zoneMeets z (sweptBox s a x) := by
  cases hp : presentPose s with
  | none => exact moveBlocker_noPose a x z hp
  | some start => exact moveBlocker_outside a x z hp fun y hy => zoneHolds_invalid (h y hy) start

theorem moveCheck_invalid {s : State} (h : ∀ z ∈ s.zones, z.valid = false) (a : Axis) (x : Int) : (moveCheck s a x).1 = false :=
  Bool.eq_false_iff.mpr fun e => by
    obtain ⟨-, z, hz, hb⟩ := (moveCheck_blocked s a x).mp e
    rw [moveBlocker_eq_zoneMeets h, zoneMeets_invalid (h z hz)] at hb
    exact Bool.false_ne_true hb

/-! ## A MOVE after the take (R46, R52) -/

/-- R52: a MOVE of an axis of CONSOLE that passes steps 3 to 6. -/
theorem tryMove_owned {s : State} {a : Axis} {x : Int} {rate : Option Nat} (ho : (s.axis a).owner = .console)
    (e : gateSteps s a (some x) = .ok (x, s)) (accepted : s.accepts .console a x (gateRate s a rate)) :
    tryMove a x rate s = .ok (s.withMove a ((s.axis a).setTarget (s.axis a).sel (some x)) x (gateRate s a rate)) := by
  have owned : takeIfFree s a = s := by
    unfold takeIfFree
    exact if_neg (by rw [ho]; decide)
  unfold tryMove
  rw [e]
  dsimp only
  rw [owned, (axsMoveTo_does s .console a x _).1 accepted]
  rfl

theorem takenFromSearch_withMove {s : State} {c : Ctx} {a : Axis} {q : AxisRec} {x : Int} {rate : Nat}
    (h : TakenFromSearch c a s) (hm : (s.axis a).motion ≠ .jogging) (hq : q.owner = .console) :
    TakenFromSearch c a (s.withMove a q x rate) := by
  obtain ⟨suspended, released, -, run⟩ := h
  refine ⟨suspended, fun b hb hne => ?_, ?_, ?_⟩
  · show ((s.axs.set a _).get b).owner = _ ∧ ((s.axs.set a _).get b).motion ≠ _
    rw [Axs.get_set_ne _ _ hne]
    exact released b hb hne
  · show ((s.axs.set a _).get a).owner = _
    rw [Axs.get_set_self]
    exact hq
  · show (if (s.axis a).motion = .jogging then s.mgt.set a none else s.mgt).get a = none
    rw [if_neg hm]
    exact run

/-- Settles O20, by the owner of the axis and then by the kind of the frame. -/
theorem consoleMotionOnAnotherOwnersAxis : Obligations.ConsoleMotionOnAnotherOwnersAxis := by
  intro a s h hd hj r refused
  refine ⟨fun f hf hr => ?move, fun f hf hr => ?jog, fun f hr => ?select, fun c ho hc => ?search⟩
  case move => exact exec_of_refuseFrame h rfl ((consoleMove_noRun hd hj hf).trans (stepOwner_refused hr _ _ _))
  case jog => exact exec_of_refuseFrame h rfl ((consoleJog_noRun hd hj hf).trans (stepOwner_refused hr _ _ _))
  case select => exact exec_of_refuseFrame h rfl ((consoleSelect_noRun hd hj f).trans (stepOwner_refused hr _ _ _))
  case search =>
    intro taken turnedAway
    have frame {i : Instr} {f : State → State} {kind : Nat} {attempt : State → Attempt} {Q : State → Prop}
        (e : exec i s = .next (onConsole f s)) (hf : f s = stepOwner s a kind .override false attempt)
        (hQ : Q (runAttempt (overrideTake s a) a kind true false attempt)) : completes i s Q :=
      completes_of_listens h e (by rw [hf, stepOwner_override ho]; exact hQ)
    refine ⟨fun unready => ?unready, fun target rate hmast full position hm lo hi inRange hrate pos invalid => ?sent⟩
    case unready =>
      have unmovable : ¬ (overrideTake s a).movable a := fun m => by
        obtain ⟨off, halted, position, full⟩ := movable_of_overrideTake hc ho m
        rcases unready with e | e | e | e
        · exact absurd (full.symm.trans e) (by decide)
        · exact absurd (show r.position.isSome = true from position) (by rw [e]; decide)
        · exact halted e
        · exact off e
      refine ⟨fun t rate hr => ?_, fun d rate hr => ?_, fun which => ?_⟩
      · exact frame rfl (consoleMove_noRun hd hj hr) (runAttempt_unready hc ho h _ (tryMove_refused rate (gateSteps_unready unmovable)))
      · exact frame rfl (consoleJog_noRun hd hj hr) (runAttempt_unready hc ho h _ (tryJog_unready unmovable))
      · exact frame rfl (consoleSelect_noRun hd hj _) (runAttempt_unready hc ho h _ (trySelect_refused (gateSteps_unready unmovable)))
    case sent =>
      have record : (overrideTake s a).axis a = { r with owner := .console } :=
        (axis_overrideTake hc ho).trans (AxisRec.taken_at_rest hm _)
      have search := takenFromSearch_overrideTake hc ho
      have channels := (channelsFull_overrideTake hc ho).trans full
      obtain ⟨-, -, -, -, -, -, -, -, wsm, zones⟩ := overrideSearch_does a hc ho
      refine frame rfl (consoleMove_noRun hd hj hrate) ?_
      generalize overrideTake s a = u at *
      have owned : (u.axis a).owner = .console := by rw [record]
      have motion : (u.axis a).motion = .idle ∨ (u.axis a).motion = .moving := by rw [record]; exact hm
      have present : (u.axis a).position.isSome = true := by rw [record]; exact position
      have ends : (u.axis a).softMin ≤ target ∧ target ≤ (u.axis a).softMax := by rw [record]; exact ⟨lo, hi⟩
      have rated : gateRate u a rate = capped (rate.getD r.rateLimit) (rateCap s.wsm a) := by unfold gateRate; rw [record, wsm]
      have off : (u.axis a).motion ≠ .off := by rcases motion with e | e <;> rw [e] <;> decide
      have halted : (u.axis a).motion ≠ .halted := by rcases motion with e | e <;> rw [e] <;> decide
      have unjogged : (u.axis a).motion ≠ .jogging := by rcases motion with e | e <;> rw [e] <;> decide
      have steps : gateSteps u a (some target) = .ok (target, u) :=
        gateSteps_passed ⟨off, halted, present, channels⟩ ((gateRange_iff u a target).mpr ⟨ends, fun e => absurd e hmast⟩)
          ((gateWind_iff u a target).mpr fun e => absurd e hmast) (moveCheck_invalid (by rw [zones]; exact invalid) a target)
      have accepted : u.accepts .console a target (gateRate u a rate) :=
        ⟨owned, off, halted, channels, present, inRange, by rw [rated]; exact pos⟩
      rw [runAttempt_ok (tryMove_owned owned steps accepted), rated]
      refine ⟨takenFromSearch_withMove search unjogged ((AxisRec.owner_setTarget _ _ _).trans owned), ?_, ?_, ?_⟩
      · show ((u.axs.set a _).get a).motion = _
        rw [Axs.get_set_self]
      · show ((u.axs.set a _).get a).selected = _
        rw [Axs.get_set_self]
        exact AxisRec.selected_setTarget_sel (u.axis a) (some target)
      · refine List.getLast?_concat.trans ?_
        rw [record]
        cases r.sel <;> rfl

end Sys2Proof.Machine
end

section
/-! Console frames for an axis in the deploy states other than DEPLOYED (R43, R44, R83, R98, R168). -/

namespace Sys2Proof.Machine

/-! ## The gate of step 1 (R43) -/

section
variable {s : State} {a : Axis}

theorem gateDeploy_closed (kind : Nat) (go : State → State)
    (hd : s.dsq.deploy = .unknown ∨ s.dsq.deploy = .stowed ∨ s.dsq.deploy = .raising ∨ s.dsq.deploy = .lowering ∨
      s.dsq.deploy = .held) : gateDeploy s a kind go = refuseFrame s kind (axisNode a) .state := by
  unfold gateDeploy
  rcases hd with e | e | e | e | e <;> rw [e]

theorem gateDeploy_parked (kind : Nat) (go : State → State) (hd : s.dsq.deploy = .parked) :
    gateDeploy s a kind go = refuseFrame (wakeByFrame s) kind (axisNode a) .state := by
  unfold gateDeploy
  rw [hd]

theorem consoleJog_some {f : JogFields} (hf : f.rate ≠ 0) : consoleJog s a (some f) =
    gateDeploy s a kindJog fun s =>
      if runsIn s a f.dir then openRun s a f.dir else pastDeploy s a kindJog f.priority (tryJog a f.dir f.rate) := if_neg hf

theorem consoleSelect_some (f : SelectFields) : consoleSelect s a (some f) =
    gateDeploy s a kindSelect fun s => pastDeploy s a kindSelect f.priority (trySelect a f.sel) := rfl

/-- R44: the states in which a STOP has no effect. -/
theorem consoleStop_ignored (p : Priority) (hd : s.dsq.deploy = .unknown ∨ s.dsq.deploy = .stowed ∨ s.dsq.deploy = .parked) :
    consoleStop s a (some p) = s := by
  unfold consoleStop
  rcases hd with e | e | e <;> rw [e]

end

/-! ## The wake by a console frame (R43, R83) -/

/-- R42: the wake leaves a place for the refusal of the frame. -/
theorem refuseFrame_wakeByFrame {s : State} (h : s.listens) (kind node : Nat) (why : Reason) :
    refuseFrame (wakeByFrame s) kind node why = (wakeByFrame s).queues (.reply kind node (some why) .none) :=
  have woken := (waitsForReply (s.lnu.queue.filter UpFrame.isReply)).wakeByFrame (waiting_listens h)
  refuseFrame_room kind node why (Nat.lt_of_le_of_lt woken.2 (by decide))

/-- R13, R83: every channel is set to FULL. -/
theorem axsChannels_full (s : State) : axsChannels s (fun _ _ => some .full) =
    { s with axs := s.awake.axs, out := { s.out with drive := s.awake.out.drive } } := by
  unfold axsChannels allChannels
  simp only [List.foldl]
  rw [show Channel.lift = moveChannel .mast from rfl, show Channel.pan = moveChannel .pan from rfl,
    show Channel.tilt = moveChannel .tilt from rfl, show Channel.pol = moveChannel .pol from rfl,
    axsChannel_full s .mast, axsChannel_lock_full, axsChannel_full _ .pan, axsChannel_full _ .tilt, axsChannel_full _ .pol]
  unfold sendDrive State.withOut State.withAxs State.awake
  simp only [List.append_assoc, List.cons_append, List.nil_append]
  rfl

/-- R66, R83: outside HOLD the wake of the part ends with the change of the deploy state. -/
theorem wakeUp_calm {s : State} (h : s.wsm.gust ≠ .hold) : wakeUp s =
    setDeploy { s with axs := s.awake.axs, out := { s.out with drive := s.awake.out.drive } } .deployed := by
  unfold wakeUp
  rw [axsChannels_full]
  exact enterDeploy_calm .deployed h

/-- R43, R83: a wake outside HOLD with no PARK entry on top. -/
theorem wakeByFrame_unparked {s : State} (hg : s.wsm.gust ≠ .hold)
    (hn : ∀ e rest, s.acq.stack = e :: rest → e.cause ≠ .park) :
    (wakeByFrame s).dsq = { s.dsq with deploy := .deployed } ∧ (wakeByFrame s).acq = s.acq ∧
      (∀ ch : Channel, (wakeByFrame s).chan ch = .full) ∧ ((wakeByFrame s).ntu.get .deploy).latest = some .deployAwake ∧
      (wakeByFrame s).txc.deploy = .deployed := by
  have told := latest_raise s .deployAwake
  obtain ⟨acq, dsq, -, -, -, wsm, -⟩ := raise_elsewhere s .deployAwake
  unfold wakeByFrame
  generalize raise s .deployAwake = w at *
  rw [wakeUp_calm (by rw [wsm]; exact hg), acqWake_none fun e rest he => hn e rest (by rw [← acq]; exact he)]
  refine ⟨?_, acq, fun ch => by cases ch <;> rfl, told, (judged_keeps _ _).1.trans (congrArg Prod.fst (Txc.handedFields_handDeploy w.txc .deployed))⟩
  rw [← dsq]
  rfl

/-! ## The wake in HOLD, and with a PARK entry on top (R98, R168) -/

section
variable {w : State} (hd : w.txc.deploy ≠ .deployed)
include hd

/-- R168: a wake outside HOLD that pops a PARK entry. -/
theorem wake_resumes {e : StackEntry} {rest : List StackEntry} {x : Entry} (hg : w.wsm.gust ≠ .hold)
    (hs : w.acq.stack = e :: rest) (hp : e.cause = .park) (hc : w.acq.ctx = none) (hx : w.sites[e.row]? = some x)
    (hxs : x.state = .suspended) (hf : w.awake.slewFree)
    (hal : w.awake.slewAllowed (w.awake.wakeSlew e x).1.1 (w.awake.wakeSlew e x).1.2) :
    w.awake.resumesAtWake e x (acqWake (wakeUp w)) ∧ (acqWake (wakeUp w)).ntu.get .deploy = w.ntu.get .deploy := by
  have calm : rejudgeInHold w.awake = w.awake := if_neg hg
  rw [wakeUp_awake hd, calm]
  obtain ⟨resumes, told⟩ := acqWake_resumes (s := w.awake) hs hp hg hc hx hxs hf hal
  exact ⟨resumes, told .deploy (by decide)⟩

/-- R98: a wake in HOLD re-judges. -/
theorem wakeUp_inHold (hg : w.wsm.gust = .hold) : wakeUp w = rejudge w.awake := by
  rw [wakeUp_awake hd]
  exact if_pos hg

/-- R98, R168: a wake in HOLD with no PARK entry to keep. -/
theorem wake_keepsNone (hg : w.wsm.gust = .hold) (hk : w.awake.keepsNone) : w.awake.windHolds false (acqWake (wakeUp w)) := by
  rw [wakeUp_inHold hd hg, acqWake_none ((keepsNone_iff rfl).mp hk)]
  exact windHolds_rejudge w.awake

/-- R98, R168: a wake in HOLD that keeps a PARK entry. -/
theorem wake_keeps {e : StackEntry} {rest : List StackEntry} (hg : w.wsm.gust = .hold) (hk : ¬ w.awake.keepsNone)
    (hs : w.acq.stack = e :: rest) : w.awake.keepsAtWake e (acqWake (wakeUp w)) := by
  have unstowed : ¬ w.awake.windCallsStow := fun x => hk (.inr (.inl x))
  have idle : w.awake.acq.ctx = none := by
    by_contra x
    exact hk (.inl x)
  have park : e.cause = .park := by
    by_contra x
    refine hk (.inr (.inr fun e' rest' h => ?_))
    cases hs.symm.trans h
    exact x
  have judged := windHolds_rejudge w.awake
  obtain ⟨-, -, inDeployed⟩ := id judged
  obtain ⟨-, -, same, -⟩ := inDeployed unstowed rfl
  obtain ⟨sites, wsm⟩ := rejudge_elsewhere unstowed idle
  have acq : (rejudge w.awake).acq = w.acq := same idle
  rw [wakeUp_inHold hd hg, acqWake_kept (by rw [acq]; exact hs) park (by rw [wsm]; exact hg)]
  refine ⟨⟨_, judged, sameBut_raise _ _⟩, (acq_raise _ _).trans acq, (sites_raise _ _).trans sites, latest_raise _ _⟩

end

/-- The refusal that follows a wake is no part of what the wake has done to the stack. -/
theorem keepsAtWake_queues {s t : State} {e : StackEntry} (f : UpFrame) (h : s.keepsAtWake e t) :
    s.keepsAtWake e (t.queues f) := by
  obtain ⟨⟨u, judged, pending, same⟩, acq, sites, told⟩ := h
  refine ⟨⟨u, judged, pending, fun b hb => ?_⟩, acq, sites, told⟩
  cases b with
  | lnu => exact absurd hb (by decide)
  | _ => exact same _ hb

/-- Settles O19: the gate of step 1, then the wake. -/
theorem consoleMotionOutsideDeployed : Obligations.ConsoleMotionOutsideDeployed := by
  intro a s h woken wakes
  refine ⟨fun hd => ⟨fun f hf => ?move, fun f hf => ?jog, fun f => ?select⟩, fun hd p => ?stop, fun hd => ?parked⟩
  case move => exact exec_of_refuseFrame h rfl ((consoleMove_some hf).trans (gateDeploy_closed kindMove _ hd))
  case jog => exact exec_of_refuseFrame h rfl ((consoleJog_some hf).trans (gateDeploy_closed kindJog _ hd))
  case select => exact exec_of_refuseFrame h rfl ((consoleSelect_some f).trans (gateDeploy_closed kindSelect _ hd))
  case stop => exact exec_eq_of_listens h rfl (consoleStop_ignored p hd)
  case parked =>
    have frame {i : Instr} {f go : State → State} {kind : Nat} (e : exec i s = .next (onConsole f s))
        (hf : f s = gateDeploy s a kind go) : wakes i kind := by
      have wakesTo {Q : State → Prop} (hQ : Q ((wakeByFrame s).queues (.reply kind (axisNode a) (some .state) .none))) :
          completes i s Q := by
        refine completes_of_listens h e ?_
        rw [hf, gateDeploy_parked kind go hd, refuseFrame_wakeByFrame h]
        exact hQ
      refine ⟨fun hg hn => wakesTo ?unparked, fun agrees room => ?held⟩
      case unparked =>
        obtain ⟨dsq, acq, chan, told, txc⟩ := wakeByFrame_unparked hg hn
        generalize wakeByFrame s = u at *
        exact ⟨dsq, acq, chan, told, txc, List.getLast?_concat⟩
      case held =>
        have asleep : (raise s .deployAwake).txc.deploy ≠ .deployed := by
          rw [txc_raise, agrees.1, hd]
          decide
        have told := latest_raise s .deployAwake
        have raised : woken = (raise s .deployAwake).awake := congrArg State.awake (raise_room .deployAwake room).symm
        obtain ⟨acq, -, -, sites, -, wsm, -⟩ := raise_elsewhere s .deployAwake
        rw [raised]
        unfold wakeByFrame at wakesTo
        generalize raise s .deployAwake = w at *
        rw [← wsm, ← acq, ← sites]
        refine ⟨fun e rest x hg hs hp hc hx hxs hf hal => wakesTo ?_, fun hg hk => wakesTo ?_, fun e rest hg hk hs => wakesTo ?_⟩
        · obtain ⟨resumes, kept⟩ := wake_resumes asleep hg hs hp hc hx hxs hf hal
          generalize acqWake (wakeUp w) = u at *
          exact ⟨resumes, (congrArg (·.latest) kept).trans told, List.getLast?_concat⟩
        · exact ⟨_, wake_keepsNone asleep hg hk, rfl⟩
        · have keeps := wake_keeps asleep hg hk hs
          generalize acqWake (wakeUp w) = u at *
          exact ⟨keepsAtWake_queues _ keeps, List.getLast?_concat⟩
    exact ⟨fun f hf => frame rfl (consoleMove_some hf), fun f hf => frame rfl (consoleJog_some hf), fun f => frame rfl (consoleSelect_some f)⟩

end Sys2Proof.Machine
end

section
/-! WIND reports (R90, R91, R93, R95 to R98, R100, R168). -/

namespace Sys2Proof.Machine

/-! ## The enable condition when the gust state is handed to TXC (R95, R173) -/

section
variable {t : Txc} {g : Gust}

theorem Txc.judged_of_condition {o n : Txc} (h : o.condition = n.condition) : o.judged n = n := by
  unfold Txc.judged
  rw [h]
  cases n.condition <;> rfl

theorem Txc.condition_hold (h : t.gust = .hold) : t.condition = false := by
  unfold Txc.condition
  simp [h]

theorem Txc.condition_iff (h : t.gust ≠ .hold) : t.condition = true ↔
    t.deploy = .deployed ∧ t.axisHalted = false ∧ (t.latch = true ∨ (t.tracked = true ∧ t.mute = false)) := by
  unfold Txc.condition
  simp [h, and_assoc, or_comm]

theorem Txc.condition_gust (h : t.gust ≠ .hold) (hg : g ≠ .hold) : ({ t with gust := g } : Txc).condition = t.condition :=
  Bool.eq_iff_iff.mpr (((Txc.condition_iff (t := { t with gust := g }) hg).trans (Txc.condition_iff h).symm))

/-- R95: a change between CALM and WARN. -/
theorem Txc.judged_gust_outside (h : t.gust ≠ .hold) (hg : g ≠ .hold) : t.judged { t with gust := g } = { t with gust := g } :=
  Txc.judged_of_condition (Txc.condition_gust h hg).symm

/-- R97: at the entry to HOLD. -/
theorem Txc.judged_gust_enters (ho : t.ordered) : t.judged { t with gust := .hold } =
    { (if t.txen ∨ t.pending then { t with txen := false, pending := false, panSeen := false, tiltSeen := false } else t : Txc)
      with gust := .hold } := by
  obtain ⟨one, both⟩ := ho
  have dark : ({ t with gust := .hold } : Txc).condition = false := Txc.condition_hold rfl
  cases hc : t.condition with
  | true =>
    have lit : t.txen = true ∨ t.pending = true := by
      rw [hc] at one
      cases ht : t.txen with
      | true => exact .inl rfl
      | false => rw [ht] at one; exact .inr (by simpa using one)
    unfold Txc.judged
    rw [hc, dark, if_pos lit]
    rfl
  | false =>
    have unlit : ¬ (t.txen = true ∨ t.pending = true) := by
      rw [hc] at one
      cases ht : t.txen <;> cases hp : t.pending <;> simp [ht, hp] at one both ⊢
    rw [Txc.judged_of_condition (hc.trans dark.symm), if_neg unlit]

/-- R100: where HOLD is left. -/
theorem Txc.judged_gust_leaves (h : t.gust = .hold) (hg : g ≠ .hold) : t.judged { t with gust := g } =
    { (if t.deploy = .deployed ∧ t.axisHalted = false ∧ (t.latch = true ∨ (t.tracked = true ∧ t.mute = false)) then
        { t with pending := true, panSeen := false, tiltSeen := false } else t : Txc) with gust := g } := by
  have dark := Txc.condition_hold h
  have next := Txc.condition_iff (t := { t with gust := g }) hg
  split
  next pends =>
    unfold Txc.judged
    rw [dark, next.mpr pends]
    rfl
  next rests => exact Txc.judged_of_condition (dark.trans (Bool.eq_false_iff.mpr fun e => rests (next.mp e)).symm)

end

/-! ## A report taken (R90, R95) -/

/-- R95: a change of the gust state, with room for its notice. -/
theorem setGust_room {s : State} {peak : Nat} (g : Gust) (room : s.roomy) (hp : s.wsm.gustValue = some peak) :
    setGust s g = ({ s with
      wsm := { s.wsm with gust := g }, txc := s.txc.judged { s.txc with gust := g } } : State).noticed (.windState g peak) := by
  have carried : gustCarried s = peak := by unfold gustCarried; rw [hp]; rfl
  unfold setGust
  rw [raise_room (s := txcGust (s.withWsm { s.wsm with gust := g }) g) _ room, carried]
  rfl

theorem wsm_setGust (s : State) (g : Gust) : (setGust s g).wsm = { s.wsm with gust := g } := wsm_raise _ _

/-- R95, Table 5-5: HOLD is left for CALM alone. -/
theorem Wsm.nextGust_of_hold {w : Wsm} (h : w.gust = .hold) : w.nextGust = .hold ∨ w.nextGust = .calm := by
  unfold Wsm.nextGust
  rw [h]
  dsimp only
  split
  · exact .inr rfl
  · exact .inl rfl

section
variable {s : State} {v : Nat} {w : Wsm} {g : Gust} (hw : s.wsm.take v = w) (hg : w.nextGust = g)
include hw hg

/-- R95 to R100: what a report brings about, by the gust state before and after. -/
theorem windTaken_eq : windTaken s v =
    if g = .hold then (if s.wsm.gust = .hold then rejudge (s.withWsm w) else holdEntry (setGust (s.withWsm w) .hold))
    else if s.wsm.gust = .hold then acqHoldCleared (setGust (s.withWsm w) g)
    else if g = s.wsm.gust then s.withWsm w
    else setGust (s.withWsm w) g := by
  have left : s.wsm.gust = .hold → g ≠ .warn := fun e h => by
    rcases Wsm.nextGust_of_hold (w := w) (hw ▸ e) with x | x <;> exact absurd ((hg.symm.trans x).symm.trans h) (by decide)
  unfold windTaken
  dsimp only
  rw [hw, show (s.withWsm w).wsm.nextGust = g from hg]
  cases hs : s.wsm.gust with
  | hold =>
    cases g with
    | warn => exact absurd rfl (left hs)
    | calm => rfl
    | hold => rfl
  | calm => cases g <;> rfl
  | warn => cases g <;> rfl

/-- R90, R95: the monitor after a report. -/
theorem wsm_windTaken : (windTaken s v).wsm = { w with gust := g } := by
  have same : g = s.wsm.gust → { w with gust := g } = w := fun e => by rw [e, ← hw]; rfl
  have kept := (closed_apart apart_wsm { w with gust := g }).engine
  have changed : (setGust (s.withWsm w) g).wsm = { w with gust := g } := wsm_setGust (s.withWsm w) g
  rw [windTaken_eq hw hg]
  split
  next hold =>
    split
    next before => exact kept.rejudge (same (hold.trans before.symm)).symm
    next => exact kept.holdEntry (hold ▸ changed)
  next =>
    split
    next => exact kept.acqHoldCleared changed
    next =>
      split
      next e => exact (same e).symm
      next => exact changed

end

/-! ## Where HOLD is left (R100, R168) -/

section
variable {s : State}

theorem acqHoldCleared_none (h : ∀ e rest, s.acq.stack = e :: rest → e.cause ≠ .gust) : acqHoldCleared s = s := by
  unfold acqHoldCleared
  split
  · rfl
  next e rest he => exact if_pos (h e rest he)

variable {e : StackEntry} {rest : List StackEntry} (h : s.acq.stack = e :: rest) (hc : e.cause = .gust)
include h hc

theorem acqHoldCleared_kept (hd : s.dsq.deploy ≠ .deployed) : acqHoldCleared s = raise s (.resumeKept e.row) := by
  unfold acqHoldCleared
  rw [h]
  exact (if_neg (not_not_intro hc)).trans (if_neg hd)

theorem acqHoldCleared_resumes (hd : s.dsq.deploy = .deployed) : acqHoldCleared s = startSlew (popSaved s e) := by
  unfold acqHoldCleared
  rw [h]
  exact (if_neg (not_not_intro hc)).trans (if_pos hd)

end

theorem resumePose_congr {s u : State} (hs : u.sites = s.sites) (ha : u.axs = s.axs) (e : StackEntry) (p : ResumePhase) :
    resumePose u e p = resumePose s e p := by
  unfold resumePose entryOf State.entry State.axis
  rw [hs, ha]

/-- R179: a frame of the drive line makes a difference to the upstream queue alone. -/
theorem forwards_withLnu (s : State) (node kind : Nat) (payload : List Byte) : ∃ l, s.forwards node kind payload = s.withLnu l := by
  unfold State.forwards
  split
  · exact ⟨_, rfl⟩
  · exact ⟨s.lnu, rfl⟩

/-! ## The frame (R90, R91) -/

theorem exec_wind {s : State} {speed : Int} (h : s.running) :
    exec (.wind speed) s = .next ((wsmWind s speed).forwards 5 0x11 (be16 speed)) := exec_eq_of_running h rfl rfl

theorem wsmWind_taken {s : State} {v : Nat} (h : v ≤ 600) : wsmWind s v = windTaken s v := by
  unfold wsmWind
  rw [if_pos ⟨Int.natCast_nonneg v, by omega⟩, Int.toNat_natCast]

theorem wsmWind_outside {s : State} {speed : Int} (h : speed < 0 ∨ 600 < speed) : wsmWind s speed = s :=
  if_neg (by omega)

/-- R93: the row in force. -/
theorem inForce_iff (w : Wsm) (n : Nat) (r : DerateRow) : w.inForce = some (n, r) ↔
    ∃ g, w.gustValue = some g ∧ w.derate[n]? = some r ∧ r.valid = true ∧ r.floor ≤ g ∧
      ∀ m q, n < m → w.derate[m]? = some q → q.valid = true → g < q.floor := by
  unfold Wsm.inForce
  cases w.gustValue with
  | none => simp
  | some g => simpa using rowIn_spec g w.derate n r

/-- Settles O27: the report, the change of the gust state, then the values read from the monitor. -/
theorem windReportsAreTaken : Obligations.WindReportsAreTaken := by
  intro v speed s w taken gust answers x
  refine ⟨fun h => ⟨fun hv => ?taken, fun out => ?outside⟩, gustValue_iff w, inForce_iff w, rfl, fun a => by cases a <;> rfl,
    fun rate cap => ⟨rfl, rfl⟩⟩
  case outside =>
    rw [exec_wind h, wsmWind_outside out]
  case taken =>
    have hw : s.wsm.take v = taken := by
      unfold Wsm.take runCount
      simp only [decide_eq_true_eq]
      rfl
    have hg : taken.nextGust = gust := rfl
    have become := windTaken_eq hw hg
    have monitor := wsm_windTaken hw hg
    have answered : answers (windTaken s v) := by
      show exec _ _ = _
      rw [exec_wind h, wsmWind_taken hv]
    generalize gust = g at *
    refine ⟨?monitor, fun same calm => ?stays, fun before hold => ?again, fun peak changes ⟨_, handed, _⟩ room hp => ?changes⟩
    case monitor =>
      obtain ⟨l, e⟩ := forwards_withLnu (windTaken s v) 5 0x11 (be16 v)
      exact ⟨_, answered, (congrArg State.wsm e).trans monitor⟩
    case stays =>
      rw [if_neg calm, if_neg (same ▸ calm), if_pos same] at become
      rw [become] at answered
      exact answered
    case again =>
      rw [if_pos hold, if_pos before] at become
      exact ⟨_, windHolds_rejudge _, become ▸ answered⟩
    case changes =>
      intro changed
      have told := setGust_room (s := s.withWsm taken) g room hp
      refine ⟨fun calm before => ?outsideHold, fun hold ordered => ?enters, fun before => ?leaves⟩
      case outsideHold =>
        rw [if_neg calm, if_neg before, if_neg changes, told,
          show (s.withWsm taken).txc = s.txc from rfl, Txc.judged_gust_outside (by rw [handed]; exact before) calm] at become
        rw [become] at answered
        exact answered
      case enters =>
        intro off
        have before : s.wsm.gust ≠ .hold := fun e => changes (hold.trans e.symm)
        subst hold
        rw [if_pos rfl, if_neg before, told, show (s.withWsm taken).txc = s.txc from rfl, Txc.judged_gust_enters ordered] at become
        exact ⟨_, windHolds_holdEntry _, become ▸ answered⟩
      case leaves =>
        intro pends u
        have calm : g ≠ .hold := fun e => changes (e.trans before.symm)
        rw [show (s.withWsm taken).txc = s.txc from rfl, Txc.judged_gust_leaves (handed.trans before) calm] at told
        rw [if_neg calm, if_pos before] at become
        have unchanged : u.acq = s.acq ∧ u.dsq = s.dsq ∧ u.sites = s.sites ∧ u.axs = s.axs := by
          have e : u = setGust (s.withWsm taken) g := told.symm
          rw [e]
          exact ⟨acq_raise _ _, dsq_raise _ _, sites_raise _ _, axs_raise _ _⟩
        rw [show setGust (s.withWsm taken) g = u from told] at become
        clear_value u
        obtain ⟨acq, dsq, sites, axs⟩ := unchanged
        refine ⟨fun hn => ?_, fun e rest hs hc => ⟨fun hd => ?_, fun y pan tilt hd idle hy suspended pose free allowed => ?_⟩⟩
        · rw [acqHoldCleared_none (by rw [acq]; exact hn)] at become
          exact become ▸ answered
        · rw [acqHoldCleared_kept (by rw [acq]; exact hs) hc (by rw [dsq]; exact hd)] at become
          obtain ⟨l, frame⟩ := forwards_withLnu (windTaken s v) 5 0x11 (be16 v)
          refine ⟨_, answered, ?_⟩
          rw [frame, become]
          exact ⟨(acq_raise _ _).trans acq, (sites_raise _ _).trans sites, latest_raise _ _⟩
        · have pops := acqResume_pops (s := u) (by rw [acq]; exact hs) (by rw [acq]; exact idle) (by rw [sites]; exact hy) suspended
            ((resumePose_congr sites axs e e.phase).trans pose) free allowed
          rw [acqHoldCleared_resumes (by rw [acq]; exact hs) hc (by rw [dsq]; exact hd)] at become
          obtain ⟨l, frame⟩ := forwards_withLnu (windTaken s v) 5 0x11 (be16 v)
          refine ⟨_, answered, ?_⟩
          rw [frame, become, ← sites]
          exact pops

end Sys2Proof.Machine
end

section
/-! The levels of PARK_IN and STOW_IN, and the STOW effects that the two lines and the STOW request raise (R77 to R81, R131,
R160, R170, R177). -/

namespace Sys2Proof.Machine

/-! ## The deploy states in which the STOW effects can be raised (R77, R80, R81) -/

section
variable {s : State} (c : WalkCause)

theorem stowIfUp_raises
    (h : s.dsq.deploy = .raising ∨ s.dsq.deploy = .deployed ∨ s.dsq.deploy = .parked ∨ s.dsq.deploy = .held) :
    stowIfUp s c = stowEffects s c := by
  unfold stowIfUp
  rcases h with e | e | e | e <;> rw [e] <;> rfl

theorem stowIfUp_down (h : s.dsq.deploy = .unknown ∨ s.dsq.deploy = .stowed ∨ s.dsq.deploy = .lowering) :
    stowIfUp s c = s := by
  unfold stowIfUp
  rcases h with e | e | e <;> rw [e] <;> rfl

/-- In reset or out of it, a line that asks for the STOW effects in the other states changes nothing. -/
theorem onPart_stowIfUp_down (h : s.dsq.deploy = .unknown ∨ s.dsq.deploy = .stowed ∨ s.dsq.deploy = .lowering) :
    onPart (stowIfUp · c) s = s := by
  unfold onPart
  simp only [stowIfUp_down c h, ite_self]

theorem onPart_stowIfUp_raises (hr : s.running)
    (h : s.dsq.deploy = .raising ∨ s.dsq.deploy = .deployed ∨ s.dsq.deploy = .parked ∨ s.dsq.deploy = .held) :
    onPart (stowIfUp · c) s = stowEffects s c := by
  rw [onPart_running _ hr, stowIfUp_raises c h]

end

/-! ## The two lines (R80, R81) -/

section
variable {s : State}

theorem parkInReleased_still (h : s.dsq.parkIn = false) : parkInReleased s = s := by
  unfold parkInReleased
  rw [h]
  rfl

theorem parkInReleased_falls (h : s.dsq.parkIn = true) :
    parkInReleased s = onPart (stowIfUp · .interlock) { s with dsq := { s.dsq with parkIn := false } } := by
  unfold parkInReleased
  rw [h]
  rfl

theorem stowInAsserted_still (h : s.dsq.stowIn = true) : stowInAsserted s = s := by
  unfold stowInAsserted
  rw [h]
  rfl

theorem stowInAsserted_rises (h : s.dsq.stowIn = false) :
    stowInAsserted s = onPart (stowIfUp · .button) { s with dsq := { s.dsq with stowIn := true } } := by
  unfold stowInAsserted
  rw [h]
  rfl

end

/-- Settles O12, line by line. -/
theorem inputLevelsThatOnlyFollow : Obligations.InputLevelsThatOnlyFollow := by
  intro s
  refine ⟨rfl, rfl, fun h => ?parkStill, fun h => ?stowStill, fun down => ⟨fun h => ?parkFalls, fun h => ?stowRises⟩⟩
  case parkStill => exact congrArg Host.Outcome.next (parkInReleased_still h)
  case stowStill => exact congrArg Host.Outcome.next (stowInAsserted_still h)
  case parkFalls => exact congrArg Host.Outcome.next ((parkInReleased_falls h).trans (onPart_stowIfUp_down .interlock down))
  case stowRises => exact congrArg Host.Outcome.next ((stowInAsserted_rises h).trans (onPart_stowIfUp_down .button down))

/-! ## The STOW request (R77, R181) -/

theorem stowRequest_raises {s : State}
    (h : s.dsq.deploy = .raising ∨ s.dsq.deploy = .deployed ∨ s.dsq.deploy = .parked ∨ s.dsq.deploy = .held) :
    stowRequest s = done (stowEffects s .request) kindStow := by
  unfold stowRequest
  rcases h with e | e | e | e <;> rw [e]

theorem stowRequest_unknown {s : State} (h : s.dsq.deploy = .unknown) : stowRequest s = refuse s kindStow .state := by
  unfold stowRequest
  rw [h]

theorem stowRequest_down {s : State} (h : s.dsq.deploy = .stowed ∨ s.dsq.deploy = .lowering) :
    stowRequest s = done s kindStow := by
  unfold stowRequest
  rcases h with e | e <;> rw [e]

/-- R179: behind frames that have kept it a place, the REPLY DONE joins the queue. -/
theorem done_waiting {l : List UpFrame} {s : State} (h : Waiting l Config.noticePlaces s) (k : Nat) :
    done s k = s.queues (replyDone k) := done_room k (Nat.lt_of_le_of_lt h.2 (by decide))

theorem sameBut_queues (s : State) (f : UpFrame) : sameBut [.ntu, .lnu] s (s.queues f) := by
  refine ⟨rfl, fun b hb => ?_⟩
  cases b with
  | lnu => exact absurd hb (by decide)
  | _ => rfl

theorem done_stowEffects {s : State} (h : s.listens) (c : WalkCause) (k : Nat) :
    done (stowEffects s c) k = (stowEffects s c).queues (replyDone k) :=
  done_waiting ((waitsForReply (s.lnu.queue.filter UpFrame.isReply)).stowEffects c (waiting_listens h)) k

/-- Settles O13: what raises the STOW effects, by its way in, and then the STOW requests that raise none. -/
theorem stowRequestsAndTheStowEffects : Obligations.StowRequestsAndTheStowEffects := by
  intro s raises
  refine ⟨fun h up => ?request, fun hr up hp => ?parkIn, fun hr up hs => ?stowIn, fun h hd => ?unknown, fun h hd => ?down⟩
  case request =>
    refine completes_of_listens h rfl ?_
    obtain ⟨stows, -⟩ := stows_stowEffects (stowFrom_self s) .request
    rw [stowRequest_raises up, done_stowEffects h]
    exact ⟨stows.after (sameBut_queues _ _), List.getLast?_concat⟩
  case parkIn =>
    obtain ⟨stows, level, -⟩ := stows_stowEffects (stowFrom_self { s with dsq := { s.dsq with parkIn := false } }) .interlock
    have line := (parkInReleased_falls hp).trans (onPart_stowIfUp_raises .interlock hr up)
    exact ⟨_, congrArg Host.Outcome.next line, stows, level⟩
  case stowIn =>
    obtain ⟨stows, -, level⟩ := stows_stowEffects (stowFrom_self { s with dsq := { s.dsq with stowIn := true } }) .button
    have line := (stowInAsserted_rises hs).trans (onPart_stowIfUp_raises .button hr up)
    exact ⟨_, congrArg Host.Outcome.next line, stows, level⟩
  case unknown => exact exec_eq_of_listens h rfl ((stowRequest_unknown hd).trans (refuse_listens h _ _))
  case down => exact exec_eq_of_listens h rfl ((stowRequest_down hd).trans (done_listens h _))

end Sys2Proof.Machine
end

section
/-! DEPLOY outside DEPLOYED: the checks of Table 4-7, and the walk it starts (R31, R69 to R75, R77, R79). -/

namespace Sys2Proof.Machine

/-! ## The checks of Table 4-7 (R75) -/

theorem stowedUnhalted_iff (s : State) : ¬ (s.dsq.deploy ≠ .stowed ∨ anyHalted s = true) ↔
    s.dsq.deploy = .stowed ∧ ∀ a : Axis, (s.axis a).motion ≠ .halted := by
  rw [not_or, not_not, Bool.not_eq_true, anyHalted_false_iff]

theorem linesAllow_iff (d : Dsq) : ¬ (!d.parkIn || d.stowIn) = true ↔ d.parkIn = true ∧ d.stowIn = false := by
  cases d.parkIn <;> cases d.stowIn <;> decide

theorem tableLength_ne_zero_iff (l : List Slot) : tableLength l ≠ 0 ↔ ∃ sl ∈ l, sl.deploy.kind ≠ .none := by
  constructor
  · intro h
    obtain ⟨sl, hl, hk⟩ := last_of_tableLength l h
    exact ⟨sl, List.mem_of_getElem? hl, hk⟩
  · rintro ⟨sl, hl, hk⟩
    obtain ⟨n, hn⟩ := List.mem_iff_getElem?.mp hl
    exact Nat.ne_zero_of_lt (lt_tableLength l n sl hn hk)

theorem slopeAllows_iff (w : Wsm) : slopeAllows w = true ↔
    ∃ roll pitch, w.lastSlope = some (roll, pitch) ∧ roll.natAbs ≤ w.slopeLimit ∧ pitch.natAbs ≤ w.slopeLimit := by
  unfold slopeAllows
  simp only [Option.any_eq_true, Prod.exists, Bool.and_eq_true, decide_eq_true_eq]

theorem heightInRange_iff (s : State) (h : Int) :
    heightInRange s h = true ↔ s.dsq.minHeight ≤ h ∧ h ≤ s.dsq.maxHeight := by
  unfold heightInRange
  simp only [Bool.and_eq_true, decide_eq_true_eq]

theorem windAllows_iff (s : State) (h : Int) :
    windAllows s h = true ↔ s.wsm.gust ≠ .hold ∧ ∀ row, s.wsm.caps = some row → h ≤ row.heightCap := by
  unfold windAllows aboveCap
  cases s.wsm.caps <;> simp

/-- A check that refuses where `b` is false passes where the condition that `b` decides holds. -/
theorem not_bool_iff {b : Bool} {p : Prop} (h : b = true ↔ p) : ¬ (!b) = true ↔ p := by
  rw [← h, Bool.not_eq_true', Bool.not_eq_false]

/-! ## The box of the mast path (R31) -/

theorem countedCheck_clear {s : State} {blocks : Zone → Bool} (h : ∀ z ∈ s.zones, blocks z = false) :
    countedCheck s blocks = (false, s) := by
  have same : (s.zones.map fun z => if blocks z then z.hit else z) = s.zones :=
    (List.map_congr_left fun z hz => by rw [h z hz]; rfl).trans (List.map_id' _)
  unfold countedCheck
  rw [same, List.any_eq_false.mpr fun z hz => by rw [h z hz]; decide]
  rfl

theorem deployBox_eq {s : State} {mast pan : Int} (hm : (s.axis .mast).position = some mast)
    (hp : (s.axis .pan).position = some pan) (h : Int) :
    deployBox s h =
      { height := (min mast h, max mast h)
        tilt := (min s.dsq.stowTilt s.dsq.unstowTilt, max s.dsq.stowTilt s.dsq.unstowTilt)
        pan := (min pan s.dsq.stowPan, max pan s.dsq.stowPan) } := by
  unfold deployBox
  rw [hm, hp]
  rfl

/-! ## The request (R75) -/

theorem deployRequest_outside {s : State} (hd : s.dsq.deploy ≠ .deployed) (height : Option Int) :
    deployRequest s height = deployFromStowed s (height.getD s.dsq.defaultHeight) := if_neg hd

theorem deployFromStowed_refused {s : State} {h : Int} {why : Reason} (hl : s.listens) (hr : deployRefusal s h = some why) :
    deployFromStowed s h = s.queues (replyRefused 0x32 why) := by
  unfold deployFromStowed
  rw [hr]
  exact refuse_listens hl _ _

/-- R31: a mast path that meets a zone is refused ZONE with the hits counted. -/
theorem deployFromStowed_blocked {s : State} {h : Int} (hl : s.listens) (hr : deployRefusal s h = none)
    (hz : ∃ z ∈ s.zones, zoneMeets z (deployBox s h) = true) :
    deployFromStowed s h =
      (s.withZones (s.zones.map fun z => if zoneMeets z (deployBox s h) then z.hit else z)).queues
        (replyRefused 0x32 .zone) := by
  have blocked : (boxCheck s (deployBox s h)).1 = true := (countedCheck_blocked s _).mpr hz
  unfold deployFromStowed
  rw [hr]
  dsimp only
  rw [if_pos blocked]
  exact refuse_listens (s := (boxCheck s (deployBox s h)).2) hl _ _

/-- Settles O42, check by check in the order of Table 4-7. -/
theorem deployIsRefusedByTheFirstFailingCheck : Obligations.DeployIsRefusedByTheFirstFailingCheck := by
  intro height s hl hd h refused state interlock sequence slope range wind meets
  have request {t : State} (e : deployFromStowed s h = t) : exec (.deploy height) s = .next t :=
    exec_eq_of_listens hl rfl ((deployRequest_outside hd height).trans e)
  have refuses {why : Reason} (e : deployRefusal s h = some why) : refused why := request (deployFromStowed_refused hl e)
  have c1 := stowedUnhalted_iff s
  have c2 := linesAllow_iff s.dsq
  have c3 := tableLength_ne_zero_iff s.dsq.slots
  have c4 := not_bool_iff (slopeAllows_iff s.wsm)
  have c5 := not_bool_iff (heightInRange_iff s h)
  have c6 := not_bool_iff (windAllows_iff s h)
  have passed (k1 : state) (k2 : interlock) (k3 : sequence) (k4 : slope) (k5 : range) (k6 : wind) : deployRefusal s h = none := by
    unfold deployRefusal
    rw [if_neg (c1.mpr k1), if_neg (c2.mpr k2), if_neg (c3.mpr k3), if_neg (c4.mpr k4), if_neg (c5.mpr k5), if_neg (c6.mpr k6)]
  refine ⟨fun k1 => refuses ?state, fun k1 k2 => refuses ?interlock, fun k1 k2 k3 => refuses ?sequence,
    fun k1 k2 k3 k4 => refuses ?slope, fun k1 k2 k3 k4 k5 => refuses ?range, fun k1 k2 k3 k4 k5 k6 => refuses ?wind,
    fun k1 k2 k3 k4 k5 k6 hz => request (deployFromStowed_blocked hl (passed k1 k2 k3 k4 k5 k6) hz), passed,
    fun mast pan hm hp => deployBox_eq hm hp h⟩ <;> unfold deployRefusal
  case state => rw [if_pos (not_not.mp (mt c1.mp k1))]
  case interlock => rw [if_neg (c1.mpr k1), if_pos (not_not.mp (mt c2.mp k2))]
  case sequence => rw [if_neg (c1.mpr k1), if_neg (c2.mpr k2), if_pos (not_not.mp (mt c3.mp k3))]
  case slope => rw [if_neg (c1.mpr k1), if_neg (c2.mpr k2), if_neg (c3.mpr k3), if_pos (not_not.mp (mt c4.mp k4))]
  case range =>
    rw [if_neg (c1.mpr k1), if_neg (c2.mpr k2), if_neg (c3.mpr k3), if_neg (c4.mpr k4), if_pos (not_not.mp (mt c5.mp k5))]
  case wind =>
    rw [if_neg (c1.mpr k1), if_neg (c2.mpr k2), if_neg (c3.mpr k3), if_neg (c4.mpr k4), if_neg (c5.mpr k5),
      if_pos (not_not.mp (mt c6.mp k6))]

/-! ## The start of the forward walk (R75) -/

theorem deploy_of_deployRefusal {s : State} {h : Int} (hr : deployRefusal s h = none) : s.dsq.deploy = .stowed := by
  by_contra hd
  unfold deployRefusal at hr
  rw [if_pos (.inl hd)] at hr
  cases hr

/-- R5: an axis that does not travel changes its owner alone. -/
theorem AxisRec.taken_still {r : AxisRec} (h : r.travelling = false) (o : Owner) : r.taken o = { r with owner := o } :=
  if_neg fun j => by
    rw [(AxisRec.travelling_iff r).mpr (.inr j)] at h
    cases h

theorem axis_axsTakeAll_keeps (s : State) (o : Owner) (a : Axis) :
    ((axsTakeAll s o allAxes).axis a).owner = o ∧ ((axsTakeAll s o allAxes).axis a).position = (s.axis a).position ∧
      ((s.axis a).travelling = false → (axsTakeAll s o allAxes).axis a = { s.axis a with owner := o }) := by
  rw [axis_axsTakeAll]
  split
  next ho => exact ⟨ho, rfl, fun _ => by rw [← ho]⟩
  next => exact ⟨AxisRec.owner_taken _ _, AxisRec.position_taken _ _, fun still => AxisRec.taken_still still o⟩

/-- R75: what the walk starts from, up to the REPLY. -/
structure RaisesFrom (s : State) (h : Int) (u : State) : Prop where
  dsq : u.dsq = { s.dsq with deploy := .raising, deployHeight := some h }
  axis : ∀ a : Axis, (u.axis a).owner = .sequence ∧ (u.axis a).position = (s.axis a).position ∧
    ((s.axis a).travelling = false → u.axis a = { s.axis a with owner := .sequence })
  chan : ∀ c : Channel, u.chan c = s.chan c
  lnu : u.lnu = s.lnu
  zones : u.zones = s.zones
  wsm : u.wsm = s.wsm
  out : u.out = s.out

theorem raisesFrom_deployTaken (s : State) (h : Int) : RaisesFrom s h (deployTaken s h) := by
  obtain ⟨only, out⟩ := onlyAxes_axsTakeAll (s.withDsq { s.dsq with deployHeight := some h }) .sequence allAxes
  have record := axis_axsTakeAll_keeps (s.withDsq { s.dsq with deployHeight := some h }) .sequence
  unfold deployTaken
  generalize axsTakeAll (s.withDsq { s.dsq with deployHeight := some h }) .sequence allAxes = v at *
  refine ⟨?_, record, fun c => congrArg (·.get c) only.channels, only.lnu, only.zones, only.wsm, out⟩
  show ({ v.dsq with deploy := .raising } : Dsq) = _
  rw [only.dsq]
  rfl

theorem deployFromStowed_passed {s : State} {h : Int} (hl : s.listens) (hr : deployRefusal s h = none)
    (hz : ∀ z ∈ s.zones, zoneMeets z (deployBox s h) = false) :
    deployFromStowed s h = startForward ((deployTaken s h).queues (replyDone 0x32)) := by
  have clear : boxCheck s (deployBox s h) = (false, s) := countedCheck_clear hz
  unfold deployFromStowed
  rw [hr]
  dsimp only
  rw [clear, if_neg Bool.false_ne_true, done_listens (listens_of_lnu hl (raisesFrom_deployTaken s h).lnu)]
  rfl

theorem raisesOver_startForward {s : State} (h : s.dsq.deploy = .raising) : s.raisesOver 0 (startForward s) :=
  raisesOver_raiseFrom s 0 h

/-! ## The walk goes on (R71 to R74) -/

/-- R66: no command but a reset brings the part back to UNKNOWN. -/
theorem closed_known : Closed fun s : State => s.dsq.deploy ≠ .unknown where
  drive _ hs := hs
  site _ hs := hs
  mgt _ hs := hs
  ntu _ hs := hs
  lnu _ _ _ _ _ _ hs := hs
  axis _ _ _ _ _ hs := hs
  channels _ _ hs := hs
  zones _ _ hs := hs
  dsq _ e _ hs := e.trans_ne hs
  sites _ _ hs := hs
  sha _ _ hs := hs
  acq _ _ hs := hs
  deploy _ hd _ := hd
  halt {s} a c _ hs := by
    show (raise _ _).dsq.deploy ≠ .unknown
    rw [dsq_raise]
    exact hs
  clear hs := by
    rw [dsq_clearAxes]
    exact hs
  tracked _ hs := hs
  txOn hs := hs
  txOff hs := hs
  lower {s} _ := by
    rw [(beforeWalk_from (stowFrom_self s)).2.1]
    exact fun h => Deploy.noConfusion h

/-- R71: a walk that goes on leaves DSQ nothing to record. -/
theorem dsqReport_slotDone {s : State} (h : s.dsq.deploy ≠ .unknown) (a : Axis) : dsqReport (slotDone s) a = slotDone s :=
  dsqReport_known a (closed_known.engine.slotDone h)

/-- R71: the running out of the slot timer takes the walk on. -/
theorem exec_slotTimerExpiry {s : State} (hr : s.running) (ht : s.dsq.slotTimer.isSome) :
    exec .slotTimerExpiry s = .next (slotDone { s with dsq := { s.dsq with slotTimer := none } }) :=
  exec_eq_of_running hr rfl (if_pos ht)

theorem slotAction_of_slot {s : State} {n : Nat} {sl : Slot} (h : s.dsq.slots[n]? = some sl) (pick : Slot → Action) :
    slotAction s n pick = pick sl := by
  unfold slotAction
  rw [h]
  rfl

/-- R73: the axis of the motion action of the slot in progress. -/
theorem actionAxis_eq {s : State} {n : Nat} {sl : Slot} {a : Axis} {x : Option Int} (hn : s.dsq.slot = some n)
    (hs : s.dsq.slots[n]? = some sl)
    (h : s.dsq.deploy = .raising ∧ s.dsq.motionOf sl.deploy.kind = some (a, x) ∨
      s.dsq.deploy = .lowering ∧ s.dsq.motionOf sl.stow.kind = some (a, x)) : actionAxis s = some a := by
  unfold actionAxis currentAction
  rcases h with ⟨hd, hm⟩ | ⟨hd, hm⟩ <;> rw [hd, hn] <;> dsimp only <;>
    rw [slotAction_of_slot hs, actionMove_eq, hm] <;> rfl

/-- Table 4-6: in a walk, the arrival of the axis of the action in progress. -/
theorem tellArrival_walk {s : State} {a : Axis} (p : Int) (ho : (s.axis a).owner = .sequence)
    (hd : s.dsq.deploy ≠ .deployed) (ha : actionAxis s = some a) : tellArrival s a p = slotDone s := by
  unfold tellArrival dsqArrival
  rw [ho]
  dsimp only
  rw [if_neg hd, if_pos ha]

/-- Settles O43: the start, the end of the walk, and what takes it on. -/
theorem deployRunsTheForwardWalk : Obligations.DeployRunsTheForwardWalk := by
  intro height s h
  refine ⟨fun hl hp hz => ?start, fun n hr hd hn ht hg last => ?ends, fun hr _ ht => ?timer, ?arrival⟩
  case start =>
    have hd : s.dsq.deploy ≠ .deployed := by
      rw [deploy_of_deployRefusal hp]
      decide
    have request := (deployRequest_outside hd height).trans (deployFromStowed_passed hl hp hz)
    obtain ⟨dsq, axis, chan, lnu, zones, wsm, out⟩ := raisesFrom_deployTaken s h
    generalize deployTaken s h = v at *
    have queue := congrArg (fun l : Lnu => l.queue ++ [replyDone 0x32]) lnu
    exact ⟨_, exec_eq_of_listens hl rfl request, v.queues (replyDone 0x32), dsq, axis, chan, queue, zones, wsm, out,
      raisesOver_startForward (congrArg Dsq.deploy dsq)⟩
  case ends =>
    obtain ⟨raises, -⟩ := walksOn_slotDone { s with dsq := { s.dsq with slotTimer := none } } n hn
    obtain ⟨-, ends⟩ := raises hd
    obtain ⟨dsq, axis, told, txc, -⟩ := ends last hg
    exact ⟨_, exec_slotTimerExpiry hr ht, dsq, axis, told, txc⟩
  case timer => exact ⟨_, exec_slotTimerExpiry hr ht, walksOn_slotDone _⟩
  case arrival =>
    intro n sl a x target pos code r u hr hn hs walk ho hm sel full tol ord
    have known : u.dsq.deploy ≠ .unknown ∧ u.dsq.deploy ≠ .deployed := by
      show s.dsq.deploy ≠ .unknown ∧ s.dsq.deploy ≠ .deployed
      rcases walk with ⟨hd, -⟩ | ⟨hd, -⟩ <;> rw [hd] <;> decide
    have owner : (u.axis a).owner = .sequence := by
      rw [axis_reports]
      exact ho
    have told : tellArrival u a pos = slotDone u := tellArrival_walk pos owner known.2 (actionAxis_eq (s := u) hn hs walk)
    refine ⟨slotDone u, walksOn_slotDone u, ?_⟩
    rw [exec_position_arrival hr full hm sel tol ord, told, dsqReport_slotDone known.1]

end Sys2Proof.Machine
end

section
/-! DEPLOY in DEPLOYED: the checks and the move of a re-height, and its arrival (R7, R8, R76, R175, R176). -/

namespace Sys2Proof.Machine

/-! ## The checks (R76) -/

theorem freeOwner_iff (r : AxisRec) :
    ¬ (r.owner ≠ .none ∧ r.owner ≠ .console) ↔ r.owner = .none ∨ r.owner = .console := by
  rw [not_and_or, not_not, not_not]

theorem deployRequest_deployed {s : State} (hd : s.dsq.deploy = .deployed) (height : Option Int) :
    deployRequest s height = reheight s (height.getD s.dsq.defaultHeight) := if_pos hd

theorem reheight_refused {s : State} {h : Int} {why : Reason} (hl : s.listens) (hr : reheightRefusal s h = some why) :
    reheight s h = s.queues (replyRefused 0x32 why) := by
  unfold reheight
  rw [hr]
  exact refuse_listens hl _ _

/-- R24, R29: a re-height that the zones block is refused ZONE with the hits counted. -/
theorem reheight_blocked {s : State} {h : Int} (hl : s.listens) (hr : reheightRefusal s h = none)
    (hz : ∃ z ∈ s.zones, moveBlocker s .mast h z = true) :
    reheight s h = (s.hitBy .mast h).queues (replyRefused 0x32 .zone) := by
  have blocked : (moveCheck s .mast h).1 = true := (moveCheck_blocked s .mast h).mpr ⟨by decide, hz⟩
  unfold reheight
  rw [hr]
  dsimp only
  rw [if_pos blocked, moveCheck_hits s h (by decide)]
  exact refuse_listens (s := s.hitBy .mast h) hl kindDeploy .zone

/-! ## The move (R7, R8) -/

/-- R7, R8: a MOVE TO that carries no rate, of an IDLE axis, is sent at the rate limit. -/
theorem axsMoveTo_atLimit {s : State} {o : Owner} {a : Axis} {x : Int} (ho : (s.axis a).owner = o)
    (hm : (s.axis a).motion = .idle) (hc : channelsFull s a = true) (hp : (s.axis a).position.isSome)
    (hx : inFull a x = true) :
    axsMoveTo s o a x none = .ok (sendDrive (s.setAxis a ((s.axis a).setTarget (s.axis a).sel (some x)).moveSent)
      (.move a x (s.axis a).rateLimit)) := by
  have accepted : moveRefusal s o a (some x) none = none := by
    unfold moveRefusal
    simp [ho, hm, hc, hx, Option.isSome_iff_ne_none.mp hp]
  have rate : ((s.axis a).setTarget (s.axis a).sel (some x)).moveSent.rateFor none = (s.axis a).rateLimit := by
    unfold AxisRec.rateFor AxisRec.moveSent AxisRec.setTarget
    cases (s.axis a).sel <;> exact Nat.min_self _
  have endsNone : endJog s a = s := if_neg (by rw [hm]; decide)
  unfold axsMoveTo sendMove
  rw [accepted]
  dsimp only
  rw [rate, endsNone]

theorem axsTake_idle {s : State} {o : Owner} {a : Axis} (ho : (s.axis a).owner ≠ o) (hm : (s.axis a).motion = .idle) :
    axsTake s o a = closeRun (s.setAxis a { s.axis a with owner := o }) a := by
  unfold axsTake
  rw [if_neg ho, AxisRec.taken_at_rest (.inl hm)]

/-- R76: the state after the MOVE of a re-height. -/
def State.reheighted (s : State) (h : Int) : State :=
  let r := s.axis .mast
  { s with
    axs := s.axs.set .mast
      { r.setTarget r.sel (some h) with
        owner := .sequence, motion := .moving, jogTarget := none, stopping := false, stopMoved := false
        arrivalTimer := some r.arrivalLimit }
    mgt := s.mgt.set .mast none
    dsq := { s.dsq with deployHeight := some h }
    out := { s.out with drive := s.out.drive ++ [DriveFrame.move .mast h r.rateLimit] } }

/-- R5, R8: the record of an axis at rest that is taken and sent a MOVE. -/
theorem AxisRec.moveSent_setTarget_owner (r : AxisRec) (o : Owner) (x : Option Int) :
    (({ r with owner := o } : AxisRec).setTarget r.sel x).moveSent =
      { r.setTarget r.sel x with
        owner := o, motion := .moving, jogTarget := none, stopping := false, stopMoved := false
        arrivalTimer := some r.arrivalLimit } := by
  unfold AxisRec.setTarget AxisRec.moveSent
  cases r.sel <;> rfl

/-- R7, R8: MAST is taken for SEQUENCE and sent its MOVE. -/
theorem axsMoveTo_reheight {s : State} {h : Int} (ho : (s.axis .mast).owner ≠ .sequence) (hf : s.mastFree)
    (hm : (s.axis .mast).motion = .idle) (hx : inFull .mast h = true) : ∃ t,
    axsMoveTo (axsTake s .sequence .mast) .sequence .mast h none = .ok t ∧
      t.withDsq { t.dsq with deployHeight := some h } = s.reheighted h := by
  obtain ⟨-, -, lift, lock, position⟩ := hf
  rw [axsTake_idle ho hm]
  refine ⟨_, axsMoveTo_atLimit (o := .sequence) rfl hm ?full position hx, ?moved⟩
  case full =>
    show (decide (s.chan .lift = .full) && (_ || decide (s.chan .lock = .full))) = true
    rw [lift, lock]
    rfl
  case moved =>
    have record := AxisRec.moveSent_setTarget_owner (s.axis .mast) .sequence (some h)
    unfold State.reheighted
    dsimp only
    rw [← record]
    rfl

theorem reheight_sent {s : State} {h : Int} (hl : s.listens) (hr : reheightRefusal s h = none)
    (ho : (s.axis .mast).owner = .none ∨ (s.axis .mast).owner = .console) (hf : s.mastFree)
    (hm : (s.axis .mast).motion = .idle) (hx : inFull .mast h = true) (hz : (moveCheck s .mast h).1 = false) :
    reheight s h = (s.reheighted h).queues (replyDone 0x32) := by
  obtain ⟨t, sent, moved⟩ := axsMoveTo_reheight (by rcases ho with e | e <;> rw [e] <;> decide) hf hm hx
  unfold reheight reheightTaken
  rw [hr, moveCheck_allowed hz]
  dsimp only
  rw [if_neg Bool.false_ne_true, sent]
  dsimp only
  rw [moved]
  exact done_listens (s := s.reheighted h) hl kindDeploy

/-! ## The arrival (R76) -/

/-- Table 4-6: in DEPLOYED the arrival of MAST releases it, with the notice of the height asked. -/
theorem tellArrival_reheight {s : State} {x : Int} (p : Int) (ho : (s.axis .mast).owner = .sequence)
    (hd : s.dsq.deploy = .deployed) (hx : s.dsq.deployHeight = some x) :
    tellArrival s .mast p = raise (s.setAxis .mast { s.axis .mast with owner := .none }) (.deployHeight x) := by
  unfold tellArrival dsqArrival reheightDone
  rw [ho]
  dsimp only
  rw [if_pos hd, if_pos rfl, hx]
  rfl

/-- Settles O44: the move, the refusals in the order of R76, and the arrival. -/
theorem deployInDeployedMovesTheMast : Obligations.DeployInDeployedMovesTheMast := by
  intro height s h r range wind owner idle soft refused
  have request {t : State} (hl : s.listens) (hd : s.dsq.deploy = .deployed) (e : reheight s h = t) :
      exec (.deploy height) s = .next t := exec_eq_of_listens hl rfl ((deployRequest_deployed hd height).trans e)
  have c1 := not_bool_iff (heightInRange_iff s h)
  have c2 := not_bool_iff (windAllows_iff s h)
  have c3 := freeOwner_iff r
  have c4 := not_bool_iff (mastMovable_iff s)
  have c5 : ¬ r.motion ≠ .idle ↔ idle := not_not
  have c6 := not_bool_iff (inSoft_iff s .mast h)
  have passed (k1 : range) (k2 : wind) (k3 : owner) (k4 : s.mastFree) (k5 : idle) (k6 : soft) :
      reheightRefusal s h = none := by
    unfold reheightRefusal
    dsimp only
    rw [if_neg (c1.mpr k1), if_neg (c2.mpr k2), if_neg (c3.mpr k3), if_neg (c4.mpr k4), if_neg (c5.mpr k5), if_neg (c6.mpr k6)]
  refine ⟨fun hl hd k1 k2 k3 k4 k5 k6 hx hz => request hl hd (reheight_sent hl (passed k1 k2 k3 k4 k5 k6) k3 k4 k5 hx hz),
    fun hl hd => ?refusals, fun target pos x code hr hd ho hm sel full tol ord hx room => ?arrival⟩
  case refusals =>
    have refuses {why : Reason} (e : reheightRefusal s h = some why) : refused why := request hl hd (reheight_refused hl e)
    refine ⟨fun k1 => refuses ?range, fun k1 k2 => refuses ?wind, fun k1 k2 k3 => refuses ?owner,
      fun k1 k2 k3 k4 => refuses ?state, fun k1 k2 k3 k4 k5 => refuses ?busy, fun k1 k2 k3 k4 k5 k6 => refuses ?soft,
      fun k1 k2 k3 k4 k5 k6 hz => request hl hd (reheight_blocked hl (passed k1 k2 k3 k4 k5 k6) hz)⟩ <;>
      unfold reheightRefusal <;> dsimp only
    case range => rw [if_pos (not_not.mp (mt c1.mp k1))]
    case wind => rw [if_neg (c1.mpr k1), if_pos (not_not.mp (mt c2.mp k2))]
    case owner => rw [if_neg (c1.mpr k1), if_neg (c2.mpr k2), if_pos (not_not.mp (mt c3.mp k3))]
    case state => rw [if_neg (c1.mpr k1), if_neg (c2.mpr k2), if_neg (c3.mpr k3), if_pos (not_not.mp (mt c4.mp k4))]
    case busy =>
      rw [if_neg (c1.mpr k1), if_neg (c2.mpr k2), if_neg (c3.mpr k3), if_neg (c4.mpr k4), if_pos (not_not.mp (mt c5.mp k5))]
    case soft =>
      rw [if_neg (c1.mpr k1), if_neg (c2.mpr k2), if_neg (c3.mpr k3), if_neg (c4.mpr k4), if_neg (c5.mpr k5),
        if_pos (not_not.mp (mt c6.mp k6))]
  case arrival =>
    rw [exec_position_arrival hr full hm sel tol ord, tellArrival_reheight (s := s.reports .mast pos _) pos ?owner hd hx,
      axis_reports, setAxis_reports, dsqReport_known .mast ?known, raise_room (s := s.reports .mast pos _) _ room]
    · rfl
    case owner => rw [axis_reports]; exact ho
    case known => rw [dsq_raise]; exact hd.trans_ne (by decide)

end Sys2Proof.Machine
end

section
/-! PARK and WAKE (R13, R63, R82, R83, R98, R163, R164, R166, R168). -/

namespace Sys2Proof.Machine

/-! ## PARK (R82) -/

section
variable {s : State}

theorem parkRequest_elsewhere (h : s.dsq.deploy ≠ .deployed) : parkRequest s = refuse s kindPark .state := if_pos h

theorem parkRequest_busy (hd : s.dsq.deploy = .deployed) (ho : (s.axis .mast).owner = .sequence) :
    parkRequest s = refuse s kindPark .busy := by
  unfold parkRequest
  rw [if_neg (not_not.mpr hd), if_pos ho]

/-- R181: the REPLY of a PARK joins the queue last. -/
theorem parkRequest_taken (h : s.listens) (hd : s.dsq.deploy = .deployed) (ho : (s.axis .mast).owner ≠ .sequence) :
    parkRequest s = (parkTaken s).queues (replyDone 0x34) := by
  have waiting := (waitsForReply (s.lnu.queue.filter UpFrame.isReply)).parkTaken (waiting_listens h)
  unfold parkRequest
  rw [if_neg (not_not.mpr hd), if_neg ho, done_waiting waiting]
  rfl

/-! ## WAKE (R83) -/

theorem wakeRequest_elsewhere (h : s.dsq.deploy ≠ .parked) : wakeRequest s = refuse s kindWake .state := if_neg h

/-- R66: the deploy state of a parked part as TXC holds it. -/
theorem txc_parked (ha : s.agrees) (hd : s.dsq.deploy = .parked) : s.txc.deploy ≠ .deployed := by
  rw [ha.1, hd]
  decide

theorem wakeRequest_parked (h : s.listens) (hd : s.dsq.deploy = .parked) :
    wakeRequest s = acqWake ((wakeUp s).queues (replyDone 0x35)) := by
  have waiting := (waitsForReply (s.lnu.queue.filter UpFrame.isReply)).wakeUp (waiting_listens h)
  unfold wakeRequest
  rw [if_pos hd, done_waiting waiting]
  rfl

/-- R83: outside HOLD the wake pose is handed on in the state that the wake has made, behind the REPLY. -/
theorem wakeRequest_calm (h : s.listens) (ha : s.agrees) (hd : s.dsq.deploy = .parked) (hg : s.wsm.gust ≠ .hold) :
    wakeRequest s = acqWake (s.awake.queues (replyDone 0x35)) := by
  have calm : rejudgeInHold s.awake = s.awake := if_neg hg
  rw [wakeRequest_parked h hd, wakeUp_awake (txc_parked ha hd), calm]

/-- R98: in HOLD the re-judgement comes before the REPLY (log 15). -/
theorem wakeRequest_hold (h : s.listens) (ha : s.agrees) (hd : s.dsq.deploy = .parked) (hg : s.wsm.gust = .hold) :
    wakeRequest s = acqWake ((rejudge s.awake).queues (replyDone 0x35)) := by
  rw [wakeRequest_parked h hd, wakeUp_inHold (txc_parked ha hd) hg]

end

/-- R179: a REPLY that waits is still there once the wake pose has been handed on. -/
theorem replyDone_mem_acqWake (s : State) (k : Nat) : replyDone k ∈ (acqWake (s.queues (replyDone k))).lnu.queue := by
  have reply : replyDone k ∈ (s.queues (replyDone k)).lnu.queue.filter UpFrame.isReply :=
    List.mem_filter.mpr ⟨List.mem_append_right _ (List.mem_singleton_self _), rfl⟩
  have kept := (closed_waiting _ (Nat.le_max_left Config.noticePlaces _)).acqWake
    (s := s.queues (replyDone k)) ⟨rfl, Nat.le_max_right _ _⟩
  exact List.mem_of_mem_filter (kept.1 ▸ reply)

/-- R98, R168: with a PARK entry to keep, the re-judgement leaves the stack and the Site Table alone. -/
theorem rejudge_keeping {s : State} (hd : s.dsq.deploy = .deployed) (hk : ¬ s.keepsNone) :
    (rejudge s).acq = s.acq ∧ (rejudge s).sites = s.sites ∧ (rejudge s).wsm = s.wsm := by
  have unstowed : ¬ s.windCallsStow := fun x => hk (.inr (.inl x))
  have idle : s.acq.ctx = none := by
    by_contra x
    exact hk (.inl x)
  obtain ⟨-, -, inDeployed⟩ := windHolds_rejudge s
  obtain ⟨-, -, same, -⟩ := inDeployed unstowed hd
  exact ⟨same idle, rejudge_elsewhere unstowed idle⟩

theorem park_of_not_keepsNone {s : State} {e : StackEntry} {rest : List StackEntry} (hk : ¬ s.keepsNone)
    (hs : s.acq.stack = e :: rest) : e.cause = .park := by
  by_contra x
  refine hk (.inr (.inr fun e' rest' h => ?_))
  cases hs.symm.trans h
  exact x

/-- R98, R168: in HOLD the PARK entry on top is kept behind the REPLY. -/
theorem keepsAtWake_acqWake_queues {s : State} {e : StackEntry} {rest : List StackEntry} (f : UpFrame)
    (hd : s.dsq.deploy = .deployed) (hg : s.wsm.gust = .hold) (hk : ¬ s.keepsNone) (hs : s.acq.stack = e :: rest) :
    s.keepsAtWake e (acqWake ((rejudge s).queues f)) := by
  obtain ⟨acq, sites, wsm⟩ := rejudge_keeping hd hk
  rw [acqWake_kept (s := (rejudge s).queues f) ((congrArg Acq.stack acq).trans hs) (park_of_not_keepsNone hk hs)
    ((congrArg Wsm.gust wsm).trans hg)]
  exact ⟨⟨rejudge s, windHolds_rejudge s, (sameBut_queues _ f).trans (sameBut_raise _ _)⟩, (acq_raise _ _).trans acq,
    (sites_raise _ _).trans sites, latest_raise _ _⟩

/-- Settles O45: PARK and its refusals, then WAKE by the gust state and the top of the stack. -/
theorem parkAndWakeAreTaken : Obligations.ParkAndWakeAreTaken := by
  intro s h
  refine ⟨fun hd => ?elsewhere, fun hd ho => ?busy, fun hd ho ha => ?park, fun hd => ?unparked, fun hd ha => ?wake⟩
  case elsewhere => exact exec_eq_of_listens h rfl ((parkRequest_elsewhere hd).trans (refuse_listens h _ _))
  case busy => exact exec_eq_of_listens h rfl ((parkRequest_busy hd ho).trans (refuse_listens h _ _))
  case unparked => exact exec_eq_of_listens h rfl ((wakeRequest_elsewhere hd).trans (refuse_listens h _ _))
  case park =>
    obtain ⟨u, taken, parks⟩ := parks_parkTaken s ha hd
    have wsm : u.wsm = s.wsm := by
      obtain ⟨-, -, -, -, -, -, -, -, wsm, -⟩ := parks
      exact wsm
    have request : exec .park s = .next ((rejudgeInHold u).queues (replyDone 0x34)) :=
      exec_eq_of_listens h rfl ((parkRequest_taken h hd ho).trans (by rw [taken]))
    refine ⟨fun hg => ?calm, fun hg => ?hold⟩
    case calm =>
      have calm : rejudgeInHold u = u := if_neg (wsm ▸ hg)
      exact ⟨_, request, calm.symm ▸ parks, List.getLast?_concat⟩
    case hold =>
      have hold : rejudgeInHold u = rejudge u := if_pos (wsm ▸ hg)
      exact ⟨_, request, u, rejudge u, parks, windHolds_rejudge u, by rw [hold]⟩
  case wake =>
    refine ⟨fun hg top => ?stays, fun e rest x hg hs hp hc hx hxs free allowed => ?pops, fun hg none => ?rejudged,
      fun e rest hg keeps hs => ?kept⟩
    case stays =>
      exact exec_eq_of_listens h rfl ((wakeRequest_calm h ha hd hg).trans (acqWake_none (s := s.awake.queues _) top))
    case pops =>
      refine completes_of_listens h rfl ?_
      rw [wakeRequest_calm h ha hd hg]
      refine ⟨(acqWake_resumes (s := s.awake.queues _) hs hp hg hc hx hxs free (slewAllowed_queues _ allowed)).1,
        replyDone_mem_acqWake _ _⟩
    case rejudged =>
      refine completes_of_listens h rfl ?_
      rw [wakeRequest_hold h ha hd hg, acqWake_none (s := (rejudge s.awake).queues _) ((keepsNone_iff rfl).mp none)]
      exact ⟨_, windHolds_rejudge _, rfl⟩
    case kept =>
      refine completes_of_listens h rfl ?_
      rw [wakeRequest_hold h ha hd hg]
      exact ⟨keepsAtWake_acqWake_queues _ rfl hg keeps hs, replyDone_mem_acqWake _ _⟩

end Sys2Proof.Machine
end

section
/-! Power-on values of the blocks beside motion (R65, R90 to R94, R101, R105, R109, R112, R115, R117, R118, R136, R137, R162, R173,
R179, R180, R183). -/

namespace Sys2Proof.Machine

/-- Settles O8, block by block. -/
theorem powerOnValuesOfTheOtherBlocks : Obligations.PowerOnValuesOfTheOtherBlocks := by
  refine ⟨?wsm, ?sites, ?sha, ?acq, ?txc, fun c => ?notices, ?held, ?queue, ?rateSet, ?rateInForce, ?window⟩
  case wsm => exact ⟨rfl, rfl, rfl, rfl, rfl, rfl, rfl, rfl, rfl⟩
  case sha => exact ⟨rfl, rfl, rfl, rfl, rfl, rfl, rfl, rfl, rfl, rfl, rfl, rfl, rfl, rfl⟩
  case acq => exact ⟨rfl, rfl, rfl, rfl⟩
  case notices => cases c <;> rfl
  all_goals rfl

end Sys2Proof.Machine
end

section
/-! SLOPE reports, and the entry to HELD on a slope fault (R84, R91, R101, R102). -/

namespace Sys2Proof.Machine

/-! ## The classes that an entry to HELD leaves (R84, R160) -/

section
variable (s : State) {d : NoticeClass}

theorem notices_markFailed (c : Ctx) (cause : LastCause) (h : d ≠ .search) :
    (markFailed s c cause).ntu.get d = s.ntu.get d := by
  unfold markFailed
  refine (notices_raise_other _ (.searchEnded cause c.row c.phase) d h).trans ?_
  split <;> rfl

theorem notices_abortIfPointing (h : d ≠ .search) : (abortIfPointing s).ntu.get d = s.ntu.get d := by
  have aborted : (acqAbort s).ntu.get d = s.ntu.get d := by
    unfold acqAbort
    split
    · rfl
    next c _ =>
      have kept := notices_markFailed s c .aborted h
      generalize markFailed s c .aborted = u at kept
      exact kept
  unfold abortIfPointing
  split
  · exact aborted
  · exact aborted
  all_goals rfl

/-- R84, R160: an entry to HELD raises DEPLOY, and SEARCH where a context runs. -/
theorem notices_heldEntry (cause : HoldCause) (hd : d ≠ .deploy) (hs : d ≠ .search) :
    (heldEntry s cause).ntu.get d = s.ntu.get d := by
  by_cases held : s.dsq.deploy = .held
  · rw [show heldEntry s cause = s from if_pos held]
  unfold heldEntry
  rw [if_neg held]
  dsimp only
  have aborted := notices_abortIfPointing (s.withDsq { s.dsq with holdCause := cause, slotTimer := none, slot := none }) hs
  generalize abortIfPointing (s.withDsq { s.dsq with holdCause := cause, slotTimer := none, slot := none }) = u at aborted
  have axes := (onlyAxes_axsTakeAll u .sequence allAxes).1.trans (axsStopAll_does _).1
  generalize axsStopAll (axsTakeAll u .sequence allAxes) allAxes = v at axes
  calc (raise (setDeploy v .held) (.deployHeld cause)).ntu.get d
      = v.ntu.get d := notices_raise_other (setDeploy v .held) (.deployHeld cause) d hd
    _ = u.ntu.get d := congrArg (Ntu.get · d) axes.ntu
    _ = s.ntu.get d := aborted

end

/-! ## A slope fault told to DSQ (R102, Table 4-9) -/

section
variable {s : State}

theorem slopeFault_ignored (h : s.dsq.deploy = .stowed ∨ s.dsq.deploy = .held) : slopeFault s = s := by
  unfold slopeFault
  rcases h with e | e <;> rw [e]

theorem slopeFault_holds (hs : s.dsq.deploy ≠ .stowed) (hh : s.dsq.deploy ≠ .held) : slopeFault s = heldEntry s .slope := by
  unfold slopeFault
  split
  case h_6 e => exact absurd e hs
  case h_7 e => exact absurd e hh
  all_goals rfl

theorem wsm_slopeFault (s : State) : (slopeFault s).wsm = s.wsm := (closed_apart apart_wsm s.wsm).engine.slopeFault rfl

theorem notices_slopeFault (s : State) : (slopeFault s).ntu.get .slope = s.ntu.get .slope := by
  unfold slopeFault
  split
  case h_6 => rfl
  case h_7 => rfl
  all_goals exact notices_heldEntry s .slope (by decide) (by decide)

end

/-! ## A report taken (R91, R101) -/

/-- R91, R101: the monitor after a SLOPE report taken. -/
def Wsm.sloped (w : Wsm) (roll pitch : Int) : Wsm :=
  { w with
    lastSlope := some (roll, pitch), slopeState := slopeOf w.slopeLimit w.slopeMargin roll pitch
    slopeWatch := some Config.sensorSilenceMs }

section
variable {s : State} {roll pitch : Int}

theorem exec_slope (h : s.running) :
    exec (.slope roll pitch) s = .next (forwardUp (wsmSlope s roll pitch) 6 kindSlope (be16 roll ++ be16 pitch)) :=
  exec_eq_of_running h rfl rfl

theorem wsmSlope_inside (h : roll.natAbs ≤ 900 ∧ pitch.natAbs ≤ 900) : wsmSlope s roll pitch = slopeTaken s roll pitch :=
  if_pos (by omega)

theorem wsmSlope_outside (h : ¬ (roll.natAbs ≤ 900 ∧ pitch.natAbs ≤ 900)) : wsmSlope s roll pitch = s := if_neg (by omega)

theorem slopeTaken_unfaulted (h : slopeOf s.wsm.slopeLimit s.wsm.slopeMargin roll pitch ≠ .fault) :
    slopeTaken s roll pitch = s.withWsm (s.wsm.sloped roll pitch) := if_neg h

/-- R102: DSQ is told of every fault report, and the entry to FAULT is a notice. -/
theorem slopeTaken_fault (h : slopeOf s.wsm.slopeLimit s.wsm.slopeMargin roll pitch = .fault) :
    slopeTaken s roll pitch =
      if s.wsm.slopeState = .fault then slopeFault (s.withWsm (s.wsm.sloped roll pitch))
      else raise (slopeFault (s.withWsm (s.wsm.sloped roll pitch))) (.slopeFault roll pitch) := if_pos h

/-- R102: what DSQ and AXS do on a fault report; a notice adds nothing to it. -/
theorem slopeTaken_faults (h : slopeOf s.wsm.slopeLimit s.wsm.slopeMargin roll pitch = .fault) :
    (slopeTaken s roll pitch).wsm = s.wsm.sloped roll pitch ∧
    (slopeTaken s roll pitch).dsq = (slopeFault (s.withWsm (s.wsm.sloped roll pitch))).dsq ∧
    (slopeTaken s roll pitch).axs = (slopeFault (s.withWsm (s.wsm.sloped roll pitch))).axs := by
  have monitor := wsm_slopeFault (s.withWsm (s.wsm.sloped roll pitch))
  rw [slopeTaken_fault h]
  split
  · exact ⟨monitor, rfl, rfl⟩
  · exact ⟨(wsm_raise _ _).trans monitor, dsq_raise _ _, axs_raise _ _⟩

end

/-- Settles O28: the report by the slope state it gives, and a fault by the deploy state. -/
theorem slopeReportsAreTaken : Obligations.SlopeReportsAreTaken := by
  intro roll pitch s worst state taken inside h
  refine ⟨fun hi hs => ?unfaulted, fun hi hs => ?fault, fun out => ?outside⟩
  case unfaulted =>
    rw [exec_slope h, wsmSlope_inside hi, slopeTaken_unfaulted hs]
    rfl
  case outside =>
    rw [exec_slope h, wsmSlope_outside out]
    rfl
  case fault =>
    let reported : State := { s with wsm := taken }
    have told : slopeTaken s roll pitch =
        if s.wsm.slopeState = .fault then slopeFault reported else raise (slopeFault reported) (.slopeFault roll pitch) :=
      slopeTaken_fault hs
    obtain ⟨monitor, dsq, axs⟩ : (slopeTaken s roll pitch).wsm = taken ∧
        (slopeTaken s roll pitch).dsq = (slopeFault reported).dsq ∧ (slopeTaken s roll pitch).axs = (slopeFault reported).axs :=
      slopeTaken_faults hs
    obtain ⟨l, queued⟩ := forwards_withLnu (slopeTaken s roll pitch) 6 0x12 (be16 roll ++ be16 pitch)
    have answered : exec (.slope roll pitch) s = .next ((slopeTaken s roll pitch).withLnu l) := by
      rw [exec_slope h, wsmSlope_inside hi, ← queued]
      rfl
    generalize slopeTaken s roll pitch = t at *
    refine ⟨_, answered, monitor, fun entered => ?raised, fun again => ?quiet, fun still => ?still,
      fun notStowed notHeld => ?held⟩
    case raised =>
      rw [told, if_neg entered]
      exact latest_raise _ (.slopeFault roll pitch)
    case quiet =>
      rw [told, if_pos again]
      exact notices_slopeFault reported
    case still =>
      rw [slopeFault_ignored (s := reported) still] at dsq axs
      exact ⟨dsq, axs⟩
    case held =>
      rw [slopeFault_holds (s := reported) notStowed notHeld] at dsq axs
      obtain ⟨entry, axes, -⟩ := heldEntry_does reported .slope notHeld
      have deploy := dsq.trans entry
      refine ⟨congrArg Dsq.deploy deploy, congrArg Dsq.holdCause deploy, congrArg Dsq.slot deploy,
        congrArg Dsq.slotTimer deploy, fun a => ?_⟩
      show (t.axs.get a).owner = _ ∧ (t.axs.get a).travelling = _
      rw [axs]
      exact axes a

end Sys2Proof.Machine
end

section
/-! WRITEs of derate rows and wind settings, and the re-judgement in HOLD (R92, R94, R98). -/

namespace Sys2Proof.Machine

/-! ## The value written to a derate row (R92) -/

/-- R92: the row with a field at a value of its range. -/
def DerateRow.fielded (r : DerateRow) (field : Nat) (v : Int) : Option DerateRow :=
  match field with
  | 0 => within 0 1 v { r with valid := v = 1 }
  | 1 => within 0 600 v { r with floor := v.toNat }
  | 2 => within 0 1500 v { r with heightCap := v }
  | 3 => within 1 300 v { r with panCap := v.toNat }
  | _ => within 1 300 v { r with tiltCap := v.toNat }

theorem orRange_natInRange {β : Type} (lo hi : Nat) (v : Int) (f : Nat → β) :
    orRange (natInRange lo hi v) f = orRange (within lo hi v (f v.toNat)) id := by
  unfold natInRange within
  split <;> rfl

theorem DerateRow.write_range (r : DerateRow) {field : Nat} (v : Int) (h : field ≤ 4) :
    r.write field v = orRange (r.fielded field v) id :=
  match field with
  | 0 => orRange_boolOf _ _
  | 2 => orRange_inRange _ _ _ _
  | 1 | 3 | 4 => orRange_natInRange _ _ _ _
  | _ + 5 => absurd h (by omega)

/-! ## The order of the floors (R92) -/

section
variable {rows : List DerateRow} {row field : Nat} {v : Int} {r n : DerateRow} (hr : rows[row]? = some r) (hf : field ≤ 4)
include hr hf

theorem derateWrite_outside (hn : r.fielded field v = none) : derateWrite rows row field v = .error .range := by
  unfold derateWrite
  rw [hr]
  dsimp only
  rw [r.write_range v hf, hn]
  rfl

/-- R92: a value of the field's range, by the check of the floors. -/
theorem derateWrite_inside (hn : r.fielded field v = some n) : derateWrite rows row field v =
    if 2 ≤ field ∨ n.valid = false ∨ ((((rows.set row n).filter (·.valid)).map (·.floor)).Pairwise (· < ·)) then
      .ok (rows.set row n) else .error .range := by
  have checked : (n.valid && (field = 0 || field = 1) && !floorsRise (rows.set row n)) = true ↔
      ¬ (2 ≤ field ∨ n.valid = false ∨ ((((rows.set row n).filter (·.valid)).map (·.floor)).Pairwise (· < ·))) := by
    have low : field = 0 ∨ field = 1 ↔ ¬ 2 ≤ field := by omega
    rw [← floorsRise_iff]
    simp only [Bool.and_eq_true, Bool.or_eq_true, decide_eq_true_eq, Bool.not_eq_true', low, not_or, Bool.not_eq_false,
      Bool.not_eq_true]
    tauto
  unfold derateWrite
  rw [hr]
  dsimp only
  rw [r.write_range v hf, hn]
  dsimp only [orRange, id]
  simp only [checked, ite_not]

end

/-! ## The commands -/

section
variable {s : State} (h : s.listens)
include h

theorem exec_writeDerateRow (row field : Nat) (v : Int) : exec (.writeDerateRow row field v) s =
    .next (replyWrite s ((derateWrite s.wsm.derate row field v).map fun rows =>
      rejudgeInHold (s.withWsm { s.wsm with derate := rows }))) := exec_eq_of_listens h rfl rfl

theorem exec_writeDerateRow_refused {row field : Nat} {v : Int} (e : derateWrite s.wsm.derate row field v = .error .range) :
    exec (.writeDerateRow row field v) s = .next (s.queues (replyRefused 0x31 .range)) := by
  rw [exec_writeDerateRow h, e]
  exact congrArg _ (refuse_listens h kindWrite .range)

theorem exec_writeDerateRow_taken {row field : Nat} {v : Int} {rows : List DerateRow}
    (e : derateWrite s.wsm.derate row field v = .ok rows) : exec (.writeDerateRow row field v) s =
      .next ((rejudgeInHold (s.withWsm { s.wsm with derate := rows })).queues (replyDone 0x31)) := by
  rw [exec_writeDerateRow h, e]
  exact congrArg _ (done_listens (listens_of_engine (f := rejudgeInHold) (fun e _ hs => e.rejudgeInHold hs)
    (s := s.withWsm { s.wsm with derate := rows }) h) kindWrite)

/-- R94: a WRITE of a wind setting, by the monitor that it leaves. -/
theorem exec_writeWindSetting {which : WindSetting} {v : Int} {o : Option Wsm}
    (e : s.wsm.writeSetting which v = orRange o id) :
    exec (.writeWindSetting which v) s = writeOutcome s (o.map s.withWsm) := by
  have written : exec (.writeWindSetting which v) s = .next (replyWrite s ((s.wsm.writeSetting which v).map s.withWsm)) :=
    exec_eq_of_listens h rfl (by cases which <;> rfl)
  rw [written, e]
  cases o with
  | none => exact congrArg _ (refuse_listens h kindWrite .range)
  | some w => exact congrArg _ (done_listens (listens_of_lnu (t := s.withWsm w) h rfl) kindWrite)

end

/-! ## The wind settings (R94, Table 5-4) -/

section
variable (w : Wsm) (v : Int)

theorem Wsm.writeSetting_warn : w.writeSetting .warnThreshold v = orRange
    (if (v = 80 ∨ v = 110 ∨ v = 140 ∨ v = 170) ∧ v < w.holdThreshold then
      some { w with warnRun := 0, holdRun := 0, calmRun := 0, warnThreshold := v.toNat } else none) id := by
  unfold Wsm.writeSetting warnValue
  by_cases value : v = 80 ∨ v = 110 ∨ v = 140 ∨ v = 170
  · have order : v.toNat < w.holdThreshold ↔ v < w.holdThreshold := by omega
    simp only [value, if_true, true_and, order]
    split <;> rfl
  · simp only [value, if_false, false_and]
    rfl

theorem Wsm.writeSetting_hold : w.writeSetting .holdThreshold v = orRange
    (if 50 ≤ v ∧ v ≤ 600 ∧ w.warnThreshold < v ∧ v ≤ w.stowWind then
      some { w with warnRun := 0, holdRun := 0, calmRun := 0, holdThreshold := v.toNat } else none) id := by
  unfold Wsm.writeSetting natInRange
  by_cases value : 50 ≤ v ∧ v ≤ 600
  · have order : w.warnThreshold < v.toNat ∧ v.toNat ≤ w.stowWind ↔ 50 ≤ v ∧ v ≤ 600 ∧ w.warnThreshold < v ∧ v ≤ w.stowWind := by
      omega
    simp only [Nat.cast_ofNat, if_pos value, order]
    split <;> rfl
  · have out : ¬ (50 ≤ v ∧ v ≤ 600 ∧ w.warnThreshold < v ∧ v ≤ w.stowWind) := fun x => value ⟨x.1, x.2.1⟩
    simp only [Nat.cast_ofNat, if_neg value, if_neg out]
    rfl

theorem Wsm.writeSetting_stow : w.writeSetting .stowWind v = orRange
    (if 50 ≤ v ∧ v ≤ 600 ∧ w.holdThreshold ≤ v then
      some { w with warnRun := 0, holdRun := 0, calmRun := 0, stowWind := v.toNat } else none) id := by
  unfold Wsm.writeSetting natInRange
  by_cases value : 50 ≤ v ∧ v ≤ 600
  · have order : w.holdThreshold ≤ v.toNat ↔ 50 ≤ v ∧ v ≤ 600 ∧ w.holdThreshold ≤ v := by omega
    simp only [Nat.cast_ofNat, if_pos value, order]
    split <;> rfl
  · have out : ¬ (50 ≤ v ∧ v ≤ 600 ∧ w.holdThreshold ≤ v) := fun x => value ⟨x.1, x.2.1⟩
    simp only [Nat.cast_ofNat, if_neg value, if_neg out]
    rfl

end

/-- Settles O40: the derate row by its two checks and the gust state, then the settings one by one. -/
theorem writesOfWindTables : Obligations.WritesOfWindTables := by
  intro row field v r s h hr w new rises refused fresh
  refine ⟨fun hf hn => ?outside, fun n hf hn hv hs => ?falls, fun n hf hn ok calm => ?calm, fun n hf hn ok hold => ?hold,
    ?warn, ?holdThreshold, ?stow⟩
  case outside => exact exec_writeDerateRow_refused h (derateWrite_outside hr hf hn)
  case falls =>
    have low : field ≤ 4 := by omega
    refine exec_writeDerateRow_refused h ((derateWrite_inside hr low hn).trans (if_neg ?_))
    rintro (high | invalid | rising)
    · omega
    · exact Bool.false_ne_true (invalid.symm.trans hv)
    · exact hs rising
  case calm =>
    rw [exec_writeDerateRow_taken h ((derateWrite_inside hr hf hn).trans (if_pos ok))]
    exact congrArg (fun u => Host.Outcome.next (State.queues u (replyDone 0x31))) (if_neg calm)
  case hold =>
    refine ⟨_, windHolds_rejudge { s with wsm := { w with derate := w.derate.set row n } }, ?_⟩
    rw [exec_writeDerateRow_taken h ((derateWrite_inside hr hf hn).trans (if_pos ok))]
    exact congrArg (fun u => Host.Outcome.next (State.queues u (replyDone 0x31))) (if_pos hold)
  case warn => exact (exec_writeWindSetting h (w.writeSetting_warn v)).trans (by rw [Option.map_if]; rfl)
  case holdThreshold => exact (exec_writeWindSetting h (w.writeSetting_hold v)).trans (by rw [Option.map_if]; rfl)
  case stow => exact (exec_writeWindSetting h (w.writeSetting_stow v)).trans (by rw [Option.map_if]; rfl)

end Sys2Proof.Machine
end

section
/-! WRITEs of the Site Table and of the van ability word (R104 to R107, R111, R112, R118, R182). -/

namespace Sys2Proof.Machine

/-! ## The answer to a WRITE (R182) -/

theorem orRange_map {α β γ : Type} (o : Option α) (f : α → β) (g : β → γ) :
    (orRange o f).map g = orRange o fun x => g (f x) := by cases o <;> rfl

/-- R182: DONE with the value in range, REFUSED RANGE with it outside, for a write that leaves the lines as they are. -/
theorem replyWrite_ranged {α : Type} {s : State} (h : s.listens) (o : Option α) {f : α → State}
    (hf : ∀ x, (f x).lnu = s.lnu) : .next (replyWrite s (orRange o f)) = writeOutcome s (o.map f) := by
  cases o with
  | none => exact congrArg _ (refuse_listens h kindWrite .range)
  | some x => exact congrArg _ (done_listens (listens_of_lnu h (hf x)) kindWrite)

/-! ## The settings written (R105, R106, Table 6-1) -/

/-- R105, R106: the settings with a field at a value of its range, the masks within the van ability word. -/
def EntrySettings.fielded (x : EntrySettings) (bands : BandMask) (pols : PolMask) (field : Nat) (v : Int) :
    Option EntrySettings :=
  match field with
  | 1 => within 0 65535 v { x with siteCode := v.toNat }
  | 2 => within 0 3599 v { x with presetPan := v }
  | 3 => within (-100) 900 v { x with presetTilt := v }
  | 4 => within (-900) 900 v { x with presetPol := v }
  | 5 => within 0 15 v { x with bandMask := BitVec.ofNat 4 v.toNat &&& bands }
  | 6 => within 0 3 v { x with polMask := BitVec.ofNat 2 v.toNat &&& pols }
  | 7 => within (max x.lostLevel (-1300)) (-100) v { x with edgeLevel := v }
  | 8 => within (-1300) (min x.edgeLevel (-100)) v { x with lostLevel := v }
  | 9 => within 1 20 v { x with lostCount := v.toNat }
  | 10 => within 1 8 v { x with avgLength := v.toNat }
  | 11 => within 1 200 v { x with searchAz := v.toNat }
  | 12 => within 1 200 v { x with searchEl := v.toNat }
  | 13 => within 1 50 v { x with trimAz := v.toNat }
  | 14 => within 1 50 v { x with trimEl := v.toNat }
  | 15 => within 1 50 v { x with searchRate := v.toNat }
  | _ => within 0 1 v { x with autoReacquire := v = 1 }

theorem EntrySettings.write_range (x : EntrySettings) (bands : BandMask) (pols : PolMask) {field : Nat} (v : Int)
    (low : 1 ≤ field) (high : field ≤ 16) : x.write bands pols field v = orRange (x.fielded bands pols field v) id :=
  match field with
  | 0 => absurd low (by omega)
  | 2 | 3 | 4 | 7 | 8 => orRange_inRange _ _ _ _
  | 1 | 5 | 6 | 9 | 10 | 11 | 12 | 13 | 14 | 15 => orRange_natInRange _ _ _ _
  | 16 => orRange_boolOf _ _
  | _ + 17 => absurd high (by omega)

/-! ## The states that allow a write (R111, R112) -/

/-- R111, R112: the states that refuse a WRITE of a setting or of the state. -/
@[reducible] def EntryState.busy (x : EntryState) : Prop := x = .acquiring ∨ x = .tracked ∨ x = .suspended

/-- R106: the settings that a write starts from, with the masks of an EMPTY entry narrowed first. -/
def Entry.base (e : Entry) (bands : BandMask) (pols : PolMask) : EntrySettings :=
  if e.state = .empty then e.set.narrow bands pols else e.set

/-- R111: the range is checked first, then the state of the entry. -/
theorem Entry.writeSetting_eq (e : Entry) (bands : BandMask) (pols : PolMask) (field : Nat) (v : Int) :
    e.writeSetting bands pols field v = ((e.base bands pols).write bands pols field v).bind fun x =>
      if e.state.busy then .error .busy else .ok { e with state := .loaded, set := x, learned := .clear } := by
  unfold Entry.writeSetting Entry.base
  dsimp only
  generalize EntrySettings.write _ bands pols field v = written
  cases written with
  | error why => rfl
  | ok x =>
    obtain ⟨state, settings, adjust, learned⟩ := e
    cases state <;> rfl

/-- R112: EMPTY, the only state that is written. -/
theorem Entry.writeState_zero (e : Entry) :
    e.writeState 0 = if e.state.busy then .error .busy else .ok (if e.state = .empty then e else .powerOn) := by
  obtain ⟨state, settings, adjust, learned⟩ := e
  cases state <;> rfl

/-! ## The write of a field of an entry (Table 6-7) -/

section
variable (e : Entry) (sha : Sha) (v : Int)

theorem Entry.write_setting {field : Nat} (low : 1 ≤ field) (high : field ≤ 16) :
    e.write sha field v = e.writeSetting sha.vanBands sha.vanPols field v := by
  unfold Entry.write
  rw [if_neg (by omega), if_pos high]

/-- R104, R182: the learned fields are read-only, and no field follows them. -/
theorem Entry.write_readOnly {field : Nat} (past : 20 ≤ field) : e.write sha field v = .error .ignored := by
  have adjust : e.adjust.write field v = .error .ignored :=
    match field with
    | _ + 20 => rfl
  unfold Entry.write
  rw [if_neg (by omega), if_neg (by omega), adjust]
  rfl

end

/-! ## The commands -/

section
variable {s : State} (h : s.listens)
include h

section
variable {row : Nat} {e : Entry} (he : s.sites[row]? = some e)
include he

theorem exec_write_entry (field : Nat) (v : Int) : exec (.write 3 row field v) s =
    .next (replyWrite s ((e.write s.sha field v).map fun n => s.withSites (s.sites.set row n))) := by
  have written : writeField s 3 row field v = (e.write s.sha field v).map fun n => s.withSites (s.sites.set row n) := by
    show writeEntryField s row field v = _
    unfold writeEntryField State.entry
    rw [he]
  rw [exec_write h, written]

theorem exec_write_entry_refused {field : Nat} {v : Int} {why : Reason} (w : e.write s.sha field v = .error why) :
    exec (.write 3 row field v) s = .next (s.queues (replyRefused 0x31 why)) := by
  rw [exec_write_entry h he, w]
  exact congrArg _ (refuse_listens h kindWrite why)

theorem exec_write_entry_taken {field : Nat} {v : Int} {n : Entry} (w : e.write s.sha field v = .ok n) :
    exec (.write 3 row field v) s = .next ((s.withSites (s.sites.set row n)).queues (replyDone 0x31)) := by
  rw [exec_write_entry h he, w]
  exact congrArg _ (done_listens (listens_of_lnu (t := s.withSites (s.sites.set row n)) h rfl) kindWrite)

/-- R107: a running adjustment is written in every state of the entry. -/
theorem exec_write_adjust {α : Type} {field : Nat} {v : Int} {o : Option α} {f : α → Adjust} (past : 17 ≤ field)
    (w : e.adjust.write field v = orRange o f) : exec (.write 3 row field v) s =
      writeOutcome s (o.map fun x => s.withSites (s.sites.set row { e with adjust := f x })) := by
  have entry : e.write s.sha field v = orRange o fun x => { e with adjust := f x } := by
    unfold Entry.write
    rw [if_neg (by omega), if_neg (by omega), w, orRange_map]
  rw [exec_write_entry h he, entry, orRange_map]
  exact replyWrite_ranged h o fun _ => rfl

end

/-- R118: a WRITE of the van ability word. -/
theorem exec_writeVanAbilityWord (v : Int) :
    exec (.writeVanAbilityWord v) s = writeOutcome s (within 0 63 v (vanWritten s v.toNat)) := by
  have written : exec (.writeVanAbilityWord v) s = .next (replyWrite s (orRange (natInRange 0 63 v) (vanWritten s))) :=
    exec_eq_of_listens h rfl rfl
  have lines (n : Nat) : (vanWritten s n).lnu = s.lnu := rfl
  rw [written, replyWrite_ranged h _ lines, natInRange_map]
  rfl

end

theorem exec_writeEntrySetting_eq (row field : Nat) (v : Int) (s : State) :
    exec (.writeEntrySetting row field v) s = exec (.write 3 row field v) s := rfl

theorem exec_writeEntryState_eq (row : Nat) (v : Int) (s : State) :
    exec (.writeEntryState row v) s = exec (.write 3 row 0 v) s := rfl

/-- Settles O41: the settings by their range and then by the state of the entry, the state, the adjustments field by field, and
the van ability word. -/
theorem writesOfTheSiteTable : Obligations.WritesOfTheSiteTable := by
  intro row field v e s h he x new busy put refused
  refine ⟨fun low high => ?settings, fun hv => ?stateRange, fun hb => ?stateBusy, fun hb => ?emptied, ?offsetAz, ?offsetEl,
    ?retrim, fun n past => ?ignored, exec_writeVanAbilityWord h v⟩
  case settings =>
    have settings : (e.base s.sha.vanBands s.sha.vanPols).write s.sha.vanBands s.sha.vanPols field v = orRange new id :=
      EntrySettings.write_range _ _ _ v low high
    have entry : e.write s.sha field v = (orRange new id).bind fun n =>
        if busy then .error .busy else .ok { e with state := .loaded, set := n, learned := .clear } := by
      rw [e.write_setting s.sha v low high, e.writeSetting_eq, settings]
    clear_value new
    rw [exec_writeEntrySetting_eq]
    refine ⟨?range, fun hn hb => ?busy, ?taken⟩
    case range =>
      rintro rfl
      exact exec_write_entry_refused h he entry
    case busy =>
      obtain ⟨n, rfl⟩ := Option.ne_none_iff_exists'.mp hn
      exact exec_write_entry_refused h he (entry.trans (if_pos hb))
    case taken =>
      rintro n rfl hb
      exact exec_write_entry_taken h he (entry.trans (if_neg hb))
  case stateRange => exact exec_write_entry_refused h he (if_pos hv)
  case stateBusy => exact exec_write_entry_refused h he (e.writeState_zero.trans (if_pos hb))
  case emptied => exact exec_write_entry_taken h he (e.writeState_zero.trans (if_neg hb))
  case offsetAz => exact (exec_write_adjust h he (by omega) rfl).trans (congrArg _ (inRange_map _ _ _ _))
  case offsetEl => exact (exec_write_adjust h he (by omega) rfl).trans (congrArg _ (inRange_map _ _ _ _))
  case retrim => exact (exec_write_adjust h he (by omega) rfl).trans (congrArg _ (natInRange_map _ _ _ _))
  case ignored => exact exec_write_entry_refused h he (e.write_readOnly s.sha v past)

end Sys2Proof.Machine
end

section
/-! The pages of the site line and the frames that no block takes (R116, R119, R120, R178, R179). -/

namespace Sys2Proof.Machine

/-! ## From a page to the agent (Table 7-4) -/

section
variable {s : State} (h : s.running)
include h

theorem exec_inboundNoEffectPage (p : NoEffectPage) : exec (.inboundNoEffectPage p) s = .next (shaWake s) :=
  exec_eq_of_running h rfl rfl

theorem exec_ability (bands : BandMask) (pols : PolMask) (periods : PeriodMask) (ack : Bool) :
    exec (.ability bands pols periods ack) s = .next (deliver (shaAbility s ⟨bands, pols, periods, ack⟩)) :=
  exec_eq_of_running h rfl rfl

theorem exec_choiceEcho (c : Choice) (toggle : Bool) :
    exec (.choiceEcho c toggle) s = .next (deliver (shaEcho s c toggle)) := exec_eq_of_running h rfl rfl

theorem exec_ident (code : Nat) : exec (.ident code) s = .next (deliver (shaIdent s code)) := exec_eq_of_running h rfl rfl

theorem exec_report (seq : Nat) (level : Int) (valid : Bool) :
    exec (.report seq level valid) s = .next (deliverReport (shaReport s seq level valid)) := exec_eq_of_running h rfl rfl

end

/-! ## Awake and asleep (R119, R131) -/

section
variable {s : State}

theorem shaWake_awake {x : Handshake} (h : s.sha.state = x) (awake : x ≠ .silent) : shaWake s = s :=
  shaWake_unchanged (.inl (h.trans_ne awake))

theorem shaWake_quiet (h : s.sha.quietTimer.isSome) : shaWake s = s := shaWake_unchanged (.inr h)

/-- R119: the page that wakes the agent finds it in OFFERING. -/
theorem shaWake_of_offers (s : State) : shaWake s.offers = s.offers := shaWake_awake (x := .offering) rfl (by decide)

end

/-- Settles O29, by whether the page wakes the agent. -/
theorem ignoredPagesStartAnOfferInSilent : Obligations.IgnoredPagesStartAnOfferInSilent := by
  intro p s h
  rw [exec_inboundNoEffectPage h]
  exact ⟨fun silent still => congrArg _ (shaWake_offers silent still), fun awake => congrArg _ (shaWake_unchanged awake)⟩

/-- Settles O23, port by port, and then the forwarded frame. -/
theorem framesThatNoBlockTakes : Obligations.FramesThatNoBlockTakes := fun _ h =>
  ⟨rfl, exec_eq_of_running h rfl rfl, exec_eq_of_running h rfl rfl, exec_eq_of_running h rfl rfl,
    fun _ _ _ => exec_eq_of_running h rfl rfl⟩

end Sys2Proof.Machine
end

section
/-! The mean level of the Report Window, and the reports that enter it (R132 to R134). -/

namespace Sys2Proof.Machine

/-! ## The mean level (R134) -/

theorem meanLevel_nil (k : Nat) : meanLevel [] k = none := by
  unfold meanLevel
  rw [List.take_nil]
  rfl

theorem meanLevel_eq {w : List WinRec} {k : Nat} (h : w.take k ≠ []) :
    meanLevel w k = some (((w.take k).map (·.level)).sum / ((w.take k).length : Int)) := by
  unfold meanLevel
  cases newest : w.take k with
  | nil => exact absurd newest h
  | cons r rest => simp only [List.map_cons, List.length_cons, List.length_map]

/-! ## Which reports are accepted (R133) -/

theorem Sha.accepts_iff (h : Sha) (seq : Nat) :
    h.accepts seq = true ↔ h.window = [] ∨
      ∃ r rest, h.window = r :: rest ∧ 1 ≤ (seq + 256 - r.seq) % 256 ∧ (seq + 256 - r.seq) % 256 ≤ 127 := by
  unfold Sha.accepts Sha.newest
  cases h.window with
  | nil => simp
  | cons r rest => simp

section
variable {s : State} {seq : Nat} {level : Int} {valid : Bool}

theorem shaReport_accepted (up : s.sha.state = .up) (ha : s.sha.accepts seq = true) :
    shaReport s seq level valid =
      (acceptRecord s (reportRecord s seq level valid),
        if s.sha.linkReady then some (reportRecord s seq level valid) else none) := by
  unfold shaReport
  rw [shaWake_awake up (by decide)]
  dsimp only
  rw [up, ha]
  rfl

theorem shaReport_ignored (awake : shaWake s = s) (h : s.sha.state ≠ .up ∨ s.sha.accepts seq = false) :
    shaReport s seq level valid = (s, none) := by
  unfold shaReport
  rw [awake]
  dsimp only
  rw [if_neg]
  rcases h with h | h <;> simp [h]

/-- R119: a REPORT that wakes the agent is taken in OFFERING, which ignores it. -/
theorem shaReport_wakes (silent : s.sha.state = .silent) (still : s.sha.quietTimer = none) :
    shaReport s seq level valid = (s.offers, none) := by
  unfold shaReport
  rw [shaWake_offers silent still]
  rfl

/-- R143: a context is told only of a REPORT accepted with link ready yes. -/
theorem deliverReport_untold (t : State) (r : WinRec) (ready : Bool) (h : ready = false ∨ t.acq.ctx = none) :
    deliverReport (t, if ready then some r else none) = t := by
  rcases h with h | h
  · rw [h]
    rfl
  · cases ready
    · rfl
    · show acqReport t r = t
      unfold acqReport
      rw [h]

end

/-- Settles O34: the mean of an empty window and of another, then the level at which a squelched report is recorded. -/
theorem meanLevelOfTheNewestRecords : Obligations.MeanLevelOfTheNewestRecords := by
  refine ⟨meanLevel_nil, fun w k filled one => ?mean, fun seq level s h up empty unready => ?squelched⟩
  case mean =>
    intro n sum
    have places : w.take (min k w.length) = w.take k := List.take_eq_take_min.symm
    have newest : w.take k ≠ [] := by
      rw [Ne, List.take_eq_nil_iff]
      rintro (e | e)
      · omega
      · exact filled e
    have count : ((w.take k).length : Int) = n := by
      rw [List.length_take, Nat.cast_min]
    have positive : 0 < n := by
      rw [← count]
      exact_mod_cast List.length_pos_of_ne_nil newest
    refine ⟨sum / n, ?_, Int.ediv_mul_le sum positive.ne', Int.lt_ediv_add_one_mul_self sum positive⟩
    rw [meanLevel_eq newest, count]
    simp only [sum, places]
  case squelched =>
    have accepted : s.sha.accepts seq = true := (s.sha.accepts_iff seq).mpr (.inl empty)
    refine ⟨_, exec_report h seq level false, ?_⟩
    rw [shaReport_accepted up accepted, deliverReport_untold _ _ _ (.inl unready)]
    show (reportRecord s seq level false :: s.sha.window.takeWhile _).take 8 = _
    rw [empty]
    rfl

end Sys2Proof.Machine
end

section
/-! The resolution, the choice and its echo (R119, R121 to R125, R127). -/

namespace Sys2Proof.Machine

/-! ## The first value of a mask (R121) -/

/-- Checked on the sixteen masks. -/
theorem firstBand_eq (m : BandMask) :
    firstBand m =
      if m = 0 then none
      else some (if m.getLsbD 0 then .b1 else if m.getLsbD 1 then .b2 else if m.getLsbD 2 then .b3 else .b4) := by
  revert m
  decide

/-- The preferred pol where the mask names it, and the other one otherwise. -/
theorem choosePol_eq (m : PolMask) (preferV : Bool) :
    choosePol m (if preferV then .v else .h) =
      if m = 0 then none
      else some (if preferV then (if m.getLsbD 1 then .v else .h) else (if m.getLsbD 0 then .h else .v)) := by
  revert m preferV
  decide

theorem firstPeriod_eq (m : PeriodMask) :
    firstPeriod m =
      if m = 0 then none else some (if m.getLsbD 0 then .p100 else if m.getLsbD 1 then .p200 else .p500) := by
  revert m
  decide

/-! ## The offer row (R120, R121) -/

section
variable (s : State)

theorem offerRow_eq : offerRow s = s.acq.ctx.bind fun c => s.sites[c.row]? := by
  unfold offerRow
  cases s.acq.ctx <;> rfl

theorem preferredPol_eq :
    preferredPol s = if (offerRow s).any fun e => 450 < e.set.presetPol.natAbs then .v else .h := by
  unfold preferredPol
  cases offerRow s with
  | none => rfl
  | some e =>
    by_cases level : e.set.presetPol.natAbs ≤ 450
    · simp [level]
    · simp [level, Nat.lt_of_not_le level]

variable {s}

theorem offerRow_running {c : Ctx} {e : Entry} (hc : s.acq.ctx = some c) (he : s.sites[c.row]? = some e) :
    offerRow s = some e := by rw [offerRow_eq, hc, Option.bind_some, he]

theorem offerRow_idle (hc : s.acq.ctx = none) : offerRow s = none := by rw [offerRow_eq, hc, Option.bind_none]

theorem resolve_eq (s : State) (a : Ability) :
    resolve s a =
      (firstBand (offerBands s &&& a.bands)).bind fun b =>
        (choosePol (offerPols s &&& a.pols) (preferredPol s)).bind fun p =>
          (firstPeriod a.periods).map fun t => ⟨b, p, t⟩ := by
  unfold resolve
  cases firstBand (offerBands s &&& a.bands) with
  | none => rfl
  | some b =>
    cases choosePol (offerPols s &&& a.pols) (preferredPol s) with
    | none => rfl
    | some p => cases firstPeriod a.periods <;> rfl

/-- The resolution reads nothing of the agent but the van ability word. -/
theorem resolve_withSha {v : Sha} (a : Ability) (bands : v.vanBands = s.sha.vanBands) (pols : v.vanPols = s.sha.vanPols) :
    resolve (s.withSha v) a = resolve s a := by
  have row : offerRow (s.withSha v) = offerRow s := rfl
  unfold resolve offerBands offerPols preferredPol
  rw [row, State.sha_withSha, bands, pols]

end

/-- Settles O31: the three masks, and the preferred pol. -/
theorem resolutionTakesTheFirstCommonValues : Obligations.ResolutionTakesTheFirstCommonValues := by
  intro a s row bands pols preferV
  have preferred : preferredPol s = if preferV then .v else .h := by rw [preferredPol_eq, offerRow_eq]
  rw [resolve_eq, offerBands_eq, offerPols_eq, preferred, firstBand_eq, choosePol_eq, firstPeriod_eq]
  by_cases noBand : bands = 0
  · rw [if_pos noBand, if_pos (Or.inl noBand), Option.bind_none]
  rw [if_neg noBand, Option.bind_some]
  by_cases noPol : pols = 0
  · rw [if_pos noPol, if_pos (Or.inr (Or.inl noPol)), Option.bind_none]
  rw [if_neg noPol, Option.bind_some]
  by_cases noPeriod : a.periods = 0
  · rw [if_pos noPeriod, if_pos (Or.inr (Or.inr noPeriod)), Option.map_none]
  have found : ¬ (bands = 0 ∨ pols = 0 ∨ a.periods = 0) := by
    simp only [noBand, noPol, noPeriod, or_self, not_false_eq_true]
  rw [if_neg noPeriod, Option.map_some, if_neg found]

/-! ## Notices beside the agent's fields (R183) -/

section
variable (s : State) (n : Notice)

theorem State.noticed_withSha (v : Sha) : (s.withSha v).noticed n = (s.noticed n).withSha v := by
  unfold State.noticed
  dsimp only [State.ntu_withSha]
  split <;> rfl

@[simp] theorem State.out_noticed : (s.noticed n).out = s.out := by
  unfold State.noticed
  dsimp only
  split <;> rfl

@[simp] theorem State.acq_noticed : (s.noticed n).acq = s.acq := by
  unfold State.noticed
  dsimp only
  split <;> rfl

end

/-! ## What a running context is told (R127) -/

section
variable {s t : State} {k : LinkTell}

theorem tellIfRunning_running (h : s.acq.ctx.isSome = true) : tellIfRunning s k = some k := if_pos h

theorem tellIfRunning_idle (h : ¬ s.acq.ctx.isSome = true) : tellIfRunning s k = none := if_neg h

end

/-! ## A site ABILITY (R122, R123, R124) -/

/-- R122: the agent's fields once a site ABILITY is recorded. -/
def Sha.hears (h : Sha) (a : Ability) : Sha := { h with siteAbility := some a, heard := true }

theorem Sha.toggle_leaveUp (h : Sha) : h.leaveUp.toggle = h.toggle := by
  unfold Sha.leaveUp
  split <;> rfl

theorem Sha.isChange_iff (h : Sha) (c : Choice) :
    h.isChange c = true ↔ ∃ old, h.agreed = some old ∧ (old.band ≠ c.band ∨ old.pol ≠ c.pol) := by
  unfold Sha.isChange
  cases h.agreed <;> simp

section
variable {s : State} {a : Ability} {c : Choice}

theorem shaAbility_resolved (h : s.sha.state = .offering ∨ s.sha.state = .chosen ∨ s.sha.state = .up) :
    shaAbility s a = shaResolve (s.withSha (s.sha.hears a)) a := by
  have awake : shaWake s = s := by
    rcases h with e | e | e <;> exact shaWake_awake e (by decide)
  unfold shaAbility Sha.hears
  rw [awake]
  dsimp only
  rcases h with e | e | e <;> rw [e]

theorem shaAbility_recorded (h : s.sha.state = .noCommon) : shaAbility s a = (s.withSha (s.sha.hears a), none) := by
  unfold shaAbility Sha.hears
  rw [shaWake_awake h (by decide)]
  dsimp only
  rw [h]

theorem shaAbility_quiet (silent : s.sha.state = .silent) (quiet : s.sha.quietTimer.isSome) : shaAbility s a = (s, none) := by
  unfold shaAbility
  rw [shaWake_quiet quiet]
  dsimp only
  rw [silent]

/-- R119: an ABILITY that wakes the agent is taken as in OFFERING. -/
theorem shaAbility_wakes (silent : s.sha.state = .silent) (still : s.sha.quietTimer = none) :
    shaAbility s a = shaAbility s.offers a := by
  unfold shaAbility
  rw [shaWake_offers silent still, shaWake_of_offers]

theorem shaResolve_fails (h : resolve s a = none) : shaResolve s a = enterNoCommon (s.withSha s.sha.leaveUp) := by
  unfold shaResolve
  rw [h]

theorem shaResolve_changes (h : resolve s a = some c) (change : s.sha.isChange c = true) :
    shaResolve s a =
      (enterChosen (raise (s.withSha s.sha.leaveUp) (.linkChanged c.band c.pol)) c, tellIfRunning s .link) := by
  unfold shaResolve
  rw [h]
  exact if_pos change

theorem shaResolve_keeps (h : resolve s a = some c) (same : ¬ s.sha.isChange c = true) :
    shaResolve s a =
      (enterChosen (s.withSha s.sha.leaveUp) c, if s.sha.state = .up then tellIfRunning s .wait else none) := by
  unfold shaResolve
  rw [h]
  exact if_neg same

/-- R123: the CHOICE bears the toggle changed. -/
theorem enterChosen_withSha (u : State) (x : Sha) (c : Choice) :
    enterChosen (u.withSha x) c =
      { u with
        sha :=
          { x with
            state := .chosen, offerTimer := none, toggle := !x.toggle, sent := some (c, !x.toggle), resends := 0
            echoTimer := some 2000 }
        out := { u.out with site := u.out.site ++ [.choice c (!x.toggle)] } } := rfl

theorem enterNoCommon_room (room : s.roomy) :
    enterNoCommon s =
      ((s.withSha { s.sha with state := .noCommon, offerTimer := none, echoTimer := none }).noticed .linkNoCommon,
        tellIfRunning s .link) :=
  congrArg (·, tellIfRunning s .link) (raise_room (s := s.withSha _) .linkNoCommon room)

end

/-- Settles O30: the resolution by its outcome, then the states in which none is made. -/
theorem abilityPagesAreResolved : Obligations.AbilityPagesAreResolved := by
  intro bands pols periods ack s page found heard left chosen lacking running h
  let a : Ability := ⟨bands, pols, periods, ack⟩
  let v := s.withSha (s.sha.hears a)
  have taken : exec page s = .next (deliver (shaAbility s a)) := exec_ability h bands pols periods ack
  have found_eq : resolve v a = found := resolve_withSha a rfl rfl
  have entered (c : Choice) (u : State) (out : u.out = s.out) : enterChosen (u.withSha left) c = chosen c u := by
    have toggle : left.toggle = s.sha.toggle := heard.toggle_leaveUp
    rw [enterChosen_withSha, toggle, out]
  refine ⟨fun st => ⟨fun c hf same => ?keeps, fun c old hf ho differs room => ?changes, fun hf room => ?fails⟩,
    fun st => ?recorded, fun silent quiet => ?quiet, fun silent still => ?wakes⟩
  case keeps =>
    have unchanged : ¬ v.sha.isChange c = true := fun e => by
      obtain ⟨old, ho, differs⟩ := (v.sha.isChange_iff c).mp e
      exact differs.elim (· (same old ho).1) (· (same old ho).2)
    rw [shaAbility_resolved st, shaResolve_keeps (found_eq.trans hf) unchanged] at taken
    rw [show enterChosen (v.withSha v.sha.leaveUp) c = chosen c s from entered c s rfl] at taken
    refine ⟨fun quiet => ?untold, fun hr up => ?waits⟩
    case untold =>
      rw [taken]
      split
      next up => rw [tellIfRunning_idle (s := v) (quiet.resolve_right (fun e => e up))]; rfl
      next => rfl
    case waits =>
      rw [if_pos (show v.sha.state = .up from up), tellIfRunning_running (s := v) hr] at taken
      exact ⟨_, taken, hearsWait_acqWait _⟩
  case changes =>
    have change : v.sha.isChange c = true := (v.sha.isChange_iff c).mpr ⟨old, ho, differs⟩
    rw [shaAbility_resolved st, shaResolve_changes (found_eq.trans hf) change,
      show raise (v.withSha v.sha.leaveUp) (.linkChanged c.band c.pol) = _ from raise_room (s := s.withSha left) _ room,
      State.noticed_withSha, entered c _ (State.out_noticed _ _)] at taken
    refine ⟨fun hr => ?untold, fun hr => ?told⟩
    case untold =>
      rw [taken, tellIfRunning_idle (s := v) hr]
      rfl
    case told =>
      rw [tellIfRunning_running (s := v) hr] at taken
      exact ⟨_, taken, hearsLink_acqLink _⟩
  case fails =>
    rw [shaAbility_resolved st, shaResolve_fails (found_eq.trans hf),
      enterNoCommon_room (s := v.withSha v.sha.leaveUp) room] at taken
    refine ⟨fun hr => ?untold, fun hr => ?told⟩
    case untold =>
      rw [taken, tellIfRunning_idle (s := v.withSha v.sha.leaveUp) hr]
      rfl
    case told =>
      rw [tellIfRunning_running (s := v.withSha v.sha.leaveUp) hr] at taken
      exact ⟨_, taken, hearsLink_acqLink _⟩
  case recorded =>
    rw [taken, shaAbility_recorded st]
    rfl
  case quiet =>
    rw [taken, shaAbility_quiet silent quiet]
    rfl
  case wakes =>
    rw [taken, shaAbility_wakes silent still]
    exact (exec_ability (s := s.offers) h bands pols periods ack).symm

/-! ## The echo and the entry to UP (R124, R125, R127) -/

theorem identityFits_iff {s : State} {e : Entry} (h : offerRow s = some e) :
    identityFits s = true ↔ e.set.siteCode = 0 ∨ s.sha.identity = some e.set.siteCode := by
  unfold identityFits
  rw [h]
  simp

theorem identityFits_idle {s : State} (h : s.acq.ctx = none) : identityFits s = false := by
  unfold identityFits
  rw [offerRow_idle h]
  rfl

/-- R125: the agent's fields on entry to UP with a choice, link ready as judged. -/
def Sha.entersUp (h : Sha) (c : Choice) (ready : Bool) : Sha :=
  { h with
    state := .up, echoTimer := none, agreed := some c, reportWatch := some (3 * periodMs c.period), linkReady := ready }

section
variable {s : State} {c : Choice} {toggle : Bool}

theorem enterUp_room (room : s.roomy) :
    enterUp s c =
      ((s.withSha (s.sha.entersUp c (identityFits s))).noticed (.linkUp c), if identityFits s then some .ready else none) := by
  let u := s.withSha (s.sha.entersUp c s.sha.linkReady)
  have noticed : raise u (.linkUp c) = u.noticed (.linkUp c) := raise_room (s := u) _ room
  have fits : identityFits (raise u (.linkUp c)) = identityFits s := by
    unfold identityFits
    rw [offerRow_eq, offerRow_eq, acq_raise, sites_raise, sha_raise]
    rfl
  show judgeReady (raise u (.linkUp c)) = _
  unfold judgeReady
  dsimp only
  rw [fits, sha_raise, noticed, ← State.noticed_withSha]
  rfl

theorem shaEcho_chosen (h : s.sha.state = .chosen) : shaEcho s c toggle = shaEchoChosen s c toggle := by
  unfold shaEcho
  rw [shaWake_awake h (by decide)]
  exact if_pos h

theorem shaEcho_ignored (awake : shaWake s = s) (h : s.sha.state ≠ .chosen) : shaEcho s c toggle = (s, none) := by
  unfold shaEcho
  rw [awake]
  exact if_neg h

/-- R119: an echo that wakes the agent is taken in OFFERING, which ignores it. -/
theorem shaEcho_wakes (silent : s.sha.state = .silent) (still : s.sha.quietTimer = none) :
    shaEcho s c toggle = (s.offers, none) := by
  unfold shaEcho
  rw [shaWake_offers silent still]
  rfl

variable {sent : Choice} {sentToggle : Bool}

theorem shaEchoChosen_stale (h : s.sha.sent = some (sent, sentToggle)) (stale : toggle ≠ sentToggle) :
    shaEchoChosen s c toggle = (s, none) := by
  unfold shaEchoChosen
  rw [h]
  exact if_pos stale

theorem shaEchoChosen_agrees (h : s.sha.sent = some (c, toggle)) : shaEchoChosen s c toggle = enterUp s c := by
  unfold shaEchoChosen
  rw [h]
  dsimp only
  rw [if_neg (not_not.mpr rfl), if_pos rfl]

theorem shaEchoChosen_differs (h : s.sha.sent = some (sent, toggle)) (differs : c ≠ sent) :
    shaEchoChosen s c toggle = enterNoCommon s := by
  unfold shaEchoChosen
  rw [h]
  dsimp only
  rw [if_neg (not_not.mpr rfl), if_neg differs]

end

/-- Settles O32: in CHOSEN by the toggle and the values of the echo, then the other states. -/
theorem echoPagesDecideTheLink : Obligations.EchoPagesDecideTheLink := by
  intro c sent toggle sentToggle s up lacking h
  have taken := exec_choiceEcho h c toggle
  refine ⟨fun st hs => ⟨fun stale => ?stale, ?agrees, ?differs⟩, fun st => ?ignored, fun silent quiet => ?quiet,
    fun silent still => ?wakes, rfl⟩
  case stale => rw [taken, shaEcho_chosen st, shaEchoChosen_stale hs stale]; rfl
  case agrees =>
    rintro rfl rfl room
    rw [shaEcho_chosen st, shaEchoChosen_agrees hs, enterUp_room room] at taken
    refine ⟨fun idle => ?idle, fun k e hk he => ?running⟩
    case idle =>
      rw [taken, identityFits_idle idle]
      rfl
    case running =>
      intro fits
      have judged : identityFits s = true ↔ fits := identityFits_iff (offerRow_running hk he)
      have ready (hf : fits) : exec (.choiceEcho c toggle) s = .next (acqReady (up true)) := by
        rw [taken, judged.mpr hf]
        rfl
      refine ⟨fun hf => ⟨_, ready hf, hearsReady_acqReady _⟩, fun hf unready step => ?begins, fun hf => ?waits⟩
      case begins =>
        have ctx : (up true).acq.ctx = some k := (congrArg Acq.ctx (State.acq_noticed _ _)).trans hk
        obtain ⟨-, -, told⟩ := hearsReady_acqReady (up true) k ctx
        rw [ready hf, told unready (by rw [step]; rintro ⟨e, -⟩; cases e)]
        unfold State.withCtx
        rw [show (up true).acq = s.acq from State.acq_noticed _ _]
      case waits =>
        rw [taken, Bool.eq_false_iff.mpr (judged.not.mpr hf)]
        rfl
  case differs =>
    rintro rfl differs room
    rw [shaEcho_chosen st, shaEchoChosen_differs hs differs, enterNoCommon_room room] at taken
    refine ⟨fun idle => ?idle, fun running => ?running⟩
    case idle =>
      rw [taken, tellIfRunning_idle (by rw [idle]; decide)]
      rfl
    case running =>
      rw [tellIfRunning_running running] at taken
      exact ⟨_, taken, hearsLink_acqLink _⟩
  case ignored =>
    rw [taken]
    rcases st with e | e | e <;>
      rw [shaEcho_ignored (shaWake_awake e (by decide)) (by rw [e]; decide)] <;> rfl
  case quiet => rw [taken, shaEcho_ignored (shaWake_quiet quiet) (by rw [silent]; decide)]; rfl
  case wakes => rw [taken, shaEcho_wakes silent still]; rfl

end Sys2Proof.Machine
end

section
/-! IDENT and REPORT pages by handshake state, and what a running context makes of them (R119, R126, R127, R132, R133, R143). -/

namespace Sys2Proof.Machine

section
variable {s : State} {code : Nat}

/-! ## An IDENT (R126) -/

theorem shaIdent_chosen (h : s.sha.state = .chosen) :
    shaIdent s code = (s.withSha { s.sha with identity := some code }, none) := by
  unfold shaIdent
  rw [shaWake_awake h (by decide)]
  dsimp only
  rw [h]

theorem shaIdent_up (h : s.sha.state = .up) :
    shaIdent s code = if s.sha.identity = some code then (s, none) else shaIdentUp s code := by
  unfold shaIdent
  rw [shaWake_awake h (by decide)]
  dsimp only
  rw [h]

theorem shaIdent_ignored (h : s.sha.state = .offering ∨ s.sha.state = .noCommon) : shaIdent s code = (s, none) := by
  unfold shaIdent
  rcases h with e | e <;>
    · rw [shaWake_awake e (by decide)]
      dsimp only
      rw [e]

theorem shaIdent_quiet (silent : s.sha.state = .silent) (quiet : s.sha.quietTimer.isSome) : shaIdent s code = (s, none) := by
  unfold shaIdent
  rw [shaWake_quiet quiet]
  dsimp only
  rw [silent]

/-- R119: an IDENT that wakes the agent is taken in OFFERING, which ignores it. -/
theorem shaIdent_wakes (silent : s.sha.state = .silent) (still : s.sha.quietTimer = none) :
    shaIdent s code = (s.offers, none) := by
  unfold shaIdent
  rw [shaWake_offers silent still]
  rfl

/-! ## An IDENT against the site code of the running row (R126, R127) -/

theorem shaIdentUp_idle (h : s.acq.ctx = none) :
    shaIdentUp s code = (s.withSha { s.sha with identity := some code }, none) := by
  unfold shaIdentUp
  rw [offerRow_idle h]

section
variable {e : Entry} (row : offerRow s = some e)
include row

/-- R126: the row takes any site, or the identity says nothing new of link ready. -/
theorem shaIdentUp_kept
    (h : e.set.siteCode = 0 ∨ (code = e.set.siteCode ∧ s.sha.linkReady = true) ∨
      (code ≠ e.set.siteCode ∧ s.sha.linkReady = false)) :
    shaIdentUp s code = (s.withSha { s.sha with identity := some code }, none) := by
  unfold shaIdentUp
  rw [row]
  dsimp only
  split
  · rfl
  next named =>
    rcases h.resolve_left named with ⟨same, ready⟩ | ⟨other, unready⟩
    · rw [if_pos same, if_pos ready]
    · rw [if_neg other, if_neg (Bool.eq_false_iff.mp unready)]

theorem shaIdentUp_matches (named : e.set.siteCode ≠ 0) (same : code = e.set.siteCode) (unready : s.sha.linkReady = false) :
    shaIdentUp s code = (s.withSha { s.sha with identity := some code, linkReady := true }, some .ready) := by
  unfold shaIdentUp
  rw [row]
  dsimp only
  rw [if_neg named, if_pos same, if_neg (Bool.eq_false_iff.mp unready)]
  rfl

theorem shaIdentUp_mismatches (named : e.set.siteCode ≠ 0) (other : code ≠ e.set.siteCode) (ready : s.sha.linkReady = true)
    (room : s.roomy) :
    shaIdentUp s code =
      ((s.withSha { s.sha with identity := some code, window := [], linkReady := false }).noticed (.linkMismatch code),
        some .link) := by
  unfold shaIdentUp
  rw [row]
  dsimp only
  rw [if_neg named, if_neg other, if_pos ready]
  exact congrArg (·, some LinkTell.link) (raise_room (s := s.withSha _) (.linkMismatch code) room)

end

/-! ## A REPORT accepted (R132, R133) -/

/-- R133: the record enters the window, and the watch restarts at three agreed periods. -/
theorem acceptRecord_agreed {c : Choice} (h : s.sha.agreed = some c) (r : WinRec) :
    acceptRecord s r = s.withSha
      { s.sha with
        window := (r :: s.sha.window.takeWhile fun old => old.seq != r.seq).take 8
        reportWatch := some (3 * periodMs c.period) } := by
  unfold acceptRecord Sha.agreedPeriod
  rw [h]
  rfl

end

/-- Settles O33: the IDENT by handshake state and by the running row, then the REPORT by whether it is accepted. -/
theorem identAndReportPagesAreTaken : Obligations.IdentAndReportPagesAreTaken := by
  intro code seq level valid s identified accepts h
  have ident := exec_ident h code
  have report := exec_report h seq level valid
  have accepted : s.sha.accepts seq = true ↔ accepts := s.sha.accepts_iff seq
  refine ⟨fun st => ?chosen, fun up same => ?repeated, fun up idle => ?idle, fun k e up new hk he => ?compared,
    fun st => ?ignored, fun c up hc ha => ?accepted, fun silent quiet => ?quiet, fun silent still => ?wakes,
    fun st => ?dropped⟩
  case chosen =>
    rw [ident, shaIdent_chosen st]
    rfl
  case repeated =>
    rw [ident, shaIdent_up up, if_pos same]
    rfl
  case idle =>
    rw [ident, shaIdent_up up]
    split
    next same =>
      show _ = Host.Outcome.next { s with sha := { s.sha with identity := some code } }
      rw [← same]
      rfl
    next => rw [shaIdentUp_idle idle]; rfl
  case compared =>
    intro matched mismatched
    rw [shaIdent_up up, if_neg new] at ident
    have row : offerRow s = some e := offerRow_running hk he
    refine ⟨fun kept => ?kept, fun named same unready => ?matched, fun named other ready room => ?mismatched⟩
    case kept =>
      rw [ident, shaIdentUp_kept row kept]
      rfl
    case matched =>
      rw [shaIdentUp_matches row named same unready] at ident
      exact ⟨_, ident, hearsReady_acqReady _⟩
    case mismatched =>
      rw [shaIdentUp_mismatches row named other ready room] at ident
      exact ⟨_, ident, hearsLink_acqLink _⟩
  case ignored =>
    rw [ident, shaIdent_ignored st]
    rfl
  case accepted =>
    intro taken
    rw [shaReport_accepted up (accepted.mpr ha), acceptRecord_agreed hc] at report
    refine ⟨fun untold => ?untold, fun ready => ?told⟩
    case untold => exact report.trans (congrArg _ (deliverReport_untold taken _ _ untold))
    case told =>
      rw [if_pos ready] at report
      exact ⟨_, report, usesReport_acqReport taken _ ⟨_, rfl⟩⟩
  case quiet =>
    rw [ident, report, shaIdent_quiet silent quiet,
      shaReport_ignored (shaWake_quiet quiet) (.inl (by rw [silent]; decide))]
    exact ⟨rfl, rfl⟩
  case wakes =>
    rw [ident, report, shaIdent_wakes silent still, shaReport_wakes silent still]
    exact ⟨rfl, rfl⟩
  case dropped =>
    rw [report]
    rcases st with ⟨up, dropped⟩ | e | e | e
    · rw [shaReport_ignored (shaWake_awake up (by decide)) (.inr (Bool.eq_false_iff.mpr (accepted.not.mpr dropped)))]
      rfl
    all_goals
      rw [shaReport_ignored (shaWake_awake e (by decide)) (.inl (by rw [e]; decide))]
      rfl

end Sys2Proof.Machine
end

section
/-! The timers of the handshake, and a RENEGOTIATE (R119, R120, R123, R127, R129, R131). -/

namespace Sys2Proof.Machine

/-! ## Entry to OFFERING (R119, R120) -/

section
variable (s : State)

/-- R120: the ABILITY that the agent sends, with an ack flag. -/
def State.offer (s : State) (ack : Bool) : SitePage :=
  let row := s.acq.ctx.bind fun c => s.sites[c.row]?
  .ability ((row.map (·.set.bandMask)).getD s.sha.vanBands) ((row.map (·.set.polMask)).getD s.sha.vanPols) 7 ack

theorem sendAbility_eq :
    sendAbility s = sendSite (s.withSha { s.sha with offerTimer := some 500 }) (s.offer s.sha.heard) := by
  unfold sendAbility State.offer
  rw [offerBands_eq, offerPols_eq]

theorem enterOffering_eq (keepHeard : Bool) :
    enterOffering s keepHeard =
      sendSite (s.withSha { s.sha.offering keepHeard with offerTimer := some 500 }) (s.offer (keepHeard && s.sha.heard)) :=
  sendAbility_eq (s.withSha (s.sha.offering keepHeard))

end

/-! ## The timers (R119, R123) -/

section
variable {s : State}

theorem shaOfferTimer_runs (h : s.sha.offerTimer.isSome) : shaOfferTimer s = sendAbility s := if_pos h

section
variable {c : Choice} {toggle : Bool} (running : s.sha.echoTimer.isSome) (sent : s.sha.sent = some (c, toggle))
include running sent

theorem shaEchoTimer_resends (few : s.sha.resends < 3) :
    shaEchoTimer s =
      sendSite (s.withSha { s.sha with resends := s.sha.resends + 1, echoTimer := some 2000 }) (.choice c toggle) := by
  obtain ⟨left, hl⟩ := Option.isSome_iff_exists.mp running
  unfold shaEchoTimer
  rw [hl, sent]
  exact if_pos few

theorem shaEchoTimer_exhausted (all : 3 ≤ s.sha.resends) : shaEchoTimer s = raise (enterOffering s true) .linkRetry := by
  obtain ⟨left, hl⟩ := Option.isSome_iff_exists.mp running
  unfold shaEchoTimer
  rw [hl, sent]
  exact if_neg (Nat.not_lt.mpr all)

end

/-! ## What a running context makes of a lost link (R127, R142) -/

theorem acqLink_unused {c : Ctx} (hc : s.acq.ctx = some c) (unused : c.linkUsed = false) : acqLink s = acqWait s := by
  unfold acqLink
  rw [hc]
  exact if_neg (Bool.eq_false_iff.mp unused)

/-- R142: outside TRACK and the re-trim phases the acquisition fails with LINK. -/
theorem acqLink_untracked {c : Ctx} (hc : s.acq.ctx = some c) (used : c.linkUsed = true) (untracked : c.phase.tracks = false) :
    acqLink s = acqFail s .link := by
  unfold acqLink linkFailed
  rw [hc]
  dsimp only
  rw [if_pos used, if_neg (Bool.eq_false_iff.mp untracked)]

/-- R127: a RENEGOTIATE tells a running context WAIT at most, which leaves the agent, its pages and the lines alone. -/
theorem deliver_shaRenegotiate (s : State) :
    let u := enterOffering s false
    let t := deliver (shaRenegotiate s)
    t.sha = u.sha ∧ t.out.site = u.out.site ∧ t.lnu = u.lnu ∧ t.sites = u.sites := by
  intro u t
  by_cases told : s.sha.linkReady = true ∧ s.acq.ctx.isSome = true
  · obtain ⟨ready, running⟩ := told
    obtain ⟨c, hc⟩ := Option.isSome_iff_exists.mp running
    have waits : t = acqWait u := by
      show deliver (u, if s.sha.linkReady then tellIfRunning s .wait else none) = _
      rw [if_pos ready, tellIfRunning_running running]
      rfl
    obtain ⟨sha, site, -, lnu, sites, -⟩ := acqWait_does u c hc
    rw [waits]
    exact ⟨sha, site, lnu, sites⟩
  · have silent : t = u := by
      show deliver (u, if s.sha.linkReady then tellIfRunning s .wait else none) = _
      split
      next ready => rw [tellIfRunning_idle fun running => told ⟨ready, running⟩]; rfl
      next => rfl
    rw [silent]
    exact ⟨rfl, rfl, rfl, rfl⟩

/-! ## The report silence watch (R129) -/

/-- R129: the agent's fields once the link is down. -/
def Sha.down (h : Sha) : Sha :=
  { h with
    state := .silent, window := [], agreed := none, identity := none, linkReady := false, downSeen := true
    reportWatch := none }

/-- R129: the state in which the loss of the link is told. -/
def State.linkLost (s : State) : State := raise (s.withSha s.sha.down) .linkDown

theorem exec_reportSilence (h : s.running) (watched : s.sha.reportWatch.isSome) :
    exec .reportSilenceExpiry s = .next (deliver (s.linkLost, tellIfRunning s .link)) :=
  exec_eq_of_running h rfl (if_pos watched)

theorem linkLost_does (s : State) :
    s.linkLost.sha = s.sha.down ∧ (s.linkLost.ntu.get .link).latest = some .linkDown ∧ s.linkLost.out.site = s.out.site ∧
      s.linkLost.acq = s.acq :=
  ⟨sha_raise _ _, latest_raise _ .linkDown, congrArg Out.site (out_raise _ _), acq_raise _ _⟩

end

/-- Settles O54, timer by timer, and then the RENEGOTIATE. -/
theorem linkTimersRunOut : Obligations.LinkTimersRunOut := by
  intro s x row ability sends offering down
  refine ⟨fun h => ⟨fun timer => ?offer, fun c toggle timer sent => ⟨fun few => ?resend, fun all room => ?retry⟩,
    fun watched => ⟨fun idle room => ?downIdle, fun c hc quiet => ?downRunning⟩, ?quiet⟩, fun h => ?renegotiate⟩
  case offer =>
    refine exec_eq_of_running h rfl ?_
    rw [shaOfferTimer_runs timer, sendAbility_eq]
    rfl
  case resend =>
    refine exec_eq_of_running h rfl ?_
    rw [shaEchoTimer_resends timer sent few]
    rfl
  case retry =>
    refine exec_eq_of_running h rfl ?_
    rw [shaEchoTimer_exhausted timer sent all, enterOffering_eq]
    exact raise_room (s := sendSite (s.withSha _) _) .linkRetry room
  case downIdle =>
    rw [exec_reportSilence h watched, tellIfRunning_idle (by rw [idle]; decide)]
    exact congrArg _ (raise_room (s := s.withSha s.sha.down) .linkDown room)
  case downRunning =>
    obtain ⟨sha, latest, site, acq⟩ := linkLost_does s
    have ctx : s.linkLost.acq.ctx = some c := (congrArg Acq.ctx acq).trans hc
    refine ⟨acqLink s.linkLost, ?_, ?_⟩
    · rw [exec_reportSilence h watched, tellIfRunning_running (Option.isSome_of_eq_some hc)]
      rfl
    cases used : c.linkUsed
    case false =>
      obtain ⟨sha', site', ntu', -, -, waits⟩ := acqWait_does s.linkLost c ctx
      rw [acqLink_unused ctx used]
      exact ⟨sha'.trans sha, by rw [ntu', latest], site'.trans site, nofun, fun _ => waits⟩
    case true =>
      have untracked := quiet.resolve_left (by rw [used]; decide)
      obtain ⟨acq', sha', site', notices, -⟩ := acqFail_does s.linkLost c .link ctx
      rw [acqLink_untracked ctx used untracked]
      exact ⟨by rw [sha', sha]; rfl, by rw [notices .link (by decide), latest], site'.trans site, fun _ => by rw [acq'],
        nofun⟩
  case quiet => exact exec_eq_of_running h rfl rfl
  case renegotiate =>
    obtain ⟨sha, site, lnu, sites⟩ := deliver_shaRenegotiate s
    rw [enterOffering_eq] at sha site lnu sites
    refine completes_of_listens h rfl ?_
    unfold renegotiateRequest
    rw [done_listens (listens_of_lnu h lnu)]
    exact ⟨sha, site, congrArg (fun l : Lnu => l.queue ++ [replyDone 0x3A]) lnu, sites⟩

end Sys2Proof.Machine
end

section
/-! ACQUIRE: the checks of Table 8-4, and the hits of the pose check (R32, R138, R140). -/

namespace Sys2Proof.Machine

/-! ## PAN, TILT and POL -/

theorem all_searchAxes_iff (p : Axis → Bool) : searchAxes.all p = true ↔ ∀ a : Axis, a ≠ .mast → p a = true := by
  simp only [searchAxes, List.all_cons, List.all_nil, Bool.and_true, Bool.and_eq_true]
  constructor
  · rintro ⟨pan, tilt, pol⟩ a ha
    cases a with
    | mast => exact absurd rfl ha
    | pan => exact pan
    | tilt => exact tilt
    | pol => exact pol
  · exact fun h => ⟨h .pan (by decide), h .tilt (by decide), h .pol (by decide)⟩

theorem axisFreeFor_iff (s : State) (a : Axis) : axisFreeFor s a = true ↔
    (s.axis a).owner ≠ .sequence ∧ (s.axis a).owner ≠ .wind ∧ ((s.axis a).owner = .console → (s.axis a).motion = .idle) := by
  unfold axisFreeFor
  cases (s.axis a).owner <;> simp

theorem axisReady_iff (s : State) (a : Axis) : axisReady s a = true ↔
    (s.axis a).motion ≠ .halted ∧ (s.axis a).motion ≠ .off ∧ s.chan (moveChannel a) = .full ∧
      (s.axis a).position.isSome := by
  simp [axisReady, and_assoc]

/-! ## Steps 1 to 6 of Table 8-4 -/

theorem entryOf_of_sites {s : State} {row : Nat} {e : Entry} (h : s.sites[row]? = some e) : entryOf s row = e :=
  congrArg (·.getD .powerOn) h

theorem runningRow_ne_iff (s : State) (row : Nat) : ¬ runningRow s = some row ↔ ∀ c, s.acq.ctx = some c → c.row ≠ row := by
  unfold runningRow
  cases s.acq.ctx <;> simp

theorem searchFree_iff (s : State) : ¬ (!searchAxes.all (axisFreeFor s)) = true ↔ ∀ a : Axis, a ≠ .mast →
    (s.axis a).owner ≠ .sequence ∧ (s.axis a).owner ≠ .wind ∧ ((s.axis a).owner = .console → (s.axis a).motion = .idle) :=
  not_bool_iff ((all_searchAxes_iff _).trans (forall₂_congr fun a _ => axisFreeFor_iff s a))

/-! ## Steps 7 to 9 of Table 8-4 -/

theorem slewChecks_unready {s : State} (row : Nat)
    (h : ¬ (searchAxes.all (axisReady s) = true ∧ (s.axis .mast).position.isSome)) : slewChecks s row = (some .state, s) := by
  unfold slewChecks
  split
  next height ready mast => exact absurd ⟨ready, by rw [mast]; rfl⟩ h
  next => rfl

section
variable {s : State} {row : Nat} {e : Entry} {height : Int}

theorem slewChecks_ready (he : s.sites[row]? = some e) (hr : searchAxes.all (axisReady s) = true)
    (hm : (s.axis .mast).position = some height) :
    slewChecks s row =
      if inSoft s .pan (slewPose e).1 && inSoft s .tilt (slewPose e).2 && inSoft s .pol e.set.presetPol then
        (if (poseCheck s ⟨e.set.presetPan, e.set.presetTilt, height⟩).1 then some .zone else none,
          (poseCheck s ⟨e.set.presetPan, e.set.presetTilt, height⟩).2)
      else (some .range, s) := by
  unfold slewChecks
  rw [hr, hm, entryOf_of_sites he]

theorem slewRanged_iff : (inSoft s .pan (slewPose e).1 && inSoft s .tilt (slewPose e).2 && inSoft s .pol e.set.presetPol) = true ↔
    ((s.axis .pan).softMin ≤ (slewPose e).1 ∧ (slewPose e).1 ≤ (s.axis .pan).softMax) ∧
    ((s.axis .tilt).softMin ≤ (slewPose e).2 ∧ (slewPose e).2 ≤ (s.axis .tilt).softMax) ∧
    ((s.axis .pol).softMin ≤ e.set.presetPol ∧ e.set.presetPol ≤ (s.axis .pol).softMax) := by
  simp only [Bool.and_eq_true, inSoft_iff, and_assoc]

end

/-- R32: a pose that a zone holds is FORBIDDEN, and each zone that holds it has one more hit. -/
theorem poseCheck_forbidden {s : State} {p : Pose} (h : ∃ z ∈ s.zones, zoneHolds z p = true) :
    poseCheck s p = (true, s.withZones (s.zones.map fun z => if zoneHolds z p then z.hit else z)) :=
  Prod.ext ((countedCheck_blocked s _).mpr h) rfl

/-! ## The request -/

section
variable {s : State} {row : Nat} {why : Reason} (hl : s.listens)
include hl

theorem exec_acquire_refused (h : acquireRefusal s row = some why) :
    exec (.acquire row) s = .next (s.queues (replyRefused 0x36 why)) := by
  refine exec_eq_of_listens hl rfl ?_
  unfold acquireRequest
  rw [h]
  exact refuse_listens hl _ _

theorem exec_acquire_checked {u : State} (h : acquireRefusal s row = none) (hc : slewChecks s row = (some why, u))
    (hu : u.lnu = s.lnu) : exec (.acquire row) s = .next (u.queues (replyRefused 0x36 why)) := by
  refine exec_eq_of_listens hl rfl ?_
  unfold acquireRequest
  rw [h, hc]
  exact refuse_listens (listens_of_lnu hl hu) _ _

end

/-- Settles O48, check by check in the order of Table 8-4. -/
theorem acquireIsRefusedByTheFirstFailingCheck : Obligations.AcquireIsRefusedByTheFirstFailingCheck := by
  intro row s hl refused
  have refuses {why : Reason} (h : acquireRefusal s row = some why) : refused why := exec_acquire_refused hl h
  refine ⟨fun h => refuses (if_pos h), ?_⟩
  intro e hrow he deployed other filled calm owned ready soft ranged holds
  have en := entryOf_of_sites he
  have c0 : ¬ 8 ≤ row := Nat.not_le.mpr hrow
  have c1 : ¬ s.dsq.deploy ≠ .deployed ↔ deployed := not_not
  have c2 : ¬ runningRow s = some row ↔ other := runningRow_ne_iff s row
  have c3 : ¬ (entryOf s row).state = .empty ↔ filled := by rw [en]
  have c4 : ¬ s.wsm.gust = .hold ↔ calm := Iff.rfl
  have c5 : ¬ (!searchAxes.all (axisFreeFor s)) = true ↔ owned := searchFree_iff s
  have c6 : searchAxes.all (axisReady s) = true ∧ (s.axis .mast).position.isSome ↔ ready :=
    and_congr_left' ((all_searchAxes_iff _).trans (forall₂_congr fun a _ => axisReady_iff s a))
  have c7 : _ ↔ ranged := slewRanged_iff
  have passed (k1 : deployed) (k2 : other) (k3 : filled) (k4 : calm) (k5 : owned) : acquireRefusal s row = none := by
    unfold acquireRefusal
    rw [if_neg c0, if_neg (c1.mpr k1), if_neg (c2.mpr k2), if_neg (c3.mpr k3), if_neg (c4.mpr k4), if_neg (c5.mpr k5)]
  have unready (k : ¬ ready) : slewChecks s row = (some .state, s) := slewChecks_unready row (mt c6.mp k)
  have unranged (k : ready) (r : ¬ ranged) : slewChecks s row = (some .range, s) := by
    obtain ⟨axes, mast⟩ := c6.mpr k
    obtain ⟨height, hm⟩ := Option.isSome_iff_exists.mp mast
    rw [slewChecks_ready he axes hm, if_neg (mt c7.mp r)]
  have posed {height : Int} (k : ready) (r : ranged) (hm : (s.axis .mast).position = some height) :=
    (slewChecks_ready he (c6.mpr k).1 hm).trans (if_pos (c7.mpr r))
  have forbidden {height : Int} (k : ready) (r : ranged) (hm : (s.axis .mast).position = some height)
      (hz : ∃ z ∈ s.zones, holds height z = true) : slewChecks s row =
        (some .zone, s.withZones (s.zones.map fun z => if holds height z then z.hit else z)) := by
    rw [posed k r hm, poseCheck_forbidden hz]
    rfl
  refine ⟨fun k1 => refuses ?state, fun k1 k2 => refuses ?busy, fun k1 k2 k3 => refuses ?empty,
    fun k1 k2 k3 k4 => refuses ?wind, fun k1 k2 k3 k4 k5 => refuses ?owner,
    fun k1 k2 k3 k4 k5 k6 => exec_acquire_checked hl (passed k1 k2 k3 k4 k5) (unready k6) rfl,
    fun k1 k2 k3 k4 k5 k6 k7 => exec_acquire_checked hl (passed k1 k2 k3 k4 k5) (unranged k6 k7) rfl,
    rfl, passed, ?clear, fun k r => congrArg Prod.fst (unranged k r), fun k => congrArg Prod.fst (unready k),
    fun _ k r hm hz => congrArg Prod.fst (forbidden k r hm hz),
    fun _ k1 k2 k3 k4 k5 k6 k7 hm hz => exec_acquire_checked hl (passed k1 k2 k3 k4 k5) (forbidden k6 k7 hm hz) rfl⟩
  case clear =>
    intro height k r hm hz
    rw [posed k r hm, show poseCheck s _ = (false, s) from countedCheck_clear hz]
    rfl
  all_goals unfold acquireRefusal
  case state => rw [if_neg c0, if_pos (not_not.mp (mt c1.mp k1))]
  case busy => rw [if_neg c0, if_neg (c1.mpr k1), if_pos (not_not.mp (mt c2.mp k2))]
  case empty => rw [if_neg c0, if_neg (c1.mpr k1), if_neg (c2.mpr k2), if_pos (not_not.mp (mt c3.mp k3))]
  case wind =>
    rw [if_neg c0, if_neg (c1.mpr k1), if_neg (c2.mpr k2), if_neg (c3.mpr k3), if_pos (not_not.mp (mt c4.mp k4))]
  case owner =>
    rw [if_neg c0, if_neg (c1.mpr k1), if_neg (c2.mpr k2), if_neg (c3.mpr k3), if_neg (c4.mpr k4),
      if_pos (not_not.mp (mt c5.mp k5))]

end Sys2Proof.Machine
end

section
/-! The start of a slew after the REPLY of its request: the context that stands ready, what the start leaves alone whether its
move is sent or the acquisition fails, and the REPLY itself (R139, R140, R158, R166, R179). -/

namespace Sys2Proof.Machine

variable {s t u : State}

/-! ## A context that stands ready to slew -/

theorem acqPush_idle (h : s.acq.ctx = none) (cause : SuspendCause) (leaveOut : Option Axis) : acqPush s cause leaveOut = s := by
  unfold acqPush
  rw [h]

theorem slewReady_axsTakeAll (h : s.slewFree) (x : Acq) (l : List Entry) :
    SlewReady s (axsTakeAll { s with acq := x, sites := l } .search searchAxes) := by
  obtain ⟨axis, mast, chans, jog⟩ := searchTaken_axsTakeAll { s with acq := x, sites := l } h
  obtain ⟨-, zones, wsm, -, -, -, out, -⟩ := axsTakeAll_elsewhere { s with acq := x, sites := l } .search searchAxes
  exact ⟨zones, wsm, chans, axis, mast, jog, congrArg (·.drive) out⟩

theorem SlewReady.congr (R : SlewReady s t) (axs : u.axs = t.axs) (mgt : u.mgt = t.mgt) (zones : u.zones = t.zones)
    (wsm : u.wsm = t.wsm) (drive : u.out.drive = t.out.drive) : SlewReady s u where
  zones := zones.trans R.zones
  wsm := wsm.trans R.wsm
  chans := (congrArg Axs.channels axs).trans R.chans
  ax b hb := (congrArg (·.get b) axs).trans (R.ax b hb)
  mast := (congrArg (·.get .mast) axs).trans R.mast
  jog b hb := (congrArg (·.get b) mgt).trans (R.jog b hb)
  drive := drive.trans R.drive

theorem SlewReady.created (R : SlewReady s t) (c : Ctx) : SlewReady s (createCtx t c) :=
  have C := created_createCtx t c
  R.congr C.axs C.mgt C.zones C.wsm C.drive

theorem SlewReady.raised (R : SlewReady s t) (n : Notice) : SlewReady s (raise t n) :=
  R.congr (axs_raise t n) (mgt_raise t n) (zones_raise t n) (wsm_raise t n) (congrArg (·.drive) (out_raise t n))

theorem SlewReady.answered (R : SlewReady s t) (k : Nat) : SlewReady s (done t k) :=
  R.congr (axs_done t k) (mgt_done t k) (zones_done t k) (wsm_done t k) (congrArg (·.drive) (out_done t k))

/-- R140: the slew of a context like `c`, which its creation has told of the link. -/
theorem startSlew_slewing {c d : Ctx} (R : SlewReady s u) (hf : s.slewFree) (hd : u.acq.ctx = some d) (L : SlewsLike c d)
    (hp : c.phase = .slew) (hs : c.step = none) (hal : s.slewAllowed c.slewPan c.slewTilt) :
    s.slewing c.row c.slewPan c.slewTilt c.slewPol c.afterSettle c.reacquire (startSlew u) ∧
      (startSlew u).acq.stack = u.acq.stack ∧ (startSlew u).sites = u.sites ∧ (startSlew u).ntu = u.ntu ∧
      (startSlew u).lnu = u.lnu := by
  have sends := startSlew_sends R hf hd (by rw [L.pan, L.tilt]; exact hal) (L.phase.trans hp) (L.step.trans hs)
  rw [L.row, L.pan, L.tilt, L.pol, L.after, L.re] at sends
  obtain ⟨slewing, stack, sites, ntu, lnu, -⟩ := sends
  exact ⟨slewing, stack, sites, ntu, lnu⟩

/-! ## What the start of a slew leaves alone -/

/-- What stays through the start of a slew, sent or failed: the Resume Stack, the notices of every class but SEARCH, and the
rows other than that of the context, which stays the same or ends. -/
structure SlewAside (s t : State) : Prop where
  stack : t.acq.stack = s.acq.stack
  notices : ∀ k : NoticeClass, k ≠ .search → t.ntu.get k = s.ntu.get k
  ctx : ∀ c, t.acq.ctx = some c → ∃ d, s.acq.ctx = some d ∧ d.row = c.row
  sites : ∀ row, (∀ c, s.acq.ctx = some c → c.row ≠ row) → t.sites[row]? = s.sites[row]?

namespace SlewAside

theorem of_same (acq : t.acq = s.acq) (ntu : t.ntu = s.ntu) (sites : t.sites = s.sites) : SlewAside s t where
  stack := congrArg Acq.stack acq
  notices k _ := congrArg (·.get k) ntu
  ctx c h := ⟨c, acq ▸ h, rfl⟩
  sites row _ := congrArg (·[row]?) sites

theorem trans (h : SlewAside s t) (g : SlewAside t u) : SlewAside s u where
  stack := g.stack.trans h.stack
  notices k hk := (g.notices k hk).trans (h.notices k hk)
  ctx c hc := by
    obtain ⟨d, hd, row⟩ := g.ctx c hc
    obtain ⟨e, he, row'⟩ := h.ctx d hd
    exact ⟨e, he, row'.trans row⟩
  sites row hr := by
    refine (g.sites row fun c hc => ?_).trans (h.sites row hr)
    obtain ⟨d, hd, same⟩ := h.ctx c hc
    exact same ▸ hr d hd

theorem setCtx {c d : Ctx} (hc : s.acq.ctx = some c) (hr : c.row = d.row) : SlewAside s (setCtx s d) where
  stack := rfl
  notices _ _ := rfl
  ctx _ h := ⟨c, hc, Option.some.inj h ▸ hr⟩
  sites _ _ := rfl

theorem acqFail (s : State) (cause : LastCause) : SlewAside s (acqFail s cause) := by
  cases hc : s.acq.ctx with
  | none =>
    have same : Machine.acqFail s cause = s := by
      unfold Machine.acqFail
      rw [hc]
    rw [same]
    exact of_same rfl rfl rfl
  | some c =>
    obtain ⟨acq, -, -, notices, -, sites, -⟩ := acqFail_does s c cause hc
    refine ⟨by rw [acq], notices, fun d hd => ?_, fun row hr => ?_⟩
    · rw [acq] at hd
      cases hd
    · rw [sites, List.getElem?_modify_ne _ _ (hr c hc)]

theorem axsSetTarget {o : Owner} {a : Axis} {w : Sel} {x : Int} (h : axsSetTarget s o a w x = .ok u) : SlewAside s u := by
  unfold Machine.axsSetTarget at h
  dsimp only at h
  repeat' split at h
  all_goals cases h
  exact of_same rfl rfl rfl

theorem sendMove (s : State) (a : Axis) (r : AxisRec) (x : Int) (rate : Option Nat) : SlewAside s (sendMove s a r x rate) := by
  unfold Machine.sendMove endJog
  split <;> exact of_same rfl rfl rfl

theorem axsSelect {o : Owner} {a : Axis} {w : Sel} {rate : Option Nat} (h : axsSelect s o a w rate = .ok u) :
    SlewAside s u := by
  unfold Machine.axsSelect at h
  dsimp only at h
  split at h
  all_goals cases h
  exact sendMove _ _ _ _ _

theorem setStepAxis (s : State) (a : Option Axis) : SlewAside s (setStepAxis s a) := by
  unfold Machine.setStepAxis
  split
  next => exact of_same rfl rfl rfl
  next c hc => exact setCtx hc rfl

theorem searchSelect (s : State) (a : Axis) (w : Sel) (x : Int) : SlewAside s (searchSelect s a w x) := by
  unfold Machine.searchSelect
  split
  next => exact acqFail s _
  next v target =>
    refine (axsSetTarget target).trans ?_
    split
    next => exact acqFail v _
    next move => exact (axsSelect move).trans (setStepAxis _ _)

theorem moveCheck (s : State) (a : Axis) (x : Int) : SlewAside s (moveCheck s a x).2 := by
  unfold Machine.moveCheck
  split <;> exact of_same rfl rfl rfl

theorem searchMove (s : State) (a : Axis) (w : Sel) (x : Int) : SlewAside s (searchMove s a w x) := by
  refine (moveCheck s a x).trans ?_
  unfold Machine.searchMove
  dsimp only
  split
  · exact acqFail _ _
  · exact searchSelect _ _ _ _

theorem slewMove (s : State) (c : Ctx) (a : Axis) : SlewAside s (slewMove s c a) := by
  unfold Machine.slewMove
  split
  · exact searchMove _ _ _ _
  · exact acqFail s _

theorem startSlew (s : State) : SlewAside s (startSlew s) := by
  unfold Machine.startSlew
  split
  next => exact of_same rfl rfl rfl
  next c hc =>
    refine trans (setCtx hc ?_) (slewMove _ _ _)
    rfl

theorem done (s : State) (k : Nat) : SlewAside s (done s k) := of_same (acq_done s k) (ntu_done s k) (sites_done s k)

end SlewAside

/-! ## The REPLY DONE before the slew (R179, R181) -/

/-- The REPLY stays behind whatever the start of the slew raises. -/
theorem replyDone_mem_startSlew {l : List UpFrame} (h : Waiting l Config.noticePlaces s) (k : Nat) :
    replyDone k ∈ (startSlew (done s k)).lnu.queue := by
  obtain ⟨replies, -⟩ := (closed_waiting _ (by decide)).startSlew (waiting_placeReply k 0 none .none h)
  refine List.mem_of_mem_filter (p := UpFrame.isReply) ?_
  show _ ∈ (startSlew (placeReply s (replyDone k))).lnu.queue.filter UpFrame.isReply
  exact replies ▸ List.mem_append_right l (List.mem_singleton_self _)

/-! ## Rows, and the entry of a push (R113, R163, R164) -/

theorem stackEntryOf_names (s : State) (c : Ctx) (cause : SuspendCause) :
    (stackEntryOf s c cause).row = c.row ∧ (stackEntryOf s c cause).cause = cause := by
  unfold stackEntryOf
  cases c.phase <;> exact ⟨rfl, rfl⟩

theorem getElem?_set_present {l : List Entry} {n : Nat} {e : Entry} (h : l[n]? = some e) (x : Entry) : (l.set n x)[n]? = some x :=
  List.getElem?_set_self (List.getElem?_eq_some_iff.mp h).1

theorem Entry.change_from {e : Entry} {source : List EntryState} (h : source.contains e.state = true) (target : EntryState)
    (cause : Option LastCause) : e.change source target cause =
      { e with state := target, learned := { e.learned with cause := cause.getD e.learned.cause } } := if_pos h

theorem Entry.change_kept {e : Entry} {source : List EntryState} (h : source.contains e.state = false) (target : EntryState)
    (cause : Option LastCause) : e.change source target cause = e := if_neg (by rw [h]; exact Bool.false_ne_true)

/-- Table 6-5: the row of a suspended context; the entry that a push drops to make room is of a SUSPENDED row. -/
theorem row_acqPush {c : Ctx} {e : Entry} (hc : s.acq.ctx = some c) (he : s.sites[c.row]? = some e)
    (hs : e.state = .acquiring ∨ e.state = .tracked) (cause : SuspendCause) (leaveOut : Option Axis) :
    (acqPush s cause leaveOut).sites[c.row]? =
      some { e with state := .suspended, learned := { e.learned with cause := pushCause cause } } := by
  obtain ⟨l, roomed, sites⟩ := (pushed_acqPush hc cause leaveOut).sites
  have kept : e.change [.suspended] .loaded none = e := Entry.change_kept (by rcases hs with h | h <;> rw [h] <;> rfl) _ _
  have row : l[c.row]? = some e := by
    rcases roomed with rfl | ⟨r, rfl⟩
    · exact he
    · by_cases hr : r = c.row
      · rw [hr, List.getElem?_modify_eq, he]
        exact congrArg some kept
      · rw [List.getElem?_modify_ne _ _ hr, he]
  rw [sites, List.getElem?_modify_eq, row]
  exact congrArg some (Entry.change_from (by rcases hs with h | h <;> rw [h] <;> rfl) _ _)

end Sys2Proof.Machine
end

section
/-! ACQUIRE that passes its checks: the row is taken from the Resume Stack, a running context is pushed, and the slew starts
(R139, R140, R163, R164). -/

namespace Sys2Proof.Machine

variable {s : State} {row : Nat} {e : Entry}

/-! ## The row taken from the Resume Stack (R139) -/

/-- The Site Table once the row of an ACQUIRE has been taken from the stack. -/
def unstackedSites (s : State) (row : Nat) : List Entry :=
  if s.acq.stack.any fun x => x.row = row then s.sites.modify row fun x => x.change [.suspended] .acquiring none else s.sites

/-- The state once the row of an ACQUIRE has been taken from the stack. -/
def unstacked (s : State) (row : Nat) : State :=
  { s with
    acq := { s.acq with stack := s.acq.stack.filter fun x => x.row ≠ row }
    sites := unstackedSites s row }

theorem removeStacked_eq (s : State) (row : Nat) : removeStacked s row = unstacked s row := by
  unfold removeStacked unstacked unstackedSites
  split
  next => rfl
  next absent =>
    have same : (s.acq.stack.filter fun x => x.row ≠ row) = s.acq.stack := by
      simpa [List.filter_eq_self] using absent
    rw [same]

/-- R113, R139: the row of an ACQUIRE goes to ACQUIRING from SUSPENDED when it leaves the stack, and from LOADED and LOST when
its context is created. -/
theorem Entry.change_acquired (hs : e.state = .loaded ∨ e.state = .lost ∨ e.state = .suspended) :
    (e.change [.suspended] .acquiring none).change [.loaded, .lost] .acquiring none = { e with state := .acquiring } := by
  rcases hs with h | h | h
  case inr.inr =>
    rw [Entry.change_from (source := [.suspended]) (by rw [h]; rfl), Entry.change_kept rfl]
    rfl
  all_goals
    rw [Entry.change_kept (source := [.suspended]) (by rw [h]; rfl), Entry.change_from (by rw [h]; rfl)]
    rfl

theorem sites_acquired (he : s.sites[row]? = some e)
    (hs : e.state = .loaded ∨ e.state = .lost ∨ (e.state = .suspended ∧ ∃ x ∈ s.acq.stack, x.row = row)) :
    ((unstackedSites s row).modify row fun x => x.change [.loaded, .lost] .acquiring none) =
      s.sites.set row { e with state := .acquiring } := by
  unfold unstackedSites
  split
  next =>
    have changed : (s.sites.set row (e.change [.suspended] .acquiring none))[row]? =
        some (e.change [.suspended] .acquiring none) := getElem?_set_present he _
    rw [Machine.List.modify_eq_set _ _ _ _ he, Machine.List.modify_eq_set _ _ _ _ changed, List.set_set,
      Entry.change_acquired (hs.imp_right (.imp_right And.left))]
  next absent =>
    have free : [EntryState.loaded, .lost].contains e.state = true := by
      rcases hs with h | h | ⟨-, stacked⟩
      · rw [h]; rfl
      · rw [h]; rfl
      · exact absurd (by simpa using stacked) absent
    rw [Machine.List.modify_eq_set _ _ _ _ he, Entry.change_from free]
    rfl

/-- The row of another context stays as it is. -/
theorem unstackedSites_other {other : Nat} (h : other ≠ row) : (unstackedSites s row)[other]? = s.sites[other]? := by
  unfold unstackedSites
  split
  · exact List.getElem?_modify_ne _ _ h.symm
  · rfl

/-! ## The context of the row (R139) -/

/-- R139: the state in which the context of an ACQUIRE is created. -/
def acquireBase (s : State) (row : Nat) : State :=
  stbChange (axsTakeAll (acqPush (removeStacked s row) .switch none) .search searchAxes) row [.loaded, .lost] .acquiring none

theorem acquireTaken_eq (s : State) (row : Nat) :
    acquireTaken s row = createCtx (acquireBase s row) (acquireCtx (acquireBase s row) row false) := rfl

theorem acquireRequest_passed (hr : acquireRefusal s row = none) (hc : (slewChecks s row).1 = none) :
    acquireRequest s row = startSlew (done (acquireTaken s row) kindAcquire) := by
  unfold acquireRequest
  rw [hr, slewChecks_passed hc]

theorem kept_acquireBase (s : State) (row : Nat) :
    (acquireBase s row).acq = (acqPush (removeStacked s row) .switch none).acq ∧
      (acquireBase s row).sites = ((acqPush (removeStacked s row) .switch none).sites.modify row fun x =>
        x.change [.loaded, .lost] .acquiring none) := by
  obtain ⟨acq, sites⟩ := kept_axsTakeAll (acqPush (removeStacked s row) .switch none) .search searchAxes
  unfold acquireBase
  exact ⟨by rw [acq_stbChange, acq], by rw [sites_stbChange, sites]⟩

/-- With no context running, the axes are taken as the stack has been left. -/
theorem acquireBase_idle (hc : s.acq.ctx = none) (hf : s.slewFree) : SlewReady s (acquireBase s row) ∧
    (acquireBase s row).acq = (unstacked s row).acq ∧ (acquireBase s row).lnu = s.lnu ∧
    (acquireBase s row).sites = (unstackedSites s row).modify row fun x => x.change [.loaded, .lost] .acquiring none := by
  obtain ⟨acq, sites⟩ := kept_acquireBase s row
  obtain ⟨-, -, -, -, -, lnu, -⟩ := axsTakeAll_elsewhere (unstacked s row) .search searchAxes
  have taken : SlewReady s (axsTakeAll (unstacked s row) .search searchAxes) := slewReady_axsTakeAll hf _ _
  have idle : acqPush (removeStacked s row) .switch none = unstacked s row := by
    rw [removeStacked_eq, acqPush_idle (s := unstacked s row) hc]
  rw [idle] at acq sites
  have base : acquireBase s row =
      stbChange (axsTakeAll (unstacked s row) .search searchAxes) row [.loaded, .lost] .acquiring none := by
    unfold acquireBase
    rw [idle]
  generalize axsTakeAll (unstacked s row) .search searchAxes = v at *
  refine ⟨?_, acq, ?_, sites⟩ <;> rw [base]
  · exact taken.congr rfl rfl rfl rfl rfl
  · exact lnu

theorem acquireCtx_eq (he : s.sites[row]? = some { e with state := .acquiring }) : acquireCtx s row false =
    newCtx row (slewPose e).1 (slewPose e).2 e.set.presetPol .azSweep false := by
  unfold acquireCtx
  rw [entryOf_of_sites he]
  rfl

/-- R139, R140: an ACQUIRE with no context running. -/
theorem acquire_slews (hl : s.listens) (he : s.sites[row]? = some e) (hc : s.acq.ctx = none) (hf : s.slewFree)
    (hal : s.slewAllowed (slewPose e).1 (slewPose e).2)
    (hs : e.state = .loaded ∨ e.state = .lost ∨ (e.state = .suspended ∧ ∃ x ∈ s.acq.stack, x.row = row)) :
    let t := startSlew (done (acquireTaken s row) kindAcquire)
    s.slewing row (slewPose e).1 (slewPose e).2 e.set.presetPol .azSweep false t ∧
      t.acq.stack = s.acq.stack.filter (fun x => x.row ≠ row) ∧ t.sites = s.sites.set row { e with state := .acquiring } ∧
      t.lnu.queue = s.lnu.queue ++ [replyDone 0x36] := by
  obtain ⟨ready, acq, lnu, sites⟩ := acquireBase_idle (row := row) hc hf
  rw [sites_acquired he hs] at sites
  have row_acquiring : (acquireBase s row).sites[row]? = some { e with state := .acquiring } := by
    rw [sites]
    exact getElem?_set_present he _
  rw [acquireTaken_eq, acquireCtx_eq row_acquiring]
  generalize acquireBase s row = v at *
  have C := created_createCtx v (newCtx row (slewPose e).1 (slewPose e).2 e.set.presetPol .azSweep false)
  replace ready := ready.created (newCtx row (slewPose e).1 (slewPose e).2 e.set.presetPol .azSweep false)
  generalize createCtx v _ = w at *
  obtain ⟨d, hd, like⟩ := C.ctx
  have ctx : (done w kindAcquire).acq.ctx = some d := by rw [acq_done, hd]
  obtain ⟨slewing, stacked, sited, -, replied⟩ := startSlew_slewing (ready.answered kindAcquire) hf ctx like rfl rfl hal
  replace lnu := C.lnu.trans lnu
  refine ⟨slewing, ?stack, ?sites, ?queue⟩
  case stack =>
    rw [stacked, acq_done, hd, acq]
    rfl
  case sites => rw [sited, sites_done, C.sites, sites]
  case queue =>
    rw [replied, done_listens (listens_of_lnu hl lnu)]
    exact congrArg (fun l : Lnu => l.queue ++ [replyDone 0x36]) lnu

/-! ## A running context is pushed (R163, R164) -/

theorem acquire_pushes {c : Ctx} {old : Entry} (hr : c.row ≠ row) (hc : s.acq.ctx = some c)
    (ho : s.sites[c.row]? = some old) (hs : old.state = .acquiring ∨ old.state = .tracked) :
    let t := acquireTaken s row
    (∃ rest, t.acq.stack = stackEntryOf (unstacked s row) c .switch :: rest) ∧ (∀ d, t.acq.ctx = some d → d.row = row) ∧
      t.sites[c.row]? = some { old with state := .suspended, learned := { old.learned with cause := .none } } := by
  obtain ⟨acq, sites⟩ := kept_acquireBase s row
  rw [removeStacked_eq] at acq sites
  have running : (unstacked s row).acq.ctx = some c := hc
  have kept : (unstacked s row).sites[c.row]? = some old := (unstackedSites_other hr).trans ho
  obtain ⟨rest, pushed, -⟩ := (pushed_acqPush running .switch none).stack
  have C := created_createCtx (acquireBase s row) (acquireCtx (acquireBase s row) row false)
  obtain ⟨d, hd, like⟩ := C.ctx
  rw [acquireTaken_eq]
  dsimp only
  rw [hd, C.sites, acq, sites]
  refine ⟨⟨rest, pushed⟩, fun d' hd' => ?_, ?_⟩
  · exact Option.some.inj hd' ▸ like.row
  · rw [List.getElem?_modify_ne _ _ hr.symm]
    exact row_acqPush running kept hs .switch none

/-- Settles O49: the context that is created, and the one that is pushed before it. -/
theorem acquireStartsASlew : Obligations.AcquireStartsASlew := by
  intro row e s hl he hr hk
  have request := acquireRequest_passed hr hk
  refine ⟨fun hc hf hal hs => ?slews, fun c old hc ho hs => ?pushes⟩
  case slews => exact ⟨_, exec_eq_of_listens hl rfl request, acquire_slews hl he hc hf hal hs⟩
  case pushes =>
    have other : c.row ≠ row := (acquireRefusal_none hr).1 c hc
    obtain ⟨⟨rest, stack⟩, named, suspended⟩ := acquire_pushes other hc ho hs
    have waits := (closed_waiting _ (Nat.le_refl _)).acquireTaken row (waiting_listens hl)
    have replied := replyDone_mem_startSlew waits kindAcquire
    have aside := (SlewAside.done (acquireTaken s row) kindAcquire).trans (.startSlew _)
    have sited := (aside.sites c.row fun d hd => (named d hd).trans_ne other.symm).trans suspended
    refine ⟨_, exec_eq_of_listens hl rfl request, ⟨rest, ?stack⟩, ⟨_, sited, rfl, rfl⟩, replied⟩
    case stack =>
      rw [aside.stack, stack]
      have entry : entryOf (unstacked s row) c.row = old := entryOf_of_sites ((unstackedSites_other other).trans ho)
      unfold stackEntryOf
      rw [entry]
      cases c.phase <;> rfl

end Sys2Proof.Machine
end

section
/-! RESUME and RELEASE (R159, R165 to R167). -/

namespace Sys2Proof.Machine

variable {s : State} {e : StackEntry} {rest : List StackEntry}

/-! ## RESUME (R165, R166) -/

section
variable (h : s.acq.stack = e :: rest)
include h

theorem resumeRequest_refused (hd : s.dsq.deploy ≠ .deployed ∨ s.wsm.gust = .hold) :
    resumeRequest s = refuse s kindResume .state := by
  unfold resumeRequest
  rw [h]
  exact if_pos hd

theorem resumeRequest_taken (hd : s.dsq.deploy = .deployed) (hg : s.wsm.gust ≠ .hold) :
    resumeRequest s = startSlew (done (popSaved s e) kindResume) := by
  unfold resumeRequest
  rw [h]
  exact if_neg (not_or.mpr ⟨not_not_intro hd, hg⟩)

end

/-- R166: the top entry has left the stack, and its row goes to ACQUIRING. -/
def popped (s : State) (e : StackEntry) : State := stbChange (setStack s s.acq.stack.tail) e.row [.suspended] .acquiring none

/-- R166: the state in which the context of a popped entry is created. -/
def popBase (s : State) (e : StackEntry) : State := axsTakeAll (acqPush (popped s e) .switch none) .search searchAxes

theorem popSaved_eq (s : State) (e : StackEntry) : popSaved s e =
    raise (createCtx (popBase s e) (resumedCtx (popBase s e) e e.phase)) (.resumeResumed e.row e.cause) := rfl

theorem waiting_popSaved {l : List UpFrame} (h : Waiting l Config.noticePlaces s) (e : StackEntry) :
    Waiting l Config.noticePlaces (popSaved s e) := (closed_waiting l (Nat.le_refl _)).popTo e _ h

theorem sites_popped {x : Entry} (hx : s.sites[e.row]? = some x) (hs : x.state = .suspended) :
    (popped s e).sites = s.sites.set e.row { x with state := .acquiring } := by
  unfold popped
  rw [sites_stbChange, sites_setStack, Machine.List.modify_eq_set _ _ _ _ hx, Entry.change_from (by rw [hs]; rfl)]
  rfl

theorem popBase_idle (hc : s.acq.ctx = none) (hf : s.slewFree) : SlewReady s (popBase s e) ∧
    (popBase s e).acq = (popped s e).acq ∧ (popBase s e).sites = (popped s e).sites := by
  unfold popBase
  rw [acqPush_idle (s := popped s e) hc]
  exact ⟨slewReady_axsTakeAll hf _ _, kept_axsTakeAll _ _ _⟩

/-- R165, R166: a RESUME with no context running. -/
theorem resume_slews {x : Entry} {pan tilt : Int} (hl : s.listens) (h : s.acq.stack = e :: rest) (hc : s.acq.ctx = none)
    (hx : s.sites[e.row]? = some x) (hs : x.state = .suspended) (hp : resumePose s e e.phase = (pan, tilt)) (hf : s.slewFree)
    (hal : s.slewAllowed pan tilt) :
    let t := startSlew (done (popSaved s e) kindResume)
    s.slewing e.row pan tilt x.set.presetPol e.phase.after e.reacquire t ∧ t.acq.stack = rest ∧
      t.sites = s.sites.set e.row { x with state := .acquiring } ∧
      (t.ntu.get .resume).latest = some (.resumeResumed e.row e.cause) ∧ t.lnu.queue.getLast? = some (replyDone 0x38) := by
  have last := last_done (waiting_popSaved (waiting_listens hl) e) kindResume
  obtain ⟨ready, acq, sites⟩ := popBase_idle (e := e) hc hf
  rw [sites_popped hx hs] at sites
  have row_acquiring : (popBase s e).sites[e.row]? = some { x with state := .acquiring } := by
    rw [sites]
    exact getElem?_set_present hx _
  rw [popSaved_eq, resumedCtx_eq e.phase hx (entryOf_of_sites row_acquiring) ready.ax, hp] at *
  generalize popBase s e = v at *
  have C := created_createCtx v (newCtx e.row pan tilt x.set.presetPol e.phase.after e.reacquire)
  replace ready := ready.created (newCtx e.row pan tilt x.set.presetPol e.phase.after e.reacquire)
  generalize createCtx v _ = w at *
  obtain ⟨d, hd, like⟩ := C.ctx
  have told := latest_raise w (.resumeResumed e.row e.cause)
  replace ready := (ready.raised (.resumeResumed e.row e.cause)).answered kindResume
  have ctx : (done (raise w (.resumeResumed e.row e.cause)) kindResume).acq.ctx = some d := by rw [acq_done, acq_raise, hd]
  obtain ⟨slewing, stacked, sited, noted, replied⟩ := startSlew_slewing ready hf ctx like rfl rfl hal
  refine ⟨slewing, ?stack, ?sites, ?notice, ?queue⟩
  case stack =>
    rw [stacked, acq_done, acq_raise, hd, acq]
    exact congrArg List.tail h
  case sites => rw [sited, sites_done, sites_raise, C.sites, sites]
  case notice =>
    rw [noted, ntu_done]
    exact told
  case queue =>
    rw [replied]
    exact last

/-- R165, R166: a RESUME pushes the running context on what the removal of its entry has left of the stack. -/
theorem resume_pushes {c : Ctx} (h : s.acq.stack = e :: rest) (hc : s.acq.ctx = some c) (hf : s.fits) :
    (∃ y, (popSaved s e).acq.stack = y :: rest ∧ y.row = c.row ∧ y.cause = .switch) ∧
      ((popSaved s e).ntu.get .resume).latest = some (.resumeResumed e.row e.cause) := by
  have left : (popped s e).acq.stack = rest := congrArg List.tail h
  have room : (popped s e).acq.stack.length < 3 := by
    obtain ⟨-, -, places, -⟩ := hf
    rw [h] at places
    rw [left]
    exact places
  obtain ⟨r, stack, same⟩ := (pushed_acqPush (s := popped s e) hc .switch none).stack
  have acq : (popBase s e).acq = _ := (kept_axsTakeAll (acqPush (popped s e) .switch none) .search searchAxes).1
  obtain ⟨d, hd, -⟩ := (created_createCtx (popBase s e) (resumedCtx (popBase s e) e e.phase)).ctx
  refine ⟨⟨stackEntryOf (popped s e) c .switch, ?_, stackEntryOf_names _ c .switch⟩,
    latest_raise _ (.resumeResumed e.row e.cause)⟩
  rw [popSaved_eq, acq_raise, hd, acq, stack, same room, left]

/-! ## RELEASE (R131, R159) -/

/-- R131: what the end of the link comes to. -/
theorem shaEnd_ends (s : State) (hr : s.sha.linkReady = false) : ∃ h : Sha, h.state = .silent ∧ h.linkReady = false ∧
    shaEnd s =
      { s with
        sha := h
        out := { s.out with site := if s.sha.state = .silent then s.out.site else s.out.site ++ [SitePage.leave] } } := by
  unfold shaEnd
  split
  next silent => exact ⟨s.sha, silent, hr, rfl⟩
  next => exact ⟨s.sha.ended, rfl, rfl, rfl⟩

/-- R113: the row of a context that a RELEASE ends. -/
theorem change_released (e : Entry) : e.change runningStates .loaded (some .none) =
    if e.state = .acquiring ∨ e.state = .tracked then
      { e with state := .loaded, learned := { e.learned with cause := .none } } else e := by
  unfold Entry.change
  cases h : e.state <;> rfl

theorem axis_releaseSearch (s : State) {a : Axis} (ha : a ≠ .mast) :
    (releaseSearch s).axis a = { s.axis a with owner := .none } := by
  cases a with
  | mast => exact absurd rfl ha
  | _ => rfl

/-- R159: a context that is released, up to the end of the link. -/
theorem acqRelease_does (s : State) (c : Ctx) :
    let t := acqRelease s c
    t.acq = { s.acq with ctx := none } ∧ t.searchReleased ∧
      t.sites = (s.sites.modify c.row fun e => e.change runningStates .loaded (some .none)) ∧ t.txc.tracked = false ∧
      t.txc.mute = false ∧ t.sha.state = .silent ∧ t.sha.linkReady = false ∧
      t.out.site = (if s.sha.state = .silent then s.out.site else s.out.site ++ [SitePage.leave]) ∧ t.lnu = s.lnu := by
  have stopped := onlyAxes_stopSearch s none
  have still := stopSearch_leaves_none_moving s
  dsimp only
  unfold acqRelease
  generalize stopSearch s none = u at *
  obtain ⟨-, -, -, -, mute, tracked⟩ := judged_keeps u.txc (u.txc.handTracked false)
  have released := onlyAxes_releaseSearch (txcTracked (stbChange u c.row runningStates .loaded (some .none)) false)
  have axis := fun a => axis_releaseSearch (txcTracked (stbChange u c.row runningStates .loaded (some .none)) false) (a := a)
  generalize releaseSearch (txcTracked (stbChange u c.row runningStates .loaded (some .none)) false) = w at *
  obtain ⟨h, silent, unready, ends⟩ := shaEnd_ends (endCtx w) rfl
  have sha : w.sha = s.sha := released.sha.trans stopped.sha
  have site : w.out.site = s.out.site := released.site.trans stopped.site
  rw [ends]
  refine ⟨?acq, fun a ha => ?axes, ?sites, (congrArg Txc.tracked released.txc).trans tracked,
    (congrArg Txc.mute released.txc).trans mute, silent, unready, ?site, released.lnu.trans stopped.lnu⟩
  case acq => exact congrArg (fun x : Acq => { x with ctx := none }) (released.acq.trans stopped.acq)
  case sites => exact released.sites.trans (by rw [sites_txcTracked, sites_stbChange, stopped.sites])
  case axes =>
    show (w.axis a).owner = .none ∧ (w.axis a).motion ≠ .moving
    rw [axis a ha]
    exact ⟨rfl, still a ha⟩
  case site =>
    show (if w.sha.state = .silent then w.out.site else w.out.site ++ [SitePage.leave]) = _
    rw [sha, site]

/-- Settles O51, request by request. -/
theorem resumeAndRelease : Obligations.ResumeAndRelease := by
  intro s hl
  refine ⟨fun h => exec_eq_of_listens hl rfl ?empty, fun e rest h => ⟨fun hd => exec_eq_of_listens hl rfl ?refused,
    fun x pan tilt hd hg hc hx hs hp hf hal =>
      ⟨_, exec_eq_of_listens hl rfl (resumeRequest_taken h hd hg), resume_slews hl h hc hx hs hp hf hal⟩,
    fun c hd hg hc hf => ⟨_, exec_eq_of_listens hl rfl (resumeRequest_taken h hd hg), ?pushes⟩⟩,
    fun hc => exec_eq_of_listens hl rfl ?idle, fun c hc => completes_of_listens hl rfl ?release, rfl, fun e x hx => ?poses⟩
  case empty =>
    unfold resumeRequest
    rw [h]
    exact refuse_listens hl _ _
  case refused => exact (resumeRequest_refused h hd).trans (refuse_listens hl _ _)
  case pushes =>
    obtain ⟨⟨y, stack, row, cause⟩, told⟩ := resume_pushes h hc hf
    have waits := waiting_popSaved (waiting_listens hl) e
    have aside := (SlewAside.done (popSaved s e) kindResume).trans (.startSlew _)
    generalize popSaved s e = u at *
    have noticed := congrArg ClassRow.latest (aside.notices .resume (by decide))
    exact ⟨⟨y, aside.stack.trans stack, row, cause⟩, noticed.trans told,
      replyDone_mem_startSlew waits kindResume⟩
  case idle =>
    unfold releaseRequest
    rw [hc]
    exact refuse_listens hl _ _
  case release =>
    obtain ⟨acq, released, sites, tracked, mute, silent, unready, site, lnu⟩ := acqRelease_does s c
    unfold releaseRequest
    rw [hc]
    dsimp only
    rw [done_listens (listens_of_lnu hl lnu)]
    generalize acqRelease s c = t at *
    exact ⟨acq, released, sites.trans (congrArg _ (funext change_released)), tracked, mute, silent, unready, site,
      congrArg (fun l : Lnu => l.queue ++ [replyDone 0x37]) lnu⟩
  case poses =>
    unfold resumePose
    rw [entryOf_of_sites hx]
    refine ⟨rfl, rfl, fun pan tilt hp ht => ?_, fun mid tilt hm ht => ?_⟩
    · rw [hp, ht]
      rfl
    · rw [hm, ht]
      rfl

end Sys2Proof.Machine
end

section
/-! DROP_RESUME (R113, R169). -/

namespace Sys2Proof.Machine

variable {s : State}

/-- R113: the row of a dropped entry changes its state alone, and from SUSPENDED only. -/
theorem change_dropped (x : Entry) :
    x.change [.suspended] .loaded none = if x.state = .suspended then { x with state := .loaded } else x := by
  split
  next suspended => exact Entry.change_from (by rw [suspended]; rfl) .loaded none
  next other => exact Entry.change_kept (by simpa using other) .loaded none

/-- R169: what the removal of the top entry comes to, before the REPLY. -/
theorem acqDrop_eq {e : StackEntry} {rest : List StackEntry} (h : s.acq.stack = e :: rest) :
    acqDrop s e =
      { s with
        acq := { s.acq with stack := rest }
        sites := s.sites.modify e.row fun x => if x.state = .suspended then { x with state := .loaded } else x } := by
  unfold acqDrop
  rw [h, ← funext change_dropped]
  rfl

/-- Settles O50: the request is refused on an empty stack, and otherwise drops the top entry and is answered DONE. -/
theorem dropResumeRemovesTheTopEntry : Obligations.DropResumeRemovesTheTopEntry := by
  intro s hl
  refine ⟨fun empty => exec_eq_of_listens hl rfl ?empty, fun e rest top => exec_eq_of_listens hl rfl ?dropped⟩
  case empty =>
    unfold dropRequest
    rw [empty]
    exact refuse_listens hl _ _
  case dropped =>
    have request : dropRequest s = done (acqDrop s e) kindDropResume := by
      unfold dropRequest
      rw [top]
    rw [request, done_listens (s := acqDrop s e) (listens_of_lnu hl rfl), acqDrop_eq top]
    rfl

end Sys2Proof.Machine
end

section
/-! The transmitter enable after a clean POSITION report, and TX_ON and TX_OFF (R173 to R176). -/

namespace Sys2Proof.Machine

/-! ## What leaves TXC as it is, and what asserts no TXEN -/

/-- What hands nothing to the Transmitter Enable Control keeps every property of its fields. -/
theorem quiet_ofTxc (p : Txc → Prop) : Quiet fun s : State => p s.txc where
  drive _ hs := hs
  mgt _ hs := hs
  ntu _ hs := hs
  lnu _ _ _ _ _ _ hs := hs
  axis _ _ _ _ _ hs := hs
  channels _ _ hs := hs
  site _ hs := hs
  zones _ _ hs := hs
  dsq _ _ _ hs := hs
  sha _ _ hs := hs
  sites _ _ hs := hs
  acq _ _ hs := hs

/-- R173, R175: no tell of another block asserts TXEN; a position alone does. -/
theorem engine_txenOnlyFalls (lit : Bool) : Engine fun s : State => s.txc.txen = true → lit = true :=
  (closed_of_quiet (quiet_ofTxc fun x => x.txen = true → lit = true) (fun _ falls hs on => hs (falls on)) (fun _ hs => hs)
    (fun _ _ _ hs => hs) (fun _ _ hs => hs)).engine

theorem txc_forwards (s : State) (node kind : Nat) (payload : List Byte) : (s.forwards node kind payload).txc = s.txc := by
  obtain ⟨l, e⟩ := forwards_withLnu s node kind payload
  rw [e]
  rfl

/-! ## The tells that a clean report makes (R10, R11, Tables 1-5 and 4-6) -/

/-- R10: the report is an arrival at the selected target, wherever it says that the axis is at rest. -/
def AxisRec.arrives (r : AxisRec) (pos : Int) : Prop :=
  r.motion = .moving ∧ ∃ target, r.selected = some target ∧ (pos - target).natAbs ≤ r.tolerance

/-- R10, R11: SEARCH is told of an arrival or a rest, or a walk in the deploy state `d` is told of an arrival. -/
def AxisRec.tells (r : AxisRec) (d : Deploy) (pos : Int) (moving : Bool) : Prop :=
  moving = false ∧ r.motion ≠ .halted ∧
    (r.owner = .search ∧ (r.arrives pos ∨ r.stopping = true) ∨
      r.owner = .sequence ∧ r.arrives pos ∧ (d = .raising ∨ d = .lowering))

theorem AxisRec.owner_rested (r : AxisRec) (pos : Int) : (r.rested pos).owner = r.owner := by
  unfold AxisRec.rested
  dsimp only
  split
  · exact AxisRec.owner_setTarget ..
  · rfl

section
variable {s : State} {a : Axis} {pos : Int}

theorem slotDone_unwalked (up : s.dsq.deploy ≠ .raising) (down : s.dsq.deploy ≠ .lowering) : slotDone s = s := by
  unfold slotDone
  split
  · contradiction
  · contradiction
  · rfl

/-- Table 4-6: outside a walk an arrival is at most that of a re-height. -/
theorem txc_dsqArrival (a : Axis) (up : s.dsq.deploy ≠ .raising) (down : s.dsq.deploy ≠ .lowering) :
    (dsqArrival s a).txc = s.txc := by
  have q := quiet_ofTxc (· = s.txc)
  unfold dsqArrival
  rw [slotDone_unwalked up down, ite_self]
  split
  next =>
    split
    next => exact q.raise _ (q.axsRelease .mast rfl)
    next => rfl
  next => rfl

theorem txc_tellArrival (pos : Int) (search : (s.axis a).owner ≠ .search)
    (walk : (s.axis a).owner = .sequence → ¬ (s.dsq.deploy = .raising ∨ s.dsq.deploy = .lowering)) :
    (tellArrival s a pos).txc = s.txc := by
  cases owner : (s.axis a).owner with
  | none => rw [tellArrival_quiet pos (.inl owner)]
  | console => rw [tellArrival_quiet pos (.inr owner)]
  | search => exact absurd owner search
  | sequence =>
    obtain ⟨up, down⟩ := not_or.mp (walk owner)
    unfold tellArrival
    rw [owner]
    exact txc_dsqArrival a up down
  | wind =>
    unfold tellArrival
    rw [owner]
    exact (quiet_ofTxc (· = s.txc)).endLowering _ rfl

/-- R6: a report that tells neither SEARCH nor a walk anything changes nothing of TXC beyond its judgement of the pose. -/
theorem txc_cleanReport {moving : Bool} (untold : ¬ (s.axis a).tells s.dsq.deploy pos moving) :
    (cleanReport s a pos moving).txc = s.txc := by
  unfold cleanReport
  dsimp only
  split
  next => rfl
  next unhalted =>
    split
    next => rfl
    next atRest =>
      have rest : moving = false := eq_false_of_ne_true atRest
      split
      next reached =>
        rw [Bool.and_eq_true, decide_eq_true_eq, AxisRec.reached_iff] at reached
        have owner : ((s.setAxis a (s.axis a).arrived).axis a).owner = (s.axis a).owner := by
          rw [State.axis_setAxis_self]
          rfl
        refine txc_tellArrival (s := s.setAxis a (s.axis a).arrived) pos ?search ?walk
        case search => exact fun e => untold ⟨rest, unhalted, .inl ⟨owner.symm.trans e, .inl reached⟩⟩
        case walk => exact fun e walks => untold ⟨rest, unhalted, .inr ⟨owner.symm.trans e, reached, walks⟩⟩
      next =>
        split
        next => rfl
        next =>
          split
          next stopping =>
            have owner : ((s.setAxis a ((s.axis a).rested pos)).axis a).owner = (s.axis a).owner := by
              rw [State.axis_setAxis_self, AxisRec.owner_rested]
            rw [tellRest_quiet pos fun e => untold ⟨rest, unhalted, .inl ⟨owner.symm.trans e, .inr stopping⟩⟩]
            rfl
          next => rfl

end

/-- Settles O26: TXC judges the pose first; the tells that follow leave its fields as they are, or assert no TXEN. -/
theorem enableFollowsTheReportedPose : Obligations.EnableFollowsTheReportedPose := by
  intro a pos moving code s r arrives told running full known ordered
  let u := s.reports a pos ((s.axis a).seenAt pos)
  have judged : ((dsqReport (cleanReport u a pos moving) a).forwards (axisNode a) 0x10
      (positionPayload pos moving false code)).txc = (cleanReport u a pos moving).txc := by
    have stays : (cleanReport u a pos moving).dsq.deploy ≠ .unknown :=
      closed_deployKnown.engine.cleanReport (s := u) a pos moving known
    rw [txc_forwards, dsqReport_known a stays]
  refine ⟨_, exec_position_clean running full ordered, fun untold => judged.trans ?kept, fun on => ?falls⟩
  case kept =>
    refine txc_cleanReport (s := u) ?_
    rw [axis_reports]
    exact untold
  case falls => exact (engine_txenOnlyFalls (s.watches a pos).txen).cleanReport (s := u) a pos moving id (judged ▸ on)

/-! ## TX_ON and TX_OFF -/

/-- R174: the fields with the latch set and the mute cleared, before the condition is judged afresh. -/
def Txc.latched (t : Txc) : Txc := { t with latch := true, mute := false }

section
variable {t : Txc}

theorem Txc.condition_deployed (h : t.deploy = .deployed) : t.condition = true ↔
    (t.gust ≠ .hold ∧ t.axisHalted = false) ∧ (t.latch = true ∨ (t.tracked = true ∧ t.mute = false)) := by
  unfold Txc.condition
  simp [h, or_comm]

theorem Txc.condition_latched (h : t.deploy = .deployed) :
    t.latched.condition = true ↔ t.gust ≠ .hold ∧ t.axisHalted = false :=
  (Txc.condition_deployed (t := t.latched) h).trans (and_iff_left (.inl rfl))

/-- R173: the latch makes the condition true where nothing but a latch or a track was missing. -/
theorem Txc.judged_latched_rises (h : t.deploy = .deployed) (allowed : t.gust ≠ .hold ∧ t.axisHalted = false)
    (unlatched : t.latch = false) (silent : t.tracked = false ∨ t.mute = true) : t.judged t.latched = t.latched.pend := by
  have before : t.condition = false := by
    rw [← Bool.not_eq_true, Txc.condition_deployed h]
    rintro ⟨-, latch | ⟨tracked, mute⟩⟩
    · exact absurd latch (ne_true_of_eq_false unlatched)
    · rcases silent with untracked | muted
      · exact absurd tracked (ne_true_of_eq_false untracked)
      · exact absurd muted (ne_true_of_eq_false mute)
  have after : t.latched.condition = true := (Txc.condition_latched h).mpr allowed
  unfold Txc.judged
  rw [before, after]

/-- R173: the latch leaves the condition as it was where radiating is not allowed, or was already asked for. -/
theorem Txc.judged_latched_level (h : t.deploy = .deployed)
    (level : ¬ (t.gust ≠ .hold ∧ t.axisHalted = false) ∨ t.latch = true ∨ (t.tracked = true ∧ t.mute = false)) :
    t.judged t.latched = t.latched := by
  refine Txc.judged_of_condition (Bool.eq_iff_iff.mpr ?_)
  rw [Txc.condition_latched h, Txc.condition_deployed h]
  exact and_iff_left_of_imp fun allowed => level.resolve_left (not_not.mpr allowed)

end

section
variable {s : State}

theorem exec_txOn_refused (h : s.listens) (hd : s.txc.deploy ≠ .deployed) :
    exec .txOn s = .next (s.queues (replyRefused 0x3B .state)) :=
  exec_eq_of_listens h rfl ((if_neg hd).trans (refuse_listens h kindTxOn .state))

/-- R174: TX_ON in DEPLOYED, with the fields that the judgement leaves. -/
theorem exec_txOn_taken {x : Txc} (h : s.listens) (hd : s.txc.deploy = .deployed) (hx : s.txc.judged s.txc.latched = x) :
    exec .txOn s = .next ({ s with txc := x }.queues (replyDone 0x3B)) := by
  have taken : txcOn s = { s with txc := x } := hx ▸ rfl
  refine exec_eq_of_listens h rfl ((if_pos hd).trans ?_)
  rw [taken]
  exact done_listens (listens_of_lnu (t := { s with txc := x }) h rfl) kindTxOn

theorem exec_txOff (h : s.listens) : exec .txOff s = .next ({ s with txc := s.txc.off }.queues (replyDone 0x3C)) :=
  exec_eq_of_listens h rfl (done_listens (listens_of_lnu (t := txcOff s) h rfl) kindTxOff)

end

/-- Settles O53, by the deploy state and by what the latch makes of the enable condition. -/
theorem txOnAndTxOff : Obligations.TxOnAndTxOff := by
  rintro s h ⟨deploy, gust, -⟩ x allowed
  have deployed (hd : s.dsq.deploy = .deployed) : x.deploy = .deployed := deploy.trans hd
  have handed : (x.gust ≠ .hold ∧ x.axisHalted = false) = allowed := by rw [show x.gust = s.wsm.gust from gust]
  refine ⟨fun hd => exec_txOn_refused h (deploy.trans_ne hd), fun hd ok unlatched silent => ?rises, fun hd level => ?level,
    exec_txOff h⟩
  case rises => exact exec_txOn_taken h (deployed hd) (Txc.judged_latched_rises (deployed hd) (handed ▸ ok) unlatched silent)
  case level => exact exec_txOn_taken h (deployed hd) (Txc.judged_latched_level (deployed hd) (handed ▸ level))

end Sys2Proof.Machine
end

section
/-! Commands taken whole, and the resets (R3, R117, R131, R135, R179, R181, R185, R186). -/

namespace Sys2Proof.Machine

/-! ## Every command answers a next state -/

/-- The spec names no behaviour that stops the part. -/
theorem exec_next (c : Instr) (s : State) : ∃ t, exec c s = .next t := by cases c <;> exact ⟨_, rfl⟩

/-- Settles O2: a command has a next state, and no change of a block touches the waiting commands. -/
theorem everyCommandIsTakenWhole : Obligations.EveryCommandIsTakenWhole := by
  intro c s
  obtain ⟨t, e⟩ := exec_next c s
  exact ⟨t, e, (whole_pending s.pending).exec c rfl e⟩

/-! ## Power-on resets (R186) -/

/-- Settles O4, block by block. -/
theorem assertedRstEndsEverything : Obligations.AssertedRstEndsEverything := by
  refine fun s => ⟨holdInReset s, rfl, rfl, rfl, rfl, rfl, rfl, rfl, rfl, fun a => ?axes, rfl, rfl, rfl, rfl, rfl, rfl, rfl,
    rfl, rfl⟩
  case axes => cases a <;> exact ⟨rfl, rfl, rfl, rfl⟩

/-- Settles O3: the two causes have one meaning. -/
theorem powerUpTakesPowerOnValues : Obligations.PowerUpTakesPowerOnValues := fun _ => ⟨rfl, rfl⟩

/-- A frame, a page or a running out changes nothing while RST is asserted. -/
theorem exec_of_reset {c : Instr} {f : State → State} {s : State} (h : s.lnu.rst = true) (e : exec c s = .next (onPart f s)) :
    exec c s = .next s := e.trans (congrArg _ (onPart_reset f h))

/-- Settles O5: every command but those of the pins and the reset is taken on a part that is out of reset. -/
theorem assertedRstDiscardsEverything : Obligations.AssertedRstDiscardsEverything := by
  intro c s h pin
  cases c
  case powerOnReset | parkInRelease | parkInAssert | stowInAssert | stowInRelease | rstRelease => contradiction
  case malformedPage => rfl
  all_goals exact exec_of_reset h rfl

/-- R179: a console frame that finds no place free for its REPLY. -/
theorem exec_of_full {c : Instr} {f : State → State} {s : State} (h : 64 ≤ s.lnu.queue.length)
    (e : exec c s = .next (onConsole f s)) : exec c s = .next s := e.trans (congrArg _ (onConsole_full f (Nat.not_lt.mpr h)))

/-- Settles O6, frame by frame of the console. -/
theorem fullQueueDiscardsConsoleFrames : Obligations.FullQueueDiscardsConsoleFrames := by
  intro c s console h
  cases c <;> simp only [Instr.fromConsole, Bool.false_eq_true] at console
  all_goals exact exec_of_full h rfl

/-- R110, R162: after a reset no row runs and none is stacked. -/
theorem rows_reset : Rows [] State.reset := rows_idle rfl rfl fun e he => by rw [List.eq_of_mem_replicate he]; rfl

/-- R175: after a reset TXEN is off. -/
theorem posed_reset : State.reset.posed := nofun

/-- Settles O58, part by part of the invariant. -/
theorem invariantHoldsAtReset : Obligations.InvariantHoldsAtReset :=
  (inv_iff _).mpr ⟨recordsStand_reset, fits_reset, handed_reset, posed_reset, rows_reset, listsInOrder_reset⟩

/-! ## The RESET request (R185) -/

/-- R185: the state that a RESET request leaves, the REPLY in its place. Where the link was ended the LEAVE has left and the
quiet time runs. -/
def State.restarted (s : State) : State :=
  let x := s.axs
  { s with
    axs := ⟨x.mast.resetKept, x.pan.resetKept, x.tilt.resetKept, x.pol.resetKept, .allOff⟩
    mgt := s.mgt.resetKept, dsq := s.dsq.resetKept, wsm := s.wsm.resetKept, sites := s.sites.map Entry.resetKept
    sha := { s.sha.resetKept with quietTimer := if s.sha.state = .silent then none else some 2000 }
    acq := s.acq.resetKept, txc := .powerOn, ntu := .powerOn
    lnu := { s.lnu with queue := s.lnu.queue ++ [replyDone 0x3F] }
    out :=
      { s.out with
        drive := s.out.drive ++ resetFrames
        site := if s.sha.state = .silent then s.out.site else s.out.site ++ [.leave] } }

theorem resetRequest_listens {s : State} (h : s.listens) : resetRequest s = s.restarted := by
  unfold resetRequest shaEnd State.restarted
  rw [done_listens h]
  by_cases silent : s.sha.state = .silent
  · have queued : (s.queues (replyDone kindReset)).sha.state = .silent := silent
    simp only [if_pos silent, if_pos queued]
    rfl
  · have queued : ¬ (s.queues (replyDone kindReset)).sha.state = .silent := silent
    simp only [if_neg silent, if_neg queued]
    rfl

/-- Settles O9, block by block of the state that the request leaves. -/
theorem resetRequestKeepsTablesAndSettings : Obligations.ResetRequestKeepsTablesAndSettings := by
  intro s h
  refine ⟨s.restarted, exec_eq_of_listens h rfl (resetRequest_listens h), fun a => ?axes, fun c => ?channels, rfl, rfl, rfl,
    rfl, rfl, rfl, rfl, rfl, rfl, rfl, rfl, rfl, rfl⟩
  case axes => cases a <;> rfl
  case channels => cases c <;> rfl

end Sys2Proof.Machine
end

section
/-! The REPLY to a node-0 request (R179, R181). -/

namespace Sys2Proof.Machine

/-- R181: of a request of a kind, one REPLY with node 0 has joined those that waited, `l`. -/
def AnsweredOnce (l : List UpFrame) (kind : Nat) (t : State) : Prop :=
  ∃ why data, Waiting (l ++ [.reply kind 0 why data]) Config.queuePlaces t

section
variable {l : List UpFrame} {kind : Nat} {s : State}

/-- What follows the REPLY places no other. -/
theorem AnsweredOnce.after {f : State → State} (hf : ∀ {P : State → Prop}, Inner P → ∀ {s}, P s → P (f s))
    (h : AnsweredOnce l kind s) : AnsweredOnce l kind (f s) := by
  obtain ⟨why, data, answered⟩ := h
  exact ⟨why, data, hf (inner_waiting _ (by decide)) answered⟩

theorem answeredOnce_done (kind : Nat) (h : Waiting l Config.noticePlaces s) : AnsweredOnce l kind (done s kind) :=
  ⟨none, .none, waiting_placeReply kind 0 _ _ h⟩

theorem answeredOnce_doneWith (kind : Nat) (data : ReplyData) (h : Waiting l Config.noticePlaces s) :
    AnsweredOnce l kind (doneWith s kind data) := ⟨none, data, waiting_placeReply kind 0 _ _ h⟩

theorem answeredOnce_refuse (kind : Nat) (why : Reason) (h : Waiting l Config.noticePlaces s) :
    AnsweredOnce l kind (refuse s kind why) := ⟨some why, .none, waiting_placeReply kind 0 _ _ h⟩

/-! ## Reads and writes (R182) -/

theorem answeredOnce_readRequest (table row field : Nat) (h : Waiting l Config.noticePlaces s) :
    AnsweredOnce l kindRead (readRequest s table row field) := by
  unfold readRequest
  refine Quiet.ite (answeredOnce_doneWith _ _ ((waitsForReply l).shaSame _ rfl h))
    (Quiet.ite ?latest (answeredOnce_doneWith _ _ h))
  case latest =>
    split
    · exact answeredOnce_doneWith _ _ ((waitsForReply l).readNotice _ h)
    · exact answeredOnce_doneWith _ _ h

theorem answeredOnce_writeRequest (table row field : Nat) (v : Int) (h : Waiting l Config.noticePlaces s) :
    AnsweredOnce l kindWrite (writeRequest s table row field v) := by
  unfold writeRequest replyWrite
  split
  next written => exact answeredOnce_done _ ((waitsForReply l).writeField h written)
  next => exact answeredOnce_refuse _ _ h

/-! ## The Deploy Sequencer -/

theorem answeredOnce_reheight (v : Int) (h : Waiting l Config.noticePlaces s) : AnsweredOnce l kindDeploy (reheight s v) := by
  have checked := (waitsForReply l).moveCheck .mast v h
  unfold reheight
  split
  next => exact answeredOnce_refuse _ _ h
  next =>
    refine Quiet.ite (answeredOnce_refuse _ _ checked) ?_
    unfold reheightTaken
    split
    next => exact answeredOnce_refuse _ _ checked
    next moved =>
      exact answeredOnce_done _
        ((waitsForReply l).dsq _ rfl rfl ((waitsForReply l).axsMoveTo ((waitsForReply l).axsTake _ _ checked) moved))

theorem answeredOnce_deployFromStowed (v : Int) (h : Waiting l Config.noticePlaces s) :
    AnsweredOnce l kindDeploy (deployFromStowed s v) := by
  have checked := (waitsForReply l).boxCheck (deployBox s v) h
  unfold deployFromStowed
  split
  next => exact answeredOnce_refuse _ _ h
  next =>
    exact Quiet.ite (answeredOnce_refuse _ _ checked)
      ((answeredOnce_done _ ((waitsForReply l).deployTaken _ checked)).after fun e => e.startForward)

theorem answeredOnce_stowRequest (h : Waiting l Config.noticePlaces s) : AnsweredOnce l kindStow (stowRequest s) := by
  unfold stowRequest
  split
  · exact answeredOnce_refuse _ _ h
  · exact answeredOnce_done _ h
  · exact answeredOnce_done _ h
  all_goals exact answeredOnce_done _ ((waitsForReply l).stowEffects _ h)

theorem answeredOnce_parkRequest (h : Waiting l Config.noticePlaces s) : AnsweredOnce l kindPark (parkRequest s) :=
  Quiet.ite (answeredOnce_refuse _ _ h)
    (Quiet.ite (answeredOnce_refuse _ _ h) (answeredOnce_done _ ((waitsForReply l).parkTaken h)))

theorem answeredOnce_wakeRequest (h : Waiting l Config.noticePlaces s) : AnsweredOnce l kindWake (wakeRequest s) :=
  Quiet.ite ((answeredOnce_done _ ((waitsForReply l).wakeUp h)).after fun e => e.acqWake) (answeredOnce_refuse _ _ h)

theorem answeredOnce_clearHeld (h : Waiting l Config.noticePlaces s) : AnsweredOnce l kindClearHold (clearHeld s) := by
  have w := waitsForReply l
  refine Quiet.ite (answeredOnce_refuse _ _ h) (Quiet.ite (Quiet.ite (answeredOnce_refuse _ _ h) ?raised)
    (Quiet.ite ?stowed (answeredOnce_refuse _ _ h)))
  case raised => exact answeredOnce_done _ (w.raise _ (w.enterDeploy _ (by decide) (w.dsq _ rfl rfl (w.axsReleaseAll _ h))))
  case stowed => exact answeredOnce_done _ (w.goStowed (w.dsq _ rfl rfl h))

theorem answeredOnce_clearHold (h : Waiting l Config.noticePlaces s) : AnsweredOnce l kindClearHold (clearHold s) := by
  have cleared := (waitsForReply l).clear h
  exact Quiet.ite (answeredOnce_clearHeld cleared)
    (Quiet.ite (answeredOnce_refuse _ _ cleared) (answeredOnce_done _ cleared))

/-! ## The Acquisition Engine -/

theorem answeredOnce_acquireRequest (row : Nat) (h : Waiting l Config.noticePlaces s) :
    AnsweredOnce l kindAcquire (acquireRequest s row) := by
  have checked := (waitsForReply l).slewChecks row h
  have same := Whole.acquireRefusal_slewChecks s row
  unfold acquireRequest
  split
  next => exact answeredOnce_refuse _ _ h
  next free =>
    split
    next e => rw [e] at checked; exact answeredOnce_refuse _ _ checked
    next e =>
      rw [e] at checked same
      exact (answeredOnce_done _ ((waitsForReply l).acquireTaken row (same.trans free) checked)).after fun e => e.startSlew

theorem answeredOnce_releaseRequest (h : Waiting l Config.noticePlaces s) :
    AnsweredOnce l kindRelease (releaseRequest s) := by
  unfold releaseRequest
  split
  next => exact answeredOnce_refuse _ _ h
  next e => exact answeredOnce_done _ ((waitsForReply l).acqRelease _ e h)

theorem answeredOnce_resumeRequest (h : Waiting l Config.noticePlaces s) : AnsweredOnce l kindResume (resumeRequest s) := by
  unfold resumeRequest
  split
  next => exact answeredOnce_refuse _ _ h
  next e =>
    exact Quiet.ite (answeredOnce_refuse _ _ h)
      ((answeredOnce_done _ ((waitsForReply l).popTop _ _ e h)).after fun e => e.startSlew)

theorem answeredOnce_dropRequest (h : Waiting l Config.noticePlaces s) : AnsweredOnce l kindDropResume (dropRequest s) := by
  unfold dropRequest
  split
  next => exact answeredOnce_refuse _ _ h
  next e => exact answeredOnce_done _ ((waitsForReply l).dropTop _ _ e h)

/-! ## The link, the transmitter and the lines -/

theorem answeredOnce_renegotiateRequest (h : Waiting l Config.noticePlaces s) :
    AnsweredOnce l kindRenegotiate (renegotiateRequest s) :=
  answeredOnce_done _ ((waitsForReply l).deliver ((waitsForReply l).shaRenegotiate h))

theorem answeredOnce_txOnRequest (h : Waiting l Config.noticePlaces s) : AnsweredOnce l kindTxOn (txOnRequest s) :=
  Quiet.ite (answeredOnce_done _ ((waitsForReply l).txOn h)) (answeredOnce_refuse _ _ h)

/-- R180: the rates that wait are no frames. -/
theorem answeredOnce_lineRestart (h : Waiting l Config.noticePlaces s) : AnsweredOnce l kindLineRestart (lineRestart s) :=
  have answered := answeredOnce_done kindLineRestart h
  Quiet.ite answered answered

/-- R185: the resets leave the lines alone. -/
theorem answeredOnce_resetRequest (h : Waiting l Config.noticePlaces s) : AnsweredOnce l kindReset (resetRequest s) := by
  have ended : AnsweredOnce l kindReset (shaEnd (done s kindReset)) :=
    (answeredOnce_done kindReset h).after fun e => e.shaEnd
  exact Quiet.ite (P := AnsweredOnce l kindReset) ended ended

end

/-- Settles O10, request by request. -/
theorem everyRequestGetsExactlyOneReply : Obligations.EveryRequestGetsExactlyOneReply := by
  intro c kind s hk h
  have w := waiting_listens h
  have answered {f : State → State} (e : exec c s = .next (onConsole f s))
      (once : AnsweredOnce (s.lnu.queue.filter UpFrame.isReply) kind (f s)) : completes c s fun t => ∃ why data,
        t.lnu.queue.filter UpFrame.isReply = s.lnu.queue.filter UpFrame.isReply ++ [.reply kind 0 why data] := by
    obtain ⟨why, data, replies, -⟩ := once
    exact completes_of_listens h e ⟨why, data, replies⟩
  cases c <;> simp only [Instr.requestKind, reduceCtorEq, Option.some.injEq] at hk
  all_goals subst hk
  case read | readSiteUp | readNotice => exact answered rfl (answeredOnce_readRequest _ _ _ w)
  case write | writeZone | writeDerateRow | writeVanAbilityWord | writeEntrySetting | writeEntryState | writeWindSetting =>
    exact answered rfl (answeredOnce_writeRequest _ _ _ _ w)
  case unknownRequest => exact answered rfl (answeredOnce_refuse _ _ w)
  case deploy height =>
    exact answered rfl (Quiet.ite (answeredOnce_reheight _ w) (answeredOnce_deployFromStowed _ w))
  case stow => exact answered rfl (answeredOnce_stowRequest w)
  case park => exact answered rfl (answeredOnce_parkRequest w)
  case wake => exact answered rfl (answeredOnce_wakeRequest w)
  case clearHold => exact answered rfl (answeredOnce_clearHold w)
  case acquire row => exact answered rfl (answeredOnce_acquireRequest row w)
  case release => exact answered rfl (answeredOnce_releaseRequest w)
  case resume => exact answered rfl (answeredOnce_resumeRequest w)
  case dropResume => exact answered rfl (answeredOnce_dropRequest w)
  case renegotiate => exact answered rfl (answeredOnce_renegotiateRequest w)
  case txOn => exact answered rfl (answeredOnce_txOnRequest w)
  case txOff => exact answered rfl (answeredOnce_done kindTxOff ((waitsForReply _).txOff w))
  case lineRestart => exact answered rfl (answeredOnce_lineRestart w)
  case reset => exact answered rfl (answeredOnce_resetRequest w)

end Sys2Proof.Machine
end

section
/-! READs of the management tables (R130, R182) and of the latest notices (R184). -/

namespace Sys2Proof.Machine

/-! ## A row of a table -/

theorem flagOf_eq (b : Bool) : flagOf b = some (if b then 1 else 0) := by cases b <;> rfl

section
variable {α : Type} {rows : List α} {row : Nat} {f : α → Option Int}

theorem readRow_some {x : α} (h : rows[row]? = some x) : readRow rows row f = f x := by unfold readRow; rw [h]

theorem readRow_none (h : rows[row]? = none) : readRow rows row f = none := by unfold readRow; rw [h]

end

section
variable (s : State) {row : Nat} (field : Nat)

theorem readField_axis (a : Axis) : readField s 1 (axisNode a - 1) field = readAxis s a field := by cases a <;> rfl

theorem readField_zone {z : Zone} (h : s.zones[row]? = some z) : readField s 2 row field = readZone z field := readRow_some h

theorem readField_entry {e : Entry} (h : s.sites[row]? = some e) : readField s 3 row field = readEntry e field :=
  readRow_some h

theorem readField_slot {sl : Slot} (h : s.dsq.slots[row]? = some sl) : readField s 4 row field = readSlot sl field :=
  readRow_some h

theorem readField_derate {r : DerateRow} (h : s.wsm.derate[row]? = some r) :
    readField s 5 row field = readDerate r field := readRow_some h

theorem readField_record {r : WinRec} (h : s.sha.window[row]? = some r) : readField s 7 row field = readRecord r field :=
  readRow_some h

theorem readField_stack {e : StackEntry} (h : s.acq.stack[row]? = some e) : readField s 8 row field = readStack e field :=
  readRow_some h

theorem readField_class {c : NoticeClass} (h : NoticeClass.ofRow row = some c) :
    readField s 9 row field = readClass (s.ntu.get c) field := by
  simp only [readField, h]

theorem readField_noClass (h : NoticeClass.ofRow row = none) : readField s 9 row field = none := by
  simp only [readField, h]

theorem axisOfRow_none (h : 4 ≤ row) : axisOfRow row = none :=
  match row with
  | _ + 4 => rfl

theorem readField_noAxis (h : 4 ≤ row) : readField s 1 row field = none := by
  simp only [readField, axisOfRow_none h]

theorem readField_noTable {table : Nat} (h : 11 ≤ table) : readField s table row field = none :=
  match table with
  | _ + 11 => rfl

end

/-! ## Table 6 while a context runs, and while none does (R136, R167) -/

section
variable {s : State}

/-- Fields 37 to 57 of table 6 are those of the running context. -/
theorem readSettings_context {c : Ctx} {field : Nat} (h : s.acq.ctx = some c) (low : 37 ≤ field) (high : field < 58) :
    readSettings s field = readCtx c field := by
  unfold readSettings
  rw [if_neg (by omega), if_neg (by omega), if_neg (by omega), if_neg (by omega), if_neg (by omega), if_pos (by omega), h]

theorem readSettings_noContext {field : Nat} (h : s.acq.ctx = none) (low : 37 ≤ field) (high : field < 58) :
    readSettings s field = readNoCtx field := by
  unfold readSettings
  rw [if_neg (by omega), if_neg (by omega), if_neg (by omega), if_neg (by omega), if_neg (by omega), if_pos (by omega), h]

/-- The fields of table 6 before those of Table 8-2, those, and the fields behind them. -/
theorem fields_settings : (List.range 73).map (readField s 6 0) =
    (List.range 37).map (readSettings s) ++ (List.range' 37 21).map (readSettings s) ++
      (List.range' 58 15).map (readSettings s) := rfl

theorem fields_context {c : Ctx} (h : s.acq.ctx = some c) :
    (List.range' 37 21).map (readSettings s) = (List.range' 37 21).map (readCtx c) :=
  List.map_congr_left fun field hf => by
    obtain ⟨low, high⟩ := List.mem_range'_1.mp hf
    exact readSettings_context h low high

theorem fields_noContext (h : s.acq.ctx = none) :
    (List.range' 37 21).map (readSettings s) = (List.range' 37 21).map readNoCtx :=
  List.map_congr_left fun field hf => by
    obtain ⟨low, high⟩ := List.mem_range'_1.mp hf
    exact readSettings_noContext h low high

/-! ## The commands -/

/-- R182: an address that is neither SITE_UP nor a latest notice. -/
theorem readRequest_plain {table row field : Nat} (h : isSpecialRead table row field = false) :
    readRequest s table row field = readPlain s table row field := by
  simp only [isSpecialRead, decide_eq_false_iff_not, not_or] at h
  obtain ⟨notSiteUp, notLatest⟩ := h
  unfold readRequest
  rw [if_neg notSiteUp]
  split
  next latest =>
    have noClass : NoticeClass.ofRow row = none := by
      unfold NoticeClass.ofRow
      split <;> first | omega | rfl
    rw [noClass]
  next => rfl

theorem exec_read (h : s.listens) {table row field : Nat} (plain : isSpecialRead table row field = false) :
    exec (.read table row field) s = .next (s.queues (.reply 0x30 0 none (fieldData (readField s table row field)))) :=
  exec_eq_of_listens h rfl ((readRequest_plain plain).trans (doneWith_listens h kindRead _))

/-- R130: SITE_UP is answered by the state and the latch, and the latch is cleared. -/
theorem exec_readSiteUp (h : s.listens) : exec .readSiteUp s = .next
    ({ s with sha := { s.sha with downSeen := false } }.queues (.reply 0x30 0 none (fieldData (flagOf (siteUp s.sha))))) :=
  exec_eq_of_listens h rfl
    (doneWith_listens (listens_of_lnu (t := s.withSha { s.sha with downSeen := false }) h rfl) kindRead _)

theorem fieldData_siteUp (x : Sha) :
    fieldData (flagOf (siteUp x)) = .field true (if x.state = .up ∧ x.downSeen = false then 1 else 0) := by
  rw [flagOf_eq]
  unfold siteUp fieldData
  by_cases up : x.state = .up <;> cases x.downSeen <;> simp [up]

end

/-- Settles O35: the commands, then the tables in order, then the enumerations. -/
theorem readsAnswerTheField : Obligations.ReadsAnswerTheField := by
  intro table row field s num flag opt fields
  have flags : flag = flagOf := funext fun b => (flagOf_eq b).symm
  clear_value flag
  subst flags
  refine ⟨fun h => ⟨exec_read h, ?siteUp⟩, ⟨rfl, fun h => ?noIdentity, readField_noTable s field⟩,
    ⟨fun a => ?axes, readField_noAxis s field⟩, ⟨fun z hz => ?zone, readRow_none⟩, ⟨fun e he => ?entry, readRow_none⟩,
    ⟨fun sl hs => ?slot, readRow_none⟩, ⟨fun r hr => ?derate, readRow_none⟩,
    ⟨fun c hc => ?context, fun hc => ?noContext, fun h => if_neg (by omega)⟩, ⟨fun r hr => ?record, readRow_none⟩,
    ⟨fun e he => ?stack, readRow_none⟩, ⟨fun c hc => ?notices, readField_noClass s field⟩,
    ⟨rfl, ?compounds, fun h => if_neg (by omega)⟩, ?codes⟩
  case siteUp => rw [exec_readSiteUp h, fieldData_siteUp]
  case noIdentity => exact if_neg (by omega)
  case axes => exact (List.map_congr_left fun n _ => readField_axis s n a).trans rfl
  case zone => exact (List.map_congr_left fun n _ => readField_zone s n hz).trans rfl
  case entry => exact (List.map_congr_left fun n _ => readField_entry s n he).trans rfl
  case slot => exact (List.map_congr_left fun n _ => readField_slot s n hs).trans rfl
  case derate => exact (List.map_congr_left fun n _ => readField_derate s n hr).trans rfl
  case context => exact fields_settings.trans (by rw [fields_context hc]; rfl)
  case noContext => exact fields_settings.trans (by rw [fields_noContext hc]; rfl)
  case record => exact (List.map_congr_left fun n _ => readField_record s n hr).trans rfl
  case stack => exact (List.map_congr_left fun n _ => readField_stack s n he).trans rfl
  case notices => exact congrArg List.tail (List.map_congr_left fun n _ => readField_class s n hc)
  case compounds =>
    show [(s.sha.agreed.map choiceRead).isSome, (s.sha.sent.map fun ct => sentRead ct.1 ct.2).isSome,
      (s.sha.siteAbility.map abilityRead).isSome] = _
    simp only [Option.isSome_map]
  case codes => decide

/-! ## The latest notice of a class (R184) -/

section
variable {s : State} {c : NoticeClass}

theorem readNotice_unread (h : (s.ntu.get c).pending = false) : readNotice s c = s :=
  if_pos (by rw [h]; rfl)

theorem readNotice_pending (h : (s.ntu.get c).pending = true) (alone : (s.ntu.get c).newer = false) :
    readNotice s c = { s with ntu := s.ntu.set c { s.ntu.get c with pending := false } } :=
  (if_neg (by rw [h]; decide)).trans (if_neg (by rw [alone]; decide))

/-- R184: a newer cause is sent afresh, and finds its place. -/
theorem readNotice_newer {n : Notice} (h : (s.ntu.get c).pending = true) (newer : (s.ntu.get c).newer = true)
    (latest : (s.ntu.get c).latest = some n) (room : s.roomy) : readNotice s c =
      { s with ntu := s.ntu.set c { s.ntu.get c with newer := false } }.queues (.notice n) := by
  obtain ⟨held, places⟩ := room
  have fresh : readNotice s c = noticeDue (s.withNtu (s.ntu.set c { s.ntu.get c with newer := false })) n := by
    refine (if_neg (by rw [h]; decide)).trans ((if_pos newer).trans ?_)
    simp only [latest]
  exact fresh.trans (noticeDue_room n ((Ntu.held_set _ _ _).trans held) places)

/-- A READ of a latest notice, by what it makes of the class. -/
theorem exec_readNotice {cls : Nat} {t : State} (h : s.listens) (hc : NoticeClass.ofRow cls = some c)
    (e : readNotice s c = t) (ht : t.listens) :
    exec (.readNotice cls) s = .next (t.queues (.reply 0x30 0 none (.notice (s.ntu.get c).latest))) := by
  have read : readRequest s 9 cls 0 = readLatest s c := by
    unfold readRequest
    rw [if_neg (by omega), if_pos ⟨rfl, rfl⟩, hc]
  subst e
  exact exec_eq_of_listens h rfl (read.trans (doneWith_listens ht kindRead _))

end

/-- Settles O36, by the two flags of the class. -/
theorem noticeReadsAcknowledgeTheClass : Obligations.NoticeReadsAcknowledgeTheClass := by
  intro cls c s row answered h hc
  refine ⟨fun unread => ?unread, fun pending alone => ?alone, fun n pending newer latest room => ?newer⟩
  case unread => exact exec_readNotice h hc (readNotice_unread unread) h
  case alone => exact exec_readNotice h hc (readNotice_pending pending alone) h
  case newer =>
    have read := readNotice_newer pending newer latest room
    have taken : (readNotice s c).listens := listens_of_engine (f := (readNotice · c)) (fun e _ hs => e.readNotice c hs) h
    exact exec_readNotice h hc read (read ▸ taken)

end Sys2Proof.Machine
end

section
/-! WRITEs of table 6 and of the Sequence Table (R57, R65 to R67, R69, R94, R101, R137, R173, R180, R182). -/

namespace Sys2Proof.Machine

/-! ## The values of a field -/

/-- A range of counts, in steps. -/
theorem steppedIn_map {α : Type} (lo hi step : Nat) (v : Int) (f : Nat → α) :
    (steppedIn lo hi step v).map f = if v % step = 0 then within lo hi v (f v.toNat) else none := by
  unfold steppedIn natInRange within
  by_cases range : (lo : Int) ≤ v ∧ v ≤ hi
  · obtain ⟨n, rfl⟩ := Int.eq_ofNat_of_zero_le (show 0 ≤ v by omega)
    have steps : (n : Int) % step = 0 ↔ n % step = 0 := by norm_cast
    simp only [if_pos range, steps, Int.toNat_natCast]
    split <;> rfl
  · simp only [if_neg range, ite_self, Option.map_none]

theorem WindowMode.ofCode_eq (v : Int) : WindowMode.ofCode v = within 0 1 v (if v = 0 then .pass else .closed) := by
  unfold WindowMode.ofCode within
  split
  · rfl
  · rfl
  next =>
    simp only [imp_false] at *
    rw [if_neg (by omega)]

theorem WakePose.ofCode_eq (v : Int) : WakePose.ofCode v = within 0 1 v (if v = 0 then .return else .preset) := by
  unfold WakePose.ofCode within
  split
  · rfl
  · rfl
  next =>
    simp only [imp_false] at *
    rw [if_neg (by omega)]

theorem ActionKind.ofCode_eq (v : Int) : ActionKind.ofCode v = within 0 6 v
    ([ActionKind.none, .channel, .mastUp, .mastDown, .tiltOut, .tiltIn, .panHome].getD v.toNat .none) := by
  unfold ActionKind.ofCode within
  split
  case h_8 =>
    simp only [imp_false] at *
    rw [if_neg (by omega)]
  all_goals rfl

theorem ActionChannel.ofCode_eq (v : Int) : ActionChannel.ofCode v = within 0 5 v
    ([ActionChannel.lift, .lock, .pan, .tilt, .pol, .dish].getD v.toNat .lift) := by
  unfold ActionChannel.ofCode within
  split
  case h_7 =>
    simp only [imp_false] at *
    rw [if_neg (by omega)]
  all_goals rfl

theorem ChanState.ofCode_eq (v : Int) : ChanState.ofCode v = within 0 2 v
    ([ChanState.off, .full, .low].getD v.toNat .off) := by
  unfold ChanState.ofCode within
  split
  case h_4 =>
    simp only [imp_false] at *
    rw [if_neg (by omega)]
  all_goals rfl

theorem within_map {α β : Type} (lo hi v : Int) (x : α) (f : α → β) : (within lo hi v x).map f = within lo hi v (f x) := by
  unfold within
  split <;> rfl

theorem orRange_eq_map {α β : Type} (o : Option α) (f : α → β) : orRange o f = orRange (o.map f) id := by cases o <;> rfl

/-- A value of an enumeration, written by its number. -/
theorem orRange_code {α β : Type} {o : Option α} {lo hi v : Int} {x : α} (f : α → β) (h : o = within lo hi v x) :
    orRange o f = orRange (within lo hi v (f x)) id := by rw [h, orRange_eq_map, within_map]

/-! ## The Sequence Table (R69) -/

/-- R69: the action with a field (0 kind, 1 channel, 2 state) at a value named for it. -/
def Action.fielded (x : Action) (field : Nat) (v : Int) : Option Action :=
  match field with
  | 0 => within 0 6 v { x with
      kind := [ActionKind.none, .channel, .mastUp, .mastDown, .tiltOut, .tiltIn, .panHome].getD v.toNat .none }
  | 1 => within 0 5 v { x with channel := [ActionChannel.lift, .lock, .pan, .tilt, .pol, .dish].getD v.toNat .lift }
  | _ => within 0 2 v { x with state := [ChanState.off, .full, .low].getD v.toNat .off }

theorem Action.write_range (x : Action) {field : Nat} (v : Int) (h : field ≤ 2) :
    x.write field v = orRange (x.fielded field v) id :=
  match field with
  | 0 => orRange_code _ (ActionKind.ofCode_eq v)
  | 1 => orRange_code _ (ActionChannel.ofCode_eq v)
  | 2 => orRange_code _ (ChanState.ofCode_eq v)
  | _ + 3 => absurd h (by omega)

/-- R69: the slot with a field of its deploy action (0 to 2) or of its stow action (3 to 5) at a value named for it. -/
def Slot.fielded (x : Slot) (field : Nat) (v : Int) : Option Slot :=
  if field < 3 then (x.deploy.fielded field v).map fun d => { x with deploy := d }
  else (x.stow.fielded (field - 3) v).map fun d => { x with stow := d }

theorem Slot.write_range (x : Slot) {field : Nat} (v : Int) (h : field ≤ 5) :
    x.write field v = orRange (x.fielded field v) id := by
  unfold Slot.write Slot.fielded
  split
  next deploy => rw [x.deploy.write_range v (by omega), orRange_map, orRange_eq_map]; rfl
  next stow => rw [x.stow.write_range v (by omega), orRange_map, orRange_eq_map]; rfl

section
variable {d : Dsq} {row field : Nat} {v : Int}

theorem Dsq.writeSlot_ignored (h : d.slots[row]? = none ∨ 6 ≤ field) : d.writeSlot row field v = .error .ignored := by
  unfold Dsq.writeSlot
  split
  · rfl
  next found => exact if_pos (h.resolve_left (by rw [found]; nofun))

variable {sl : Slot} (hs : d.slots[row]? = some sl) (hf : field ≤ 5)
include hs hf

theorem Dsq.writeSlot_busy (walking : d.deploy = .raising ∨ d.deploy = .lowering) :
    d.writeSlot row field v = .error .busy := by
  unfold Dsq.writeSlot
  rw [hs]
  exact (if_neg (by omega)).trans (if_pos walking)

theorem Dsq.writeSlot_still (still : ¬ (d.deploy = .raising ∨ d.deploy = .lowering)) :
    d.writeSlot row field v = orRange (sl.fielded field v) fun x => { d with slots := d.slots.set row x } := by
  have written : d.writeSlot row field v = (sl.write field v).map fun x => { d with slots := d.slots.set row x } := by
    unfold Dsq.writeSlot
    rw [hs]
    exact (if_neg (by omega)).trans (if_neg still)
  rw [written, sl.write_range v hf, orRange_map]
  rfl

end

/-! ## The commands -/

/-- R66, R94, R173, R182: the read-only fields of table 6, and the fields that do not exist. -/
theorem writeSettings_ignored (s : State) {field : Nat} (v : Int)
    (h : (2 ≤ field ∧ field ≤ 8) ∨ (19 ≤ field ∧ field ≤ 27) ∨ (33 ≤ field ∧ field ≤ 35) ∨ (37 ≤ field ∧ field ≤ 57) ∨
      (60 ≤ field ∧ field ≤ 69) ∨ 71 ≤ field) : writeSettings s field v = .error .ignored := by
  have noWind : windSettingOf field = none := by
    unfold windSettingOf
    split <;> first | omega | rfl
  have noOther : writeOther s field v = .error .ignored := by
    unfold writeOther
    split <;> first | omega | rfl
  unfold writeSettings
  rw [if_neg (by omega), noWind]
  exact noOther

section
variable {s : State} (h : s.listens) {α : Type} {o : Option α} {field : Nat} {v : Int}
include h

/-- R182: DONE with the value in range, REFUSED RANGE with it outside, for a write that leaves room for its REPLY. -/
theorem replyWrite_listening {f : α → State} (hf : ∀ x, (f x).listens) :
    .next (replyWrite s (orRange o f)) = writeOutcome s (o.map f) := by
  cases o with
  | none => exact congrArg _ (refuse_listens h kindWrite .range)
  | some x => exact congrArg _ (done_listens (hf x) kindWrite)

/-- R67: a WRITE of a deploy setting. -/
theorem exec_write_deploy {f : α → Dsq} (deploy : 9 ≤ field ∧ field ≤ 18)
    (w : s.dsq.writeSetting field v = orRange o f) :
    exec (.write 6 0 field v) s = writeOutcome s (o.map fun x => s.withDsq (f x)) := by
  have written : writeField s 6 0 field v = (s.dsq.writeSetting field v).map s.withDsq := if_pos deploy
  rw [exec_write h, written, w, orRange_map]
  exact replyWrite_ranged h o fun _ => rfl

/-- A WRITE of a setting of table 6 that is neither a deploy setting nor a wind setting. -/
theorem exec_write_other {f : α → State} (other : ¬ (9 ≤ field ∧ field ≤ 18)) (noWind : windSettingOf field = none)
    (w : writeOther s field v = orRange o f) (hf : ∀ x, (f x).listens) :
    exec (.write 6 0 field v) s = writeOutcome s (o.map f) := by
  have written : writeField s 6 0 field v = writeOther s field v := by
    refine (if_neg other).trans ?_
    rw [noWind]
  rw [exec_write h, written, w]
  exact replyWrite_listening h hf

theorem exec_write_ignored {table row : Nat} (w : writeField s table row field v = .error .ignored) :
    exec (.write table row field v) s = .next (s.queues (replyRefused 0x31 .ignored)) := by
  rw [exec_write h, w]
  exact congrArg _ (replyWrite_ignored h)

/-- R69: a WRITE of the Sequence Table. -/
theorem exec_write_slot (row : Nat) : exec (.write 4 row field v) s =
    .next (replyWrite s ((s.dsq.writeSlot row field v).map s.withDsq)) := exec_write h 4 row field v

end

/-- Settles O38: the settings field by field, the fields that are read-only, and the Sequence Table by the deploy state. -/
theorem writesOfTheSettingsTable : Obligations.WritesOfTheSettingsTable := by
  intro v s h put d dsq
  have other {field : Nat} {α : Type} {o : Option α} {f : α → State} (w : writeOther s field v = orRange o f)
      (hf : ∀ x, (f x).listens) (place : ¬ (9 ≤ field ∧ field ≤ 18) ∧ windSettingOf field = none) {t : Option State}
      (e : o.map f = t) : put field t :=
    (exec_write_other h place.1 place.2 w hf).trans (congrArg _ e)
  have deploy {field : Nat} {α : Type} {o : Option α} {f : α → Dsq} (w : s.dsq.writeSetting field v = orRange o f)
      (place : 9 ≤ field ∧ field ≤ 18) {t : Option State} (e : (o.map fun x => s.withDsq (f x)) = t) : put field t :=
    (exec_write_deploy h place w).trans (congrArg _ e)
  refine ⟨?deadman, ?window, ?stowHeight, ?stowPan, ?stowTilt, ?unstowTilt, ?minHeight, ?maxHeight, ?defaultHeight, ?slotTime,
    ?keepOn, ?wakePose, ?slopeLimit, ?slopeMargin, ?settleTime, ?maxExtent, ?rateSet, fun row field hf => ?readOnly,
    fun row field hf => ?noSlot, fun row field sl hs hf => ?slot⟩
  case deadman => exact other rfl (fun _ => by exact h) (by decide) (steppedIn_map ..)
  case window => exact other rfl (fun _ => by exact h) (by decide) (by rw [WindowMode.ofCode_eq, within_map]; rfl)
  case stowHeight => exact deploy rfl (by decide) (inRange_map ..)
  case stowPan => exact deploy rfl (by decide) (inRange_map ..)
  case stowTilt => exact deploy rfl (by decide) (inRange_map ..)
  case unstowTilt => exact deploy rfl (by decide) (inRange_map ..)
  case minHeight => exact deploy rfl (by decide) (inRange_map ..)
  case maxHeight => exact deploy rfl (by decide) (inRange_map ..)
  case defaultHeight => exact deploy rfl (by decide) (inRange_map ..)
  case slotTime => exact deploy rfl (by decide) (by rw [slotTimeValue, Option.map_if]; rfl)
  case keepOn => exact deploy rfl (by decide) (natInRange_map ..)
  case wakePose => exact deploy rfl (by decide) (by rw [WakePose.ofCode_eq, within_map]; rfl)
  case slopeLimit => exact other rfl (fun _ => by exact h) (by decide) (natInRange_map ..)
  case slopeMargin => exact other rfl (fun _ => by exact h) (by decide) (natInRange_map ..)
  case settleTime => exact other rfl (fun _ => by exact h) (by decide) (steppedIn_map ..)
  case maxExtent => exact other rfl (fun _ => by exact h) (by decide) (natInRange_map ..)
  case rateSet => exact other rfl (fun _ => by exact h) (by decide) (by rw [rateValue, Option.map_if]; rfl)
  case readOnly =>
    refine exec_write_ignored h ?_
    by_cases settings : row = 0
    · exact (if_pos settings).trans (writeSettings_ignored s v (hf.resolve_left (not_not.mpr settings)))
    · exact if_neg settings
  case noSlot => exact exec_write_ignored h (congrArg (Except.map s.withDsq) (Dsq.writeSlot_ignored hf))
  case slot =>
    intro action slot
    rw [exec_write_slot h]
    refine ⟨fun walking => ?busy, fun raising lowering => ?still⟩
    case busy => rw [Dsq.writeSlot_busy hs hf walking]; exact congrArg _ (refuse_listens h kindWrite .busy)
    case still =>
      rw [Dsq.writeSlot_still hs hf (not_or.mpr ⟨raising, lowering⟩), orRange_map]
      exact replyWrite_ranged h _ fun _ => rfl

end Sys2Proof.Machine
end

section
/-! The commands of the Line Unit, and the bytes of the lines (R178 to R181, R187). -/

namespace Sys2Proof.Machine

/-! ## Unknown requests, LINE_RESTART and the rate change (R180, R181) -/

section
variable {s : State}

theorem isKnownRequest_iff (kind : Nat) : isKnownRequest kind = true ↔ 0x30 ≤ kind ∧ kind ≤ 0x3F := by
  unfold isKnownRequest
  rw [Bool.and_eq_true, decide_eq_true_eq, decide_eq_true_eq]
  rfl

theorem exec_unknownRequest (h : s.listens) (kind : Nat) : exec (.unknownRequest kind) s =
    .next (s.queues (replyRefused kind (if isKnownRequest kind then .range else .ignored))) :=
  exec_eq_of_listens h rfl (refuse_listens h kind _)

/-- R180: with rate set equal to the rate in force nothing changes but the queue. -/
theorem lineRestart_same (h : s.listens) (same : s.lnu.rateSet = s.lnu.rateInForce) :
    lineRestart s = s.queues (replyDone 0x3E) := (if_pos same).trans (done_listens h kindLineRestart)

/-- R180: the rate set is kept for when the REPLY has left. -/
theorem lineRestart_other (h : s.listens) (other : s.lnu.rateSet ≠ s.lnu.rateInForce) : lineRestart s =
    { s with lnu := { s.lnu with restarts := s.lnu.restarts ++ [s.lnu.rateSet] } }.queues (replyDone 0x3E) := by
  refine (if_neg other).trans ?_
  rw [done_listens h kindLineRestart]
  rfl

theorem rateChanged_next {rate : Nat} {rest : List Nat} (h : s.lnu.restarts = rate :: rest) :
    rateChanged s = { s with lnu := { s.lnu with rateInForce := rate, restarts := rest } } := by
  unfold rateChanged
  rw [h]
  rfl

/-! ## A frame that has left (R179) -/

/-- No held NOTICE frame finds a place. -/
theorem fillNotices_stays {queue : List UpFrame} {held : List Notice} (h : held = [] ∨ 63 ≤ queue.length) :
    fillNotices queue held = (queue, held) := by
  cases held with
  | nil => rfl
  | cons n held => exact if_neg (Nat.not_lt.mpr (h.resolve_left (List.cons_ne_nil n held)))

/-- The oldest held NOTICE frame takes the one place that is free. -/
theorem fillNotices_one {queue : List UpFrame} (n : Notice) (held : List Notice) (h : queue.length = 62) :
    fillNotices queue (n :: held) = (queue ++ [.notice n], held) := by
  have full : 63 ≤ (queue ++ [UpFrame.notice n]).length := by rw [List.length_append, h]; exact Nat.le_refl 63
  exact (if_pos (by rw [h]; decide)).trans (fillNotices_stays (.inr full))

theorem frameSent_empty (h : s.lnu.queue = []) : frameSent s = s := by
  unfold frameSent
  rw [h]

/-- The front frame leaves, and the held NOTICE frames find the places that are then free. -/
theorem frameSent_front {f : UpFrame} {rest queue : List UpFrame} {held : List Notice} (h : s.lnu.queue = f :: rest)
    (filled : fillNotices rest s.ntu.held = (queue, held)) : frameSent s =
      { s with
        lnu := { s.lnu with queue := queue }, ntu := { s.ntu with held := held }
        out := { s.out with upstream := s.out.upstream ++ [f] } } := by
  have sent : frameSent s =
      placeHeld ((s.withLnu { s.lnu with queue := rest }).withOut { s.out with upstream := s.out.upstream ++ [f] }) := by
    unfold frameSent
    rw [h]
  rw [sent]
  unfold placeHeld
  dsimp only [State.withLnu, State.withOut, State.withNtu]
  rw [filled]

end

/-- Settles O55, command by command. -/
theorem theLineUnitTakesItsCommands : Obligations.TheLineUnitTakesItsCommands := by
  refine fun s => ⟨fun h => ⟨fun kind low high => ?known, fun kind out => ?unknown, fun same => ?same, fun other => ?other⟩,
    fun h => ⟨fun rate rest waits => ?rate, fun empty => ?empty, fun f rest front => ⟨fun still => ?still,
      fun n held waits places => ?placed⟩⟩⟩
  case known => rw [exec_unknownRequest h, if_pos ((isKnownRequest_iff kind).mpr ⟨low, high⟩)]
  case unknown => rw [exec_unknownRequest h, if_neg (by rw [isKnownRequest_iff]; omega)]
  case same => exact exec_eq_of_listens h rfl (lineRestart_same h same)
  case other => exact exec_eq_of_listens h rfl (lineRestart_other h other)
  case rate => exact exec_eq_of_running h rfl (rateChanged_next waits)
  case empty => exact exec_eq_of_running h rfl (frameSent_empty empty)
  case still => exact exec_eq_of_running h rfl (frameSent_front front (fillNotices_stays still))
  case placed => exact exec_eq_of_running h rfl (frameSent_front front (waits ▸ fillNotices_one n held places))

/-! ## The bytes of a command (R178, R187) -/

open Sys2Proof.Laws in
/-- The frame that carries a well-formed command fits the envelope and is sorted as that command. -/
theorem sorted_frameOf (i : Instr) : Form.Statement i := by
  cases i
  case powerOnReset => exact Form.powerOnReset _
  case parkInRelease => exact Form.parkInRelease
  case parkInAssert => exact Form.parkInAssert
  case stowInAssert => exact Form.stowInAssert
  case stowInRelease => exact Form.stowInRelease
  case frameDiscarded => exact Form.frameDiscarded _
  case consoleMove => exact Form.consoleMove _ _
  case consoleJog => exact Form.consoleJog _ _
  case consoleStop => exact Form.consoleStop _ _
  case consoleSelect => exact Form.consoleSelect _ _
  case consoleChannel => exact Form.consoleChannel _
  case consoleOtherKind => exact Form.consoleOtherKind _ _
  case accessoryFrame => exact Form.accessoryFrame _ _ _
  case position => exact Form.position _ _ _ _ _
  case wind => exact Form.wind _
  case slope => exact Form.slope _ _
  case driveFrameForward => exact Form.driveFrameForward _ _ _
  case ability => exact Form.ability _ _ _ _
  case choiceEcho => exact Form.choiceEcho _ _
  case ident => exact Form.ident _
  case report => exact Form.report _ _ _
  case inboundNoEffectPage => exact Form.inboundNoEffectPage _
  case malformedPage => exact Form.malformedPage
  case read => exact Form.read _ _ _
  case readSiteUp => exact Form.readSiteUp
  case readNotice => exact Form.readNotice _
  case write => exact Form.write _ _ _ _
  case writeZone => exact Form.writeZone _ _ _
  case writeDerateRow => exact Form.writeDerateRow _ _ _
  case writeVanAbilityWord => exact Form.writeVanAbilityWord _
  case writeEntrySetting => exact Form.writeEntrySetting _ _ _
  case writeEntryState => exact Form.writeEntryState _ _
  case writeWindSetting => exact Form.writeWindSetting _ _
  case unknownRequest => exact Form.unknownRequest _
  case deploy => exact Form.deploy _
  case stow => exact Form.stow
  case park => exact Form.park
  case wake => exact Form.wake
  case clearHold => exact Form.clearHold
  case acquire => exact Form.acquire _
  case release => exact Form.release
  case resume => exact Form.resume
  case dropResume => exact Form.dropResume
  case renegotiate => exact Form.renegotiate
  case txOn => exact Form.txOn
  case txOff => exact Form.txOff
  case lineRestart => exact Form.lineRestart
  case reset => exact Form.reset
  case rateChange => exact Form.rateChange
  case upstreamFrameSent => exact Form.upstreamFrameSent
  case arrivalTimeout => exact Form.arrivalTimeout _
  case silenceWatchExpiry => exact Form.silenceWatchExpiry _
  case deadmanExpiry => exact Form.deadmanExpiry _
  case slotTimerExpiry => exact Form.slotTimerExpiry
  case windSilenceExpiry => exact Form.windSilenceExpiry
  case slopeSilenceExpiry => exact Form.slopeSilenceExpiry
  case offerTimerExpiry => exact Form.offerTimerExpiry
  case echoTimerExpiry => exact Form.echoTimerExpiry
  case reportSilenceExpiry => exact Form.reportSilenceExpiry
  case quietTimeExpiry => exact Form.quietTimeExpiry
  case settleTimerExpiry => exact Form.settleTimerExpiry
  case linkWaitExpiry => exact Form.linkWaitExpiry
  case gapTimerExpiry => exact Form.gapTimerExpiry
  case rstRelease => exact Form.rstRelease

/-- Settles O60: the port finds the frame in its bytes, and sorts it as the command. -/
theorem bytesOfACommandAreThatCommand : Obligations.BytesOfACommandAreThatCommand := by
  intro i p f wf carried
  obtain ⟨sorted, short, addressed⟩ := sorted_frameOf i wf p f carried
  rw [receive_frame p f short addressed, sorted]

end Sys2Proof.Machine
end

section
/-! The step and the queue of waiting commands (log 1). -/

namespace Sys2Proof.Machine

/-! ## One equation of `step` for each shape of the queue -/

section
variable {s : State}

/-- An empty queue idles. -/
theorem step_of_pending_nil (empty : s.pending = []) : step s = .next s := by
  unfold step
  rw [empty]

/-- The front command leaves the queue before it acts, so that it finds the queue's rest waiting. -/
theorem step_of_pending_cons {c : Instr} {rest : List Instr} (front : s.pending = c :: rest) :
    step s = exec c (s.withPending rest) := by
  unfold step
  rw [front]

end

/-- Settles O1: the two shapes of the queue, each by its equation of `step`. -/
theorem stepTakesTheFrontCommand : Obligations.StepTakesTheFrontCommand := by
  constructor
  · intro c rest s front
    exact step_of_pending_cons front
  · intro s empty
    exact step_of_pending_nil empty

end Sys2Proof.Machine
end
